-- ==== Sys2Proof/Word.lean ====
section
/-! DEFINITION. The word types of SPUR (spec/00_scope.md R7, R9, R14). -/

namespace Sys2Proof

/-- A 32-bit word (R14). -/
abbrev Word := BitVec 32

/-- A byte of memory (R70). -/
abbrev Byte := BitVec 8

/-- An 8-byte doubleword (R14); bits [31:0] are the word at the lower address (R70). -/
abbrev DWord := BitVec 64

/-- A 38-bit global virtual address (R65). -/
abbrev GlobalAddr := BitVec 38

/-- A 5-bit register field (R122). -/
abbrev RegField := BitVec 5

/-- A 40-bit integer register value: the tag byte and the 32 data bits (R10). -/
structure Tagged where
  /-- the tag byte: generation in [7:6], type tag in [5:0] (R24) -/
  taggen : BitVec 8
  /-- the data part -/
  data : Word
  deriving DecidableEq, Repr

end Sys2Proof
end

