-- ==== Sys2Proof/Config.lean ====
section
/-! DEFINITION. The free values of the model: constants with no body, so that nothing can be proved of
their value. The spec's `any value` (spec/93_implementation_defined.md) is one of these (log 6). -/

namespace Sys2Proof

/-- An `any value` of width `w`, the `n`-th one (log 6). -/
opaque Config.free (w n : Nat) : BitVec w

/-- How an address selects a block of the instruction buffer: "how an address selects a block is not
stated" (R62, log 15). -/
opaque Config.ibBlock (block : BitVec 27) : BitVec 4

/-- How many events counter `which` of the cache controller counts in step `n`: parameter
CC_COUNTER_EVENTS is OPEN (R375, log 28). -/
opaque Config.counterEvents (which n : Nat) : Nat

/-- `WindowOverflow` over CWP and SWP, where it need not be the default of D8 (R8, R356, log 7). -/
opaque Config.windowOverflow (cwp : BitVec 3) (swp : BitVec 29) : Bool

/-- `WindowUnderflow` over CWP and SWP, where it need not be the default of D8 (R8, R356, log 7). -/
opaque Config.windowUnderflow (cwp : BitVec 3) (swp : BitVec 29) : Bool

/-- By how much the watchdog's period exceeds the least that R440 allows: parameter BUS_TIMEOUT_CYCLES is OPEN (log 34). -/
opaque Config.busTimeoutExtra : Nat

/-- The cycles after which the master of a write for invalidation ends it: parameter WFI_CYCLES is OPEN (R452, log 34). -/
opaque Config.wfiCycles : Nat

end Sys2Proof
end

