-- ==== Sys2Proof/Syntax.lean ====
section
/-! DEFINITION. The instructions of SPUR, one constructor per row of spec/opcode_table.json, with the operands
the hardware examines: fields the source writes as "0" or "unused" are ignored by the decoder (R135, U11). -/

namespace Sys2Proof

/-- The second operand `RC`: a register or a 14-bit signed immediate (R126). -/
inductive RC where
  | reg (s2 : RegField)
  | imm (v : BitVec 14)
  deriving DecidableEq, Repr

/-- The compare operand `CC`: a register or a 5-bit unsigned immediate (R128). -/
inductive CC where
  | reg (s2 : RegField)
  | imm (v : BitVec 5)
  deriving DecidableEq, Repr

/-- The instruction set (R133). Field names: `d` dest, `s1` src1, `s2` src2, `sc` store constant (R127),
`tc` tag constant (R129), `off` word offset (R130; in CMP_TRAP and TAG_CMP_TRAP the number left for the trap
handler), `n` special register number, `addr` word address (R131). -/
inductive Instr where
  -- Loads (spec/40_loads.md)
  | ld40 (d s1 : RegField) (rc : RC)
  | ld40Ro (d s1 : RegField) (rc : RC)
  | cxr (d s1 : RegField) (rc : RC)
  | cxrRo (d s1 : RegField) (rc : RC)
  | ld32 (d s1 : RegField) (rc : RC)
  | ld32Ro (d s1 : RegField) (rc : RC)
  | ld32Ra (d s1 : RegField) (rc : RC)
  | testAndSet (d s1 : RegField) (rc : RC)
  | ldCache (d s1 : RegField) (rc : RC)
  | fromFpu (d s2 : RegField)
  | ldSgl (d s1 : RegField) (rc : RC)
  | ldSglRo (d s1 : RegField) (rc : RC)
  | ldDbl (d s1 : RegField) (rc : RC)
  | ldDblRo (d s1 : RegField) (rc : RC)
  | ldExt1 (d s1 : RegField) (rc : RC)
  | ldExt1Ro (d s1 : RegField) (rc : RC)
  | ldExt2 (d s1 : RegField) (rc : RC)
  | ldExt2Ro (d s1 : RegField) (rc : RC)
  | ldInt (d s1 : RegField) (rc : RC)
  | ldIntRo (d s1 : RegField) (rc : RC)
  -- Stores (spec/41_stores.md)
  | st40 (s2 s1 : RegField) (sc : BitVec 14)
  | st32 (s2 s1 : RegField) (sc : BitVec 14)
  | stCache (s2 s1 : RegField) (sc : BitVec 14)
  | toFpu (s2 d : RegField)
  | stSgl (s2 s1 : RegField) (sc : BitVec 14)
  | stDbl (s2 s1 : RegField) (sc : BitVec 14)
  | stExt1 (s2 s1 : RegField) (sc : BitVec 14)
  | stExt2 (s2 s1 : RegField) (sc : BitVec 14)
  | stInt (s2 s1 : RegField) (sc : BitVec 14)
  -- Register operations (spec/42_register_ops.md)
  | addNt (d s1 : RegField) (rc : RC)
  | add (d s1 : RegField) (rc : RC)
  | sub (d s1 : RegField) (rc : RC)
  | and (d s1 : RegField) (rc : RC)
  | or (d s1 : RegField) (rc : RC)
  | xor (d s1 : RegField) (rc : RC)
  | sll (d s1 : RegField) (rc : RC)
  | sra (d s1 : RegField) (rc : RC)
  | srl (d s1 : RegField) (rc : RC)
  | rdTag (d s1 : RegField)
  | extract (d s1 : RegField) (rc : RC)
  | wrTag (d s1 : RegField) (rc : RC)
  | insert (d s1 : RegField) (rc : RC)
  -- Special registers (spec/43_special.md)
  | rdSpecial (d s1 : RegField)
  | rdInsert (d : RegField)
  | rdKpsw (d : RegField)
  | wrSpecial (n s1 : RegField) (rc : RC)
  | wrInsert (rc : RC)
  | wrKpsw (s1 : RegField) (rc : RC)
  | sync
  | invalidateIb
  -- Compares (spec/44_compare_branch.md)
  | cmpBrDelayed (cond s1 : RegField) (cc : CC) (off : BitVec 9)
  | tagCmpBrDelayed (cond s1 : RegField) (tc : BitVec 6) (off : BitVec 9)
  | fpCmpBrDelayed (cond s1 s2 : RegField) (off : BitVec 9)
  | cmpBrTrue (cond s1 : RegField) (cc : CC) (off : BitVec 9)
  | tagCmpBrTrue (cond s1 : RegField) (tc : BitVec 6) (off : BitVec 9)
  | fpCmpBrTrue (cond s1 s2 : RegField) (off : BitVec 9)
  | cmpTrap (cond s1 : RegField) (cc : CC) (off : BitVec 9)
  | tagCmpTrap (cond s1 : RegField) (tc : BitVec 6) (off : BitVec 9)
  -- Jump through a register, kernel call and returns (spec/45_call_jump.md)
  | jumpReg (s1 : RegField) (rc : RC)
  | callKernel
  | ret (s1 : RegField) (rc : RC)
  | retTrap (s1 : RegField) (rc : RC)
  | retKernel (s1 : RegField) (rc : RC)
  -- Floating point (spec/46_floating_point.md)
  | fadd (d s1 s2 : RegField)
  | fsub (d s1 s2 : RegField)
  | fmul (d s1 s2 : RegField)
  | fdiv (d s1 s2 : RegField)
  | fmov (d s1 : RegField)
  | fabs (d s1 : RegField)
  | fneg (d s1 : RegField)
  | float (d s1 : RegField)
  | fix (d s1 : RegField)
  | cvts (d s1 : RegField)
  | cvtd (d s1 : RegField)
  -- Jump and call (spec/45_call_jump.md)
  | jump (addr : BitVec 28)
  | call (addr : BitVec 28)
  deriving DecidableEq, Repr

end Sys2Proof
end

