-- ==== Sys2Proof/WellFormed.lean ====
section
/-! DEFINITION. Which instructions the spec gives an effect: the checks that an encoding of an assigned opcode can
still fail. The decoder accepts an ill-formed operand; the meaning then refuses by name (R174, R234, R264, R308). -/

namespace Sys2Proof

/-- The field names an FPU data register, 0 to 14 (R47, R51). -/
def isFpuDataField (r : RegField) : Bool := decide (r.toNat < 15)

/-- The field names an FPU register, data or PSW, 0 to 15 (R47). -/
def isFpuField (r : RegField) : Bool := decide (r.toNat < 16)

/-- The condition code has a row in the data compare table (R251, R264). -/
def isDataCond (c : BitVec 5) : Bool := decide (c.toNat < 16) || c == 0x1E#5 || c == 0x1F#5

/-- The condition code has a row in the tag compare table (R252, R264). -/
def isTagCond (c : BitVec 5) : Bool := c == 0x0C#5 || c == 0x0D#5 || c == 0x1C#5 || c == 0x1D#5

/-- The number names a special register WR_SPECIAL may write (R234). -/
def isWritableSpecial (n : RegField) : Bool := n == 1#5 || n == 2#5 || n == 3#5 || n == 5#5

/-- The operands of an instruction are ones the spec gives a meaning. -/
def Instr.wellFormed : Instr → Bool
  | .ld40 _ _ _ => true
  | .ld40Ro _ _ _ => true
  | .cxr _ _ _ => true
  | .cxrRo _ _ _ => true
  | .ld32 _ _ _ => true
  | .ld32Ro _ _ _ => true
  | .ld32Ra _ _ _ => true
  | .testAndSet _ _ _ => true
  | .ldCache _ _ _ => true
  | .fromFpu _ s2 => isFpuField s2
  | .ldSgl d _ _ => isFpuDataField d
  | .ldSglRo d _ _ => isFpuDataField d
  | .ldDbl d _ _ => isFpuDataField d
  | .ldDblRo d _ _ => isFpuDataField d
  | .ldExt1 d _ _ => isFpuDataField d
  | .ldExt1Ro d _ _ => isFpuDataField d
  | .ldExt2 d _ _ => isFpuDataField d
  | .ldExt2Ro d _ _ => isFpuDataField d
  | .ldInt d _ _ => isFpuDataField d
  | .ldIntRo d _ _ => isFpuDataField d
  | .st40 _ _ _ => true
  | .st32 _ _ _ => true
  | .stCache _ _ _ => true
  | .toFpu _ d => isFpuField d
  | .stSgl s2 _ _ => isFpuDataField s2
  | .stDbl s2 _ _ => isFpuDataField s2
  | .stExt1 s2 _ _ => isFpuDataField s2
  | .stExt2 s2 _ _ => isFpuDataField s2
  | .stInt s2 _ _ => isFpuDataField s2
  | .addNt _ _ _ => true
  | .add _ _ _ => true
  | .sub _ _ _ => true
  | .and _ _ _ => true
  | .or _ _ _ => true
  | .xor _ _ _ => true
  | .sll _ _ _ => true
  | .sra _ _ _ => true
  | .srl _ _ _ => true
  | .rdTag _ _ => true
  | .extract _ _ _ => true
  | .wrTag _ _ _ => true
  | .insert _ _ _ => true
  | .rdSpecial _ _ => true
  | .rdInsert _ => true
  | .rdKpsw _ => true
  | .wrSpecial n _ _ => isWritableSpecial n
  | .wrInsert _ => true
  | .wrKpsw _ _ => true
  | .sync => true
  | .invalidateIb => true
  | .cmpBrDelayed cond _ _ _ => isDataCond cond
  | .tagCmpBrDelayed cond _ _ _ => isTagCond cond
  | .fpCmpBrDelayed _ s1 s2 _ => isFpuDataField s1 && isFpuDataField s2
  | .cmpBrTrue cond _ _ _ => isDataCond cond
  | .tagCmpBrTrue cond _ _ _ => isTagCond cond
  | .fpCmpBrTrue _ s1 s2 _ => isFpuDataField s1 && isFpuDataField s2
  | .cmpTrap cond _ _ _ => isDataCond cond
  | .tagCmpTrap cond _ _ _ => isTagCond cond
  | .jumpReg _ _ => true
  | .callKernel => true
  | .ret _ _ => true
  | .retTrap _ _ => true
  | .retKernel _ _ => true
  | .fadd d s1 s2 => isFpuDataField d && isFpuDataField s1 && isFpuDataField s2
  | .fsub d s1 s2 => isFpuDataField d && isFpuDataField s1 && isFpuDataField s2
  | .fmul d s1 s2 => isFpuDataField d && isFpuDataField s1 && isFpuDataField s2
  | .fdiv d s1 s2 => isFpuDataField d && isFpuDataField s1 && isFpuDataField s2
  | .fmov d s1 => isFpuDataField d && isFpuDataField s1
  | .fabs d s1 => isFpuDataField d && isFpuDataField s1
  | .fneg d s1 => isFpuDataField d && isFpuDataField s1
  | .float d s1 => isFpuDataField d && isFpuDataField s1
  | .fix d s1 => isFpuDataField d && isFpuDataField s1
  | .cvts d s1 => isFpuDataField d && isFpuDataField s1
  | .cvtd d s1 => isFpuDataField d && isFpuDataField s1
  | .jump _ => true
  | .call _ => true

end Sys2Proof
end

