-- ==== Sys2Proof/Decode.lean ====
section
/-! DEFINITION. The decoder (R120 to R136), total on any word, and the encoder written from the same formats. -/

namespace Sys2Proof

/-- Why a word is no instruction. -/
inductive DecodeError where
  /-- `op7` has no row in the opcode map: the illegal opcode exception (R134) -/
  | illegalOpcode
  /-- an assigned opcode whose bit 14 has the value its format excludes: a reserved encoding (R134, U27) -/
  | reservedBit14
  deriving DecidableEq, Repr

/-- The opcodes of the seven-bit map (R133); JUMP and CALL have a four-bit opcode of their own (R122). -/
inductive Op where
  | ld40 | ld40Ro | cxr | cxrRo | ld32 | ld32Ro | ld32Ra | testAndSet | ldCache | fromFpu | ldSgl
  | ldSglRo | ldDbl | ldDblRo | ldExt1 | ldExt1Ro | ldExt2 | ldExt2Ro | ldInt | ldIntRo | st40 | st32
  | stCache | toFpu | stSgl | stDbl | stExt1 | stExt2 | stInt | addNt | add | sub | and | or | xor
  | sll | sra | srl | rdTag | extract | wrTag | insert | rdSpecial | rdInsert | rdKpsw | wrSpecial
  | wrInsert | wrKpsw | sync | invalidateIb | cmpBrDelayed | tagCmpBrDelayed | fpCmpBrDelayed | cmpBrTrue
  | tagCmpBrTrue | fpCmpBrTrue | cmpTrap | tagCmpTrap | jumpReg | callKernel | ret | retTrap | retKernel
  | fadd | fsub | fmul | fdiv | fmov | fabs | fneg | float | fix | cvts | cvtd
  deriving DecidableEq, Repr

/-- The seven-bit opcode number: parameter OPCODE_MAP (R133, log 7). -/
def opBits : Op → BitVec 7
  | .ld40 => 0x01#7
  | .ld40Ro => 0x02#7
  | .cxr => 0x03#7
  | .cxrRo => 0x04#7
  | .ld32 => 0x05#7
  | .ld32Ro => 0x06#7
  | .ld32Ra => 0x07#7
  | .testAndSet => 0x08#7
  | .ldCache => 0x09#7
  | .fromFpu => 0x0A#7
  | .ldSgl => 0x0B#7
  | .ldSglRo => 0x0C#7
  | .ldDbl => 0x0D#7
  | .ldDblRo => 0x0E#7
  | .ldExt1 => 0x0F#7
  | .ldExt1Ro => 0x10#7
  | .ldExt2 => 0x11#7
  | .ldExt2Ro => 0x12#7
  | .ldInt => 0x13#7
  | .ldIntRo => 0x14#7
  | .st40 => 0x18#7
  | .st32 => 0x19#7
  | .stCache => 0x1A#7
  | .toFpu => 0x1B#7
  | .stSgl => 0x1C#7
  | .stDbl => 0x1D#7
  | .stExt1 => 0x1E#7
  | .stExt2 => 0x1F#7
  | .stInt => 0x20#7
  | .addNt => 0x28#7
  | .add => 0x29#7
  | .sub => 0x2A#7
  | .and => 0x2B#7
  | .or => 0x2C#7
  | .xor => 0x2D#7
  | .sll => 0x2E#7
  | .sra => 0x2F#7
  | .srl => 0x30#7
  | .rdTag => 0x31#7
  | .extract => 0x32#7
  | .wrTag => 0x33#7
  | .insert => 0x34#7
  | .rdSpecial => 0x38#7
  | .rdInsert => 0x39#7
  | .rdKpsw => 0x3A#7
  | .wrSpecial => 0x3B#7
  | .wrInsert => 0x3C#7
  | .wrKpsw => 0x3D#7
  | .sync => 0x3E#7
  | .invalidateIb => 0x3F#7
  | .cmpBrDelayed => 0x40#7
  | .tagCmpBrDelayed => 0x41#7
  | .fpCmpBrDelayed => 0x42#7
  | .cmpBrTrue => 0x43#7
  | .tagCmpBrTrue => 0x44#7
  | .fpCmpBrTrue => 0x45#7
  | .cmpTrap => 0x46#7
  | .tagCmpTrap => 0x47#7
  | .jumpReg => 0x48#7
  | .callKernel => 0x49#7
  | .ret => 0x4A#7
  | .retTrap => 0x4B#7
  | .retKernel => 0x4C#7
  | .fadd => 0x50#7
  | .fsub => 0x51#7
  | .fmul => 0x52#7
  | .fdiv => 0x53#7
  | .fmov => 0x54#7
  | .fabs => 0x55#7
  | .fneg => 0x56#7
  | .float => 0x57#7
  | .fix => 0x58#7
  | .cvts => 0x59#7
  | .cvtd => 0x5A#7

/-- The opcodes of one table of R133. -/
def opsLoads : List Op :=
  [.ld40, .ld40Ro, .cxr, .cxrRo, .ld32, .ld32Ro, .ld32Ra, .testAndSet,
   .ldCache, .fromFpu, .ldSgl, .ldSglRo, .ldDbl, .ldDblRo, .ldExt1, .ldExt1Ro,
   .ldExt2, .ldExt2Ro, .ldInt, .ldIntRo]

/-- The opcodes of one table of R133. -/
def opsStores : List Op :=
  [.st40, .st32, .stCache, .toFpu, .stSgl, .stDbl, .stExt1, .stExt2,
   .stInt]

/-- The opcodes of one table of R133. -/
def opsRegisterOps : List Op :=
  [.addNt, .add, .sub, .and, .or, .xor, .sll, .sra,
   .srl, .rdTag, .extract, .wrTag, .insert]

/-- The opcodes of one table of R133. -/
def opsSpecials : List Op :=
  [.rdSpecial, .rdInsert, .rdKpsw, .wrSpecial, .wrInsert, .wrKpsw, .sync, .invalidateIb]

/-- The opcodes of one table of R133. -/
def opsCompares : List Op :=
  [.cmpBrDelayed, .tagCmpBrDelayed, .fpCmpBrDelayed, .cmpBrTrue, .tagCmpBrTrue, .fpCmpBrTrue, .cmpTrap, .tagCmpTrap]

/-- The opcodes of one table of R133. -/
def opsTransfers : List Op :=
  [.jumpReg, .callKernel, .ret, .retTrap, .retKernel]

/-- The opcodes of one table of R133. -/
def opsFloats : List Op :=
  [.fadd, .fsub, .fmul, .fdiv, .fmov, .fabs, .fneg, .float,
   .fix, .cvts, .cvtd]

/-- Every row of R133 but JUMP and CALL. -/
def allOps : List Op :=
  opsLoads ++ opsStores ++ opsRegisterOps ++ opsSpecials ++ opsCompares ++ opsTransfers ++ opsFloats

/-- The row of R133 that `op7` selects, if any (R136 step 2). -/
def opOf (b : BitVec 7) : Option Op := allOps.find? (fun o => opBits o == b)

/-- `op7 = I[31:25]` (R122). -/
def fieldOp (w : Word) : BitVec 7 := w.extractLsb' 25 7
/-- `d = I[24:20]`: dest, imm high or cond (R122). -/
def fieldD (w : Word) : RegField := w.extractLsb' 20 5
/-- `s1 = I[19:15]` (R122). -/
def fieldS1 (w : Word) : RegField := w.extractLsb' 15 5
/-- `imm_sel = I[14]` (R122). -/
def fieldSel (w : Word) : Bool := w.getLsbD 14
/-- `s2 = I[13:09]` (R122). -/
def fieldS2 (w : Word) : RegField := w.extractLsb' 9 5
/-- The 14-bit immediate `I[13:00]` (R121). -/
def fieldImm (w : Word) : BitVec 14 := w.extractLsb' 0 14
/-- The word offset, or imm low, `I[08:00]` (R121). -/
def fieldOff (w : Word) : BitVec 9 := w.extractLsb' 0 9
/-- The tag constant `I[14:09]` (R129). -/
def fieldTc (w : Word) : BitVec 6 := w.extractLsb' 9 6

/-- `RC` (R126). -/
def fieldRC (w : Word) : RC := if fieldSel w then .imm (fieldImm w) else .reg (fieldS2 w)
/-- `CC` (R128). -/
def fieldCC (w : Word) : CC := if fieldSel w then .imm (fieldS2 w) else .reg (fieldS2 w)
/-- The 14-bit store constant, imm high @ imm low (R127). -/
def fieldSC (w : Word) : BitVec 14 := fieldD w ++ fieldOff w

/-- A format that fixes bit 14 at 1: the stores (R121, R134). -/
def needSet (w : Word) (i : Instr) : Except DecodeError Instr :=
  if fieldSel w then .ok i else .error .reservedBit14

/-- A format that fixes bit 14 at 0: FROM_FPU, FP compares, FPU operations (R134). -/
def needClear (w : Word) (i : Instr) : Except DecodeError Instr :=
  if fieldSel w then .error .reservedBit14 else .ok i

/-- The instruction of an opcode's row, its fields read by the row's format (R136 step 3). -/
def decodeOp (o : Op) (w : Word) : Except DecodeError Instr :=
  match o with
  | .ld40 => .ok (.ld40 (fieldD w) (fieldS1 w) (fieldRC w))
  | .ld40Ro => .ok (.ld40Ro (fieldD w) (fieldS1 w) (fieldRC w))
  | .cxr => .ok (.cxr (fieldD w) (fieldS1 w) (fieldRC w))
  | .cxrRo => .ok (.cxrRo (fieldD w) (fieldS1 w) (fieldRC w))
  | .ld32 => .ok (.ld32 (fieldD w) (fieldS1 w) (fieldRC w))
  | .ld32Ro => .ok (.ld32Ro (fieldD w) (fieldS1 w) (fieldRC w))
  | .ld32Ra => .ok (.ld32Ra (fieldD w) (fieldS1 w) (fieldRC w))
  | .testAndSet => .ok (.testAndSet (fieldD w) (fieldS1 w) (fieldRC w))
  | .ldCache => .ok (.ldCache (fieldD w) (fieldS1 w) (fieldRC w))
  | .fromFpu => needClear w (.fromFpu (fieldD w) (fieldS2 w))
  | .ldSgl => .ok (.ldSgl (fieldD w) (fieldS1 w) (fieldRC w))
  | .ldSglRo => .ok (.ldSglRo (fieldD w) (fieldS1 w) (fieldRC w))
  | .ldDbl => .ok (.ldDbl (fieldD w) (fieldS1 w) (fieldRC w))
  | .ldDblRo => .ok (.ldDblRo (fieldD w) (fieldS1 w) (fieldRC w))
  | .ldExt1 => .ok (.ldExt1 (fieldD w) (fieldS1 w) (fieldRC w))
  | .ldExt1Ro => .ok (.ldExt1Ro (fieldD w) (fieldS1 w) (fieldRC w))
  | .ldExt2 => .ok (.ldExt2 (fieldD w) (fieldS1 w) (fieldRC w))
  | .ldExt2Ro => .ok (.ldExt2Ro (fieldD w) (fieldS1 w) (fieldRC w))
  | .ldInt => .ok (.ldInt (fieldD w) (fieldS1 w) (fieldRC w))
  | .ldIntRo => .ok (.ldIntRo (fieldD w) (fieldS1 w) (fieldRC w))
  | .st40 => needSet w (.st40 (fieldS2 w) (fieldS1 w) (fieldSC w))
  | .st32 => needSet w (.st32 (fieldS2 w) (fieldS1 w) (fieldSC w))
  | .stCache => needSet w (.stCache (fieldS2 w) (fieldS1 w) (fieldSC w))
  | .toFpu => needSet w (.toFpu (fieldS2 w) (fieldD w))
  | .stSgl => needSet w (.stSgl (fieldS2 w) (fieldS1 w) (fieldSC w))
  | .stDbl => needSet w (.stDbl (fieldS2 w) (fieldS1 w) (fieldSC w))
  | .stExt1 => needSet w (.stExt1 (fieldS2 w) (fieldS1 w) (fieldSC w))
  | .stExt2 => needSet w (.stExt2 (fieldS2 w) (fieldS1 w) (fieldSC w))
  | .stInt => needSet w (.stInt (fieldS2 w) (fieldS1 w) (fieldSC w))
  | .addNt => .ok (.addNt (fieldD w) (fieldS1 w) (fieldRC w))
  | .add => .ok (.add (fieldD w) (fieldS1 w) (fieldRC w))
  | .sub => .ok (.sub (fieldD w) (fieldS1 w) (fieldRC w))
  | .and => .ok (.and (fieldD w) (fieldS1 w) (fieldRC w))
  | .or => .ok (.or (fieldD w) (fieldS1 w) (fieldRC w))
  | .xor => .ok (.xor (fieldD w) (fieldS1 w) (fieldRC w))
  | .sll => .ok (.sll (fieldD w) (fieldS1 w) (fieldRC w))
  | .sra => .ok (.sra (fieldD w) (fieldS1 w) (fieldRC w))
  | .srl => .ok (.srl (fieldD w) (fieldS1 w) (fieldRC w))
  | .rdTag => .ok (.rdTag (fieldD w) (fieldS1 w))
  | .extract => .ok (.extract (fieldD w) (fieldS1 w) (fieldRC w))
  | .wrTag => .ok (.wrTag (fieldD w) (fieldS1 w) (fieldRC w))
  | .insert => .ok (.insert (fieldD w) (fieldS1 w) (fieldRC w))
  | .rdSpecial => .ok (.rdSpecial (fieldD w) (fieldS1 w))
  | .rdInsert => .ok (.rdInsert (fieldD w))
  | .rdKpsw => .ok (.rdKpsw (fieldD w))
  | .wrSpecial => .ok (.wrSpecial (fieldD w) (fieldS1 w) (fieldRC w))
  | .wrInsert => .ok (.wrInsert (fieldRC w))
  | .wrKpsw => .ok (.wrKpsw (fieldS1 w) (fieldRC w))
  | .sync => .ok .sync
  | .invalidateIb => .ok .invalidateIb
  | .cmpBrDelayed => .ok (.cmpBrDelayed (fieldD w) (fieldS1 w) (fieldCC w) (fieldOff w))
  | .tagCmpBrDelayed => .ok (.tagCmpBrDelayed (fieldD w) (fieldS1 w) (fieldTc w) (fieldOff w))
  | .fpCmpBrDelayed => needClear w (.fpCmpBrDelayed (fieldD w) (fieldS1 w) (fieldS2 w) (fieldOff w))
  | .cmpBrTrue => .ok (.cmpBrTrue (fieldD w) (fieldS1 w) (fieldCC w) (fieldOff w))
  | .tagCmpBrTrue => .ok (.tagCmpBrTrue (fieldD w) (fieldS1 w) (fieldTc w) (fieldOff w))
  | .fpCmpBrTrue => needClear w (.fpCmpBrTrue (fieldD w) (fieldS1 w) (fieldS2 w) (fieldOff w))
  | .cmpTrap => .ok (.cmpTrap (fieldD w) (fieldS1 w) (fieldCC w) (fieldOff w))
  | .tagCmpTrap => .ok (.tagCmpTrap (fieldD w) (fieldS1 w) (fieldTc w) (fieldOff w))
  | .jumpReg => .ok (.jumpReg (fieldS1 w) (fieldRC w))
  | .callKernel => .ok .callKernel
  | .ret => .ok (.ret (fieldS1 w) (fieldRC w))
  | .retTrap => .ok (.retTrap (fieldS1 w) (fieldRC w))
  | .retKernel => .ok (.retKernel (fieldS1 w) (fieldRC w))
  | .fadd => needClear w (.fadd (fieldD w) (fieldS1 w) (fieldS2 w))
  | .fsub => needClear w (.fsub (fieldD w) (fieldS1 w) (fieldS2 w))
  | .fmul => needClear w (.fmul (fieldD w) (fieldS1 w) (fieldS2 w))
  | .fdiv => needClear w (.fdiv (fieldD w) (fieldS1 w) (fieldS2 w))
  | .fmov => needClear w (.fmov (fieldD w) (fieldS1 w))
  | .fabs => needClear w (.fabs (fieldD w) (fieldS1 w))
  | .fneg => needClear w (.fneg (fieldD w) (fieldS1 w))
  | .float => needClear w (.float (fieldD w) (fieldS1 w))
  | .fix => needClear w (.fix (fieldD w) (fieldS1 w))
  | .cvts => needClear w (.cvts (fieldD w) (fieldS1 w))
  | .cvtd => needClear w (.cvtd (fieldD w) (fieldS1 w))

/-- The decoder, step by step as R136: JUMP and CALL by `I[31:28]`, else the row of `op7`. -/
def decode (w : Word) : Except DecodeError Instr :=
  if w.extractLsb' 28 4 = 0xC#4 then .ok (.jump (w.extractLsb' 0 28))
  else if w.extractLsb' 28 4 = 0xE#4 then .ok (.call (w.extractLsb' 0 28))
  else match opOf (fieldOp w) with
    | none => .error .illegalOpcode
    | some o => decodeOp o w

/-- Byte `k` of a word: bits [8k+7:8k] (R70). -/
def wordByte (w : Word) (k : Nat) : Byte := w.extractLsb' (8 * k) 8

/-- The word whose bytes, at rising addresses, are given: little-endian (R70). -/
def wordOfBytes (b0 b1 b2 b3 : Byte) : Word := b3 ++ b2 ++ b1 ++ b0

/-- The instruction read from an instruction given as its `nbits` low bits, bits above them 0: the word's bytes are
laid out little-endian (R70, R120) and read back as fetch reads them. -/
def decodeTableWord (nbits w : Nat) : Option Instr :=
  let v : Word := BitVec.ofNat 32 (w % 2 ^ nbits)
  match decode (wordOfBytes (wordByte v 0) (wordByte v 1) (wordByte v 2) (wordByte v 3)) with
  | .ok i => some i
  | .error _ => none

/-! The encoder (R121). Unused fields are written 0 (R135). -/

/-- RRR: opcode, dest, src1, 0, src2, unused. -/
def encRRR (o : Op) (d s1 s2 : RegField) : Word := opBits o ++ d ++ s1 ++ 0#1 ++ s2 ++ 0#9
/-- RRI: opcode, dest, src1, 1, immediate. -/
def encRRI (o : Op) (d s1 : RegField) (v : BitVec 14) : Word := opBits o ++ d ++ s1 ++ 1#1 ++ v
/-- RRR or RRI, by the second operand (R126). -/
def encRC (o : Op) (d s1 : RegField) : RC → Word
  | .reg s2 => encRRR o d s1 s2
  | .imm v => encRRI o d s1 v
/-- store: opcode, imm high, src1, 1, src2, imm low. -/
def encStore (o : Op) (hi s1 s2 : RegField) (lo : BitVec 9) : Word := opBits o ++ hi ++ s1 ++ 1#1 ++ s2 ++ lo
/-- A store with its constant split (R127). -/
def encSC (o : Op) (s2 s1 : RegField) (sc : BitVec 14) : Word :=
  encStore o (sc.extractLsb' 9 5) s1 s2 (sc.extractLsb' 0 9)
/-- compare RR: opcode, cond, src1, 0, src2, word offset. -/
def encCmpRR (o : Op) (cond s1 s2 : RegField) (off : BitVec 9) : Word :=
  opBits o ++ cond ++ s1 ++ 0#1 ++ s2 ++ off
/-- compare RR or RI, by the compare operand (R128). -/
def encCC (o : Op) (cond s1 : RegField) (off : BitVec 9) : CC → Word
  | .reg s2 => encCmpRR o cond s1 s2 off
  | .imm v => opBits o ++ cond ++ s1 ++ 1#1 ++ v ++ off
/-- compare tag: opcode, cond, src1, tag imm, word offset. -/
def encTC (o : Op) (cond s1 : RegField) (tc : BitVec 6) (off : BitVec 9) : Word :=
  opBits o ++ cond ++ s1 ++ tc ++ off
/-- jump, call: op, word address. -/
def encJump (op : BitVec 4) (addr : BitVec 28) : Word := op ++ addr

/-- The word of an instruction, as an assembler writes it (R121, R135). -/
def encode : Instr → Word
  | .ld40 d s1 rc => encRC .ld40 d s1 rc
  | .ld40Ro d s1 rc => encRC .ld40Ro d s1 rc
  | .cxr d s1 rc => encRC .cxr d s1 rc
  | .cxrRo d s1 rc => encRC .cxrRo d s1 rc
  | .ld32 d s1 rc => encRC .ld32 d s1 rc
  | .ld32Ro d s1 rc => encRC .ld32Ro d s1 rc
  | .ld32Ra d s1 rc => encRC .ld32Ra d s1 rc
  | .testAndSet d s1 rc => encRC .testAndSet d s1 rc
  | .ldCache d s1 rc => encRC .ldCache d s1 rc
  | .fromFpu d s2 => encRRR .fromFpu d 0#5 s2
  | .ldSgl d s1 rc => encRC .ldSgl d s1 rc
  | .ldSglRo d s1 rc => encRC .ldSglRo d s1 rc
  | .ldDbl d s1 rc => encRC .ldDbl d s1 rc
  | .ldDblRo d s1 rc => encRC .ldDblRo d s1 rc
  | .ldExt1 d s1 rc => encRC .ldExt1 d s1 rc
  | .ldExt1Ro d s1 rc => encRC .ldExt1Ro d s1 rc
  | .ldExt2 d s1 rc => encRC .ldExt2 d s1 rc
  | .ldExt2Ro d s1 rc => encRC .ldExt2Ro d s1 rc
  | .ldInt d s1 rc => encRC .ldInt d s1 rc
  | .ldIntRo d s1 rc => encRC .ldIntRo d s1 rc
  | .st40 s2 s1 sc => encSC .st40 s2 s1 sc
  | .st32 s2 s1 sc => encSC .st32 s2 s1 sc
  | .stCache s2 s1 sc => encSC .stCache s2 s1 sc
  | .toFpu s2 d => encStore .toFpu d 0#5 s2 0#9
  | .stSgl s2 s1 sc => encSC .stSgl s2 s1 sc
  | .stDbl s2 s1 sc => encSC .stDbl s2 s1 sc
  | .stExt1 s2 s1 sc => encSC .stExt1 s2 s1 sc
  | .stExt2 s2 s1 sc => encSC .stExt2 s2 s1 sc
  | .stInt s2 s1 sc => encSC .stInt s2 s1 sc
  | .addNt d s1 rc => encRC .addNt d s1 rc
  | .add d s1 rc => encRC .add d s1 rc
  | .sub d s1 rc => encRC .sub d s1 rc
  | .and d s1 rc => encRC .and d s1 rc
  | .or d s1 rc => encRC .or d s1 rc
  | .xor d s1 rc => encRC .xor d s1 rc
  | .sll d s1 rc => encRC .sll d s1 rc
  | .sra d s1 rc => encRC .sra d s1 rc
  | .srl d s1 rc => encRC .srl d s1 rc
  | .rdTag d s1 => encRRR .rdTag d s1 0#5
  | .extract d s1 rc => encRC .extract d s1 rc
  | .wrTag d s1 rc => encRC .wrTag d s1 rc
  | .insert d s1 rc => encRC .insert d s1 rc
  | .rdSpecial d s1 => encRRR .rdSpecial d s1 0#5
  | .rdInsert d => encRRR .rdInsert d 0#5 0#5
  | .rdKpsw d => encRRR .rdKpsw d 0#5 0#5
  | .wrSpecial n s1 rc => encRC .wrSpecial n s1 rc
  | .wrInsert rc => encRC .wrInsert 0#5 0#5 rc
  | .wrKpsw s1 rc => encRC .wrKpsw 0#5 s1 rc
  | .sync => encRRR .sync 0#5 0#5 0#5
  | .invalidateIb => encRRR .invalidateIb 0#5 0#5 0#5
  | .cmpBrDelayed cond s1 cc off => encCC .cmpBrDelayed cond s1 off cc
  | .tagCmpBrDelayed cond s1 tc off => encTC .tagCmpBrDelayed cond s1 tc off
  | .fpCmpBrDelayed cond s1 s2 off => encCmpRR .fpCmpBrDelayed cond s1 s2 off
  | .cmpBrTrue cond s1 cc off => encCC .cmpBrTrue cond s1 off cc
  | .tagCmpBrTrue cond s1 tc off => encTC .tagCmpBrTrue cond s1 tc off
  | .fpCmpBrTrue cond s1 s2 off => encCmpRR .fpCmpBrTrue cond s1 s2 off
  | .cmpTrap cond s1 cc off => encCC .cmpTrap cond s1 off cc
  | .tagCmpTrap cond s1 tc off => encTC .tagCmpTrap cond s1 tc off
  | .jumpReg s1 rc => encRC .jumpReg 0#5 s1 rc
  | .callKernel => encRRR .callKernel 0#5 0#5 0#5
  | .ret s1 rc => encRC .ret 0#5 s1 rc
  | .retTrap s1 rc => encRC .retTrap 0#5 s1 rc
  | .retKernel s1 rc => encRC .retKernel 0#5 s1 rc
  | .fadd d s1 s2 => encRRR .fadd d s1 s2
  | .fsub d s1 s2 => encRRR .fsub d s1 s2
  | .fmul d s1 s2 => encRRR .fmul d s1 s2
  | .fdiv d s1 s2 => encRRR .fdiv d s1 s2
  | .fmov d s1 => encRRR .fmov d s1 0#5
  | .fabs d s1 => encRRR .fabs d s1 0#5
  | .fneg d s1 => encRRR .fneg d s1 0#5
  | .float d s1 => encRRR .float d s1 0#5
  | .fix d s1 => encRRR .fix d s1 0#5
  | .cvts d s1 => encRRR .cvts d s1 0#5
  | .cvtd d s1 => encRRR .cvtd d s1 0#5
  | .jump addr => encJump 0xC#4 addr
  | .call addr => encJump 0xE#4 addr

end Sys2Proof
end

