-- ==== Sys2Proof/Machine/State.lean ====
section
/-! DEFINITION. The state of one SPUR node (spec/10_state.md R20 to R67), the reasons a step can stop, and reset.
Plain data throughout. -/

namespace Sys2Proof.Machine

open Sys2Proof

/-- The cause of a fault of a memory access (R104). -/
inductive FaultCause where
  | instructionPageFault
  | dataPageFault
  | accessViolation
  | referenceTrap
  | dirtyTrap
  | busFault
  deriving DecidableEq, Repr

/-- The machine stops: `stuck` of spec/93_implementation_defined.md. -/
inductive Fault where
  /-- A fault of an access while its enable or KPSW.all_en is 0: "the access cannot complete and cannot trap"
  (R344, U40, U56). Raised by every fetch and by every instruction that accesses memory. Safe: the spec's machine
  makes no further step either. -/
  | disabledFault (cause : FaultCause)
  /-- A bus transfer answered "try again later" for ever (R441, U47). Raised by every fetch and by every instruction
  that accesses memory, on an address of a region of that kind. Safe. -/
  | retryForever
  deriving DecidableEq, Repr

/-- The program is outside the spec: `refuse` of spec/93_implementation_defined.md. All are safe: nothing is claimed
of what follows. -/
inductive Refusal where
  /-- An instruction the model gives no meaning. Raised by no instruction of the finished model. -/
  | notModelled (mnemonic : String)
  /-- Trap type 7 while KPSW.all_en = 0 (R344, U26): an unassigned opcode, or an FPU instruction with the FPU
  disabled or absent. Raised by the step and by the FPU instructions. -/
  | illegalWithTrapsOff
  /-- An assigned opcode with the bit 14 its format excludes (R134, U27, U29). Raised by the step. -/
  | reservedEncoding
  /-- The instruction after a load writes the loaded register (R171, R405, U3). Raised by every instruction that
  writes a register. -/
  | shadowedWrite
  /-- A call, a return or `wr_special CWP` in the slot of a CMP_BR_TRUE-class branch (R265, R405, U9). Raised by those
  instructions, and by the step when the slot is cancelled. -/
  | prohibitedSlot
  /-- A load or store directly after TEST_AND_SET (R158, R405, U10). Raised by the loads and stores. -/
  | afterTestAndSet
  /-- An 8-byte access or TEST_AND_SET that is not cacheable (R83, R84, U4). Raised by those accesses. -/
  | notCacheable
  /-- WR_SPECIAL of the PC or the WRITE_PC (R234, U5). -/
  | readOnlySpecial
  /-- WR_SPECIAL of a number that names no register (R234, U24). -/
  | unassignedSpecial
  /-- A compare with a condition code that has no row (R264, U28). -/
  | unassignedCond
  /-- An FPU register number that names nothing, or the FPU PSW where it is not defined (R174, R308, U30). -/
  | fpuRegister
  /-- An FPU operation on a register whose T disagrees with its other fields (R165, U32). -/
  | inconsistentFpu
  /-- An FPU load or store of a register that a running FPU operation uses (R172, R407, U38). -/
  | fpuHazard
  /-- An FPU instruction with UPSW.fpu_id naming a coprocessor the sources do not describe (R331, U39). -/
  | coprocessorAbsent
  deriving DecidableEq, Repr

/-- A physical integer register (R23). -/
inductive PhysReg where
  /-- a global register, R0 to R9 -/
  | global (i : RegField)
  /-- entry `k` of the ring of window registers -/
  | window (k : BitVec 7)
  deriving DecidableEq, Repr

/-- The target of a load: an integer register or an FPU register (R171, R172). -/
inductive LoadTarget where
  | int (r : PhysReg)
  | fpu (n : RegField)
  deriving DecidableEq, Repr

/-- The return whose KPSW change waits for its target (R286, R287). -/
inductive RetKind where
  | trap
  | kernel
  deriving DecidableEq, Repr

/-- Pipeline state carried to exactly the next instruction (R64, R400). -/
structure Pipe where
  /-- the register the previous instruction loaded (R64 (a)) -/
  loadShadow : Option LoadTarget
  /-- the next instruction behaves as a NOP (R64 (c)) -/
  squash : Bool
  /-- R10 to R31 cannot be read (R64 (d)) -/
  windowShadow : Bool
  /-- CWP cannot be read (R404) -/
  cwpShadow : Bool
  /-- the previous instruction was of the CMP_BR_TRUE class (R405) -/
  slotOfTrue : Bool
  /-- the previous instruction was TEST_AND_SET (R405) -/
  afterTas : Bool
  /-- the next instruction is the first at a trap vector (R37) -/
  atVector : Bool
  /-- a return whose KPSW change is in force when its target is fetched (R286, R287) -/
  retPend : Option RetKind
  /-- the next instruction's word, fetched before INVALIDATE_IB emptied the buffer and not refetched (R238) -/
  ready : Option Word
  deriving DecidableEq, Repr

/-- Nothing pending. -/
def Pipe.idle : Pipe :=
  { loadShadow := none, squash := false, windowShadow := false, cwpShadow := false, slotOfTrue := false,
    afterTas := false, atVector := false, retPend := none, ready := none }

/-- One block of the instruction buffer: an address tag, a valid bit and a word for each of 8 words (R62). -/
structure IbBlock where
  tag : BitVec 27
  valid : BitVec 8
  words : Vector Word 8
  deriving DecidableEq, Repr

/-- An FPU data register (R48). -/
structure FpReg where
  /-- S, the sign -/
  sign : Bool
  /-- E, the exponent less one, in two's complement -/
  exp : BitVec 17
  /-- T, the data type -/
  type : BitVec 3
  /-- R, the rounding tag -/
  rtag : BitVec 2
  /-- F, the fraction -/
  frac : BitVec 64
  /-- the model's own mark: an integer image, or a value of unknown category, is held (R301, log 21) -/
  image : Bool
  deriving DecidableEq, Repr

/-- The FPU operation in progress (R309, R330, log 19). -/
structure FpuRun where
  dest : RegField
  src1 : RegField
  src2 : RegField
  cyclesLeft : Nat
  deriving DecidableEq, Repr

/-- The kind of a pending FPU exception: floating point or integer overflow (R53). -/
inductive FpuExcKind where
  | floatingPoint
  | integerOverflow
  deriving DecidableEq, Repr

/-- Coherency state of a valid line (R112). -/
inductive LineState where
  | unowned
  | ownedShared
  | ownedPrivate
  deriving DecidableEq, Repr

/-- A valid cache line (R63). -/
structure Line where
  /-- gva[37:17] -/
  vtag : BitVec 21
  /-- physical block address, pa[31:5] -/
  ptag : BitVec 27
  state : LineState
  /-- the page is dirty (R101) -/
  pageDirty : Bool
  /-- the block is dirty (R101, R453) -/
  blockDirty : Bool
  /-- protection code of the page (R99) -/
  prot : BitVec 2
  /-- the page is cacheable (R97, log 11) -/
  cacheable : Bool
  words : Vector Word 8
  deriving DecidableEq, Repr

/-- The status of a VACK cycle (R453): the line is dirty, clean, or the transfer is in error. -/
inductive VackStatus where
  | dirty
  | clean
  | unspecifiedError
  deriving DecidableEq, Repr

/-- A line that another SpurBoard's cache owns, as far as a snooping read of this node can see it (R112, R451): its
state there, the status its VACK cycle carries, and its words (log 36). -/
structure RemoteLine where
  state : LineState
  /-- the block of physical memory that it is a copy of: gva's page there, as `Line.ptag` -/
  ptag : BitVec 27
  status : VackStatus
  words : Vector Word 8
  deriving DecidableEq, Repr

/-- All that the word at an instruction address depends on, as it was at one moment: "memory ... under the mapping then
in force" (R110, log 15). -/
structure FetchView where
  kpsw : BitVec 24
  gsn : Vector (BitVec 8) 4
  rptm : Vector (BitVec 20) 4
  pteva : GlobalAddr
  rpteva : GlobalAddr
  cache : List (Nat × Line)
  remote : List (Nat × RemoteLine)
  mem : List Host.Cell
  deriving DecidableEq, Repr

/-- What answers a bus transfer to a region of physical addresses (R107, R455). -/
inductive RegionKind where
  /-- read and write memory -/
  | ram
  /-- read-only memory (R390) -/
  | prom
  /-- device registers: a read gives any value, a write is the device's (R108, log 16) -/
  | device
  /-- ends every transfer with "Unspecified Error" (R441, U16) -/
  | faulty
  /-- answers "try again later" for ever (R441, U47) -/
  | retry
  /-- the interrupt space of another SpurBoard (R371) -/
  | spurNode
  deriving DecidableEq, Repr

/-- A run of 4096-byte pages of physical memory: PLATFORM_MEMORY_MAP (R455). That a board covers whole pages is a DESIGN
CHOICE: the source fixes no addresses (R107, log 4). -/
structure Region where
  firstPage : Nat
  pages : Nat
  kind : RegionKind
  deriving DecidableEq, Repr

/-- The parameters `WindowOverflow` and `WindowUnderflow` (R8, R356, log 7). -/
inductive WindowTests where
  /-- the comparisons of CWP with SWP[9:7] that D8 gives as the default -/
  | ofSwp
  /-- any other predicates over CWP and SWP -/
  | other
  deriving DecidableEq, Repr

/-- The parameters the source leaves open and the spec keeps open, as plain data (log 2, log 4, log 5, log 7). -/
structure Board where
  /-- ID<3..0>, the slot of this node (R433) -/
  slot : BitVec 4
  /-- an FPU is fitted (R52) -/
  fpuPresent : Bool
  /-- PLATFORM_MEMORY_MAP; an address in no region is answered by no board (R455) -/
  map : List Region
  /-- `Permits` (R99): bit prot*4 + mode*2 + write -/
  permits : BitVec 16
  windowTests : WindowTests
  /-- RESET_PC[31:2] (R390) -/
  resetPC : BitVec 30
  deriving DecidableEq, Repr

/-- The state of the node (R20). -/
structure State where
  /-- R0 to R9 (R23); entry 0 is never read (R22) -/
  globals : Vector Tagged 10
  /-- the window ring (R23) -/
  windows : Vector Tagged 128
  upsw : BitVec 6
  cwp : BitVec 3
  swp : BitVec 29
  kpsw : BitVec 24
  /-- the INSERT register (R38) -/
  insert : BitVec 2
  fpuPc : BitVec 30
  pc : Word
  nextPC : Word
  trapPC : Word
  trapNextPC : Word
  pipe : Pipe
  ib : Vector IbBlock 16
  prefetch : Option Word
  /-- the model's own: what memory and mapping were at each moment since the last INVALIDATE_IB, newest first (R110,
  log 15) -/
  past : List FetchView
  fregs : Vector FpReg 15
  fpsw : BitVec 15
  fpuRun : Option FpuRun
  fpuExcep : Bool
  fpuExcKind : FpuExcKind
  fpuBrTF : Bool
  gsn : Vector (BitVec 8) 4
  rptm : Vector (BitVec 20) 4
  pteva : GlobalAddr
  rpteva : GlobalAddr
  gva : GlobalAddr
  intreg : Word
  intmask : Word
  counter0 : Word
  counter1 : Word
  /-- valid lines by index, indices strictly rising (R63) -/
  cache : List (Nat × Line)
  /-- the lines that caches of other nodes own, by line number gva[37:5], numbers strictly rising (R112, log 36) -/
  remote : List (Nat × RemoteLine)
  /-- physical memory, addresses strictly rising, no entry equal to what an unlisted address reads as -/
  mem : List Host.Cell
  /-- the cause of the last fault (R104); no instruction reads it -/
  faultInfo : Option FaultCause
  board : Board
  /-- the model's own: selects the free values (log 6) -/
  free : Nat
  deriving DecidableEq, Repr

/-- A register of 40 zero bits. -/
def zeroTagged : Tagged := { taggen := 0#8, data := 0#32 }

/-- An FPU register of 87 zero bits. -/
def zeroFpReg : FpReg := { sign := false, exp := 0#17, type := 0#3, rtag := 0#2, frac := 0#64, image := false }

/-- An empty block of the instruction buffer (R67). -/
def emptyIbBlock : IbBlock := { tag := 0#27, valid := 0#8, words := Vector.replicate 8 0#32 }

/-- The platform at reset: RAM below 0xF0000000, slot 0, an FPU (log 4), the suggested `Permits` of R99 (log 5):
code 0 kernel only; 1 kernel, user read; 2 all; 3 all, read only. The default window tests (log 7); RESET_PC 0 (log 2). -/
def Board.atReset : Board :=
  { slot := 0#4, fpuPresent := true, map := [{ firstPage := 0, pages := 0xF0000, kind := .ram }],
    permits := 0x5FDC#16, windowTests := .ofSwp, resetPC := 0#30 }

/-- RESET_PC (R390). -/
def Board.firstPC (b : Board) : Word := b.resetPC ++ 0#2

/-- The machine right after a System Reset (R67, R390, D10): what the spec states there (log 38), and 0 in every register
for which it states nothing (log 1). -/
def State.reset : State :=
  { globals := Vector.replicate 10 zeroTagged
    windows := Vector.replicate 128 zeroTagged
    upsw := 0#6
    cwp := 0#3
    swp := 0#29
    kpsw := 0x10#24
    insert := 0#2
    fpuPc := 0#30
    pc := Board.atReset.firstPC
    nextPC := Board.atReset.firstPC + 4#32
    trapPC := 0#32
    trapNextPC := 0#32
    pipe := Pipe.idle
    ib := Vector.replicate 16 emptyIbBlock
    prefetch := none
    past :=
      [{ kpsw := 0x10#24, gsn := Vector.replicate 4 0#8, rptm := Vector.replicate 4 0#20, pteva := 0#38, rpteva := 0#38,
         cache := [], remote := [], mem := [] }]
    fregs := Vector.replicate 15 zeroFpReg
    fpsw := 0#15
    fpuRun := none
    fpuExcep := false
    fpuExcKind := .floatingPoint
    fpuBrTF := false
    gsn := Vector.replicate 4 0#8
    rptm := Vector.replicate 4 0#20
    pteva := 0#38
    rpteva := 0#38
    gva := 0#38
    intreg := 0#32
    intmask := 0#32
    counter0 := 0#32
    counter1 := 0#32
    cache := []
    remote := []
    mem := []
    faultInfo := none
    board := Board.atReset
    free := 0 }

/-- The answer of a step or of a meaning. -/
abbrev Out := Host.Outcome State Fault Refusal

end Sys2Proof.Machine
end

