-- ==== Sys2Proof/Machine/Params.lean ====
section
/-! DEFINITION. The parameters for which the spec has a default and allows a model to stand at it (spec/00_scope.md R8,
spec/92_eei_decisions.md, log 7). None of them is a fact about SPUR hardware. -/

namespace Sys2Proof.Machine

open Sys2Proof

/-- TAG_NIL (R26). -/
def tagNil : BitVec 6 := 0x27#6
/-- TAG_CONS (R26). -/
def tagCons : BitVec 6 := 0x26#6
/-- NUM_LO (R26). -/
def numLo : BitVec 6 := 0x38#6
/-- NUM_HI (R26). -/
def numHi : BitVec 6 := 0x3F#6

/-- FPU_PSW_NUMBER (R51). -/
def fpuPswNumber : RegField := 15#5
/-- FPU_COPROCESSOR_ID (R331). -/
def fpuCoprocessorId : Bool := false

/-- FP_TYPE_CODES (R301): the codes of T. -/
def typeZero : BitVec 3 := 0#3
def typeDenorm : BitVec 3 := 1#3
def typeNorm : BitVec 3 := 2#3
def typeInf : BitVec 3 := 3#3
def typeQNaN : BitVec 3 := 4#3
def typeSNaN : BitVec 3 := 5#3

/-- FP_ROUND_TAG_CODES (R305): the codes of R. -/
def rtagExact : BitVec 2 := 0#2
def rtagDown : BitVec 2 := 1#2
def rtagUp : BitVec 2 := 2#2

/-- ROUNDING_MODE_CODE (R50). -/
def rmNearest : BitVec 2 := 0#2
def rmZero : BitVec 2 := 1#2
def rmPlusInf : BitVec 2 := 2#2
def rmMinusInf : BitVec 2 := 3#2

/-- FP_CANONICAL_NAN, its fraction (R307). -/
def canonicalNaN : BitVec 64 := 0xC000000000000000#64

/-- A target format of rounding: its precision and exponent range (R305, R307). -/
structure FpFormat where
  prec : Nat
  emin : Int
  emax : Int
  deriving DecidableEq, Repr

/-- FADD, FSUB, FMUL, FDIV (R307). -/
def fmtExtended : FpFormat := { prec := 64, emin := -16382, emax := 16383 }
/-- CVTS (R307). -/
def fmtSingle : FpFormat := { prec := 24, emin := -126, emax := 127 }
/-- CVTD (R307). -/
def fmtDouble : FpFormat := { prec := 53, emin := -1022, emax := 1023 }

/-- FP_CYCLES, the interface paper's column, FMOV 1 (R309). -/
def cyclesAdd : Nat := 3
def cyclesMul : Nat := 6
def cyclesDiv : Nat := 9
def cyclesCopy : Nat := 1
def cyclesIntConvert : Nat := 1
def cyclesConvert : Nat := 3

/-- The page table entry layout, parameter PTE_LAYOUT (R98). -/
def ptePresent (p : Word) : Bool := p.getLsbD 0
/-- The REFERENCE bit (R98). -/
def pteRef (p : Word) : Bool := p.getLsbD 1
/-- The page dirty bit (R98). -/
def pteDirty (p : Word) : Bool := p.getLsbD 2
/-- The mark non-cacheable (R98). -/
def pteNc (p : Word) : Bool := p.getLsbD 3
/-- The protection code (R98). -/
def pteProt (p : Word) : BitVec 2 := p.extractLsb' 4 2
/-- The physical page number (R98). -/
def ptePpn (p : Word) : BitVec 20 := p.extractLsb' 12 20

/-- The entry point of CALL_KERNEL (R284). -/
def kernelEntry : Word := 0x1000#32
/-- The base of the trap vectors (R342). -/
def trapBase : Word := 0x1000#32

end Sys2Proof.Machine
end

