-- ==== Sys2Proof/Machine/Ops.lean ====
section
/-! DEFINITION. The operations every meaning is built from: free values, integer registers, memory bytes and cache
lines as canonical lists, the status words, the end of an instruction, taking a trap, and what instruction words
depend on. -/

namespace Sys2Proof.Machine

open Sys2Proof

/-! ### Free values (log 6) -/

/-- The free value of width `w` for purpose `slot` in this step. -/
def freeVal (s : State) (slot w : Nat) : BitVec w := Config.free w (s.free + slot)

/-- How far a step moves the free-value counter: more than any slot number. -/
def freeStride : Nat := 128

def slotSrc1 : Nat := 0
def slotSrc2 : Nat := 1
def slotSpecial : Nat := 2
def slotStore : Nat := 3
def slotCc : Nat := 4
def slotFp1 : Nat := 8
def slotFp2 : Nat := 16
def slotFpResult : Nat := 24
def slotFpFlags : Nat := 32
def slotFpRelation : Nat := 36
/-- bus reads of a data access; an access makes at most four -/
def slotBusData : Nat := 40
/-- bus reads of an instruction fetch -/
def slotBusFetch : Nat := 48
/-- the choices of the instruction buffer at a fetch -/
def slotIb : Nat := 56
/-- the same for the word after INVALIDATE_IB -/
def slotReady : Nat := 57
/-- bus reads of a word as it was before -/
def slotPast : Nat := 58
/-- bits 4 to 2 of GVA after a block transfer -/
def slotGva : Nat := 64
/-- whether a board that stores nothing ends a write in error -/
def slotBusWrite : Nat := 65

/-- A 40-bit free value. -/
def freeTagged (s : State) (slot : Nat) : Tagged :=
  { taggen := (freeVal s slot 40).extractLsb' 32 8, data := (freeVal s slot 40).extractLsb' 0 32 }

/-! ### Integer registers (R21 to R25) -/

/-- The entry of the window ring that register `i` of window `cwp` is (R23). -/
def winIndex (cwp : BitVec 3) (i : RegField) : BitVec 7 := (cwp ++ 0#4) + (i.setWidth 7 - 10#7)

/-- The physical register of register `i` in window `cwp` (R23). -/
def physReg (cwp : BitVec 3) (i : RegField) : PhysReg :=
  if i.toNat < 10 then .global i else .window (winIndex cwp i)

/-- The contents of a physical register. -/
def regGet (s : State) : PhysReg → Tagged
  | .global i => if h : i.toNat < 10 then s.globals[i.toNat] else zeroTagged
  | .window k => s.windows[k.toNat]'k.isLt

/-- A physical register written. -/
def regSet (s : State) (r : PhysReg) (v : Tagged) : State :=
  match r with
  | .global i => if h : i.toNat < 10 then { s with globals := s.globals.set i.toNat v } else s
  | .window k => { s with windows := s.windows.set k.toNat v k.isLt }

/-- Register `i` cannot be read by this instruction: it was loaded by the previous one (R171), or a window change
precedes (R288). R0 is never shadowed. -/
def regShadowed (s : State) (i : RegField) : Bool :=
  i != 0#5 &&
    ((s.pipe.windowShadow && decide (10 ≤ i.toNat)) ||
      s.pipe.loadShadow == some (.int (physReg s.cwp i)))

/-- The architectural contents of register `i` of the current window: R0 reads zero with tag byte 0 (R22). -/
def regVal (s : State) (i : RegField) : Tagged :=
  if i = 0#5 then zeroTagged else regGet s (physReg s.cwp i)

/-- `R[i]` as an operand: a shadowed register gives any value (R171, R288). -/
def readReg (s : State) (slot : Nat) (i : RegField) : Tagged :=
  if regShadowed s i then freeTagged s slot else regVal s i

/-- `R[i] <- v`: a write to R0 does nothing (R22). -/
def writeReg (s : State) (i : RegField) (v : Tagged) : State :=
  if i = 0#5 then s else regSet s (physReg s.cwp i) v

/-- Register `i` is the target of the load just before, so writing it is outside the spec (R171, U3). -/
def destBlocked (s : State) (i : RegField) : Bool :=
  i != 0#5 && s.pipe.loadShadow == some (.int (physReg s.cwp i))

/-- The 6-bit type tag (R24). -/
def tagOf (v : Tagged) : BitVec 6 := v.taggen.extractLsb' 0 6
/-- The 2-bit generation (R24). -/
def genOf (v : Tagged) : BitVec 2 := v.taggen.extractLsb' 6 2
/-- A value with tag FIXNUM and generation OLDEST (R25, R27). -/
def fixnum (w : Word) : Tagged := { taggen := 0#8, data := w }

/-! ### Status words (R39, R40) -/

/-- A bit of a word set or cleared. -/
def setBit {w : Nat} (v : BitVec w) (n : Nat) (b : Bool) : BitVec w :=
  if b then v ||| (1#w <<< n) else v &&& ~~~(1#w <<< n)

def kpswAllEn (s : State) : Bool := s.kpsw.getLsbD 12
def kpswIntEn (s : State) : Bool := s.kpsw.getLsbD 11
def kpswErrEn (s : State) : Bool := s.kpsw.getLsbD 10
def kpswFltEn (s : State) : Bool := s.kpsw.getLsbD 9
def kpswWinEn (s : State) : Bool := s.kpsw.getLsbD 8
def kpswMode (s : State) : Bool := s.kpsw.getLsbD 4
def kpswVaIfetch (s : State) : Bool := s.kpsw.getLsbD 3
def kpswVaDfetch (s : State) : Bool := s.kpsw.getLsbD 2
def kpswIbEn (s : State) : Bool := s.kpsw.getLsbD 1
def kpswPrefetchEn (s : State) : Bool := s.kpsw.getLsbD 0
def upswTagEn (s : State) : Bool := s.upsw.getLsbD 5
def upswOvfEn (s : State) : Bool := s.upsw.getLsbD 4
def upswFpuEn (s : State) : Bool := s.upsw.getLsbD 3
def upswFpuIllegal (s : State) : Bool := s.upsw.getLsbD 2
def upswFpuParallel (s : State) : Bool := s.upsw.getLsbD 1
def upswFpuId (s : State) : Bool := s.upsw.getLsbD 0

/-! ### The end of an instruction (R280) -/

/-- The KPSW once a pending return's change is in force (R286, R287). -/
def applyRet (k : BitVec 24) : Option RetKind → BitVec 24
  | none => k
  | some .trap => setBit k 12 true
  | some .kernel => setBit (setBit k 4 false) 12 true

/-- The instruction ends and the one at `nextPC` follows: PC <- nextPC, nextPC <- nextPC + 4, nothing pending
(R280); a return waiting in `retPend` takes its KPSW change now, over what the instruction in the slot wrote into KPSW, the
mode of a CALL_KERNEL included (log 18). -/
def advance (s : State) : State :=
  { s with
    kpsw := applyRet s.kpsw s.pipe.retPend
    pc := s.nextPC
    nextPC := s.nextPC + 4#32
    pipe := Pipe.idle
    free := s.free + freeStride }

/-- `TransferAfterNext` (R280): the slot runs, then `target`. -/
def advanceTo (target : Word) (s : State) : State := { advance s with nextPC := target }

/-- The end of a load: its target is shadowed for one instruction (R171, R172). -/
def advanceLoad (t : Option LoadTarget) (s : State) : State :=
  { advance s with pipe := { Pipe.idle with loadShadow := t } }

/-- The load shadow of an integer target; R0 has none (R171). -/
def intTarget (s : State) (d : RegField) : Option LoadTarget :=
  if d = 0#5 then none else some (.int (physReg s.cwp d))

/-! ### Traps (R340 to R353) -/

/-- The fifteen trap types (R342). -/
inductive TrapType where
  | errorFault | normalFault | interrupt | floatingPoint | windowOverflow | windowUnderflow | illegalOpcode
  | kernelMode | integerOverflow | consOrNil | fixnumTag | fixnumOrChar | eqlTag | generation | cmpTrap
  deriving DecidableEq, Repr

/-- TT (R342). -/
def trapNumber : TrapType → BitVec 4
  | .errorFault => 1#4
  | .normalFault => 2#4
  | .interrupt => 3#4
  | .floatingPoint => 4#4
  | .windowOverflow => 5#4
  | .windowUnderflow => 6#4
  | .illegalOpcode => 7#4
  | .kernelMode => 8#4
  | .integerOverflow => 9#4
  | .consOrNil => 10#4
  | .fixnumTag => 11#4
  | .fixnumOrChar => 12#4
  | .eqlTag => 13#4
  | .generation => 14#4
  | .cmpTrap => 15#4

/-- The priority class, 0 highest (R343). The meanings test the conditions of one instruction in this order. -/
def trapClass : TrapType → Nat
  | .errorFault => 0
  | .windowOverflow => 1
  | .windowUnderflow => 1
  | .normalFault => 2
  | .interrupt => 3
  | .floatingPoint => 4
  | .illegalOpcode => 5
  | .kernelMode => 5
  | .consOrNil => 5
  | .integerOverflow => 6
  | .fixnumTag => 7
  | .fixnumOrChar => 7
  | .eqlTag => 7
  | .generation => 8
  | .cmpTrap => 9

/-- `TrapVector(tt)` = 0x1000 + 16 tt (R342). -/
def trapVector (t : TrapType) : Word := trapBase + ((trapNumber t).setWidth 32 <<< 4)

/-- `OwnEnable(tt)` (R344). -/
def ownEnable (s : State) : TrapType → Bool
  | .errorFault => kpswErrEn s
  | .normalFault => kpswFltEn s
  | .interrupt => kpswIntEn s
  | .floatingPoint => upswFpuEn s
  | .windowOverflow => kpswWinEn s
  | .windowUnderflow => kpswWinEn s
  | .illegalOpcode => true
  | .kernelMode => true
  | .integerOverflow => upswOvfEn s
  | .consOrNil => upswTagEn s
  | .fixnumTag => upswTagEn s
  | .fixnumOrChar => upswTagEn s
  | .eqlTag => upswTagEn s
  | .generation => upswTagEn s
  | .cmpTrap => true

/-- `Enabled(tt)` (R344). -/
def trapEnabled (s : State) (t : TrapType) : Bool := kpswAllEn s && ownEnable s t

/-- The KPSW after trap entry (R352, R353): prev_mode <- mode, all_en <- 0, mode <- 1, and for an error fault both
virtual address bits cleared. -/
def entryKpsw (t : TrapType) (k : BitVec 24) : BitVec 24 :=
  let k1 := setBit (setBit (setBit k 5 (k.getLsbD 4)) 12 false) 4 true
  match t with
  | .errorFault => setBit (setBit k1 3 false) 2 false
  | _ => k1

/-- `TakeTrap` (R352), for the instruction at `pc` with `nextPC` to follow it. The prefetch is dropped, no valid bit
of the instruction buffer changes. -/
def takeTrap (t : TrapType) (s : State) : State :=
  let s1 := writeReg { s with cwp := s.cwp + 1#3 } 10#5 (fixnum s.pc)
  { s1 with
    trapPC := s.pc
    trapNextPC := s.nextPC
    kpsw := entryKpsw t s.kpsw
    pc := trapVector t
    nextPC := trapVector t + 4#32
    pipe := { Pipe.idle with windowShadow := true, atVector := true }
    prefetch := none
    free := s.free + freeStride }

/-- `raise` (R351): the trap if it is enabled, else the instruction goes on. -/
def raiseOr (t : TrapType) (s : State) (goOn : Out) : Out :=
  if trapEnabled s t then .next (takeTrap t s) else goOn

/-- A condition that raises `t` (R351). -/
def raiseIf (c : Bool) (t : TrapType) (s : State) (goOn : Out) : Out :=
  if c then raiseOr t s goOn else goOn

/-- The trap type of a fault (R104). -/
def faultTrap : FaultCause → TrapType
  | .busFault => .errorFault
  | .instructionPageFault => .normalFault
  | .dataPageFault => .normalFault
  | .accessViolation => .normalFault
  | .referenceTrap => .normalFault
  | .dirtyTrap => .normalFault

/-- A fault of the access made for the instruction (R104, R348, R349): the trap, or `stuck` if it is disabled
(R344). -/
def raiseFault (c : FaultCause) (s : State) : Out :=
  let s1 := { s with faultInfo := some c }
  if trapEnabled s1 (faultTrap c) then .next (takeTrap (faultTrap c) s1) else .fault (.disabledFault c)

/-- The illegal opcode exception (R346); with traps off the program is outside the spec (R344). -/
def raiseIllegal (s : State) : Out := raiseOr .illegalOpcode s (.refused .illegalWithTrapsOff)

/-! ### Memory bytes (R65, R70): a canonical list -/

/-- What an unlisted byte of memory reads as (log 3). -/
def unlistedByte : Byte := 0#8

/-- One byte read. -/
def memGet : List Host.Cell → Nat → Byte
  | [], _ => unlistedByte
  | (k, v) :: t, a => if k = a then v else memGet t a

/-- One byte written; writing what an unlisted byte reads as removes the entry. -/
def memPut : List Host.Cell → Nat → Byte → List Host.Cell
  | [], a, b => if b = unlistedByte then [] else [(a, b)]
  | (k, v) :: t, a, b =>
    if a < k then (if b = unlistedByte then (k, v) :: t else (a, b) :: (k, v) :: t)
    else if a = k then (if b = unlistedByte then t else (a, b) :: t)
    else (k, v) :: memPut t a b

/-- The addresses of a list lie in [lo, 2^32) and rise strictly, and no entry is redundant. -/
def memCanonFrom : Nat → List Host.Cell → Bool
  | _, [] => true
  | lo, (k, v) :: t => decide (lo ≤ k) && decide (k < 2 ^ 32) && v != unlistedByte && memCanonFrom (k + 1) t

/-- The canonical form of memory. -/
def memWf (m : List Host.Cell) : Bool := memCanonFrom 0 m

/-- The word at a word address, little-endian (R70). -/
def memWord (m : List Host.Cell) (a : Word) : Word :=
  wordOfBytes (memGet m a.toNat) (memGet m (a + 1#32).toNat) (memGet m (a + 2#32).toNat) (memGet m (a + 3#32).toNat)

/-- A word stored, little-endian (R70). -/
def memPutWord (m : List Host.Cell) (a w : Word) : List Host.Cell :=
  memPut (memPut (memPut (memPut m a.toNat (wordByte w 0)) (a + 1#32).toNat (wordByte w 1)) (a + 2#32).toNat
    (wordByte w 2)) (a + 3#32).toNat (wordByte w 3)

/-! ### Lines by number (R63, R112): canonical lists. An absent index of the cache is an invalid line; an absent number
of the lines of other nodes, one that none of them owns. -/

/-- The line at a number. -/
def lineGet {α : Type} : List (Nat × α) → Nat → Option α
  | [], _ => none
  | (k, l) :: t, i => if k = i then some l else lineGet t i

/-- A line installed. -/
def linePut {α : Type} : List (Nat × α) → Nat → α → List (Nat × α)
  | [], i, l => [(i, l)]
  | (k, l0) :: t, i, l =>
    if i < k then (i, l) :: (k, l0) :: t else if i = k then (i, l) :: t else (k, l0) :: linePut t i l

/-- A line made invalid. -/
def lineDrop {α : Type} : List (Nat × α) → Nat → List (Nat × α)
  | [], _ => []
  | (k, l) :: t, i => if k = i then t else (k, l) :: lineDrop t i

/-- The numbers of a list lie in [lo, bound) and rise strictly. -/
def linesCanonFrom {α : Type} (bound : Nat) : Nat → List (Nat × α) → Bool
  | _, [] => true
  | lo, (k, _) :: t => decide (lo ≤ k) && decide (k < bound) && linesCanonFrom bound (k + 1) t

/-- The canonical form of the cache: 4096 indices (R63). -/
def cacheWf (c : List (Nat × Line)) : Bool := linesCanonFrom 4096 0 c

/-- The canonical form of the lines of other nodes: 2^33 line numbers (R449). -/
def remoteWf (r : List (Nat × RemoteLine)) : Bool := linesCanonFrom (2 ^ 33) 0 r

/-! ### What instruction words have been (R110) -/

/-- What the words at instruction addresses depend on now. -/
def fetchView (s : State) : FetchView :=
  { kpsw := s.kpsw, gsn := s.gsn, rptm := s.rptm, pteva := s.pteva, rpteva := s.rpteva, cache := s.cache,
    remote := s.remote, mem := s.mem }

/-- This moment remembered (R110, log 15). -/
def recordView (s : State) : State := { s with past := fetchView s :: s.past }

/-! ### The outcome of a memory access -/

/-- What an access comes to. -/
inductive Access (α : Type) where
  /-- it completes with a value -/
  | done (v : α) (s : State)
  /-- it faults (R104) -/
  | fault (c : FaultCause) (s : State)
  /-- it never ends (R441) -/
  | stuck (f : Fault)
  /-- the spec does not define it -/
  | refused (r : Refusal)

/-- An access followed by another. -/
def accessThen {α β : Type} (x : Access α) (k : α → State → Access β) : Access β :=
  match x with
  | .done v s => k v s
  | .fault c s => .fault c s
  | .stuck f => .stuck f
  | .refused r => .refused r

/-- The value of an access changed. -/
def accessMap {α β : Type} (f : α → β) (x : Access α) : Access β := accessThen x (fun v s => .done (f v) s)

/-- An access made by an instruction: what follows it, or its fault (R348). -/
def onAccess {α : Type} (x : Access α) (k : α → State → Out) : Out :=
  match x with
  | .done v s => k v s
  | .fault c s => raiseFault c s
  | .stuck f => .fault f
  | .refused r => .refused r

end Sys2Proof.Machine
end

