-- ==== Sys2Proof/Machine/Operands.lean ====
section
/-! DEFINITION. The operand forms: RC, SC, CC, effective addresses, branch and jump targets (spec/30_encoding.md R126
to R131, spec/20_memory.md R72, R73), and FPU registers as operands (R132). -/

namespace Sys2Proof.Machine

open Sys2Proof

/-- `R[s1]`. -/
def src1 (s : State) (i : RegField) : Tagged := readReg s slotSrc1 i

/-- `RC`: a register, or the sign-extended immediate with tag FIXNUM and generation OLDEST (R126). -/
def rcVal (s : State) : RC → Tagged
  | .reg s2 => readReg s slotSrc2 s2
  | .imm v => fixnum (v.signExtend 32)

/-- `SC`, sign-extended (R127). -/
def scVal (sc : BitVec 14) : Word := sc.signExtend 32

/-- `CC`: a register, or the zero-extended immediate with tag FIXNUM and generation OLDEST (R128). -/
def ccVal (s : State) : CC → Tagged
  | .reg s2 => readReg s slotSrc2 s2
  | .imm v => fixnum (v.setWidth 32)

/-- `Rs1.data + RC.data`: the address of a load, a target, or a special register's new value (R72). -/
def sumRC (s : State) (s1 : RegField) (rc : RC) : Word := (src1 s s1).data + (rcVal s rc).data

/-- The effective address of a store (R72). -/
def eaStore (s : State) (s1 : RegField) (sc : BitVec 14) : Word := (src1 s s1).data + scVal sc

/-- `ea & ~03` (R73). -/
def alignWord (a : Word) : Word := a &&& 0xFFFFFFFC#32

/-- `ea & ~07` (R73). -/
def alignDouble (a : Word) : Word := a &&& 0xFFFFFFF8#32

/-- The branch target, from the address of the compare itself (R130). -/
def branchTarget (pc : Word) (off : BitVec 9) : Word := pc + (off ++ 0#2).signExtend 32

/-- The target of JUMP and CALL, in the current segment (R131). -/
def jumpTarget (pc : Word) (addr : BitVec 28) : Word := pc.extractLsb' 30 2 ++ addr ++ 0#2

/-! ### FPU registers -/

/-- The FPU register was loaded by the instruction before (R172, R407, U37). -/
def fpuShadowed (s : State) (n : RegField) : Bool := s.pipe.loadShadow == some (.fpu n)

/-- The contents of a data register. -/
def fpuGet (s : State) (n : RegField) : FpReg := if h : n.toNat < 15 then s.fregs[n.toNat] else zeroFpReg

/-- A register all of whose 87 bits are free: any value. -/
def freeFpReg (s : State) (slot : Nat) : FpReg :=
  { sign := (freeVal s slot 1).getLsbD 0
    exp := freeVal s (slot + 1) 17
    type := freeVal s (slot + 2) 3
    rtag := freeVal s (slot + 3) 2
    frac := freeVal s (slot + 4) 64
    image := true }

/-- `F[n]` as an operand. -/
def readFpu (s : State) (slot : Nat) (n : RegField) : FpReg :=
  if fpuShadowed s n then freeFpReg s slot else fpuGet s n

/-- `F[n] <- v`. -/
def writeFpu (s : State) (n : RegField) (v : FpReg) : State :=
  if h : n.toNat < 15 then { s with fregs := s.fregs.set n.toNat v } else s

end Sys2Proof.Machine
end

