-- ==== Sys2Proof/Machine/Flags.lean ====
section
/-! DEFINITION. What the checks and conditions compute: tag checks, integer overflow, compare conditions
(spec/42_register_ops.md R200, spec/44_compare_branch.md R251 to R254), window tests (R356), protection (R99). SPUR has
no condition codes (R46). -/

namespace Sys2Proof.Machine

open Sys2Proof

/-- `isFixnum`: tag bits [5:4] are 00 (R25). -/
def isFixnum (t : BitVec 6) : Bool := t.extractLsb' 4 2 == 0#2

/-- `isChar`: tag bits [5:4] are 01 (R25). -/
def isChar (t : BitVec 6) : Bool := t.extractLsb' 4 2 == 1#2

/-- `isNumberTag` (R26). -/
def isNumberTag (t : BitVec 6) : Bool := decide (numLo.toNat ≤ t.toNat) && decide (t.toNat ≤ numHi.toNat)

/-- The integer is not representable in 32 bits, two's complement (R202). -/
def outOfRange32 (i : Int) : Bool := decide (i < -2 ^ 31) || decide (2 ^ 31 - 1 < i)

/-- Exception D of ADD (R202). -/
def addOverflow (a b : Word) : Bool := outOfRange32 (a.toInt + b.toInt)

/-- Exception D of SUB (R203). -/
def subOverflow (a b : Word) : Bool := outOfRange32 (a.toInt - b.toInt)

/-- Exception E: not both tags FIXNUM (R200). -/
def excE (a b : Tagged) : Bool := !(isFixnum (tagOf a) && isFixnum (tagOf b))

/-- Exception A: the stored value is younger than the base (R181). -/
def excA (stored base : Tagged) : Bool := decide ((genOf base).toNat < (genOf stored).toNat)

/-- Exception C: the tag is neither CONS nor NIL (R153, R254). -/
def excC (a : Tagged) : Bool := tagOf a != tagCons && tagOf a != tagNil

/-- Exception G: not both FIXNUM and not both CHARACTER (R254). -/
def excG (a b : Tagged) : Bool :=
  !((isFixnum (tagOf a) && isFixnum (tagOf b)) || (isChar (tagOf a) && isChar (tagOf b)))

/-- Exception J: two numbers of one boxed type with different data (R254). -/
def excJ (a b : Tagged) : Bool := tagOf a == tagOf b && isNumberTag (tagOf a) && a.data != b.data

/-- `DataCond` (R251); none for a code with no row (R264). -/
def dataCond (cond : BitVec 5) (a b : Tagged) : Option Bool :=
  match cond.toNat with
  | 0x00 => some (a.data == b.data)
  | 0x01 => some (a.data != b.data)
  | 0x02 => some (decide (b.data.toInt < a.data.toInt))
  | 0x03 => some (decide (a.data.toInt ≤ b.data.toInt))
  | 0x04 => some (decide (b.data.toInt ≤ a.data.toInt))
  | 0x05 => some (decide (a.data.toInt < b.data.toInt))
  | 0x06 => some (decide (b.data.toNat < a.data.toNat))
  | 0x07 => some (decide (a.data.toNat ≤ b.data.toNat))
  | 0x08 => some (decide (b.data.toNat ≤ a.data.toNat))
  | 0x09 => some (decide (a.data.toNat < b.data.toNat))
  | 0x0A => some true
  | 0x0B => some false
  | 0x0C => some (tagOf a == tagOf b)
  | 0x0D => some (tagOf a != tagOf b)
  | 0x0E => some (a.taggen == b.taggen && a.data == b.data)
  | 0x0F => some (a.taggen != b.taggen || a.data != b.data)
  | 0x1E => some (tagOf a == tagOf b && a.data == b.data)
  | 0x1F => some (tagOf a != tagOf b || a.data != b.data)
  | _ => none

/-- The tag exception a data condition checks, if the operands meet it: G for 00 to 09, J for 1E and 1F (R251, R254).
The two cannot both arise. -/
def dataExc (cond : BitVec 5) (a b : Tagged) : Option TrapType :=
  if cond.toNat ≤ 0x09 then (if excG a b then some .fixnumOrChar else none)
  else if cond = 0x1E#5 ∨ cond = 0x1F#5 then (if excJ a b then some .eqlTag else none)
  else none

/-- `TagCond` (R252); none for a code with no row (R264). -/
def tagCond (cond : BitVec 5) (t tc : BitVec 6) : Option Bool :=
  match cond.toNat with
  | 0x0C => some (t == tc)
  | 0x0D => some (t != tc)
  | 0x1C => some (t == tc)
  | 0x1D => some (t != tc)
  | _ => none

/-- The exception a tag condition checks: C for endp and nendp (R252, R254). -/
def tagExc (cond : BitVec 5) (a : Tagged) : Option TrapType :=
  if cond = 0x1C#5 ∨ cond = 0x1D#5 then (if excC a then some .consOrNil else none) else none

/-- The outcome of a floating-point comparison (R322). -/
inductive FpRel where
  | un | lt | eq | gt
  deriving DecidableEq, Repr

/-- `FpCond`: the condition field is a mask of relations (R253). -/
def fpCond (cond : BitVec 5) : FpRel → Bool
  | .un => cond.getLsbD 3
  | .lt => cond.getLsbD 2
  | .eq => cond.getLsbD 1
  | .gt => cond.getLsbD 0

/-- The number of the oldest window held in registers: SWP[9:7] (R356). -/
def oldestWindow (swp : BitVec 29) : BitVec 3 := swp.extractLsb' 4 3

/-- `WindowOverflow`, a parameter of the board (R8, R356, log 7). -/
def windowOverflow (s : State) : Bool :=
  match s.board.windowTests with
  | .ofSwp => s.cwp + 2#3 == oldestWindow s.swp
  | .other => Config.windowOverflow s.cwp s.swp

/-- `WindowUnderflow`, a parameter of the board (R8, R356, log 7). -/
def windowUnderflow (s : State) : Bool :=
  match s.board.windowTests with
  | .ofSwp => s.cwp == oldestWindow s.swp
  | .other => Config.windowUnderflow s.cwp s.swp

/-- `Permits(prot, mode, kind)` from the table of the board (R99, log 5). -/
def permits (s : State) (prot : BitVec 2) (write : Bool) : Bool :=
  s.board.permits.getLsbD (prot.toNat * 4 + (kpswMode s).toNat * 2 + write.toNat)

end Sys2Proof.Machine
end

