-- ==== Sys2Proof/Machine/Bus.lean ====
section
/-! DEFINITION. The SpurBus as a program can see it (spec/80_spurbus.md R455): one-word and eight-word transfers of
physical memory, lines that another cache owns, interrupt addresses; and the tables of the bus's control lines (R436,
R437, R441, R450, R453), which BusProtocol.lean uses. -/

namespace Sys2Proof.Machine

open Sys2Proof

/-! ### The boards -/

/-- What answers at a physical address. -/
inductive Responder where
  /-- this node's own interrupt addresses (R433) -/
  | ownInterrupts
  /-- a board of the platform -/
  | board (k : RegionKind)
  /-- no board: the watchdog ends the transfer (R440) -/
  | nobody
  deriving DecidableEq, Repr

/-- The first region holding a page; that the first answers where two overlap is a DESIGN CHOICE (R107, log 4). -/
def regionAt : List Region → Nat → Option RegionKind
  | [], _ => none
  | r :: t, p => if r.firstPage ≤ p ∧ p < r.firstPage + r.pages then some r.kind else regionAt t p

/-- The address is in the slot space of slot `id`: 0xF<id>xxxxxx (R433). -/
def inSlot (pa : Word) (id : BitVec 4) : Bool := pa.extractLsb' 24 8 == 0xF#4 ++ id

/-- The address is an interrupt address of slot `id`: 0xF<id>0xxxxx (R371). -/
def isInterruptAddr (pa : Word) (id : BitVec 4) : Bool := inSlot pa id && pa.extractLsb' 20 4 == 0#4

/-- Who answers a transfer of this node to `pa` (R107, R433, log 16). In its own slot space a SpurBoard answers its
interrupt addresses only. -/
def responder (s : State) (pa : Word) : Responder :=
  if inSlot pa s.board.slot then (if isInterruptAddr pa s.board.slot then .ownInterrupts else .nobody)
  else match regionAt s.board.map (pa.toNat / 4096) with
    | some k => .board k
    | none => .nobody

/-- INTREG with the bit of an interrupt request set: the type is AD<5:2> (R371). -/
def setInterrupt (r : Word) (pa : Word) : Word := r ||| (1#32 <<< (pa.extractLsb' 2 4).toNat)

/-- Another bus master's interrupt request reaches this node (R371); between steps (log 8). -/
def deliverInterrupt (pa : Word) (s : State) : State :=
  if isInterruptAddr pa s.board.slot then { s with intreg := setInterrupt s.intreg pa } else s

/-! ### Transfers (R455) -/

/-- A board's answer to a read: what it stores, or any value where the source gives no contents (R108, U48, log 16); or
the error end of the transfer (R441). -/
def boardRead {α : Type} (k : RegionKind) (stored any : α) (s : State) : Access α :=
  match k with
  | .ram => .done stored s
  | .prom => .done stored s
  | .device => .done any s
  | .spurNode => .done any s
  | .faulty => .fault .busFault s
  | .retry => .stuck .retryForever

/-- A write that nothing of this node shows: it completes, or the board ends it in error: a free bit decides (R455,
log 16). -/
def unstoredWrite (s : State) : Access Unit :=
  if (freeVal s slotBusWrite 1).getLsbD 0 then .done () s else .fault .busFault s

/-- A board's answer to a write; `t` is the state with memory written. A device register's contents are the device's
(R108); read-only memory keeps its own. -/
def boardWrite (k : RegionKind) (s t : State) : Access Unit :=
  match k with
  | .ram => .done () t
  | .prom => unstoredWrite s
  | .device => .done () s
  | .spurNode => .done () s
  | .faulty => .fault .busFault s
  | .retry => .stuck .retryForever

/-- `BusRead`: one word at a word address. A read of an interrupt address gives any value (U48). -/
def busRead (s : State) (pa : Word) (slot : Nat) : Access Word :=
  match responder s pa with
  | .ownInterrupts => .done (freeVal s slot 32) s
  | .nobody => .fault .busFault s
  | .board k => boardRead k (memWord s.mem pa) (freeVal s slot 32) s

/-- `BusWrite`: one word at a word address; at an interrupt address the data is not used (R371). -/
def busWrite (s : State) (pa w : Word) : Access Unit :=
  match responder s pa with
  | .ownInterrupts => .done () { s with intreg := setInterrupt s.intreg pa }
  | .nobody => .fault .busFault s
  | .board k => boardWrite k s { s with mem := memPutWord s.mem pa w }

/-- The word address of word `k` of the block whose address bits [31:5] are given. -/
def blockWordAddr (block : BitVec 27) (k : Nat) : Word := block ++ BitVec.ofNat 3 k ++ 0#2

/-- The eight words of a block of memory. -/
def memBlock (m : List Host.Cell) (block : BitVec 27) : Vector Word 8 :=
  Vector.ofFn (fun k : Fin 8 => memWord m (blockWordAddr block k.val))

/-- `k` words of a block stored, the first `k`, in ascending order (R437). -/
def memPutWords (m : List Host.Cell) (block : BitVec 27) (ws : Vector Word 8) : Nat → List Host.Cell
  | 0 => m
  | k + 1 => memPutWord (memPutWords m block ws k) (blockWordAddr block k) (ws[k]?.getD 0#32)

/-- The eight words of a block stored. -/
def memPutBlock (m : List Host.Cell) (block : BitVec 27) (ws : Vector Word 8) : List Host.Cell :=
  memPutWords m block ws 8

/-- Eight free words (U48). -/
def freeBlock (s : State) (slot : Nat) : Vector Word 8 :=
  Vector.ofFn (fun k : Fin 8 => (freeVal s slot 256).extractLsb' (32 * k.val) 32)

/-- The line number of a global virtual address: gva[37:5], what VAD<32..0> carries (R449). -/
def lineNumber (g : GlobalAddr) : Nat := (g.extractLsb' 5 33).toNat

/-- GVA once a block transfer has run: bits 4 to 2 are the counter that it advances, by how much is not stated (R59,
log 37). -/
def countBlock (s : State) : State :=
  { s with gva := s.gva.extractLsb' 5 33 ++ freeVal s slotGva 3 ++ s.gva.extractLsb' 0 2 }

/-- Eight words as they came to this node, and whether memory is behind them (R453). -/
structure FilledBlock where
  words : Vector Word 8
  dirty : Bool
  deriving DecidableEq, Repr

/-- The NuBus half of a line read: eight words of the board (R451). -/
def memoryBlock (s : State) (block : BitVec 27) (slot : Nat) : Access FilledBlock :=
  let given (ws : Vector Word 8) : FilledBlock := { words := ws, dirty := false }
  match responder s (blockWordAddr block 0) with
  | .ownInterrupts => .done (given (freeBlock s slot)) s
  | .nobody => .fault .busFault s
  | .board k => boardRead k (given (memBlock s.mem block)) (given (freeBlock s slot)) s

/-- The owner's copy after a snooping read that it has answered: given up to a read for ownership, else shared
(R112). -/
def ownerSupplied (s : State) (g : GlobalAddr) (r : RemoteLine) (own : Bool) : State :=
  if own then { s with remote := lineDrop s.remote (lineNumber g) }
  else { s with remote := linePut s.remote (lineNumber g) { r with state := .ownedShared } }

/-- The inter-cache half of a line read (R451): the owner's words, with the status of the VACK cycle (R453). -/
def ownerBlock (s : State) (g : GlobalAddr) (r : RemoteLine) (own : Bool) : Access FilledBlock :=
  match r.status with
  | .dirty => .done { words := r.words, dirty := true } (ownerSupplied s g r own)
  | .clean => .done { words := r.words, dirty := false } (ownerSupplied s g r own)
  | .unspecifiedError => .fault .busFault s

/-- `BusReadLine` (R455): from the owning cache if there is one, whatever the end of the memory transfer (R451,
parameter SNOOP_READ_MEMORY_ERROR), else from memory. -/
def busReadLine (s : State) (block : BitVec 27) (g : GlobalAddr) (own : Bool) (slot : Nat) : Access FilledBlock :=
  match lineGet s.remote (lineNumber g) with
  | some r => ownerBlock (countBlock s) g r own
  | none => memoryBlock (countBlock s) block slot

/-- `BusWriteLine` (R455). An interrupt is a one-word write (R443): whether a block written to interrupt space ends in
error is not stated (log 16). -/
def busWriteLine (s0 : State) (block : BitVec 27) (ws : Vector Word 8) : Access Unit :=
  let s := countBlock s0
  match responder s (blockWordAddr block 0) with
  | .ownInterrupts => unstoredWrite s
  | .nobody => .fault .busFault s
  | .board k => boardWrite k s { s with mem := memPutBlock s.mem block ws }

/-- `BusInvalidate`: every other cache drops the line (R452, R455). -/
def busInvalidate (s : State) (g : GlobalAddr) : State := { s with remote := lineDrop s.remote (lineNumber g) }

/-! ### Line levels of the START, ACK and VACK cycles; `true` is an asserted line (low, logic 1) -/

/-- A NuBus transfer (R436). -/
inductive BusTransfer where
  | byte (write : Bool) (k : BitVec 2)
  | half (write : Bool) (k : BitVec 1)
  | block (write : Bool)
  | word (write : Bool)
  deriving DecidableEq, Repr

/-- Table 2.2, from TM1, TM0, AD<1>, AD<0> (R436). -/
def startTransfer (tm1 tm0 ad1 ad0 : Bool) : BusTransfer :=
  if tm0 then .byte tm1 (BitVec.ofBool ad1 ++ BitVec.ofBool ad0)
  else match ad1, ad0 with
    | true, true => .half tm1 1#1
    | true, false => .block tm1
    | false, true => .half tm1 0#1
    | false, false => .word tm1

/-- Table 2.3: the words of a block transfer, from AD<5..2>; none where the demanded line is asserted (R437). -/
def blockWords (ad5 ad4 ad3 ad2 : Bool) : Option Nat :=
  if !ad2 then some 2 else if !ad3 then some 4 else if !ad4 then some 8 else if !ad5 then some 16 else none

/-- The transfers a SpurBoard issues (R448). -/
def spurIssues (t : BusTransfer) (words : Nat) : Bool :=
  match t with
  | .word _ => words == 1
  | .block _ => words == 8
  | .byte _ _ => false
  | .half _ _ => false

/-- The status of an ACK cycle (R441). -/
inductive BusStatus where
  | successful
  | unspecifiedError
  | busTimeoutError
  | tryAgainLater
  deriving DecidableEq, Repr

/-- Table 2.4, from TM1, TM0 (R441). -/
def ackStatus (tm1 tm0 : Bool) : BusStatus :=
  match tm1, tm0 with
  | true, true => .successful
  | true, false => .unspecifiedError
  | false, true => .busTimeoutError
  | false, false => .tryAgainLater

/-- The statuses that are a bus fault for the master's CPU (R441). -/
def statusFaults : BusStatus → Bool
  | .successful => false
  | .unspecifiedError => true
  | .busTimeoutError => true
  | .tryAgainLater => false

/-- The inter-cache part of a bus operation (R450). -/
inductive SnoopOp where
  | none
  | writeForInvalidation
  | readShared
  | readForOwnership
  deriving DecidableEq, Repr

/-- Table 4.2, from VTM0, TM1, VTM1 (R450). -/
def snoopCode (vtm0 tm1 vtm1 : Bool) : SnoopOp :=
  if !vtm0 then .none else if tm1 then .writeForInvalidation else if vtm1 then .readForOwnership else .readShared

/-- Table 4.3, from VTM0, VTM1 (R453). -/
def vackStatus (vtm0 vtm1 : Bool) : VackStatus :=
  if vtm0 then (if vtm1 then .dirty else .clean) else .unspecifiedError

end Sys2Proof.Machine
end

