-- ==== Sys2Proof/Machine/Cache.lean ====
section
/-! DEFINITION. The cache and memory management of the node: translation (spec/20_memory.md R81, R93 to R102), data
accesses `MemRead` and `MemWrite` (R118), the cache controller's registers (R105), snooped operations (R112). -/

namespace Sys2Proof.Machine

open Sys2Proof

/-- The kind of an access: the cache operations R, RO, RA, TS, W of the source's tables, and an instruction fetch. -/
inductive AccessKind where
  | read
  | readOwn
  | readAnyway
  | testSet
  | write
  | fetch
  deriving DecidableEq, Repr

/-- The kinds that `Permits` and the dirty check treat as a write (R99, R101). -/
def kindWrites : AccessKind → Bool
  | .read => false
  | .readOwn => false
  | .readAnyway => false
  | .testSet => true
  | .write => true
  | .fetch => false

/-- The kinds that leave the line owned private (R112). -/
def kindOwns : AccessKind → Bool
  | .read => false
  | .readOwn => true
  | .readAnyway => false
  | .testSet => true
  | .write => true
  | .fetch => false

/-- The page fault of a kind (R104). -/
def pageFault : AccessKind → FaultCause
  | .read => .dataPageFault
  | .readOwn => .dataPageFault
  | .readAnyway => .dataPageFault
  | .testSet => .dataPageFault
  | .write => .dataPageFault
  | .fetch => .instructionPageFault

/-! ### Lines by global virtual address (R63, log 9) -/

/-- The index of the line: gva[16:5]. -/
def lineIndex (g : GlobalAddr) : Nat := (g.extractLsb' 5 12).toNat

/-- The virtual tag: gva[37:17]. -/
def lineTag (g : GlobalAddr) : BitVec 21 := g.extractLsb' 17 21

/-- The line holding a global virtual address, if it is in the cache. -/
def cacheProbe (s : State) (g : GlobalAddr) : Option Line :=
  match lineGet s.cache (lineIndex g) with
  | some l => if l.vtag = lineTag g then some l else none
  | none => none

/-- The word of a line that an address selects. -/
def lineWord (l : Line) (g : GlobalAddr) : Word := l.words[(g.extractLsb' 2 3).toNat]'(g.extractLsb' 2 3).isLt

/-- That word replaced: the block becomes dirty (R63). -/
def lineSetWord (l : Line) (g : GlobalAddr) (w : Word) : Line :=
  { l with words := l.words.set (g.extractLsb' 2 3).toNat w (g.extractLsb' 2 3).isLt, blockDirty := true }

/-- The line installed at an address's index. -/
def installLine (s : State) (g : GlobalAddr) (l : Line) : State :=
  { s with cache := linePut s.cache (lineIndex g) l }

/-- A displaced line that must be written back: owned and dirty (R112 "replacement"). -/
def mustWriteBack (l : Line) : Bool := l.state != .unowned && l.blockDirty

/-- The line at an address's index invalid. -/
def dropLine (s : State) (g : GlobalAddr) : State := { s with cache := lineDrop s.cache (lineIndex g) }

/-- The line `l` at an address's index leaves the cache, written back to memory first if `back` says so. Where the
write-back ends in a bus error the line stays, valid and dirty, and the access is a bus fault: a DESIGN CHOICE, since no
rule says what becomes of it (log 9). -/
def leaveCache (s : State) (g : GlobalAddr) (l : Line) (back : Bool) : Access Unit :=
  if back then accessThen (busWriteLine s l.ptag l.words) (fun _ s1 => .done () (dropLine s1 g))
  else .done () (dropLine s g)

/-- The line at an address's index is displaced: written back if it must be (R112). -/
def evict (s : State) (g : GlobalAddr) : Access Unit :=
  match lineGet s.cache (lineIndex g) with
  | none => .done () s
  | some l => leaveCache s g l (mustWriteBack l)

/-- The block of an address on a physical page. -/
def blockOn (ppn : BitVec 20) (g : GlobalAddr) : BitVec 27 := ppn ++ g.extractLsb' 5 7

/-- The line that a block becomes in the cache, with the attributes of `pte`: the page-dirty bit, the protection bits and
the cacheable mark are copied (R97, R101); the block-dirty bit is as the block came (R453). -/
def filledLine (g : GlobalAddr) (pte : Word) (own : Bool) (f : FilledBlock) : Line :=
  { vtag := lineTag g, ptag := blockOn (ptePpn pte) g, state := if own then .ownedPrivate else .unowned,
    pageDirty := pteDirty pte, blockDirty := f.dirty, prot := pteProt pte,
    cacheable := !pteNc pte, words := f.words }

/-- The block holding `g` read into the cache (R93); `own` is a read for ownership (R112). The block is read before the
old line leaves (log 9). So an owner that supplies it has given up its copy by then: if the write-back of the old line ends
in a bus fault, the words supplied are in no cache and memory keeps its own, a DESIGN CHOICE (log 36). -/
def fillLine (s : State) (g : GlobalAddr) (pte : Word) (own : Bool) (slot : Nat) : Access Line :=
  accessThen (busReadLine s (blockOn (ptePpn pte) g) g own slot) (fun f s1 =>
    accessThen (evict s1 g) (fun _ s2 => .done (filledLine g pte own f) (installLine s2 g (filledLine g pte own f))))

/-! ### Translation (R81, R93) -/

/-- The global virtual address of a process address (R81). -/
def globalAddr (s : State) (va : Word) : GlobalAddr :=
  (s.gsn[(va.extractLsb' 30 2).toNat]'(va.extractLsb' 30 2).isLt) ++ va.extractLsb' 0 30

/-- State VAref: GVA and PTEVA[27:0] latched (R57, R59). -/
def vaRef (s : State) (va : Word) : State :=
  let g := globalAddr s va
  { s with gva := g, pteva := s.pteva.extractLsb' 28 10 ++ g.extractLsb' 12 26 ++ 0#2 }

/-- The RPTEVA latch of state PTEref (R58). -/
def pteRefLatch (s : State) : State :=
  { s with rpteva := s.rpteva.extractLsb' 18 20 ++ s.pteva.extractLsb' 12 16 ++ 0#2 }

/-- State RPTEPAref: the second-level entry from physical memory (R96). It is not entered in the cache (log 10). -/
def walkRoot (s : State) (va : Word) (slot : Nat) : Access Word :=
  busRead s ((s.rptm[(va.extractLsb' 30 2).toNat]'(va.extractLsb' 30 2).isLt) ++ s.rpteva.extractLsb' 0 12) slot

/-- State RPTEVAref: the second-level entry, from the cache or from the root map (R93). -/
def walkSecond (s : State) (va : Word) (slot : Nat) : Access Word :=
  match cacheProbe s s.rpteva with
  | some l => .done (lineWord l s.rpteva) s
  | none => walkRoot s va slot

/-- States PTEref and FILL1: the first-level entry of the address latched in PTEVA (R93). Of the second-level entry
only the presence bit is checked (R97). -/
def walkFirst (s0 : State) (va : Word) (kind : AccessKind) (slot : Nat) : Access Word :=
  let s := pteRefLatch s0
  match cacheProbe s s.pteva with
  | some l => .done (lineWord l s.pteva) s
  | none =>
    accessThen (walkSecond s va slot) (fun pte2 s1 =>
      if ptePresent pte2 then
        accessMap (fun l => lineWord l s1.pteva) (fillLine s1 s1.pteva pte2 false (slot + 1))
      else .fault (pageFault kind) s1)

/-- Where a virtual access goes. -/
inductive Located where
  /-- to the line now in the cache at this address -/
  | cached (g : GlobalAddr) (l : Line)
  /-- to this physical word, as a one-word bus transfer (R84) -/
  | uncached (pa : Word)
  deriving DecidableEq, Repr

/-- The presence check of pte1: read anyway skips it (R97, R102). -/
def pageUsable (pte : Word) (kind : AccessKind) : Bool := ptePresent pte || kind == .readAnyway

/-- The checks on pte1, in the order presence, protection, REFERENCE (R97, R99, R100), and for a non-cacheable page
the page dirty bit, since there is no line to hold its copy (log 13). -/
def pteFault (s : State) (pte : Word) (kind : AccessKind) : Option FaultCause :=
  if !pageUsable pte kind then some (pageFault kind)
  else if !permits s (pteProt pte) (kindWrites kind) then some .accessViolation
  else if !pteRef pte then some .referenceTrap
  else if pteNc pte && kindWrites kind && !pteDirty pte then some .dirtyTrap
  else none

/-- The checks on a line that an access hits, from its copies of the entry's bits (R85): protection (R99), and for a line
of a non-cacheable page the page-dirty bit (log 13), which `writeLine` checks for the others. Protection goes first: a store
that fails both is an access violation. No rule orders the two: a DESIGN CHOICE (log 12). -/
def hitFault (s : State) (l : Line) (kind : AccessKind) : Option FaultCause :=
  if !permits s l.prot (kindWrites kind) then some .accessViolation
  else if !l.cacheable && kindWrites kind && !l.pageDirty then some .dirtyTrap
  else none

/-- The physical address of `va` in a line: the line's block and the place in it. -/
def lineAddr (l : Line) (va : Word) : Word := l.ptag ++ va.extractLsb' 0 5

/-- A hit goes to the line; on a line that carries the mark of a non-cacheable page, which only the walk can bring in, to
the physical word (R84, R118): a DESIGN CHOICE (log 11). -/
def locateHit (s : State) (g : GlobalAddr) (va : Word) (l : Line) (kind : AccessKind) : Access Located :=
  match hitFault s l kind with
  | some c => .fault c s
  | none => .done (if l.cacheable then .cached g l else .uncached (lineAddr l va)) s

/-- A virtual access as far as the data: hit, or walk and fill (R85, R93). -/
def locate (s0 : State) (va : Word) (kind : AccessKind) (slot : Nat) : Access Located :=
  let s := vaRef s0 va
  let g := globalAddr s0 va
  match cacheProbe s g with
  | some l => locateHit s g va l kind
  | none =>
    accessThen (walkFirst s va kind slot) (fun pte s1 =>
      match pteFault s1 pte kind with
      | some c => .fault c s1
      | none =>
        if pteNc pte then .done (.uncached (ptePpn pte ++ va.extractLsb' 0 12)) s1
        else accessMap (fun l => .cached g l) (fillLine s1 g pte (kindOwns kind) (slot + 2)))

/-- The line becomes owned private where the access takes ownership (R112). -/
def ownLine (l : Line) (kind : AccessKind) : Line := if kindOwns kind then { l with state := .ownedPrivate } else l

/-- The bus operation that gains the ownership of a line held here (R112): a write for invalidation, unless the line is
owned private already (log 36). -/
def gainOwnership (s : State) (g : GlobalAddr) (l : Line) : State :=
  if l.state = .ownedPrivate then s else busInvalidate s g

/-- The line after a read: kept, or its ownership taken. -/
def readState (s : State) (g : GlobalAddr) (l : Line) (kind : AccessKind) : State :=
  if kindOwns kind then installLine (gainOwnership s g l) g (ownLine l kind) else s

/-! ### Data accesses (R118); addresses are aligned by the caller -/

/-- `MemRead(a, 4, kind)` in the space chosen by `virt` (R80). -/
def readWord (s : State) (virt : Bool) (a : Word) (kind : AccessKind) (slot : Nat) : Access Word :=
  if virt then
    accessThen (locate s a kind slot) (fun where_ s1 =>
      match where_ with
      | .cached g l => .done (lineWord l g) (readState s1 g l kind)
      | .uncached pa => busRead s1 pa (slot + 3))
  else busRead s a (slot + 3)

/-- The doubleword of a line that an 8-aligned address selects (R70). -/
def lineDouble (l : Line) (g : GlobalAddr) : DWord := lineWord l (g ||| 4#38) ++ lineWord l g

/-- `MemRead(a, 8, kind)`: cacheable virtual pages only (R83, R84). -/
def readDouble (s : State) (virt : Bool) (a : Word) (kind : AccessKind) (slot : Nat) : Access DWord :=
  if virt then
    accessThen (locate s a kind slot) (fun where_ s1 =>
      match where_ with
      | .cached g l => .done (lineDouble l g) (readState s1 g l kind)
      | .uncached _ => .refused .notCacheable)
  else .refused .notCacheable

/-- A write to a line: the dirty trap, or ownership taken and the line changed (R101, R112). The protection has been
checked before, a DESIGN CHOICE (log 12). -/
def writeLine (s : State) (g : GlobalAddr) (l : Line) (kind : AccessKind) (change : Line → Line) : Access Unit :=
  if l.pageDirty then .done () (installLine (gainOwnership s g l) g (change (ownLine l kind)))
  else .fault .dirtyTrap s

/-- `MemWrite(a, 4, w)`. -/
def writeWord (s : State) (virt : Bool) (a w : Word) (slot : Nat) : Access Unit :=
  if virt then
    accessThen (locate s a .write slot) (fun where_ s1 =>
      match where_ with
      | .cached g l => writeLine s1 g l .write (fun l1 => lineSetWord l1 g w)
      | .uncached pa => busWrite s1 pa w)
  else busWrite s a w

/-- `MemWrite(a, 8, d)`: cacheable virtual pages only (R83, R84). -/
def writeDouble (s : State) (virt : Bool) (a : Word) (d : DWord) (slot : Nat) : Access Unit :=
  if virt then
    accessThen (locate s a .write slot) (fun where_ s1 =>
      match where_ with
      | .cached g l =>
        writeLine s1 g l .write
          (fun l1 => lineSetWord (lineSetWord l1 g (d.extractLsb' 0 32)) (g ||| 4#38) (d.extractLsb' 32 32))
      | .uncached _ => .refused .notCacheable)
  else .refused .notCacheable

/-- The atomic read and set of bit 0 (R111, R158): the old word. -/
def testAndSetWord (s : State) (virt : Bool) (a : Word) (slot : Nat) : Access Word :=
  if virt then
    accessThen (locate s a .testSet slot) (fun where_ s1 =>
      match where_ with
      | .cached g l =>
        accessMap (fun _ => lineWord l g)
          (writeLine s1 g l .testSet (fun l1 => lineSetWord l1 g (lineWord l g ||| 1#32)))
      | .uncached _ => .refused .notCacheable)
  else .refused .notCacheable

/-! ### Cache controller registers (R105, R106) -/

/-- A register byte of the address map. -/
inductive CcByte where
  /-- byte `b` of RPTMn -/
  | rptm (n : BitVec 2) (b : Nat)
  | gsn (n : BitVec 2)
  | pteva (b : Nat)
  | rpteva (b : Nat)
  | intmask (b : Nat)
  | intclr (b : Nat)
  | intreg (b : Nat)
  /-- a code with no row (U43) -/
  | unlisted
  deriving DecidableEq, Repr

/-- The address map: type <11:9>, no. <8:7>, byte <6:4> (R105). -/
def ccDecode (ea : Word) : CcByte :=
  let type := (ea.extractLsb' 9 3).toNat
  let no : BitVec 2 := ea.extractLsb' 7 2
  let b := (ea.extractLsb' 4 3).toNat
  match type with
  | 0 => if b ≤ 2 then .rptm no b else if b = 3 then .gsn no else .unlisted
  | 2 => if no = 0#2 ∧ b ≤ 4 then .pteva b else .unlisted
  | 3 => if no = 0#2 ∧ b ≤ 4 then .rpteva b else .unlisted
  | 4 => if no = 0#2 ∧ b ≤ 3 then .intmask b else .unlisted
  | 5 => if no = 0#2 ∧ b ≤ 3 then .intclr b else .unlisted
  | 6 => if no = 0#2 ∧ b ≤ 3 then .intreg b else .unlisted
  | _ => .unlisted

/-- Byte `b` of a register. -/
def byteAt {w : Nat} (v : BitVec w) (b : Nat) : Byte := v.extractLsb' (8 * b) 8

/-- A register with byte `b` replaced; bits outside the register are dropped (R105). -/
def withByte {w : Nat} (v : BitVec w) (b : Nat) (x : Byte) : BitVec w :=
  (v &&& ~~~((0xFF#8).setWidth w <<< (8 * b))) ||| (x.setWidth w <<< (8 * b))

/-- What a register byte reads as, and how many of its low bits are the register's: the rest is any value (R106,
U43, U44, log 23). -/
def ccRead (s : State) : CcByte → Byte × Nat
  | .rptm n b => (byteAt (s.rptm[n.toNat]'n.isLt) b, if b = 2 then 4 else 8)
  | .gsn n => (s.gsn[n.toNat]'n.isLt, 8)
  | .pteva b => (byteAt s.pteva b, if b = 4 then 6 else 8)
  | .rpteva b => (byteAt s.rpteva b, if b = 4 then 6 else 8)
  | .intmask b => (byteAt s.intmask b, 8)
  | .intclr _ => (0#8, 0)
  | .intreg b => (byteAt s.intreg b, 8)
  | .unlisted => (0#8, 0)

/-- The low `n` bits of a byte kept, the others taken from `x`. -/
def lowBits (n : Nat) (v x : Byte) : Byte :=
  let m : Byte := BitVec.ofNat 8 (2 ^ n - 1)
  (v &&& m) ||| (x &&& ~~~m)

/-- The 40 data lines of LD_CACHE: the register byte in data[7:0], any value elsewhere (R159). -/
def ccReadLines (s : State) (ea : Word) : Tagged :=
  let f : BitVec 40 := freeVal s slotCc 40
  let r := ccRead s (ccDecode ea)
  { taggen := f.extractLsb' 32 8, data := f.extractLsb' 8 24 ++ lowBits r.2 r.1 (f.extractLsb' 0 8) }

/-- ST_CACHE of a byte (R105, R183, R370). The low two bits of PTEVA and RPTEVA stay 0 (R57, R58); whether a store to
INTREG's own address writes it is not defined, so a free bit decides (R370, log 23). -/
def ccWrite (s : State) (x : Byte) : CcByte → State
  | .rptm n b => { s with rptm := s.rptm.set n.toNat (withByte (s.rptm[n.toNat]'n.isLt) b x) n.isLt }
  | .gsn n => { s with gsn := s.gsn.set n.toNat x n.isLt }
  | .pteva b => { s with pteva := withByte s.pteva b x &&& ~~~3#38 }
  | .rpteva b => { s with rpteva := withByte s.rpteva b x &&& ~~~3#38 }
  | .intmask b => { s with intmask := withByte s.intmask b x }
  | .intclr b => { s with intreg := s.intreg &&& ~~~(x.setWidth 32 <<< (8 * b)) }
  | .intreg b =>
    if (freeVal s slotCc 1).getLsbD 0 then { s with intreg := withByte s.intreg b x } else s
  | .unlisted => s

/-! ### Other agents' bus operations seen by this cache, and the flush of R115; between steps (log 8) -/

/-- What a snooped operation does to a line that this cache holds (R112): the line afterwards, and whether this cache
supplies it. -/
def snoopResult (op : SnoopOp) (l : Line) : Option Line × Bool :=
  match op with
  | .none => (some l, false)
  | .readShared =>
    match l.state with
    | .unowned => (some l, false)
    | .ownedShared => (some l, true)
    | .ownedPrivate => (some { l with state := .ownedShared }, true)
  | .readForOwnership => (none, l.state != .unowned)
  | .writeForInvalidation => (none, false)

/-- What this cache sends on the inter-cache path when it supplies a line: its words and the status of the VACK cycle
(R451, R453). -/
def snoopReply (op : SnoopOp) (l : Line) : Option (Vector Word 8 × VackStatus) :=
  if (snoopResult op l).2 then some (l.words, if l.blockDirty then .dirty else .clean) else none

/-- A snooped operation on the line of `g`. A line that this cache supplies leaves the counter in GVA<4:2> as it was, a DESIGN
CHOICE: whether supplying is one of the "cache block updates" of R59 is not said (log 37). -/
def snoopLine (op : SnoopOp) (g : GlobalAddr) (s : State) : State :=
  match cacheProbe s g with
  | none => s
  | some l =>
    match (snoopResult op l).1 with
    | some l1 => installLine s g l1
    | none => dropLine s g

/-- `FlushLine(gva)`: written back if its block is dirty, owned or not, then invalid; it stands for an unknown operation
of ST_CACHE or LD_CACHE (R115). -/
def flushLine (g : GlobalAddr) (s : State) : Access Unit :=
  match cacheProbe s g with
  | none => .done () s
  | some l => leaveCache s g l l.blockDirty

end Sys2Proof.Machine
end

