-- ==== Sys2Proof/Machine/InstructionBuffer.lean ====
section
/-! DEFINITION. The instruction buffer (spec/10_state.md R62) and the words that it may still hold (spec/20_memory.md
R110, log 15). -/

namespace Sys2Proof.Machine

open Sys2Proof

/-- The block part of an instruction address. -/
def ibTag (a : Word) : BitVec 27 := a.extractLsb' 5 27

/-- The word number within the block. -/
def ibWord (a : Word) : BitVec 3 := a.extractLsb' 2 3

/-- The block an address selects. -/
def ibSelect (s : State) (a : Word) : IbBlock := s.ib[(Config.ibBlock (ibTag a)).toNat]'(Config.ibBlock (ibTag a)).isLt

/-- The buffered word of an address, if its entry is valid. -/
def ibHit (s : State) (a : Word) : Option Word :=
  let b := ibSelect s a
  if b.tag = ibTag a ∧ b.valid.getLsbD (ibWord a).toNat then some (b.words[(ibWord a).toNat]'(ibWord a).isLt) else none

/-- A fetched word enters the buffer; a block of another address loses its valid bits. -/
def ibFill (s : State) (a w : Word) : State :=
  let b := ibSelect s a
  let old : BitVec 8 := if b.tag = ibTag a then b.valid else 0#8
  let b1 : IbBlock :=
    { tag := ibTag a, valid := setBit old (ibWord a).toNat true,
      words := b.words.set (ibWord a).toNat w (ibWord a).isLt }
  { s with ib := s.ib.set (Config.ibBlock (ibTag a)).toNat b1 (Config.ibBlock (ibTag a)).isLt }

/-- The next address to prefetch, within the block (R62). -/
def nextInBlock (a : Word) : Option Word := if ibWord a = 7#3 then none else some (a + 4#32)

/-- Every block of the instruction buffer changed. -/
def eachBlock (s : State) (f : IbBlock → IbBlock) : State :=
  { s with ib := Vector.ofFn (fun k : Fin 16 => f (s.ib[k.val]'k.isLt)) }

/-- Every valid bit of the instruction buffer cleared (R238). -/
def clearIb (s : State) : State := eachBlock s (fun b => { b with valid := 0#8 })

/-! ### Words of the past (R110) -/

/-- The node as a fetch saw it at a moment that `v` remembers. -/
def asOf (s : State) (v : FetchView) : State :=
  { s with
    kpsw := v.kpsw, gsn := v.gsn, rptm := v.rptm, pteva := v.pteva, rpteva := v.rpteva, cache := v.cache,
    remote := v.remote, mem := v.mem }

/-- The word that a fetch at `a` gave at that moment, if it gave one. -/
def pastWord (s : State) (v : FetchView) (a : Word) : Option Word :=
  match readWord (asOf s v) (kpswVaIfetch (asOf s v)) a .fetch slotPast with
  | .done w _ => some w
  | .fault _ _ => none
  | .stuck _ => none
  | .refused _ => none

/-- The word that the buffer gives for `a` in place of the current one, if it does: a word that memory held there at any
moment since the last INVALIDATE_IB, or the entry of `ib`. The hardware's choice is a free value (R110, log 15). -/
def staleWord (s : State) (slot : Nat) (a : Word) : Option Word :=
  match s.past[(freeVal s slot 32).toNat]? with
  | some v => pastWord s v a
  | none => if (freeVal s slot 1).getLsbD 0 then ibHit s a else none

/-- No entry of the buffer is valid and no word of the past is left (R238, R110). -/
def emptyBuffer (s : State) : State := { clearIb s with past := [] }

/-- The next instruction's word where the buffer has given it already, so that INVALIDATE_IB does not refetch it; none
where it comes from the cache or memory as it now is (R238, R110). -/
def fetchedAhead (s : State) : Option Word := if kpswIbEn s then staleWord s slotReady s.nextPC else none

end Sys2Proof.Machine
end

