-- ==== Sys2Proof/Machine/Fpu.lean ====
section
/-! DEFINITION. The floating-point unit (spec/46_floating_point.md): the value model, memory formats, rounding,
arithmetic, comparison, the FPU PSW, and the order in which an FPU instruction meets its checks. -/

namespace Sys2Proof.Machine

open Sys2Proof

/-! ### Values (R301) -/

/-- What an FPU register is read as. -/
inductive FpVal where
  | zero (s : Bool)
  /-- (-1)^s x (m / 2^63) x 2^e -/
  | norm (s : Bool) (e : Int) (m : BitVec 64)
  | denorm (s : Bool) (m : BitVec 64)
  | inf (s : Bool)
  | qnan (s : Bool) (m : BitVec 64)
  | snan (s : Bool) (m : BitVec 64)
  /-- an integer image, or a value of unknown category: any result and flags (R301) -/
  | unknown
  deriving DecidableEq, Repr

/-- The true exponent of E: "-1 stands for 0, 0 stands for 1" (R48). -/
def trueExp (e : BitVec 17) : Int := e.toInt + 1

/-- The value of a register; none where T disagrees with the other fields (R165, U32, log 22). -/
def classify (x : FpReg) : Option FpVal :=
  if x.image then some .unknown
  else if x.type = typeZero then (if x.frac = 0#64 then some (.zero x.sign) else none)
  else if x.type = typeDenorm then
    (if x.frac.getLsbD 63 = false ∧ x.frac ≠ 0#64 then some (.denorm x.sign x.frac) else none)
  else if x.type = typeNorm then
    (if x.frac.getLsbD 63 then some (.norm x.sign (trueExp x.exp) x.frac) else none)
  else if x.type = typeInf then some (.inf x.sign)
  else if x.type = typeQNaN then some (.qnan x.sign x.frac)
  else if x.type = typeSNaN then some (.snan x.sign x.frac)
  else none

/-- The exception flags of one operation (R307). -/
structure FpFlags where
  operand : Bool
  overflow : Bool
  underflow : Bool
  inexact : Bool
  deriving DecidableEq, Repr

def noFlags : FpFlags := { operand := false, overflow := false, underflow := false, inexact := false }
def operandFlag : FpFlags := { noFlags with operand := true }

/-- Flags of which nothing is known (R301). -/
def freeFlags (s : State) : FpFlags :=
  { operand := (freeVal s slotFpFlags 1).getLsbD 0
    overflow := (freeVal s (slotFpFlags + 1) 1).getLsbD 0
    underflow := (freeVal s (slotFpFlags + 2) 1).getLsbD 0
    inexact := (freeVal s (slotFpFlags + 3) 1).getLsbD 0 }

/-! ### Registers made from values. Fields that are not meaningful for a category are free (R49, log 21). -/

/-- A register of unknown contents. -/
def unknownReg (s : State) : FpReg := freeFpReg s slotFpResult

/-- The E field of a true exponent; any value if it does not fit 17 bits (R307). -/
def expField (s : State) (e : Int) : BitVec 17 :=
  if -65535 ≤ e ∧ e ≤ 65536 then BitVec.ofInt 17 (e - 1) else freeVal s (slotFpResult + 1) 17

/-- Zero(sign), R exact. -/
def zeroReg (s : State) (sign : Bool) : FpReg :=
  { unknownReg s with sign := sign, type := typeZero, rtag := rtagExact, frac := 0#64, image := false }

/-- Inf(sign), R exact. -/
def infReg (s : State) (sign : Bool) : FpReg :=
  { unknownReg s with sign := sign, type := typeInf, rtag := rtagExact, image := false }

/-- QNaN(sign, m), R exact. -/
def qnanReg (s : State) (sign : Bool) (m : BitVec 64) : FpReg :=
  { unknownReg s with sign := sign, type := typeQNaN, rtag := rtagExact, frac := m, image := false }

/-- Norm(sign, e, m) with a rounding tag. -/
def normReg (s : State) (sign : Bool) (e : Int) (m : BitVec 64) (r : BitVec 2) : FpReg :=
  { sign := sign, exp := expField s e, type := typeNorm, rtag := r, frac := m, image := false }

/-- IntImage(w): F = w @ 0, and S, E, T, R any value (R169, R301). -/
def intImageReg (s : State) (w : Word) : FpReg := { unknownReg s with frac := w ++ 0#32 }

/-! ### Memory formats (R302 to R304) -/

/-- The fields both unpacking functions give once the fraction is at the top of F (R302, R303). -/
def unpackFields (s : State) (sign : Bool) (exp : BitVec 17) (beZero beOnes frZero frTop : Bool) (m : BitVec 64) :
    FpReg :=
  let x : FpReg := { unknownReg s with sign := sign, exp := exp, rtag := rtagExact, image := false }
  let top : BitVec 64 := 1#64 <<< 63
  if beZero then
    (if frZero then { x with type := typeZero, frac := 0#64 } else { x with type := typeDenorm, frac := m })
  else if beOnes then
    (if frZero then { x with type := typeInf }
     else if frTop then { x with type := typeQNaN, frac := top ||| m }
     else { x with type := typeSNaN, frac := top ||| m })
  else { x with type := typeNorm, frac := top ||| m }

/-- `UnpackSingle` (R302). -/
def unpackSingle (s : State) (w : Word) : FpReg :=
  let be := w.extractLsb' 23 8
  let fr := w.extractLsb' 0 23
  unpackFields s (w.getLsbD 31) (be.setWidth 17 - 128#17) (be == 0#8) (be == 0xFF#8) (fr == 0#23) (fr.getLsbD 22)
    (0#1 ++ fr ++ 0#40)

/-- `UnpackDouble` (R303). -/
def unpackDouble (s : State) (d : DWord) : FpReg :=
  let be := d.extractLsb' 52 11
  let fr := d.extractLsb' 0 52
  unpackFields s (d.getLsbD 63) (be.setWidth 17 - 1024#17) (be == 0#11) (be == 0x7FF#11) (fr == 0#52) (fr.getLsbD 51)
    (0#1 ++ fr ++ 0#11)

/-- Sign, biased exponent and fraction for `PackSingle` and `PackDouble` (R304); none is "anything else". `k` low
fraction bits do not fit the format. -/
def packParts (x : FpReg) (fmt : FpFormat) (k : Nat) : Option (Bool × Int) :=
  let exact : Bool := x.frac.toNat % 2 ^ k == 0
  let allOnes : Int := 2 * fmt.emax + 1
  match classify x with
  | some (.zero s) => some (s, 0)
  | some (.norm s e _) => if fmt.emin ≤ e ∧ e ≤ fmt.emax ∧ exact then some (s, e + fmt.emax) else none
  | some (.denorm s _) => if exact then some (s, 0) else none
  | some (.inf s) => some (s, allOnes)
  | some (.qnan s _) => some (s, allOnes)
  | some (.snan s _) => some (s, allOnes)
  | some .unknown => none
  | none => none

/-- F as the packed image takes it: 0 for an infinity. -/
def packFrac (x : FpReg) : BitVec 64 := if x.type = typeInf then 0#64 else x.frac

/-- `PackSingle` (R304); any value for a register that does not fit the format (U33). -/
def packSingle (s : State) (x : FpReg) : Word :=
  match packParts x fmtSingle 40 with
  | some (sg, be) => BitVec.ofBool sg ++ BitVec.ofInt 8 be ++ (packFrac x).extractLsb' 40 23
  | none => freeVal s slotStore 32

/-- `PackDouble` (R304). -/
def packDouble (s : State) (x : FpReg) : DWord :=
  match packParts x fmtDouble 11 with
  | some (sg, be) => BitVec.ofBool sg ++ BitVec.ofInt 11 be ++ (packFrac x).extractLsb' 11 52
  | none => freeVal s slotStore 64

/-! ### Rounding (R305, R306) -/

/-- Whether the magnitude is rounded up, from the low part, twice the remainder against the unit, and the mode. -/
def roundsUp (rm : BitVec 2) (sign : Bool) (lo rest unit : Nat) : Bool :=
  if rm = rmNearest then decide (unit < 2 * rest) || (decide (2 * rest = unit) && decide (lo % 2 = 1))
  else if rm = rmZero then false
  else if rm = rmPlusInf then decide (0 < rest) && !sign
  else decide (0 < rest) && sign

/-- `n` scaled by 2^k, as numerator and denominator. -/
def scaleUp (n : Nat) (k : Int) : Nat := n <<< k.toNat

/-- floor(log2 (num / den)), for positive `num` and `den`. -/
def floorLog2 (num den : Nat) : Int :=
  let e : Int := (Nat.log2 num : Int) - (Nat.log2 den : Int)
  if scaleUp den e ≤ scaleUp num (-e) then e else e - 1

/-- A rounded magnitude: exponent, `p`-bit significand, inexact, rounded up. -/
structure Rounded where
  exp : Int
  sig : Nat
  inexact : Bool
  up : Bool
  deriving DecidableEq, Repr

/-- `Round` of the positive number (num / den) x 2^scale to `p` significant bits (R305). -/
def roundMag (sign : Bool) (num den : Nat) (scale : Int) (p : Nat) (rm : BitVec 2) : Rounded :=
  let e := floorLog2 num den
  let sh : Int := (p : Int) - 1 - e
  let n := scaleUp num sh
  let d := scaleUp den (-sh)
  let lo := n / d
  let rest := n % d
  let up := roundsUp rm sign lo rest d
  let q := if up then lo + 1 else lo
  if q = 2 ^ p then { exp := e + 1 + scale, sig := 2 ^ (p - 1), inexact := decide (0 < rest), up := up }
  else { exp := e + scale, sig := q, inexact := decide (0 < rest), up := up }

/-- The rounding tag of a rounded result (R305). -/
def rtagOf (r : Rounded) : BitVec 2 := if r.inexact then (if r.up then rtagUp else rtagDown) else rtagExact

/-- The overflow and underflow of a normalized result (R307). -/
def rangeFlags (fmt : FpFormat) (e : Int) (inexact : Bool) : FpFlags :=
  { operand := false, overflow := decide (fmt.emax < e), underflow := decide (e < fmt.emin), inexact := inexact }

/-- An operation's result and flags. -/
structure FpResult where
  reg : FpReg
  flags : FpFlags
  deriving DecidableEq, Repr

/-- A rounded number as a result, range-checked (R307). -/
def roundedResult (s : State) (fmt : FpFormat) (sign : Bool) (num den : Nat) (scale : Int) : FpResult :=
  let r := roundMag sign num den scale fmt.prec (s.fpsw.extractLsb' 0 2)
  { reg := normReg s sign r.exp (BitVec.ofNat 64 (r.sig <<< (64 - fmt.prec))) (rtagOf r)
    flags := rangeFlags fmt r.exp r.inexact }

/-- A result with no flag. -/
def plain (x : FpReg) : FpResult := { reg := x, flags := noFlags }

/-- An exact copy of a normalized number, R exact, range-checked (R323, R307). -/
def exactNorm (s : State) (sign : Bool) (e : Int) (m : BitVec 64) : FpResult :=
  { reg := normReg s sign e m rtagExact, flags := rangeFlags fmtExtended e false }

/-- Invalid operation: the canonical quiet Not-a-Number (R307). -/
def invalidResult (s : State) : FpResult := { reg := qnanReg s false canonicalNaN, flags := operandFlag }

/-- A denormalized operand: result and other flags any value, `f_operand` set (R307, U35). -/
def denormResult (s : State) : FpResult :=
  { reg := unknownReg s, flags := { freeFlags s with operand := true } }

/-- An operand of unknown contents: result and flags any value (R301, U32). -/
def unknownResult (s : State) : FpResult := { reg := unknownReg s, flags := freeFlags s }

/-- The rounding mode in force (R50). -/
def roundingMode (s : State) : BitVec 2 := s.fpsw.extractLsb' 0 2

/-! ### Arithmetic (R323) -/

/-- The sign of an exact zero sum of unlike signs (R323). -/
def zeroSumSign (s : State) : Bool := roundingMode s == rmMinusInf

/-- Signed integer of a sign and a magnitude. -/
def signedMag (sign : Bool) (n : Nat) : Int := if sign then -(n : Int) else n

/-- x + y for normalized numbers: the exact sum, rounded (R305, R323). -/
def addNorm (s : State) (s1 : Bool) (e1 : Int) (m1 : BitVec 64) (s2 : Bool) (e2 : Int) (m2 : BitVec 64) : FpResult :=
  let low : Int := min e1 e2
  let sum : Int := signedMag s1 (scaleUp m1.toNat (e1 - low)) + signedMag s2 (scaleUp m2.toNat (e2 - low))
  if sum = 0 then plain (zeroReg s (zeroSumSign s))
  else roundedResult s fmtExtended (decide (sum < 0)) sum.natAbs 1 (low - 63)

/-- `Add` on numbers that are neither denormalized nor Not-a-Number (R323). -/
def addNumbers (s : State) : FpVal → FpVal → FpResult
  | .zero s1, .zero s2 => plain (zeroReg s (if s1 = s2 then s1 else zeroSumSign s))
  | .zero _, .norm s2 e2 m2 => exactNorm s s2 e2 m2
  | .norm s1 e1 m1, .zero _ => exactNorm s s1 e1 m1
  | .norm s1 e1 m1, .norm s2 e2 m2 => addNorm s s1 e1 m1 s2 e2 m2
  | .inf s1, .inf s2 => if s1 = s2 then plain (infReg s s1) else invalidResult s
  | .inf s1, _ => plain (infReg s s1)
  | _, .inf s2 => plain (infReg s s2)
  | _, _ => unknownResult s

/-- `Mul` on such numbers (R323). -/
def mulNumbers (s : State) : FpVal → FpVal → FpResult
  | .zero s1, .zero s2 => plain (zeroReg s (s1 != s2))
  | .zero s1, .norm s2 _ _ => plain (zeroReg s (s1 != s2))
  | .norm s1 _ _, .zero s2 => plain (zeroReg s (s1 != s2))
  | .norm s1 e1 m1, .norm s2 e2 m2 =>
    roundedResult s fmtExtended (s1 != s2) (m1.toNat * m2.toNat) 1 (e1 + e2 - 126)
  | .inf _, .zero _ => invalidResult s
  | .zero _, .inf _ => invalidResult s
  | .inf s1, .norm s2 _ _ => plain (infReg s (s1 != s2))
  | .norm s1 _ _, .inf s2 => plain (infReg s (s1 != s2))
  | .inf s1, .inf s2 => plain (infReg s (s1 != s2))
  | _, _ => unknownResult s

/-- `Div` on such numbers (R323); x / 0 sets `f_operand` and gives an infinity (R307). -/
def divNumbers (s : State) : FpVal → FpVal → FpResult
  | .zero s1, .norm s2 _ _ => plain (zeroReg s (s1 != s2))
  | .norm s1 _ _, .zero s2 => { reg := infReg s (s1 != s2), flags := operandFlag }
  | .zero _, .zero _ => invalidResult s
  | .inf s1, .norm s2 _ _ => plain (infReg s (s1 != s2))
  | .inf s1, .zero s2 => plain (infReg s (s1 != s2))
  | .norm s1 _ _, .inf s2 => plain (zeroReg s (s1 != s2))
  | .zero s1, .inf s2 => plain (zeroReg s (s1 != s2))
  | .inf _, .inf _ => invalidResult s
  | .norm s1 e1 m1, .norm s2 e2 m2 => roundedResult s fmtExtended (s1 != s2) m1.toNat m2.toNat (e1 - e2)
  | _, _ => unknownResult s

/-- The value is a signaling Not-a-Number. -/
def isSNaN : FpVal → Bool
  | .snan _ _ => true
  | _ => false

/-- The value is a quiet Not-a-Number. -/
def isQNaN : FpVal → Bool
  | .qnan _ _ => true
  | _ => false

/-- The value is denormalized. -/
def isDenorm : FpVal → Bool
  | .denorm _ _ => true
  | _ => false

/-- The quieted operand of a trapping Not-a-Number (R307). -/
def quieted (s : State) (x : FpReg) : FpResult := { reg := qnanReg s x.sign x.frac, flags := operandFlag }

/-- A two-operand operation: unknown contents, then denormalized operand, trapping Not-a-Number, quiet Not-a-Number
(the first such operand, unchanged), then the numbers (R307, R323). -/
def arith2 (s : State) (x y : FpReg) (a b : FpVal) (numbers : FpVal → FpVal → FpResult) : FpResult :=
  if a = .unknown ∨ b = .unknown then unknownResult s
  else if isDenorm a || isDenorm b then denormResult s
  else if isSNaN a then quieted s x
  else if isSNaN b then quieted s y
  else if isQNaN a then plain x
  else if isQNaN b then plain y
  else numbers a b

/-- `Negate`: a Not-a-Number is passed on unchanged (R312). -/
def negateVal : FpVal → FpVal
  | .zero s => .zero (!s)
  | .norm s e m => .norm (!s) e m
  | .denorm s m => .denorm (!s) m
  | .inf s => .inf (!s)
  | .qnan s m => .qnan s m
  | .snan s m => .snan s m
  | .unknown => .unknown

/-! ### Integers and conversions (R306, R318 to R321) -/

/-- `IntToFp` (R306): exact. -/
def intToFp (s : State) (w : Word) : FpReg :=
  if w = 0#32 then zeroReg s false
  else
    let a := w.toInt.natAbs
    normReg s (decide (w.toInt < 0)) (Nat.log2 a) (BitVec.ofNat 64 (a <<< (63 - Nat.log2 a))) rtagExact

/-- `FpToInt` on a normalized number: the rounded integer and whether it rounded (R306). -/
def normToInt (sign : Bool) (e : Int) (m : BitVec 64) (rm : BitVec 2) : Int × Bool :=
  let n := scaleUp m.toNat (e - 63)
  let d := scaleUp 1 (63 - e)
  let lo := n / d
  let rest := n % d
  (signedMag sign (if roundsUp rm sign lo rest d then lo + 1 else lo), decide (0 < rest))

/-- FIX (R319). -/
def fixResult (s : State) (a : FpVal) : FpResult :=
  match a with
  | .unknown => unknownResult s
  | .denorm _ _ => denormResult s
  | .zero _ => plain (intImageReg s 0#32)
  | .norm sg e m =>
    let r := normToInt sg e m (roundingMode s)
    if outOfRange32 r.1 then { reg := unknownReg s, flags := { noFlags with overflow := true } }
    else { reg := intImageReg s (BitVec.ofInt 32 r.1), flags := { noFlags with inexact := r.2 } }
  | .inf _ => { reg := unknownReg s, flags := operandFlag }
  | .qnan _ _ => { reg := unknownReg s, flags := operandFlag }
  | .snan _ _ => { reg := unknownReg s, flags := operandFlag }

/-- FLOAT (R318): undefined, so any value, if F[31:0] is not zero (U7). -/
def floatResult (s : State) (x : FpReg) : FpResult :=
  if x.frac.extractLsb' 0 32 = 0#32 then plain (intToFp s (x.frac.extractLsb' 32 32)) else plain (unknownReg s)

/-- CVTS and CVTD (R320, R321): `k` low fraction bits leave the format. -/
def convertResult (s : State) (fmt : FpFormat) (k : Nat) (x : FpReg) (a : FpVal) : FpResult :=
  match a with
  | .unknown => unknownResult s
  | .denorm _ _ => denormResult s
  | .snan _ _ => quieted s x
  | .qnan _ _ => plain { x with frac := (x.frac >>> k) <<< k }
  | .zero _ => plain x
  | .inf _ => plain x
  | .norm sg e m => roundedResult s fmt sg m.toNat 1 (e - 63)

/-! ### Comparison (R322) -/

/-- The order of two integers as a relation. -/
def intRel (a b : Int) : FpRel := if a < b then .lt else if a = b then .eq else .gt

/-- A finite number as an integer at the common exponent `low`. -/
def scaledVal (low : Int) : FpVal → Int
  | .norm s e m => signedMag s (scaleUp m.toNat (e - low))
  | _ => 0

/-- The exponent of a number for alignment. -/
def lowExp : FpVal → FpVal → Int
  | .norm _ e1 _, .norm _ e2 _ => min e1 e2
  | .norm _ e1 _, _ => e1
  | _, .norm _ e2 _ => e2
  | _, _ => 0

/-- The place of an infinity: -1, 0, +1. -/
def infRank : FpVal → Int
  | .inf s => if s then -1 else 1
  | _ => 0

/-- A free relation, for operands whose value is not defined (R301, R307). -/
def freeRel (s : State) : FpRel :=
  match (freeVal s slotFpRelation 2).toNat with
  | 0 => .un
  | 1 => .lt
  | 2 => .eq
  | _ => .gt

/-- `FpRelation` (R322). With a denormalized operand the relation is a free one, and UN beside a Not-a-Number: a DESIGN
CHOICE, since R322 orders real values while R307 leaves what such an operand gives any value and has no result register
to say it of (log 39). -/
def fpRelation (s : State) (a b : FpVal) : FpRel :=
  if a = .unknown ∨ b = .unknown then freeRel s
  else if isQNaN a || isSNaN a || isQNaN b || isSNaN b then .un
  else if isDenorm a || isDenorm b then freeRel s
  else if infRank a ≠ infRank b ∨ infRank a ≠ 0 then intRel (infRank a) (infRank b)
  else intRel (scaledVal (lowExp a b) a) (scaledVal (lowExp a b) b)

/-- The exception of a compare: a denormalized operand, a trapping Not-a-Number, or an unordered relation with
condition bit 4 set; with a denormalized or unknown operand the other flags are any value (R307, R322). -/
def compareFlags (s : State) (cond : BitVec 5) (a b : FpVal) (r : FpRel) : FpFlags :=
  if a = .unknown ∨ b = .unknown then freeFlags s
  else if isDenorm a || isDenorm b then { freeFlags s with operand := true }
  else { noFlags with operand := isSNaN a || isSNaN b || (r == .un && cond.getLsbD 4) }

/-! ### The FPU PSW and the end of an operation (R50, R308) -/

def fpswOtherEn (s : State) : Bool := s.fpsw.getLsbD 2
def fpswInexactEn (s : State) : Bool := s.fpsw.getLsbD 3
def fpswWrDest (s : State) : Bool := s.fpsw.getLsbD 4

/-- The four exception flags as FPSW bits 8 to 5. -/
def flagBits (f : FpFlags) : BitVec 15 :=
  (BitVec.ofBool f.operand ++ BitVec.ofBool f.overflow ++ BitVec.ofBool f.underflow ++ BitVec.ofBool f.inexact ++
    0#5).setWidth 15

/-- The FPSW with new operand type tags, and the flags ORed in: they are sticky (R308). -/
def fpswAfter (p : BitVec 15) (t1 : BitVec 3) (t2 : Option (BitVec 3)) (f : FpFlags) : BitVec 15 :=
  let t2v := t2.getD (p.extractLsb' 9 3)
  (t1 ++ t2v ++ p.extractLsb' 0 9) ||| flagBits f

/-- The operation ends with an enabled exception (R308). -/
def fpTrapping (s : State) (f : FpFlags) : Bool :=
  (fpswOtherEn s && (f.operand || f.overflow || f.underflow)) || (fpswInexactEn s && f.inexact)

/-- The pending exception set (R53, R308). -/
def setPending (s : State) (trapping : Bool) (kind : FpuExcKind) : State :=
  if trapping then { s with fpuExcep := true, fpuExcKind := kind } else s

/-- The kind of exception: D for the overflow of a FIX (R319). -/
def excKind (isFix : Bool) (f : FpFlags) : FpuExcKind :=
  if isFix && f.overflow then .integerOverflow else .floatingPoint

/-- The result of an operation with flags `f` goes to the destination: always without an enabled exception, else if
FPSW.wr_dest = 1 (R308). A FIX that overflows while trap 9 is off delivers its result, any value, in every case (R344, U34,
log 20). -/
def writesDest (s : State) (f : FpFlags) (isFix : Bool) : Bool :=
  !fpTrapping s f || fpswWrDest s || (isFix && f.overflow && !trapEnabled s .integerOverflow)

/-- `FpuFinish` (R308). -/
def fpuFinish (s : State) (d : RegField) (r : FpResult) (t1 : BitVec 3) (t2 : Option (BitVec 3)) (isFix : Bool) :
    State :=
  let trapping := fpTrapping s r.flags
  let s1 := if writesDest s r.flags isFix then writeFpu s d r.reg else s
  setPending { s1 with fpsw := fpswAfter s.fpsw t1 t2 r.flags } trapping (excKind isFix r.flags)

/-! ### The checks of an FPU instruction, in order (R300, R330, R331, log 29) -/

/-- `FpuUnavailable` (R331). -/
def fpuUnavailable (s : State) : Bool := upswFpuIllegal s || !s.board.fpuPresent

/-- The first check of every FPU instruction: illegal opcode if the FPU is unavailable; a coprocessor the sources do
not describe is outside the spec (R331). -/
def withFpu (s : State) (k : Out) : Out :=
  if fpuUnavailable s then raiseIllegal s
  else if upswFpuId s != fpuCoprocessorId then .refused .coprocessorAbsent
  else k

/-- Waiting until `fpuBusy` = 0 (R330). -/
def fpuWait (s : State) : State := { s with fpuRun := none }

/-- `FpuTrapEnabled` (R330). -/
def fpuTrapEnabled (s : State) : Bool := upswFpuEn s && kpswAllEn s

/-- The trap of the pending exception: type 4, or 9 for the integer overflow of a FIX (R319, R330). -/
def pendingTrap (s : State) : TrapType :=
  match s.fpuExcKind with
  | .floatingPoint => .floatingPoint
  | .integerOverflow => .integerOverflow

/-- A pending exception is taken and is no longer pending (R53, R330). While its trap is not enabled, type 9 by
UPSW.ovf_en too, it stays pending and the instruction goes on (R344, log 20). -/
def withPending (s : State) (k : State → Out) : Out :=
  if s.fpuExcep && fpuTrapEnabled s && trapEnabled s (pendingTrap s) then
    .next (takeTrap (pendingTrap s) { s with fpuExcep := false })
  else k s

/-- The wait and the pending exception: what an FPU operation, an FP compare and SYNC share (R330). -/
def fpuStart (s : State) (k : State → Out) : Out := withPending (fpuWait s) k

/-- The operation keeps the FPU busy in parallel mode; in sequential mode the CPU waits for it (R330, log 19). -/
def fpuLaunch (s : State) (d s1 s2 : RegField) (cycles : Nat) : State :=
  if upswFpuParallel s then { s with fpuRun := some { dest := d, src1 := s1, src2 := s2, cyclesLeft := cycles } }
  else s

/-- FPU_PC takes the address of the operation (R36). -/
def setFpuPc (s : State) : State := { s with fpuPc := s.pc.extractLsb' 2 30 }

/-- A data register named by every field of the list, and no destination that the load just before targets. -/
def fpuFieldsOk (fields : List RegField) : Bool := fields.all isFpuDataField

/-- `FpuOp` for one source (R300): `compute` gets the register and its value. -/
def fpuOp1 (d a : RegField) (cycles : Nat) (isFix : Bool) (compute : State → FpReg → Option FpResult) (s : State) :
    Out :=
  withFpu s (fpuStart s (fun s1 =>
    if !fpuFieldsOk [d, a] then .refused .fpuRegister
    else if fpuShadowed s1 d then .refused .shadowedWrite
    else
      let x := readFpu s1 slotFp1 a
      match compute s1 x with
      | none => .refused .inconsistentFpu
      | some r => .next (advance (fpuLaunch (fpuFinish (setFpuPc s1) d r x.type none isFix) d a a cycles))))

/-- `FpuOp` for two sources (R300). -/
def fpuOp2 (d a b : RegField) (cycles : Nat) (compute : State → FpReg → FpReg → Option FpResult) (s : State) : Out :=
  withFpu s (fpuStart s (fun s1 =>
    if !fpuFieldsOk [d, a, b] then .refused .fpuRegister
    else if fpuShadowed s1 d then .refused .shadowedWrite
    else
      let x := readFpu s1 slotFp1 a
      let y := readFpu s1 slotFp2 b
      match compute s1 x y with
      | none => .refused .inconsistentFpu
      | some r =>
        .next (advance (fpuLaunch (fpuFinish (setFpuPc s1) d r x.type (some y.type) false) d a b cycles))))

/-- A two-operand computation on registers: refused where a register is inconsistent (U32). -/
def compute2 (f : State → FpReg → FpReg → FpVal → FpVal → FpResult) (s : State) (x y : FpReg) : Option FpResult :=
  match classify x, classify y with
  | some a, some b => some (f s x y a b)
  | _, _ => none

/-- A one-operand computation on a register. -/
def compute1 (f : State → FpReg → FpVal → FpResult) (s : State) (x : FpReg) : Option FpResult :=
  match classify x with
  | some a => some (f s x a)
  | none => none

/-- FMOV, FABS, FNEG copy the fields whatever they hold; with `sign` the S field replaced (R315 to R317). -/
def copyResult (x : FpReg) (sign : Bool) : FpResult := plain { x with sign := sign }

/-- FABS and FNEG of a register of unknown contents: result and flags any value (R301). -/
def signResult (s : State) (x : FpReg) (sign : Bool) : FpResult :=
  if x.image then unknownResult s else copyResult x sign

/-- An FP compare as far as its outcome (R258): the checks, FPU_PC, the flags and tags of FPSW, `fpuBrT_F`; then the
branch is `k`'s. Directly after a TO_FPU of the FPU PSW it runs with the new PSW, as R184 says of an FPU operation, which
R300 lists apart from the compares: DEDUCED (log 27). -/
def fpCompare (cond a b : RegField) (s : State) (k : Bool → State → Out) : Out :=
  withFpu s (fpuStart s (fun s1 =>
    if !fpuFieldsOk [a, b] then .refused .fpuRegister
    else
      let x := readFpu s1 slotFp1 a
      let y := readFpu s1 slotFp2 b
      match classify x, classify y with
      | some va, some vb =>
        let r := fpRelation s1 va vb
        let f := compareFlags s1 cond va vb r
        let s2 := { setFpuPc s1 with
          fpsw := fpswAfter s1.fpsw x.type (some y.type) f
          fpuBrTF := fpCond cond r }
        k (fpCond cond r) (setPending s2 (fpTrapping s1 f) .floatingPoint)
      | _, _ => .refused .inconsistentFpu))

/-! ### FPU loads and stores (R172, R174, R407) -/

/-- In sequential mode an FPU load or store waits for the FPU (R150, R330). -/
def fpuMemWait (s : State) : State := if upswFpuParallel s then s else fpuWait s

/-- A running operation reads or will write the register (R172, R407). -/
def fpuUses (s : State) (n : RegField) : Bool :=
  match s.fpuRun with
  | some r => r.dest == n || r.src1 == n || r.src2 == n
  | none => false

/-- A running operation will write the register (R407). -/
def fpuWrites (s : State) (n : RegField) : Bool :=
  match s.fpuRun with
  | some r => r.dest == n
  | none => false

end Sys2Proof.Machine
end

