-- ==== Sys2Proof/Machine/Loads.lean ====
section
/-! DEFINITION. The load instructions (spec/40_loads.md R150 to R175). -/

namespace Sys2Proof.Machine

open Sys2Proof

/-- The tagged word of a doubleword: data in [31:0], tag byte in [39:32] (R151). -/
def taggedOf (d : DWord) : Tagged := { taggen := d.extractLsb' 32 8, data := d.extractLsb' 0 32 }

/-- A load's register written, its shadow set (R171). -/
def finishLoad (d : RegField) (v : Tagged) (s : State) : State := advanceLoad (intTarget s d) (writeReg s d v)

/-- The 8-byte tagged read of LD_40 and CXR (R151). -/
def readTagged (s : State) (s1 : RegField) (rc : RC) (kind : AccessKind) : Access Tagged :=
  accessMap taggedOf (readDouble s (kpswVaDfetch s) (alignDouble (sumRC s s1 rc)) kind slotBusData)

/-- The 4-byte read of LD_32: tag FIXNUM, generation OLDEST (R155). -/
def readFixnum (s : State) (s1 : RegField) (rc : RC) (kind : AccessKind) : Access Tagged :=
  accessMap fixnum (readWord s (kpswVaDfetch s) (alignWord (sumRC s s1 rc)) kind slotBusData)

/-- What every load of an integer register checks before its access (R171, R405). -/
def loadGuard (d : RegField) (s : State) (k : Out) : Out :=
  if destBlocked s d then .refused .shadowedWrite
  else if s.pipe.afterTas then .refused .afterTestAndSet
  else k

/-- A load into an integer register. -/
def loadInt (d : RegField) (x : Access Tagged) (s : State) : Out :=
  loadGuard d s (onAccess x (fun v s1 => .next (finishLoad d v s1)))

/-- An access whose instruction also meets a CPU exception: a fault of the access goes first, else the exception if
it is enabled, of an instruction that has had no effect (R343, log 25). An access answered "try again later" for ever (U47)
goes before the exception too, and the machine is stuck: R343 orders faults and checks only, so this is a DESIGN CHOICE
(log 25). -/
def onCheckedAccess {α : Type} (cond : Bool) (t : TrapType) (s : State) (x : Access α) (k : α → State → Out) : Out :=
  if cond && trapEnabled s t then
    match x with
    | .done _ _ => .next (takeTrap t s)
    | .fault c s1 => raiseFault c s1
    | .stuck f => .fault f
    | .refused _ => .next (takeTrap t s)
  else onAccess x k

/-- CXR: LD_40 with the tag check C on the base register (R153). -/
def loadCxr (d s1 : RegField) (rc : RC) (kind : AccessKind) (s : State) : Out :=
  loadGuard d s (onCheckedAccess (excC (src1 s s1)) .consOrNil s (readTagged s s1 rc kind)
    (fun v s2 => .next (finishLoad d v s2)))

/-- LD_40 (R151). -/
def execLd40 (d s1 : RegField) (rc : RC) (s : State) : Out := loadInt d (readTagged s s1 rc .read) s
/-- LD_40_RO (R152). -/
def execLd40Ro (d s1 : RegField) (rc : RC) (s : State) : Out := loadInt d (readTagged s s1 rc .readOwn) s
/-- CXR (R153). -/
def execCxr (d s1 : RegField) (rc : RC) (s : State) : Out := loadCxr d s1 rc .read s
/-- CXR_RO (R154). -/
def execCxrRo (d s1 : RegField) (rc : RC) (s : State) : Out := loadCxr d s1 rc .readOwn s
/-- LD_32 (R155). -/
def execLd32 (d s1 : RegField) (rc : RC) (s : State) : Out := loadInt d (readFixnum s s1 rc .read) s
/-- LD_32_RO (R156). -/
def execLd32Ro (d s1 : RegField) (rc : RC) (s : State) : Out := loadInt d (readFixnum s s1 rc .readOwn) s
/-- LD_32_RA (R157). -/
def execLd32Ra (d s1 : RegField) (rc : RC) (s : State) : Out := loadInt d (readFixnum s s1 rc .readAnyway) s

/-- TEST_AND_SET (R158): the next instruction may not be a load or store (R405). -/
def execTestAndSet (d s1 : RegField) (rc : RC) (s : State) : Out :=
  loadGuard d s (onAccess (testAndSetWord s (kpswVaDfetch s) (alignWord (sumRC s s1 rc)) slotBusData)
    (fun old s2 =>
      let s3 := finishLoad d (fixnum old) s2
      .next { s3 with pipe := { s3.pipe with afterTas := true } }))

/-- LD_CACHE (R159): a cache controller register byte; no translation, no alignment. -/
def execLdCache (d s1 : RegField) (rc : RC) (s : State) : Out :=
  loadGuard d s (.next (finishLoad d (ccReadLines s (sumRC s s1 rc)) s))

/-- The 32 bits of FPU register `n` that FROM_FPU transfers: the FPU PSW, or the high half of a fraction (R51, R160); any
value in the load shadow of the register (R401, R407, U37). -/
def fpuWord (s : State) (slot : Nat) (n : RegField) : Word :=
  if n = fpuPswNumber then (if fpuShadowed s n then freeVal s slot 32 else s.fpsw.setWidth 32)
  else (readFpu s slot n).frac.extractLsb' 32 32

/-- FROM_FPU (R160): it waits for the FPU (R330, log 35). -/
def execFromFpu (d s2 : RegField) (s : State) : Out :=
  withFpu s
    (if !isFpuField s2 then .refused .fpuRegister
     else if destBlocked s d then .refused .shadowedWrite
     else .next (finishLoad d (fixnum (fpuWord s slotFp1 s2)) (fpuWait s)))

/-- What every FPU load checks, and the access; then `conv` gives the register (R161, R172, R174, R407). -/
def loadFpu {α : Type} (d : RegField) (x : State → Access α) (conv : State → α → FpReg) (s : State) : Out :=
  withFpu s
    (if !isFpuDataField d then .refused .fpuRegister
     else if fpuShadowed s d then .refused .shadowedWrite
     else if fpuUses (fpuMemWait s) d then .refused .fpuHazard
     else if s.pipe.afterTas then .refused .afterTestAndSet
     else onAccess (x (fpuMemWait s))
      (fun v s1 => .next (advanceLoad (some (.fpu d)) (writeFpu s1 d (conv s1 v)))))

/-- The 4-byte read of an FPU load. -/
def readFpuWord (s1 : RegField) (rc : RC) (kind : AccessKind) (s : State) : Access Word :=
  readWord s (kpswVaDfetch s) (alignWord (sumRC s s1 rc)) kind slotBusData

/-- The 8-byte read of an FPU load. -/
def readFpuDouble (s1 : RegField) (rc : RC) (kind : AccessKind) (s : State) : Access DWord :=
  readDouble s (kpswVaDfetch s) (alignDouble (sumRC s s1 rc)) kind slotBusData

/-- The fields LD_EXT1 loads; F is not changed (R165). -/
def ext1Fields (x : FpReg) (d : DWord) : FpReg :=
  { x with
    sign := d.getLsbD 63
    exp := d.extractLsb' 46 17
    type := d.extractLsb' 34 3
    rtag := d.extractLsb' 32 2
    image := false }

/-- LD_SGL (R161). -/
def execLdSgl (d s1 : RegField) (rc : RC) (s : State) : Out := loadFpu d (readFpuWord s1 rc .read) unpackSingle s
/-- LD_SGL_RO (R162). -/
def execLdSglRo (d s1 : RegField) (rc : RC) (s : State) : Out := loadFpu d (readFpuWord s1 rc .readOwn) unpackSingle s
/-- LD_DBL (R163). -/
def execLdDbl (d s1 : RegField) (rc : RC) (s : State) : Out := loadFpu d (readFpuDouble s1 rc .read) unpackDouble s
/-- LD_DBL_RO (R164). -/
def execLdDblRo (d s1 : RegField) (rc : RC) (s : State) : Out :=
  loadFpu d (readFpuDouble s1 rc .readOwn) unpackDouble s
/-- LD_EXT1 (R165). -/
def execLdExt1 (d s1 : RegField) (rc : RC) (s : State) : Out :=
  loadFpu d (readFpuDouble s1 rc .read) (fun s2 v => ext1Fields (fpuGet s2 d) v) s
/-- LD_EXT1_RO (R166). -/
def execLdExt1Ro (d s1 : RegField) (rc : RC) (s : State) : Out :=
  loadFpu d (readFpuDouble s1 rc .readOwn) (fun s2 v => ext1Fields (fpuGet s2 d) v) s
/-- LD_EXT2 (R167). -/
def execLdExt2 (d s1 : RegField) (rc : RC) (s : State) : Out :=
  loadFpu d (readFpuDouble s1 rc .read) (fun s2 v => { fpuGet s2 d with frac := v }) s
/-- LD_EXT2_RO (R168). -/
def execLdExt2Ro (d s1 : RegField) (rc : RC) (s : State) : Out :=
  loadFpu d (readFpuDouble s1 rc .readOwn) (fun s2 v => { fpuGet s2 d with frac := v }) s
/-- LD_INT (R169). -/
def execLdInt (d s1 : RegField) (rc : RC) (s : State) : Out := loadFpu d (readFpuWord s1 rc .read) intImageReg s
/-- LD_INT_RO (R170). -/
def execLdIntRo (d s1 : RegField) (rc : RC) (s : State) : Out := loadFpu d (readFpuWord s1 rc .readOwn) intImageReg s

end Sys2Proof.Machine
end

