-- ==== Sys2Proof/Machine/Stores.lean ====
section
/-! DEFINITION. The store instructions (spec/41_stores.md R180 to R190). -/

namespace Sys2Proof.Machine

open Sys2Proof

/-- The register stored: `R[s2]`. -/
def storedReg (s : State) (i : RegField) : Tagged := readReg s slotSrc2 i

/-- The doubleword ST_40 writes: bits [63:40] are any value (R181, U1). -/
def taggedImage (s : State) (v : Tagged) : DWord := freeVal s slotStore 24 ++ v.taggen ++ v.data

/-- A store directly after TEST_AND_SET is outside the spec (R405). -/
def storeGuard (s : State) (k : Out) : Out := if s.pipe.afterTas then .refused .afterTestAndSet else k

/-- The end of a store: not delayed (R180). -/
def finishStore (_ : Unit) (s : State) : Out := .next (advance s)

/-- ST_40 (R181), with the generation check A. -/
def execSt40 (s2 s1 : RegField) (sc : BitVec 14) (s : State) : Out :=
  storeGuard s
    (onCheckedAccess (excA (storedReg s s2) (src1 s s1)) .generation s
      (writeDouble s (kpswVaDfetch s) (alignDouble (eaStore s s1 sc)) (taggedImage s (storedReg s s2)) slotBusData)
      finishStore)

/-- ST_32 (R182). -/
def execSt32 (s2 s1 : RegField) (sc : BitVec 14) (s : State) : Out :=
  storeGuard s
    (onAccess (writeWord s (kpswVaDfetch s) (alignWord (eaStore s s1 sc)) (storedReg s s2).data slotBusData)
      finishStore)

/-- ST_CACHE (R183): a cache controller register byte from data[7:0]. -/
def execStCache (s2 s1 : RegField) (sc : BitVec 14) (s : State) : Out :=
  storeGuard s
    (.next (advance (ccWrite s ((storedReg s s2).data.extractLsb' 0 8) (ccDecode (eaStore s s1 sc)))))

/-- The FPU PSW, its undefined bits 0, or an integer image in a data register (R51, R184). -/
def writeFpuWord32 (s : State) (n : RegField) (w : Word) : State :=
  if n = fpuPswNumber then { s with fpsw := w.extractLsb' 0 15 } else writeFpu s n (intImageReg s w)

/-- TO_FPU (R184): the register, the FPU PSW among them (R51), is in the load shadow for the next instruction (R400,
R401). While an operation runs it waits, and then writes any register, those of the operation too: DEDUCED from R330, D48,
C31 and the fourth row of R407, where the second row and U38 say refuse (log 35). -/
def execToFpu (s2 d : RegField) (s : State) : Out :=
  withFpu s
    (if !isFpuField d then .refused .fpuRegister
     else if fpuShadowed s d then .refused .shadowedWrite
     else
      .next (advanceLoad (some (.fpu d)) (writeFpuWord32 (fpuWait s) d (storedReg s s2).data)))

/-- What every FPU store checks, and the access (R185, R407). -/
def storeFpu (f : RegField) (x : State → Access Unit) (s : State) : Out :=
  withFpu s
    (if !isFpuDataField f then .refused .fpuRegister
     else if fpuWrites (fpuMemWait s) f then .refused .fpuHazard
     else if s.pipe.afterTas then .refused .afterTestAndSet
     else onAccess (x (fpuMemWait s)) finishStore)

/-- The 4-byte write of an FPU store. -/
def writeFpuWord (s1 : RegField) (sc : BitVec 14) (w : State → Word) (s : State) : Access Unit :=
  writeWord s (kpswVaDfetch s) (alignWord (eaStore s s1 sc)) (w s) slotBusData

/-- The 8-byte write of an FPU store. -/
def writeFpuDouble (s1 : RegField) (sc : BitVec 14) (w : State → DWord) (s : State) : Access Unit :=
  writeDouble s (kpswVaDfetch s) (alignDouble (eaStore s s1 sc)) (w s) slotBusData

/-- The FPU register a store reads. -/
def storedFpu (s : State) (f : RegField) : FpReg := readFpu s slotFp1 f

/-- The extended1 image: bits [45:37] and [31:0] are any value (R187, U12). -/
def ext1Image (s : State) (x : FpReg) : DWord :=
  BitVec.ofBool x.sign ++ x.exp ++ freeVal s slotStore 9 ++ x.type ++ x.rtag ++ freeVal s slotSpecial 32

/-- ST_SGL (R185). -/
def execStSgl (f s1 : RegField) (sc : BitVec 14) (s : State) : Out :=
  storeFpu f (writeFpuWord s1 sc (fun t => packSingle t (storedFpu t f))) s
/-- ST_DBL (R186). -/
def execStDbl (f s1 : RegField) (sc : BitVec 14) (s : State) : Out :=
  storeFpu f (writeFpuDouble s1 sc (fun t => packDouble t (storedFpu t f))) s
/-- ST_EXT1 (R187). -/
def execStExt1 (f s1 : RegField) (sc : BitVec 14) (s : State) : Out :=
  storeFpu f (writeFpuDouble s1 sc (fun t => ext1Image t (storedFpu t f))) s
/-- ST_EXT2 (R188). -/
def execStExt2 (f s1 : RegField) (sc : BitVec 14) (s : State) : Out :=
  storeFpu f (writeFpuDouble s1 sc (fun t => (storedFpu t f).frac)) s
/-- ST_INT (R189). -/
def execStInt (f s1 : RegField) (sc : BitVec 14) (s : State) : Out :=
  storeFpu f (writeFpuWord s1 sc (fun t => (storedFpu t f).frac.extractLsb' 32 32)) s

end Sys2Proof.Machine
end

