-- ==== Sys2Proof/Machine/RegisterOps.lean ====
section
/-! DEFINITION. The register-to-register instructions (spec/42_register_ops.md R200 to R213). -/

namespace Sys2Proof.Machine

open Sys2Proof

/-- The end of a register operation: `R[d] <- v`, visible to the next instruction (R200). -/
def finishReg (d : RegField) (v : Tagged) (s : State) : State := advance (writeReg s d v)

/-- An instruction that writes `R[d]`: not the target of the load just before (R171). -/
def writeGuard (d : RegField) (s : State) (k : Out) : Out := if destBlocked s d then .refused .shadowedWrite else k

/-- The result of an operation on the data, the tag byte that of Rs1 (R200, parameter ALU_RESULT_TAG). -/
def aluResult (s : State) (s1 : RegField) (rc : RC) (f : Word → Word → Word) : Tagged :=
  { taggen := (src1 s s1).taggen, data := f (src1 s s1).data (rcVal s rc).data }

/-- ADD and SUB: D, then E, then the result (R200, R202). -/
def arithOp (d s1 : RegField) (rc : RC) (f : Word → Word → Word) (overflow : Word → Word → Bool) (s : State) : Out :=
  writeGuard d s
    (raiseIf (overflow (src1 s s1).data (rcVal s rc).data) .integerOverflow s
      (raiseIf (excE (src1 s s1) (rcVal s rc)) .fixnumTag s
        (.next (finishReg d (aluResult s s1 rc f) s))))

/-- The logical and shift operations: E, then the result (R204, R207). -/
def logicOp (d s1 : RegField) (rc : RC) (f : Word → Word → Word) (s : State) : Out :=
  writeGuard d s
    (raiseIf (excE (src1 s s1) (rcVal s rc)) .fixnumTag s (.next (finishReg d (aluResult s s1 rc f) s)))

/-- Shift left by the two low bits of the count (R207). -/
def sllData (a c : Word) : Word := a <<< (c.extractLsb' 0 2).toNat
/-- Arithmetic shift right by the low bit of the count (R208). -/
def sraData (a c : Word) : Word := a.sshiftRight (c.extractLsb' 0 1).toNat
/-- Logical shift right by the low bit of the count (R209). -/
def srlData (a c : Word) : Word := a >>> (c.extractLsb' 0 1).toNat

/-- Byte `k` of a word, `k` the two low bits of `c` (R211). -/
def extractByte (a c : Word) : Word := (wordByte a (c.extractLsb' 0 2).toNat).setWidth 32

/-- `a` with byte `k` replaced (R213). -/
def insertByte (a : Word) (k : Nat) (x : Byte) : Word :=
  (a &&& ~~~((0xFF#32) <<< (8 * k))) ||| (x.setWidth 32 <<< (8 * k))

/-- ADD_NT (R201): no check. -/
def execAddNt (d s1 : RegField) (rc : RC) (s : State) : Out :=
  writeGuard d s (.next (finishReg d (aluResult s s1 rc (fun a b => a + b)) s))
/-- ADD (R202). -/
def execAdd (d s1 : RegField) (rc : RC) (s : State) : Out := arithOp d s1 rc (fun a b => a + b) addOverflow s
/-- SUB (R203). -/
def execSub (d s1 : RegField) (rc : RC) (s : State) : Out := arithOp d s1 rc (fun a b => a - b) subOverflow s
/-- AND (R204). -/
def execAnd (d s1 : RegField) (rc : RC) (s : State) : Out := logicOp d s1 rc (fun a b => a &&& b) s
/-- OR (R205). -/
def execOr (d s1 : RegField) (rc : RC) (s : State) : Out := logicOp d s1 rc (fun a b => a ||| b) s
/-- XOR (R206). -/
def execXor (d s1 : RegField) (rc : RC) (s : State) : Out := logicOp d s1 rc (fun a b => a ^^^ b) s
/-- SLL (R207). -/
def execSll (d s1 : RegField) (rc : RC) (s : State) : Out := logicOp d s1 rc sllData s
/-- SRA (R208). -/
def execSra (d s1 : RegField) (rc : RC) (s : State) : Out := logicOp d s1 rc sraData s
/-- SRL (R209). -/
def execSrl (d s1 : RegField) (rc : RC) (s : State) : Out := logicOp d s1 rc srlData s

/-- RD_TAG (R210). -/
def execRdTag (d s1 : RegField) (s : State) : Out :=
  writeGuard d s (.next (finishReg d (fixnum ((src1 s s1).taggen.setWidth 32)) s))

/-- EXTRACT (R211). -/
def execExtract (d s1 : RegField) (rc : RC) (s : State) : Out :=
  writeGuard d s (.next (finishReg d (fixnum (extractByte (src1 s s1).data (rcVal s rc).data)) s))

/-- WR_TAG (R212). -/
def execWrTag (d s1 : RegField) (rc : RC) (s : State) : Out :=
  writeGuard d s
    (.next (finishReg d { taggen := (rcVal s rc).data.extractLsb' 0 8, data := (src1 s s1).data } s))

/-- INSERT (R213): at the byte the INSERT register holds. -/
def execInsert (d s1 : RegField) (rc : RC) (s : State) : Out :=
  writeGuard d s
    (.next (finishReg d
      (aluResult s s1 rc (fun a b => insertByte a s.insert.toNat (b.extractLsb' 0 8))) s))

end Sys2Proof.Machine
end

