-- ==== Sys2Proof/Machine/Special.lean ====
section
/-! DEFINITION. The special-register instructions (spec/43_special.md R230 to R238). -/

namespace Sys2Proof.Machine

open Sys2Proof

/-- The data word of special register `n` (R231): CWP just after `wr_special CWP` (R404, U8), WRITE_PC anywhere but at
a trap vector (R37, U22) and numbers with no row (U23) give any value. -/
def specialWord (s : State) (n : RegField) : Word :=
  match n.toNat with
  | 1 => s.upsw.setWidth 32
  | 2 => if s.pipe.cwpShadow then freeVal s slotSpecial 32 else s.cwp.setWidth 32 <<< 7
  | 3 => s.swp ++ 0#3
  | 4 => s.pc
  | 5 => s.fpuPc ++ 0#2
  | 6 => if s.pipe.atVector then s.trapNextPC else freeVal s slotSpecial 30 ++ 0#2
  | _ => freeVal s slotSpecial 32

/-- RD_SPECIAL (R231). -/
def execRdSpecial (d n : RegField) (s : State) : Out :=
  writeGuard d s (.next (finishReg d (fixnum (specialWord s n)) s))

/-- RD_INSERT (R232). -/
def execRdInsert (d : RegField) (s : State) : Out :=
  writeGuard d s (.next (finishReg d (fixnum (s.insert.setWidth 32)) s))

/-- RD_KPSW (R233): in either mode. -/
def execRdKpsw (d : RegField) (s : State) : Out :=
  writeGuard d s (.next (finishReg d (fixnum (s.kpsw.setWidth 32)) s))

/-- The end of `wr_special CWP`: the window shadow, and CWP cannot be read (R234, R404). -/
def finishCwp (s : State) : State :=
  { advance s with pipe := { Pipe.idle with windowShadow := true, cwpShadow := true } }

/-- WR_SPECIAL (R234): no check of mode, tag or window. -/
def execWrSpecial (n s1 : RegField) (rc : RC) (s : State) : Out :=
  let x := sumRC s s1 rc
  match n.toNat with
  | 1 => .next (advance { s with upsw := x.extractLsb' 0 6 })
  | 2 =>
    if s.pipe.slotOfTrue then .refused .prohibitedSlot
    else .next (finishCwp { s with cwp := x.extractLsb' 7 3 })
  | 3 => .next (advance { s with swp := x.extractLsb' 3 29 })
  | 4 => .refused .readOnlySpecial
  | 5 => .next (advance { s with fpuPc := x.extractLsb' 2 30 })
  | 6 => .refused .readOnlySpecial
  | _ => .refused .unassignedSpecial

/-- WR_INSERT (R235): no addition. -/
def execWrInsert (rc : RC) (s : State) : Out :=
  .next (advance { s with insert := (rcVal s rc).data.extractLsb' 0 2 })

/-- WR_KPSW (R236): in user mode exception F, or with traps off no effect (R344); in kernel mode the KPSW is written
and the prefetch in progress is dropped. -/
def execWrKpsw (s1 : RegField) (rc : RC) (s : State) : Out :=
  if kpswMode s then
    .next (advance { s with kpsw := (sumRC s s1 rc).extractLsb' 0 24, prefetch := none })
  else raiseOr .kernelMode s (.next (advance s))

/-- SYNC (R237): waits for the FPU and takes a pending exception; never the illegal opcode exception (R331). It runs
whatever UPSW.fpu_id is, a DESIGN CHOICE: R331 refuses an FPU instruction for another coprocessor, and whether SYNC is one
there is not said (log 29). -/
def execSync (s : State) : Out := fpuStart s (fun s1 => .next (advance s1))

/-- The end of INVALIDATE_IB: the next instruction is not refetched (R238). -/
def finishInvalidate (s : State) : State :=
  { advance (emptyBuffer s) with pipe := { Pipe.idle with ready := fetchedAhead s } }

/-- INVALIDATE_IB (R238). -/
def execInvalidateIb (s : State) : Out := .next (finishInvalidate s)

end Sys2Proof.Machine
end

