-- ==== Sys2Proof/Machine/CompareBranch.lean ====
section
/-! DEFINITION. Compare-and-branch and compare-and-trap (spec/44_compare_branch.md R250 to R265). -/

namespace Sys2Proof.Machine

open Sys2Proof

/-- A condition evaluated: refused without a row (R264), its tag exception first (R254), then its truth value. -/
def withCond (cond : Option Bool) (exc : Option TrapType) (s : State) (k : Bool → Out) : Out :=
  match cond with
  | none => .refused .unassignedCond
  | some c =>
    match exc with
    | some t => raiseOr t s (k c)
    | none => k c

/-- `BranchDelayed` (R255): the slot always executes. -/
def branchDelayed (target : Word) (taken : Bool) (s : State) : State :=
  if taken then advanceTo target s else advance s

/-- `BranchTrue` (R255): the slot executes only if the branch is taken. The slot may not hold a call or return
(R265). -/
def branchTrue (target : Word) (taken : Bool) (s : State) : State :=
  { branchDelayed target taken s with pipe := { Pipe.idle with squash := !taken, slotOfTrue := true } }

/-- A data compare (R251). -/
def dataCompare (cond s1 : RegField) (cc : CC) (s : State) (k : Bool → Out) : Out :=
  withCond (dataCond cond (src1 s s1) (ccVal s cc)) (dataExc cond (src1 s s1) (ccVal s cc)) s k

/-- A tag compare (R252). -/
def tagCompare (cond s1 : RegField) (tc : BitVec 6) (s : State) (k : Bool → Out) : Out :=
  withCond (tagCond cond (tagOf (src1 s s1)) tc) (tagExc cond (src1 s s1)) s k

/-- CMP_BR_DELAYED (R256). -/
def execCmpBrDelayed (cond s1 : RegField) (cc : CC) (off : BitVec 9) (s : State) : Out :=
  dataCompare cond s1 cc s (fun c => .next (branchDelayed (branchTarget s.pc off) c s))
/-- TAG_CMP_BR_DELAYED (R257). -/
def execTagCmpBrDelayed (cond s1 : RegField) (tc : BitVec 6) (off : BitVec 9) (s : State) : Out :=
  tagCompare cond s1 tc s (fun c => .next (branchDelayed (branchTarget s.pc off) c s))
/-- FP_CMP_BR_DELAYED (R258). -/
def execFpCmpBrDelayed (cond s1 s2 : RegField) (off : BitVec 9) (s : State) : Out :=
  fpCompare cond s1 s2 s (fun c t => .next (branchDelayed (branchTarget t.pc off) c t))
/-- CMP_BR_TRUE (R259). -/
def execCmpBrTrue (cond s1 : RegField) (cc : CC) (off : BitVec 9) (s : State) : Out :=
  dataCompare cond s1 cc s (fun c => .next (branchTrue (branchTarget s.pc off) c s))
/-- TAG_CMP_BR_TRUE (R260). -/
def execTagCmpBrTrue (cond s1 : RegField) (tc : BitVec 6) (off : BitVec 9) (s : State) : Out :=
  tagCompare cond s1 tc s (fun c => .next (branchTrue (branchTarget s.pc off) c s))
/-- FP_CMP_BR_TRUE (R261). -/
def execFpCmpBrTrue (cond s1 s2 : RegField) (off : BitVec 9) (s : State) : Out :=
  fpCompare cond s1 s2 s (fun c t => .next (branchTrue (branchTarget t.pc off) c t))
/-- CMP_TRAP (R262): the offset field is a number for the handler, not examined. -/
def execCmpTrap (cond s1 : RegField) (cc : CC) (_off : BitVec 9) (s : State) : Out :=
  dataCompare cond s1 cc s (fun c => raiseIf c .cmpTrap s (.next (advance s)))
/-- TAG_CMP_TRAP (R263). -/
def execTagCmpTrap (cond s1 : RegField) (tc : BitVec 6) (_off : BitVec 9) (s : State) : Out :=
  tagCompare cond s1 tc s (fun c => raiseIf c .cmpTrap s (.next (advance s)))

end Sys2Proof.Machine
end

