-- ==== Sys2Proof/Machine/CallJump.lean ====
section
/-! DEFINITION. Calls, returns and jumps (spec/45_call_jump.md R280 to R290). -/

namespace Sys2Proof.Machine

open Sys2Proof

/-- A call or return may not stand in the slot of a CMP_BR_TRUE-class branch (R265). -/
def slotGuard (s : State) (k : Out) : Out := if s.pipe.slotOfTrue then .refused .prohibitedSlot else k

/-- The end of a window change: the transfer after the slot, the window shadow, a return's KPSW change waiting
(R280, R286, R288). -/
def finishWindow (target : Word) (r : Option RetKind) (s : State) : State :=
  { advanceTo target s with pipe := { Pipe.idle with windowShadow := true, retPend := r } }

/-- The next window entered, the instruction's own address in its R10 (R283). -/
def enterWindow (s : State) : State := writeReg { s with cwp := s.cwp + 1#3 } 10#5 (fixnum s.pc)

/-- The KPSW of CALL_KERNEL: prev_mode <- mode, mode <- 1 (R284). -/
def kernelKpsw (k : BitVec 24) : BitVec 24 := setBit (setBit k 5 (k.getLsbD 4)) 4 true

/-- CALL and CALL_KERNEL: window overflow I, then the new window and the transfer (R283). R10 of the new window is
R26 of the old: the load just before may not target it (R171, log 27). `kpsw` is written first, and a return's change that
waits is made over it (`advance`): in the slot of a RET_KERNEL the mode is then 0, see `execCallKernel` (log 18). -/
def callTo (target : Word) (kpsw : BitVec 24) (s : State) : Out :=
  slotGuard s
    (if destBlocked { s with cwp := s.cwp + 1#3 } 10#5 then .refused .shadowedWrite
     else raiseIf (windowOverflow s) .windowOverflow s
      (.next (finishWindow target none (enterWindow { s with kpsw := kpsw }))))

/-- RET, RET_TRAP, RET_KERNEL: window underflow K, then the old window and the transfer; the target is computed in the
window of the return itself (R285). -/
def returnTo (s1 : RegField) (rc : RC) (r : Option RetKind) (s : State) : Out :=
  slotGuard s
    (raiseIf (windowUnderflow s) .windowUnderflow s
      (.next (finishWindow (alignWord (sumRC s s1 rc)) r { s with cwp := s.cwp - 1#3 })))

/-- JUMP (R281). -/
def execJump (addr : BitVec 28) (s : State) : Out := .next (advanceTo (jumpTarget s.pc addr) s)
/-- JUMP_REG (R282). -/
def execJumpReg (s1 : RegField) (rc : RC) (s : State) : Out := .next (advanceTo (alignWord (sumRC s s1 rc)) s)
/-- CALL (R283). -/
def execCall (addr : BitVec 28) (s : State) : Out := callTo (jumpTarget s.pc addr) s.kpsw s
/-- CALL_KERNEL (R284). In the slot of a RET_KERNEL its mode 1 and the mode 0 of the return are both in force for the same
fetch (R284, R287), and no rule says which: a DESIGN CHOICE is that the return's prevails, so that the return's target and
then 0x1000 are fetched in user mode (log 18). -/
def execCallKernel (s : State) : Out := callTo kernelEntry (kernelKpsw s.kpsw) s
/-- RET (R285). -/
def execRet (s1 : RegField) (rc : RC) (s : State) : Out := returnTo s1 rc none s
/-- RET_TRAP (R286): all_en <- 1 when the target begins. -/
def execRetTrap (s1 : RegField) (rc : RC) (s : State) : Out := returnTo s1 rc (some .trap) s
/-- RET_KERNEL (R287): mode <- 0 and all_en <- 1 when the target is fetched. -/
def execRetKernel (s1 : RegField) (rc : RC) (s : State) : Out := returnTo s1 rc (some .kernel) s

end Sys2Proof.Machine
end

