-- ==== Sys2Proof/Machine/FloatingPoint.lean ====
section
/-! DEFINITION. The floating-point instructions (spec/46_floating_point.md R311 to R321). -/

namespace Sys2Proof.Machine

open Sys2Proof

/-- FADD (R311). -/
def execFadd (d s1 s2 : RegField) (s : State) : Out :=
  fpuOp2 d s1 s2 cyclesAdd (compute2 (fun t x y a b => arith2 t x y a b (addNumbers t))) s
/-- FSUB (R312). -/
def execFsub (d s1 s2 : RegField) (s : State) : Out :=
  fpuOp2 d s1 s2 cyclesAdd (compute2 (fun t x y a b => arith2 t x y a (negateVal b) (addNumbers t))) s
/-- FMUL (R313). -/
def execFmul (d s1 s2 : RegField) (s : State) : Out :=
  fpuOp2 d s1 s2 cyclesMul (compute2 (fun t x y a b => arith2 t x y a b (mulNumbers t))) s
/-- FDIV (R314). -/
def execFdiv (d s1 s2 : RegField) (s : State) : Out :=
  fpuOp2 d s1 s2 cyclesDiv (compute2 (fun t x y a b => arith2 t x y a b (divNumbers t))) s
/-- FMOV (R315): all fields copied, whatever they hold. -/
def execFmov (d s1 : RegField) (s : State) : Out := fpuOp1 d s1 cyclesCopy false (fun _ x => some (plain x)) s
/-- FABS (R316). -/
def execFabs (d s1 : RegField) (s : State) : Out :=
  fpuOp1 d s1 cyclesCopy false (fun t x => some (signResult t x false)) s
/-- FNEG (R317). -/
def execFneg (d s1 : RegField) (s : State) : Out :=
  fpuOp1 d s1 cyclesCopy false (fun t x => some (signResult t x (!x.sign))) s
/-- FLOAT (R318): S, E, T, R of the source are not looked at. -/
def execFloat (d s1 : RegField) (s : State) : Out :=
  fpuOp1 d s1 cyclesIntConvert false (fun t x => some (floatResult t x)) s
/-- FIX (R319). -/
def execFix (d s1 : RegField) (s : State) : Out :=
  fpuOp1 d s1 cyclesIntConvert true (compute1 (fun t _ a => fixResult t a)) s
/-- CVTS (R320). -/
def execCvts (d s1 : RegField) (s : State) : Out :=
  fpuOp1 d s1 cyclesConvert false (compute1 (convertResult · fmtSingle 40)) s
/-- CVTD (R321). -/
def execCvtd (d s1 : RegField) (s : State) : Out :=
  fpuOp1 d s1 cyclesConvert false (compute1 (convertResult · fmtDouble 11)) s

end Sys2Proof.Machine
end

