-- ==== Sys2Proof/Machine/Fetch.lean ====
section
/-! DEFINITION. Instruction fetch through the instruction buffer, its prefetcher (spec/10_state.md R62, spec/20_memory.md
R110, spec/60_exceptions.md R349), interrupts (R372), the cancelled slot, and what happens at the end of every step. -/

namespace Sys2Proof.Machine

open Sys2Proof

/-- The fetch from the cache or memory, checked like a data read (R349). -/
def fetchMem (s : State) : Access Word := readWord s (kpswVaIfetch s) s.pc .fetch slotBusFetch

/-- A miss: prefetching in progress is aborted, the word is read and buffered, and prefetching starts behind it if it
is enabled. -/
def fetchMiss (s : State) : Access Word :=
  accessThen (fetchMem { s with prefetch := none }) (fun w s1 =>
    let s2 := ibFill s1 s1.pc w
    .done w (if kpswPrefetchEn s2 then { s2 with prefetch := nextInBlock s2.pc } else s2))

/-- The instruction word at the PC (R110). With the buffer on it is the current word or any that memory held there since
the last INVALIDATE_IB: a free value chooses. With KPSW.ib_en = 0 it is the current word, and that word is not entered in
the buffer, a DESIGN CHOICE: R43, R62 and R110 do not say (log 15). The instruction after INVALIDATE_IB may have been
fetched before it (R238). -/
def fetch (s : State) : Access Word :=
  if kpswIbEn s then
    match s.pipe.ready with
    | some w => .done w s
    | none =>
      match staleWord s slotIb s.pc with
      | some w => .done w s
      | none => fetchMiss s
  else fetchMem s

/-! ### The end of a step: prefetcher, FPU, counters -/

/-- One prefetch: the word at the prefetcher's position, if the cache holds it and the page may be read; otherwise
prefetching stops without a fault (R62, R349). That it takes one word a step, and that it stops while KPSW.ib_en = 0
whatever KPSW.prefetch_en is, are DESIGN CHOICES: R62 does not say. So is that it does not run on physical fetches, whatever
ib_en and prefetch_en are, and stops at a line of a non-cacheable page: R43 and R62 do not say (log 15). -/
def prefetchStep (s : State) : State :=
  match s.prefetch with
  | none => s
  | some p =>
    if kpswIbEn s && kpswPrefetchEn s && kpswVaIfetch s then
      let s1 := vaRef s p
      match cacheProbe s1 s1.gva with
      | some l =>
        if permits s1 l.prot false && l.cacheable then { ibFill s1 p (lineWord l s1.gva) with prefetch := nextInBlock p }
        else { s1 with prefetch := none }
      | none => { s1 with prefetch := none }
    else { s with prefetch := none }

/-- One cycle of the FPU operation in progress (log 19). -/
def fpuTick (s : State) : State :=
  match s.fpuRun with
  | none => s
  | some r => { s with fpuRun := if r.cyclesLeft ≤ 1 then none else some { r with cyclesLeft := r.cyclesLeft - 1 } }

/-- The cache controller's counters count an unknown number of events (R61, R375, log 28). -/
def countEvents (s : State) : State :=
  { s with
    counter0 := s.counter0 + BitVec.ofNat 32 (Config.counterEvents 0 s.free)
    counter1 := s.counter1 + BitVec.ofNat 32 (Config.counterEvents 1 s.free) }

/-- What the other agents of the node do in a step (R13); and the moment is remembered (R110). -/
def tick (s : State) : State := recordView (countEvents (fpuTick (prefetchStep s)))

/-- An instruction's outcome with the end of the step. -/
def onTick : Out → Out
  | .next s => .next (tick s)
  | .fault f => .fault f
  | .refused r => .refused r

/-! ### Interrupts and cancelled slots -/

/-- `interruptLine` (R372). -/
def interruptLine (s : State) : Bool := s.intreg &&& s.intmask != 0#32

/-- An interrupt is taken before the next instruction (R372). -/
def interruptReady (s : State) : Bool := interruptLine s && kpswIntEn s && kpswAllEn s

/-- The instructions that change the window (R265, R405). -/
def changesWindow : Instr → Bool
  | .call _ | .callKernel | .ret _ _ | .retTrap _ _ | .retKernel _ _ => true
  | .wrSpecial n _ _ => n == 2#5
  | .ld40 _ _ _ | .ld40Ro _ _ _ | .cxr _ _ _ | .cxrRo _ _ _ | .ld32 _ _ _ | .ld32Ro _ _ _ | .ld32Ra _ _ _
  | .testAndSet _ _ _ | .ldCache _ _ _ | .fromFpu _ _ | .ldSgl _ _ _ | .ldSglRo _ _ _ | .ldDbl _ _ _
  | .ldDblRo _ _ _ | .ldExt1 _ _ _ | .ldExt1Ro _ _ _ | .ldExt2 _ _ _ | .ldExt2Ro _ _ _ | .ldInt _ _ _
  | .ldIntRo _ _ _ | .st40 _ _ _ | .st32 _ _ _ | .stCache _ _ _ | .toFpu _ _ | .stSgl _ _ _ | .stDbl _ _ _
  | .stExt1 _ _ _ | .stExt2 _ _ _ | .stInt _ _ _ | .addNt _ _ _ | .add _ _ _ | .sub _ _ _ | .and _ _ _
  | .or _ _ _ | .xor _ _ _ | .sll _ _ _ | .sra _ _ _ | .srl _ _ _ | .rdTag _ _ | .extract _ _ _
  | .wrTag _ _ _ | .insert _ _ _ | .rdSpecial _ _ | .rdInsert _ | .rdKpsw _ | .wrInsert _ | .wrKpsw _ _
  | .sync | .invalidateIb | .cmpBrDelayed _ _ _ _ | .tagCmpBrDelayed _ _ _ _ | .fpCmpBrDelayed _ _ _ _
  | .cmpBrTrue _ _ _ _ | .tagCmpBrTrue _ _ _ _ | .fpCmpBrTrue _ _ _ _ | .cmpTrap _ _ _ _
  | .tagCmpTrap _ _ _ _ | .jumpReg _ _ | .fadd _ _ _ | .fsub _ _ _ | .fmul _ _ _ | .fdiv _ _ _ | .fmov _ _
  | .fabs _ _ | .fneg _ _ | .float _ _ | .fix _ _ | .cvts _ _ | .cvtd _ _ | .jump _ => false

/-- The word is one that may not stand in the slot of a CMP_BR_TRUE-class branch (R265). -/
def prohibitedInSlot (w : Word) : Bool :=
  match decode w with
  | .ok i => changesWindow i
  | .error _ => false

/-- A cancelled slot is fetched and does nothing; a fault of its fetch is not taken (R255, R349, log 24). -/
def squashStep (s : State) : Out :=
  match fetch s with
  | .done w s1 => if prohibitedInSlot w then .refused .prohibitedSlot else .next (advance s1)
  | .fault _ s1 => .next (advance s1)
  | .stuck f => .fault f
  | .refused r => .refused r

/-! ### A word placed where the next step fetches -/

/-- A protection code that lets the current mode read. -/
def readableProt (s : State) (p : BitVec 2) : BitVec 2 :=
  if permits s p false then p
  else if permits s 0#2 false then 0#2
  else if permits s 1#2 false then 1#2
  else if permits s 2#2 false then 2#2
  else 3#2

/-- An empty line for a global virtual address. -/
def freshLine (g : GlobalAddr) : Line :=
  { vtag := lineTag g, ptag := 0#27, state := .unowned, pageDirty := false, blockDirty := false, prot := 0#2,
    cacheable := true, words := Vector.replicate 8 0#32 }

/-- The word put in the cache line of the PC, readable in the current mode. -/
def placeCached (s : State) (w : Word) : State :=
  let g := globalAddr s s.pc
  let l := (cacheProbe s g).getD (freshLine g)
  installLine s g { lineSetWord l g w with
    blockDirty := l.blockDirty, prot := readableProt s l.prot, cacheable := true }

/-- The word put where the fetch finds it: in memory, or in the cache line with virtual fetches. -/
def placeFetch (s : State) (w : Word) : State :=
  if kpswVaIfetch s then placeCached s w else { s with mem := memPutWord s.mem s.pc w }

/-- No buffered copy of the word at the PC. -/
def dropBuffered (s : State) : State :=
  eachBlock s (fun b =>
    if b.tag = ibTag s.pc then { b with valid := setBit b.valid (ibWord s.pc).toNat false } else b)

/-- The slot is not cancelled, nothing is fetched yet, and no interrupt is taken first. -/
def readyToRun (s : State) : State :=
  { s with
    pipe := { s.pipe with squash := false, ready := none }
    intmask := if interruptReady s then 0#32 else s.intmask }

/-- The words of the past are those of this moment alone. -/
def restartViews (s : State) : State := { s with past := [fetchView s] }

/-- The very next step fetches and runs `w`. -/
def placeWord (s : State) (w : Word) : State := restartViews (placeFetch (dropBuffered (readyToRun s)) w)

end Sys2Proof.Machine
end

