-- ==== Sys2Proof/Machine/Dispatch.lean ====
section
/-! DEFINITION. One arm per instruction, each one call of its meaning. -/

namespace Sys2Proof.Machine

open Sys2Proof

def exec (i : Instr) (s : State) : Host.Outcome State Fault Refusal :=
  match i with
  | .ld40 d s1 rc => Sys2Proof.Machine.execLd40 d s1 rc s
  | .ld40Ro d s1 rc => Sys2Proof.Machine.execLd40Ro d s1 rc s
  | .cxr d s1 rc => Sys2Proof.Machine.execCxr d s1 rc s
  | .cxrRo d s1 rc => Sys2Proof.Machine.execCxrRo d s1 rc s
  | .ld32 d s1 rc => Sys2Proof.Machine.execLd32 d s1 rc s
  | .ld32Ro d s1 rc => Sys2Proof.Machine.execLd32Ro d s1 rc s
  | .ld32Ra d s1 rc => Sys2Proof.Machine.execLd32Ra d s1 rc s
  | .testAndSet d s1 rc => Sys2Proof.Machine.execTestAndSet d s1 rc s
  | .ldCache d s1 rc => Sys2Proof.Machine.execLdCache d s1 rc s
  | .fromFpu d s2 => Sys2Proof.Machine.execFromFpu d s2 s
  | .ldSgl d s1 rc => Sys2Proof.Machine.execLdSgl d s1 rc s
  | .ldSglRo d s1 rc => Sys2Proof.Machine.execLdSglRo d s1 rc s
  | .ldDbl d s1 rc => Sys2Proof.Machine.execLdDbl d s1 rc s
  | .ldDblRo d s1 rc => Sys2Proof.Machine.execLdDblRo d s1 rc s
  | .ldExt1 d s1 rc => Sys2Proof.Machine.execLdExt1 d s1 rc s
  | .ldExt1Ro d s1 rc => Sys2Proof.Machine.execLdExt1Ro d s1 rc s
  | .ldExt2 d s1 rc => Sys2Proof.Machine.execLdExt2 d s1 rc s
  | .ldExt2Ro d s1 rc => Sys2Proof.Machine.execLdExt2Ro d s1 rc s
  | .ldInt d s1 rc => Sys2Proof.Machine.execLdInt d s1 rc s
  | .ldIntRo d s1 rc => Sys2Proof.Machine.execLdIntRo d s1 rc s
  | .st40 s2 s1 sc => Sys2Proof.Machine.execSt40 s2 s1 sc s
  | .st32 s2 s1 sc => Sys2Proof.Machine.execSt32 s2 s1 sc s
  | .stCache s2 s1 sc => Sys2Proof.Machine.execStCache s2 s1 sc s
  | .toFpu s2 d => Sys2Proof.Machine.execToFpu s2 d s
  | .stSgl s2 s1 sc => Sys2Proof.Machine.execStSgl s2 s1 sc s
  | .stDbl s2 s1 sc => Sys2Proof.Machine.execStDbl s2 s1 sc s
  | .stExt1 s2 s1 sc => Sys2Proof.Machine.execStExt1 s2 s1 sc s
  | .stExt2 s2 s1 sc => Sys2Proof.Machine.execStExt2 s2 s1 sc s
  | .stInt s2 s1 sc => Sys2Proof.Machine.execStInt s2 s1 sc s
  | .addNt d s1 rc => Sys2Proof.Machine.execAddNt d s1 rc s
  | .add d s1 rc => Sys2Proof.Machine.execAdd d s1 rc s
  | .sub d s1 rc => Sys2Proof.Machine.execSub d s1 rc s
  | .and d s1 rc => Sys2Proof.Machine.execAnd d s1 rc s
  | .or d s1 rc => Sys2Proof.Machine.execOr d s1 rc s
  | .xor d s1 rc => Sys2Proof.Machine.execXor d s1 rc s
  | .sll d s1 rc => Sys2Proof.Machine.execSll d s1 rc s
  | .sra d s1 rc => Sys2Proof.Machine.execSra d s1 rc s
  | .srl d s1 rc => Sys2Proof.Machine.execSrl d s1 rc s
  | .rdTag d s1 => Sys2Proof.Machine.execRdTag d s1 s
  | .extract d s1 rc => Sys2Proof.Machine.execExtract d s1 rc s
  | .wrTag d s1 rc => Sys2Proof.Machine.execWrTag d s1 rc s
  | .insert d s1 rc => Sys2Proof.Machine.execInsert d s1 rc s
  | .rdSpecial d s1 => Sys2Proof.Machine.execRdSpecial d s1 s
  | .rdInsert d => Sys2Proof.Machine.execRdInsert d s
  | .rdKpsw d => Sys2Proof.Machine.execRdKpsw d s
  | .wrSpecial n s1 rc => Sys2Proof.Machine.execWrSpecial n s1 rc s
  | .wrInsert rc => Sys2Proof.Machine.execWrInsert rc s
  | .wrKpsw s1 rc => Sys2Proof.Machine.execWrKpsw s1 rc s
  | .sync => Sys2Proof.Machine.execSync s
  | .invalidateIb => Sys2Proof.Machine.execInvalidateIb s
  | .cmpBrDelayed cond s1 cc off => Sys2Proof.Machine.execCmpBrDelayed cond s1 cc off s
  | .tagCmpBrDelayed cond s1 tc off => Sys2Proof.Machine.execTagCmpBrDelayed cond s1 tc off s
  | .fpCmpBrDelayed cond s1 s2 off => Sys2Proof.Machine.execFpCmpBrDelayed cond s1 s2 off s
  | .cmpBrTrue cond s1 cc off => Sys2Proof.Machine.execCmpBrTrue cond s1 cc off s
  | .tagCmpBrTrue cond s1 tc off => Sys2Proof.Machine.execTagCmpBrTrue cond s1 tc off s
  | .fpCmpBrTrue cond s1 s2 off => Sys2Proof.Machine.execFpCmpBrTrue cond s1 s2 off s
  | .cmpTrap cond s1 cc off => Sys2Proof.Machine.execCmpTrap cond s1 cc off s
  | .tagCmpTrap cond s1 tc off => Sys2Proof.Machine.execTagCmpTrap cond s1 tc off s
  | .jumpReg s1 rc => Sys2Proof.Machine.execJumpReg s1 rc s
  | .callKernel => Sys2Proof.Machine.execCallKernel s
  | .ret s1 rc => Sys2Proof.Machine.execRet s1 rc s
  | .retTrap s1 rc => Sys2Proof.Machine.execRetTrap s1 rc s
  | .retKernel s1 rc => Sys2Proof.Machine.execRetKernel s1 rc s
  | .fadd d s1 s2 => Sys2Proof.Machine.execFadd d s1 s2 s
  | .fsub d s1 s2 => Sys2Proof.Machine.execFsub d s1 s2 s
  | .fmul d s1 s2 => Sys2Proof.Machine.execFmul d s1 s2 s
  | .fdiv d s1 s2 => Sys2Proof.Machine.execFdiv d s1 s2 s
  | .fmov d s1 => Sys2Proof.Machine.execFmov d s1 s
  | .fabs d s1 => Sys2Proof.Machine.execFabs d s1 s
  | .fneg d s1 => Sys2Proof.Machine.execFneg d s1 s
  | .float d s1 => Sys2Proof.Machine.execFloat d s1 s
  | .fix d s1 => Sys2Proof.Machine.execFix d s1 s
  | .cvts d s1 => Sys2Proof.Machine.execCvts d s1 s
  | .cvtd d s1 => Sys2Proof.Machine.execCvtd d s1 s
  | .jump addr => Sys2Proof.Machine.execJump addr s
  | .call addr => Sys2Proof.Machine.execCall addr s

end Sys2Proof.Machine
end

