-- ==== Sys2Proof/Machine/Step.lean ====
section
/-! DEFINITION. One step of the node: the instruction at the PC, or the interrupt or fault before it
(spec/60_exceptions.md R343, spec/45_call_jump.md R280). -/

namespace Sys2Proof.Machine

open Sys2Proof

/-- The fetched word runs: an enabled pending interrupt goes first; an unassigned opcode is the illegal opcode
exception; a reserved encoding is outside the spec (R134, R343). An FPU opcode with the bit 14 that its format excludes is
refused even where the FPU is illegal or absent, which R136 and R331 would make the illegal opcode exception: no text orders
the two, a DESIGN CHOICE (log 25). -/
def stepWord (w : Word) (s : State) : Out :=
  if interruptReady s then .next (takeTrap .interrupt s)
  else match decode w with
    | .ok i => exec i s
    | .error .illegalOpcode => raiseIllegal s
    | .error .reservedBit14 => .refused .reservedEncoding

/-- The fetch, its fault, or the instruction (R343). -/
def stepFetched (s : State) : Out := onAccess (fetch s) stepWord

/-- One step (R280, R343). -/
def step (s : State) : Host.Outcome State Fault Refusal :=
  onTick (if s.pipe.squash then squashStep s else stepFetched s)

/-- The same machine with an instruction where `step` fetches its next one. -/
def State.withFetchWord (s : State) (nbits w : Nat) : State := placeWord s (BitVec.ofNat 32 (w % 2 ^ nbits))

end Sys2Proof.Machine
end

