-- ==== Sys2Proof/Machine/BusProtocol.lean ====
section
/-! DEFINITION. The protocol of the SpurBus below one transfer (spec/80_spurbus.md R436 to R453): arbitration waves, START
cycles, block transfers word by word, the inter-cache path. No step of the node calls these: a transfer of Bus.lean is
one of these runs as a whole (R455, log 34). `true` is an asserted line. -/

namespace Sys2Proof.Machine

open Sys2Proof

/-! ### The watchdog timer (R440) -/

/-- The eight cycles after START in which an owner may answer (R451). -/
def snoopWindow : Nat := 8

/-- The period of the watchdog, BUS_TIMEOUT_CYCLES: longer than the snoop window and than a write for invalidation, by how
much is open (R440, log 34). -/
def busTimeoutCycles : Nat := max snoopWindow Config.wfiCycles + 1 + Config.busTimeoutExtra

/-- The timer, `waited` cycles after it was started or reset, fires. -/
def timerFires (waited : Nat) : Bool := decide (busTimeoutCycles ≤ waited)

/-! ### Arbitration (R442, R445, R446) -/

/-- One board's drivers of ARB<3..0>, from the lines as read (`arb` = the board wants the bus). -/
def arbDrive (arb : Bool) (id line : BitVec 4) : BitVec 4 :=
  let lost3 := !id.getLsbD 3 && line.getLsbD 3
  let lost2 := !id.getLsbD 2 && line.getLsbD 2
  let lost1 := !id.getLsbD 1 && line.getLsbD 1
  BitVec.ofBool (arb && id.getLsbD 3) ++ BitVec.ofBool (arb && id.getLsbD 2 && !lost3) ++
    BitVec.ofBool (arb && id.getLsbD 1 && !lost3 && !lost2) ++
    BitVec.ofBool (arb && id.getLsbD 0 && !lost3 && !lost2 && !lost1)

/-- The open-collector lines: asserted if any contending board asserts them (R431). -/
def arbLines (ids : List (BitVec 4)) (line : BitVec 4) : BitVec 4 :=
  ids.foldl (fun acc id => acc ||| arbDrive true id line) 0#4

/-- The lines after the boards have settled: one pass for each line. -/
def arbSettled (ids : List (BitVec 4)) : BitVec 4 :=
  arbLines ids (arbLines ids (arbLines ids (arbLines ids (arbLines ids 0#4))))

/-- The winner of a wave: the largest slot number not yet served. -/
def waveWinner : List (BitVec 4) → Option (BitVec 4)
  | [] => none
  | id :: t =>
    match waveWinner t with
    | none => some id
    | some best => if best.toNat < id.toNat then some id else some best

/-- The arbitration lines, which go their way beside the transfers (R445): the members of the wave not yet served, the
master parked on the bus (R446), and the cycles in which the winner could have begun a transfer, which the timer counts
(R440). -/
structure Arbiter where
  wave : List (BitVec 4)
  parked : Option (BitVec 4)
  waited : Nat
  deriving DecidableEq, Repr

/-- RQST/ is asserted while a member of the wave is not served. -/
def requestLine (a : Arbiter) : Bool := !a.wave.isEmpty

/-- The masters `ids` want the bus in one cycle: they form a wave, or must wait while RQST/ is asserted. -/
def requestBus (ids : List (BitVec 4)) (a : Arbiter) : Arbiter :=
  if requestLine a || ids.isEmpty then a else { wave := ids, parked := none, waited := 0 }

/-- The board that is the next to take over the bus: the winner of the wave, else the parked one. -/
def nextMaster (a : Arbiter) : Option (BitVec 4) :=
  match waveWinner a.wave with
  | some id => some id
  | none => a.parked

/-- The winner has been served and withdraws; the last of a wave is parked on the bus. The timer starts anew for the next
winner (R440). -/
def releaseBus (a : Arbiter) : Arbiter :=
  match waveWinner a.wave with
  | some id =>
    let rest := a.wave.filter (fun x => x != id)
    { wave := rest, parked := if rest.isEmpty then some id else none, waited := 0 }
  | none => a

/-- Arbitration restarts (R390). -/
def resetArbiter : Arbiter := { wave := [], parked := none, waited := 0 }

/-- A cycle between transfers in which the winner of arbitration does not begin one. The timer has run since arbitration
selected it (R440); when it fires, arbitration goes on without that master, as after an idle cycle (R442, R444), a
DESIGN CHOICE: what the watchdog's ACK cycle does to it is not said (log 34). For a winner selected during a transfer the
count begins with the end of that transfer, see `busCycle`. -/
def winnerWaits (a : Arbiter) : Arbiter :=
  match waveWinner a.wave with
  | some _ => if timerFires a.waited then releaseBus a else { a with waited := a.waited + 1 }
  | none => a

/-! ### START cycles (R436, R437, R442, R449 to R452) -/

/-- The lines of a START cycle; with ACK asserted too it is an idle cycle (R442). An owner's VACK cycle may fall into it
(R454). -/
structure StartCycle where
  ack : Bool
  ad : Word
  tm1 : Bool
  tm0 : Bool
  vad : BitVec 33
  vtm0 : Bool
  vtm1 : Bool
  vack : Bool
  deriving DecidableEq, Repr

/-- The physical-address lines of a cache line transfer: AD<31:5> and 01110 (R437). -/
def lineStartLines (block : BitVec 27) : Word := block ++ 0x0E#5

/-- The dummy address of a board's write for invalidation: 0xF<id>F00000 (R452). -/
def invalidateAddr (id : BitVec 4) : Word := 0xF#4 ++ id ++ 0xF00000#24

/-- A plain transfer of one word; VAD and VTM1 carry nothing (`v`, `x`). -/
def wordStart (write : Bool) (pa : Word) (v : BitVec 33) (x : Bool) : StartCycle :=
  { ack := false, ad := pa, tm1 := write, tm0 := false, vad := v, vtm0 := false, vtm1 := x, vack := false }

/-- A line written back: no snooping. -/
def writeBackStart (block : BitVec 27) (v : BitVec 33) (x : Bool) : StartCycle :=
  { ack := false, ad := lineStartLines block, tm1 := true, tm0 := false, vad := v, vtm0 := false, vtm1 := x,
    vack := false }

/-- A snooping read: the physical line address on AD, bits 37 to 5 of the global virtual address on VAD (R451). -/
def snoopReadStart (block : BitVec 27) (g : GlobalAddr) (own : Bool) : StartCycle :=
  { ack := false, ad := lineStartLines block, tm1 := false, tm0 := false, vad := g.extractLsb' 5 33, vtm0 := true,
    vtm1 := own, vack := false }

/-- A write for invalidation: Table 4.2 leaves VTM1 open (R452). -/
def invalidateStart (id : BitVec 4) (g : GlobalAddr) (x : Bool) : StartCycle :=
  { ack := false, ad := invalidateAddr id, tm1 := true, tm0 := false, vad := g.extractLsb' 5 33, vtm0 := true, vtm1 := x,
    vack := false }

/-- An idle cycle: the other lines, whatever they are, carry nothing (R442). -/
def idleStart (c : StartCycle) : StartCycle := { c with ack := true }

/-- The NuBus transfer that a START cycle asks for (R436); none in an idle cycle (R442). -/
def startedTransfer (c : StartCycle) : Option BusTransfer :=
  if c.ack then none else some (startTransfer c.tm1 c.tm0 (c.ad.getLsbD 1) (c.ad.getLsbD 0))

/-- The words of the transfer, where the block size is a valid one (R437). -/
def startedWords (c : StartCycle) : Option Nat :=
  match startedTransfer c with
  | none => none
  | some (.block _) => blockWords (c.ad.getLsbD 5) (c.ad.getLsbD 4) (c.ad.getLsbD 3) (c.ad.getLsbD 2)
  | some (.word _) => some 1
  | some (.half _ _) => some 1
  | some (.byte _ _) => some 1

/-- The snooped operation, as every other SpurBoard sees it (R450). -/
def startedSnoop (c : StartCycle) : SnoopOp := if c.ack then .none else snoopCode c.vtm0 c.tm1 c.vtm1

/-! ### The cycles after START on the NuBus path (R438 to R441) -/

/-- The lines of a cycle after START. -/
structure DataCycle where
  ack : Bool
  tm1 : Bool
  tm0 : Bool
  ad : Word
  deriving DecidableEq, Repr

/-- A transfer as its master sees it: the words still due, those that have crossed, and the cycles since the last. -/
structure Transfer where
  due : Nat
  words : List Word
  waited : Nat
  deriving DecidableEq, Repr

/-- What a cycle brings a transfer to. -/
inductive TransferCycle where
  | goesOn (t : Transfer)
  /-- ACK with the last word: the status says how it ended (R441) -/
  | ended (st : BusStatus) (words : List Word)
  /-- ACK before the last word was due: "its transfer is over (in error)" (R439) -/
  | endedEarly
  deriving DecidableEq, Repr

/-- The transfer as the START cycle begins it. -/
def beginTransfer (words : Nat) : Transfer := { due := words, words := [], waited := 0 }

/-- A word of a block before the last: an intermediate ACK cycle, TM0 asserted and ACK not (R439). -/
def isIntermediate (c : DataCycle) : Bool := c.tm0 && !c.ack

/-- The watchdog ends the transfer: the period has passed without a word (R440). -/
def watchdogFires (t : Transfer) : Bool := timerFires t.waited

/-- A cycle of a transfer. Intermediate cycles carry all words but the last; one more than that is not described and is
taken as bringing nothing (log 34). An ACK before the last word is due ends the transfer in error (R439) whatever status it carries,
"try again later" too, which R441 would repeat: a DESIGN CHOICE (log 34). -/
def transferCycle (t : Transfer) (c : DataCycle) : TransferCycle :=
  if c.ack then
    (if t.due ≤ 1 then .ended (ackStatus c.tm1 c.tm0) (t.words ++ [c.ad]) else .endedEarly)
  else if isIntermediate c && decide (1 < t.due) then
    .goesOn { due := t.due - 1, words := t.words ++ [c.ad], waited := 0 }
  else if watchdogFires t then .ended .busTimeoutError t.words
  else .goesOn { t with waited := t.waited + 1 }

/-- A transfer over cycles, to its end. -/
def runTransfer : Transfer → List DataCycle → TransferCycle
  | t, [] => .goesOn t
  | t, c :: cs =>
    match transferCycle t c with
    | .goesOn t1 => runTransfer t1 cs
    | .ended st ws => .ended st ws
    | .endedEarly => .endedEarly

/-- The end of a transfer is a bus fault for the master's CPU (R439, R441). -/
def transferFaults : TransferCycle → Bool
  | .goesOn _ => false
  | .ended st _ => statusFaults st
  | .endedEarly => true

/-- The NuBus cycles of a write for invalidation after START: no board answers, and after WFI_CYCLES the master ends its own
operation with a successful ACK (R452). -/
def invalidateCycles (ad : Word) : List DataCycle :=
  List.replicate Config.wfiCycles { ack := false, tm1 := false, tm0 := false, ad := ad } ++
    [{ ack := true, tm1 := true, tm0 := true, ad := ad }]

/-! ### The inter-cache path (R449, R451, R453, R454) -/

/-- The lines of a cycle after START on the inter-cache path. -/
structure VCycle where
  vack : Bool
  vtm0 : Bool
  vtm1 : Bool
  vad : BitVec 33
  deriving DecidableEq, Repr

/-- The inter-cache half of a snooping read, as the master sees it. -/
inductive SnoopPhase where
  /-- no cache has answered in the first `n` cycles after START -/
  | window (n : Nat)
  /-- no cache owns the line: the data is memory's -/
  | fromMemory
  /-- an owner has answered and has sent these words -/
  | fromOwner (words : List Word)
  /-- the VACK cycle: the end of the inter-cache transfer -/
  | supplied (st : VackStatus) (words : List Word)
  deriving DecidableEq, Repr

/-- A cycle on the inter-cache path. VAD<31..0> carry the words, the last in the VACK cycle. A VACK cycle before the eighth
word ends the transfer with the words that have crossed, which is a DESIGN CHOICE: R439 speaks of the NuBus path only. So is
that a strobe of VTM0 without VACK once seven words have crossed adds its word like the others, without limit: R451 gives
eight words, the last with VACK, and does not say what a further strobe does (log 34). -/
def snoopCycle (p : SnoopPhase) (c : VCycle) : SnoopPhase :=
  match p with
  | .window n =>
    if c.vtm0 then .fromOwner []
    else if n + 1 < snoopWindow then .window (n + 1)
    else .fromMemory
  | .fromMemory => .fromMemory
  | .fromOwner ws =>
    if c.vack then .supplied (vackStatus c.vtm0 c.vtm1) (ws ++ [c.vad.extractLsb' 0 32])
    else if c.vtm0 then .fromOwner (ws ++ [c.vad.extractLsb' 0 32])
    else .fromOwner ws
  | .supplied st ws => .supplied st ws

/-- The ACK cycle of the NuBus path is over: an OACK cycle "must not occur after an ACK cycle" (R451). -/
def closeWindow : SnoopPhase → SnoopPhase
  | .window _ => .fromMemory
  | .fromMemory => .fromMemory
  | .fromOwner ws => .fromOwner ws
  | .supplied st ws => .supplied st ws

/-- The inter-cache datapath is used and its transfer has not ended (R454). -/
def pathBusy : SnoopPhase → Bool
  | .window _ => true
  | .fromMemory => false
  | .fromOwner _ => true
  | .supplied _ _ => false

/-- How a snooping read ends. -/
inductive LineReadEnd where
  /-- a path that is used has not ended (R454) -/
  | waits
  /-- the words, and whether memory is behind them (R453) -/
  | data (words : List Word) (dirty : Bool)
  | faults
  /-- try again later: the transfer is repeated (R441) -/
  | again
  deriving DecidableEq, Repr

/-- The end of both halves: the owner's words are kept whatever the status of the memory transfer, parameter
SNOOP_READ_MEMORY_ERROR; without an owner, memory's (R451, R453). -/
def lineReadEnd (memory : TransferCycle) (cache : SnoopPhase) : LineReadEnd :=
  match memory, cache with
  | .goesOn _, _ => .waits
  | _, .window _ => .waits
  | _, .fromOwner _ => .waits
  | _, .supplied .dirty ws => .data ws true
  | _, .supplied .clean ws => .data ws false
  | _, .supplied .unspecifiedError _ => .faults
  | .endedEarly, .fromMemory => .faults
  | .ended .successful ws, .fromMemory => .data ws false
  | .ended .unspecifiedError _, .fromMemory => .faults
  | .ended .busTimeoutError _, .fromMemory => .faults
  | .ended .tryAgainLater _, .fromMemory => .again

/-- The owner's side: the words strobed on VAD, then the VACK cycle with the last word and the status (R451, R453). The
33rd VAD line carries nothing (`x`). -/
def ownerCycles (x : BitVec 1) : List Word → VackStatus → List VCycle
  | [], _ => []
  | [w], st =>
    [{ vack := true, vtm0 := st != .unspecifiedError, vtm1 := st == .dirty, vad := x ++ w }]
  | w :: ws, st => { vack := false, vtm0 := true, vtm1 := false, vad := x ++ w } :: ownerCycles x ws st

/-- The inter-cache half over cycles. -/
def runSnoop : SnoopPhase → List VCycle → SnoopPhase
  | p, [] => p
  | p, c :: cs => runSnoop (snoopCycle p c) cs

/-! ### The bus: mastery and the transfers in progress on its two paths (R435, R436, R445, R446, R454) -/

/-- The bus: arbitration, the board that has mastery, the NuBus transfer in progress, which is that board's, and the
inter-cache half of the last operation of a SpurBoard, if that is a snooping read: it may outlast the NuBus half (R454). -/
structure BusState where
  arb : Arbiter
  master : Option (BitVec 4)
  current : Option Transfer
  path : Option SnoopPhase
  deriving DecidableEq, Repr

/-- Bus Reset: the bus is idle with no owner (R390). -/
def resetBus : BusState := { arb := resetArbiter, master := none, current := none, path := none }

/-- The winner of arbitration takes over mastery (R436). -/
def takeOver (b : BusState) : BusState := { b with master := nextMaster b.arb }

/-- The boards `ids` want the bus in one cycle. Arbitration may overlap a transfer, and then its winner waits for the end of
that transfer; on a bus without one it takes over at once (R435, R445): the two cycles in which the lines settle are timing
that is left out (log 34). -/
def contend (ids : List (BitVec 4)) (b : BusState) : BusState :=
  let b1 := { b with arb := requestBus ids b.arb }
  match b.current with
  | none => takeOver b1
  | some _ => b1

/-- A board may drive a START cycle: it has mastery and has seen the end of the last NuBus transfer (R435). -/
def holdsBus (id : BitVec 4) (b : BusState) : Bool := b.master == some id && b.current == none

/-- An inter-cache transfer has not come to its VACK cycle (R454). -/
def interCacheBusy (b : BusState) : Bool := (b.path.map pathBusy).getD false

/-- A board may begin a transfer. A SpurBoard (`spur`) delays it until the ACK and the VACK cycle of the last operation are
both complete; a board that is not SpurBus waits for the ACK alone (R435, R454). -/
def mayStart (id : BitVec 4) (spur : Bool) (b : BusState) : Bool :=
  holdsBus id b && !(spur && interCacheBusy b)

/-- The lines of the inter-cache path in a START cycle. -/
def startLines (c : StartCycle) : VCycle := { vack := c.vack, vtm0 := c.vtm0, vtm1 := c.vtm1, vad := c.vad }

/-- The inter-cache path passes a cycle. -/
def pathCycle (v : VCycle) (b : BusState) : BusState := { b with path := b.path.map (fun p => snoopCycle p v) }

/-- The inter-cache half of a SpurBoard's operation: a snooping read's window opens (R451); a write for invalidation uses
no more of the path than its START cycle (R453). -/
def snoopHalf : SnoopOp → Option SnoopPhase
  | .none => none
  | .writeForInvalidation => none
  | .readShared => some (.window 0)
  | .readForOwnership => some (.window 0)

/-- The arbitration lines after a START cycle: the winner withdraws, unless it holds the bus for another transfer, which it
wins anew (R446). The count of its turn ends, and begins anew for the next (R440): the transfer has a count of its own. -/
def afterStart (hold : Bool) (a : Arbiter) : Arbiter := if hold then { a with waited := 0 } else releaseBus a

/-- The inter-cache path after the START cycle of a transfer. For a board that is not SpurBus the lines of the path in that
cycle are those of the owner that still sends: no snooped operation, which is a DESIGN CHOICE, since Table 4.2 reads VTM0 of
every START cycle (R450, R454, log 34). -/
def startedPath (spur : Bool) (c : StartCycle) (b : BusState) : Option SnoopPhase :=
  if spur then snoopHalf (startedSnoop c) else (pathCycle (startLines c) b).path

/-- A START cycle of board `id`, a SpurBoard or not (`spur`). None where it may not begin a transfer (R435, R454), or where
the size of a block is no valid one (R437). It begins the transfer and triggers arbitration; mastery stays with `id` until
the ACK cycle (R436). An idle cycle is START and ACK in one: it begins nothing, reinitiates arbitration, and the winner takes
over (R442); it is taken as no operation that must wait for VACK, a DESIGN CHOICE (log 34). -/
def startCycle (id : BitVec 4) (spur hold : Bool) (c : StartCycle) (b : BusState) : Option BusState :=
  match startedTransfer c with
  | none => if holdsBus id b then some (takeOver (pathCycle (startLines c) { b with arb := releaseBus b.arb })) else none
  | some _ =>
    if mayStart id spur b then
      (startedWords c).map (fun n =>
        { b with arb := afterStart hold b.arb, current := some (beginTransfer n), path := startedPath spur c b })
    else none

/-- The ACK cycle: the transfer is over, its window for an owner's answer closed (R451), and the winner takes over (R436). -/
def endTransfer (b : BusState) : BusState := takeOver { b with current := none, path := b.path.map closeWindow }

/-- A cycle of the bus that is no START cycle, and the end of a transfer if it brings it: "the ACK signal terminates data
transfers and triggers the current arbitration winner to take over bus mastery" (R436). Without a transfer the timer counts
for the winner (R440), also for a SpurBoard that waits for a VACK cycle, a DESIGN CHOICE (log 34). During a transfer it
counts for that transfer alone: a winner selected meanwhile (R445) cannot begin yet, and its count stands until the ACK, a
DESIGN CHOICE, since R440 has the timer start whenever a winner is selected (log 34). The inter-cache path goes on in either
case (R454). -/
def busCycle (c : DataCycle) (v : VCycle) (b : BusState) : BusState × Option TransferCycle :=
  let b1 := pathCycle v b
  match b.current with
  | none => (takeOver { b1 with arb := winnerWaits b.arb }, none)
  | some t =>
    match transferCycle t c with
    | .goesOn t1 => ({ b1 with current := some t1 }, none)
    | .ended st ws => (endTransfer b1, some (.ended st ws))
    | .endedEarly => (endTransfer b1, some .endedEarly)

/-- The bus over cycles without a START. -/
def runBus : BusState → List (DataCycle × VCycle) → BusState
  | b, [] => b
  | b, (c, v) :: cs => runBus (busCycle c v b).1 cs

end Sys2Proof.Machine
end

