-- ==== Sys2Proof/Machine/Outside.lean ====
section
/-! DEFINITION. What happens to the node between its steps (spec/00_scope.md R13, log 8): transfers of other bus masters,
operations that its cache snoops, lines that other caches own, and RESET/ (spec/70_reset_and_hazards.md R390). -/

namespace Sys2Proof.Machine

open Sys2Proof

/-! ### Transfers of other bus masters (R434, R443, R114) -/

/-- The units of a NuBus transfer in bytes: byte, halfword, word, and blocks of 2, 4, 8 and 16 words (R434). -/
def transferUnits : List Nat := [1, 2, 4, 8, 16, 32, 64]

/-- A unit is aligned according to its size (R434). -/
def isTransfer (a : Word) (n : Nat) : Bool := transferUnits.contains n && a.toNat % n == 0

/-- Bytes stored at rising addresses. -/
def memPutBytes (m : List Host.Cell) : Nat → List Byte → List Host.Cell
  | _, [] => m
  | a, b :: bs => memPut (memPutBytes m (a + 1) bs) (BitVec.ofNat 32 a).toNat b

/-- `n` bytes at rising addresses. -/
def memGetBytes (m : List Host.Cell) : Nat → Nat → List Byte
  | _, 0 => []
  | a, n + 1 => memGet m (BitVec.ofNat 32 a).toNat :: memGetBytes m (a + 1) n

/-- The address lines of the START cycle: of a block, its size code lies in the low bits (R437). -/
def transferLines (a : Word) (n : Nat) : Word := if n ≤ 4 then a else a ||| BitVec.ofNat 32 (n / 2 - 2)

/-- What a bus master writes to memory, no cache seeing it (R114). -/
def storeFromBus (a : Word) (bs : List Byte) (s : State) : State :=
  match responder s a with
  | .board .ram => { s with mem := memPutBytes s.mem a.toNat bs }
  | .board .prom => s
  | .board .device => s
  | .board .faulty => s
  | .board .retry => s
  | .board .spurNode => s
  | .ownInterrupts => s
  | .nobody => s

/-- Another bus master writes: a board's memory changes, or a bit of INTREG is set by the address lines alone (R371,
R443). What is no unit of the bus has no effect. -/
def masterWrite (a : Word) (bs : List Byte) (s : State) : State :=
  if isTransfer a bs.length then storeFromBus a bs (deliverInterrupt (transferLines a bs.length) s) else s

/-- Another bus master reads: memory as it is, whatever a cache holds (R114); none where memory does not answer. The
node does not change. -/
def masterRead (a : Word) (n : Nat) (s : State) : Option (List Byte) :=
  if isTransfer a n then
    match responder s a with
    | .board .ram => some (memGetBytes s.mem a.toNat n)
    | .board .prom => some (memGetBytes s.mem a.toNat n)
    | .board .device => none
    | .board .faulty => none
    | .board .retry => none
    | .board .spurNode => none
    | .ownInterrupts => none
    | .nobody => none
  else none

/-! ### Lines of other caches: one owner at a time, one order of the writes to a line (R109, R112) -/

/-- The first address of line `n`. -/
def lineAddress (n : BitVec 33) : GlobalAddr := n ++ 0#5

/-- A line as it is now for the caches together, with the block of memory it is a copy of and whether memory may be behind
it: its owner's, else a copy held here, else memory's at `block` (R112, R113). -/
def currentLine (s : State) (g : GlobalAddr) (block : BitVec 27) : RemoteLine :=
  match lineGet s.remote (lineNumber g) with
  | some r => { r with state := .ownedPrivate }
  | none =>
    match cacheProbe s g with
    | some l =>
      { state := .ownedPrivate, ptag := l.ptag, status := if l.blockDirty then .dirty else .clean, words := l.words }
    | none => { state := .ownedPrivate, ptag := block, status := .clean, words := memBlock s.mem block }

/-- Another cache is the owner of the line of `g`, which it holds as `r`; no copy is left here (R112). -/
def ownedElsewhere (s : State) (g : GlobalAddr) (r : RemoteLine) : State :=
  { snoopLine .writeForInvalidation g s with remote := linePut s.remote (lineNumber g) r }

/-- A line that another cache owns is shared (R112). -/
def sharedElsewhere (s : State) (g : GlobalAddr) : State :=
  match lineGet s.remote (lineNumber g) with
  | some r => { s with remote := linePut s.remote (lineNumber g) { r with state := .ownedShared } }
  | none => s

/-- A bus operation of another cache on the line of `g`, a copy of `block` (R112, R449): what this cache does, and who owns
the line after it. -/
def snooped (op : SnoopOp) (g : GlobalAddr) (block : BitVec 27) (s : State) : State :=
  match op with
  | .none => s
  | .readShared => sharedElsewhere (snoopLine .readShared g s) g
  | .readForOwnership => ownedElsewhere s g (currentLine s g block)
  | .writeForInvalidation => ownedElsewhere s g (currentLine s g block)

/-- The status with which an owner gives its line: clean only where memory holds its words, since a store makes the block
dirty (R101, R453). -/
def heldStatus (s : State) (block : BitVec 27) (ws : Vector Word 8) (st : VackStatus) : VackStatus :=
  if st = .clean ∧ memBlock s.mem block ≠ ws then .dirty else st

/-- Another cache, the owner of the line of `g` from now on, has written `ws` there (R112). -/
def writtenElsewhere (g : GlobalAddr) (block : BitVec 27) (ws : Vector Word 8) (st : VackStatus) (s : State) : State :=
  let p := (currentLine s g block).ptag
  ownedElsewhere s g { state := .ownedPrivate, ptag := p, status := heldStatus s p ws st, words := ws }

/-- What the write-back of another cache leaves in memory: "the owner is responsible for eventually copying the block back"
(R112, R113). -/
def writtenBackElsewhere (s : State) (r : RemoteLine) : List Host.Cell :=
  if r.status = .clean then s.mem
  else match responder s (blockWordAddr r.ptag 0) with
    | .board .ram => memPutBlock s.mem r.ptag r.words
    | .board .prom => s.mem
    | .board .device => s.mem
    | .board .faulty => s.mem
    | .board .retry => s.mem
    | .board .spurNode => s.mem
    | .ownInterrupts => s.mem
    | .nobody => s.mem

/-- The owner of the line of `g`, another cache, drops it, written back unless it is clean (R112 "replacement"). -/
def replacedElsewhere (g : GlobalAddr) (s : State) : State :=
  match lineGet s.remote (lineNumber g) with
  | some r => { s with mem := writtenBackElsewhere s r, remote := lineDrop s.remote (lineNumber g) }
  | none => s

/-! ### RESET/ (R390, R447) -/

/-- The `k`-th free value of a reset. -/
def resetVal (s : State) (k w : Nat) : BitVec w := Config.free w (s.free + k)

/-- A free 40-bit register. -/
def resetReg (s : State) (k : Nat) : Tagged :=
  { taggen := (resetVal s k 40).extractLsb' 32 8, data := (resetVal s k 40).extractLsb' 0 32 }

/-- A block of the instruction buffer with no valid bit; its tag and words are any value. -/
def resetIbBlock (s : State) (k : Nat) : IbBlock :=
  { tag := resetVal s k 27, valid := 0#8, words := Vector.ofFn (fun j : Fin 8 => resetVal s (k + 1 + j.val) 32) }

/-- How far a reset moves the free-value counter. -/
def resetStride : Nat := 1024

/-- The bits of KPSW that R67 gives a value: the enables, mode and the two virtual-address bits, at 0. -/
def resetKpswMask : BitVec 24 := 0x1F1F#24

/-- KPSW after a reset: kernel mode, everything off, the other bits any value (R67). -/
def resetKpsw (s : State) : BitVec 24 := (resetVal s 200 24 &&& ~~~resetKpswMask) ||| 0x10#24

/-- The view of the state alone remembered, the free-value counter moved on. -/
def resetViews (s : State) : State := { restartViews s with free := s.free + resetStride }

/-- `SystemReset` on this node (R390): what R67 and its decision D10 state takes its value (UPSW, CWP and INTREG are 0 by
D10, log 38) and the rest is any value; memory is not changed, and what the caches held is lost. R67 gives the instruction
buffer its valid bits only: that its tags and words are any value too is a DESIGN CHOICE (log 31). -/
def systemReset (s : State) : State :=
  resetViews
    { s with
      globals := Vector.ofFn (fun k : Fin 10 => resetReg s k.val)
      windows := Vector.ofFn (fun k : Fin 128 => resetReg s (16 + k.val))
      upsw := 0#6
      cwp := 0#3
      swp := resetVal s 203 29
      kpsw := resetKpsw s
      insert := resetVal s 204 2
      fpuPc := resetVal s 205 30
      pc := s.board.firstPC
      nextPC := s.board.firstPC + 4#32
      trapPC := resetVal s 206 30 ++ 0#2
      trapNextPC := resetVal s 207 30 ++ 0#2
      pipe := Pipe.idle
      ib := Vector.ofFn (fun k : Fin 16 => resetIbBlock s (500 + 16 * k.val))
      prefetch := none
      fregs := Vector.ofFn (fun k : Fin 15 => freeFpReg s (300 + 8 * k.val))
      fpsw := resetVal s 208 15
      fpuRun := none
      fpuExcep := false
      fpuExcKind := if (resetVal s 209 1).getLsbD 0 then .integerOverflow else .floatingPoint
      fpuBrTF := (resetVal s 210 1).getLsbD 0
      gsn := Vector.ofFn (fun k : Fin 4 => resetVal s (212 + k.val) 8)
      rptm := Vector.ofFn (fun k : Fin 4 => resetVal s (216 + k.val) 20)
      pteva := resetVal s 220 36 ++ 0#2
      rpteva := resetVal s 221 36 ++ 0#2
      gva := resetVal s 222 38
      intreg := 0#32
      intmask := 0#32
      counter0 := resetVal s 224 32
      counter1 := resetVal s 225 32
      cache := []
      remote := []
      faultInfo := none }

/-- `BusReset` (R390): no register of the CPU, the FPU or the cache controller changes; no transfer is in progress
between steps. The bus restarts with `resetBus`. -/
def busReset (s : State) : State := s

/-! ### One event -/

/-- What can happen between two steps of the node. -/
inductive OutsideEvent where
  /-- another bus master writes bytes to physical memory or to interrupt space -/
  | write (a : Word) (bs : List Byte)
  /-- another cache's bus operation on the line of `g`, a copy of `block`, is snooped -/
  | snoop (op : SnoopOp) (g : GlobalAddr) (block : BitVec 27)
  /-- another cache owns line `n`, a copy of `block`, from now on and has written `ws` there; its VACK cycles carry `st` -/
  | owns (n : BitVec 33) (block : BitVec 27) (ws : Vector Word 8) (st : VackStatus)
  /-- the other cache that owns line `n` replaces it -/
  | disowns (n : BitVec 33)
  | systemReset
  | busReset

/-- The event takes place. -/
def outsideEffect (e : OutsideEvent) (s : State) : State :=
  match e with
  | .write a bs => masterWrite a bs s
  | .snoop op g block => snooped op g block s
  | .owns n block ws st => writtenElsewhere (lineAddress n) block ws st s
  | .disowns n => replacedElsewhere (lineAddress n) s
  | .systemReset => systemReset s
  | .busReset => busReset s

/-- The event takes place and the moment is remembered (R110). -/
def outside (e : OutsideEvent) (s : State) : State := recordView (outsideEffect e s)

end Sys2Proof.Machine
end

