-- ==== Sys2Proof/Safety.lean ====
section
/-! DEFINITION. What counts as a well-formed state, and what the statements say an instruction leaves unchanged. -/

namespace Sys2Proof.Safety

open Sys2Proof Sys2Proof.Machine

/-- An instruction address: bits 1 and 0 are 0 (R34). -/
def wordAligned (a : Word) : Prop := a.extractLsb' 0 2 = 0#2

/-- The lines of this cache and those that other caches own: both lists are canonical, and a line has one owner at a
time, so that a copy here of a line that another cache owns is not owned and holds its owner's words (R109, R112). -/
structure Coherent (c : List (Nat × Line)) (r : List (Nat × RemoteLine)) : Prop where
  cache : cacheWf c = true
  remote : remoteWf r = true
  owner : ∀ g l x, lineGet c (lineIndex g) = some l → l.vtag = lineTag g → lineGet r (lineNumber g) = some x →
    l.state = .unowned ∧ l.words = x.words

/-- The invariant of the node: memory in canonical form, the lines of the caches coherent, every program address
word-aligned (R34), and the two low bits of PTEVA and RPTEVA 0 (R57, R58). -/
structure Invariant (s : State) : Prop where
  memory : memWf s.mem = true
  lines : Coherent s.cache s.remote
  pc : wordAligned s.pc
  nextPC : wordAligned s.nextPC
  trapPC : wordAligned s.trapPC
  trapNextPC : wordAligned s.trapNextPC
  pteva : s.pteva.extractLsb' 0 2 = 0#2
  rpteva : s.rpteva.extractLsb' 0 2 = 0#2

/-- What the spec states of a node after a reset (R67, R390, D10). -/
structure AfterReset (t : State) : Prop where
  kernel : kpswMode t = true
  physical : kpswVaIfetch t = false ∧ kpswVaDfetch t = false
  trapsOff : kpswAllEn t = false ∧ kpswIntEn t = false ∧ kpswErrEn t = false ∧ kpswFltEn t = false ∧
    kpswWinEn t = false
  bufferOff : kpswIbEn t = false ∧ kpswPrefetchEn t = false
  buffer : ∀ k : Fin 16, t.ib[k].valid = 0#8
  fpuIdle : t.fpuRun = none ∧ t.fpuExcep = false
  cache : t.cache = []
  interrupts : t.intmask = 0#32 ∧ t.intreg = 0#32
  upsw : t.upsw = 0#6
  cwp : t.cwp = 0#3
  pipe : t.pipe = Pipe.idle
  nextPC : t.nextPC = t.pc + 4#32

/-! ### What a statement asks of a state -/

/-- The operand register is not under a load or window shadow (R171, R288). -/
def readable (s : State) (i : RegField) : Bool := !regShadowed s i

/-- The destination is not the target of the load just before (R171). -/
def writable (s : State) (d : RegField) : Bool := !destBlocked s d

/-- The FPU is present, not made illegal, and the one the sources describe (R331). -/
def fpuReady (s : State) : Bool := !fpuUnavailable s && upswFpuId s == fpuCoprocessorId

/-- No pending FPU exception is taken by this instruction (R330). -/
def noFpuTrap (s : State) : Bool := !(s.fpuExcep && fpuTrapEnabled s && trapEnabled s (pendingTrap s))

/-- A register the running FPU operation does not use, or sequential mode (R172, R330). -/
def fpuFree (s : State) (n : RegField) : Bool := !fpuUses (fpuMemWait s) n

/-- A register the running FPU operation does not write, or sequential mode (R407). -/
def fpuSettled (s : State) (n : RegField) : Bool := !fpuWrites (fpuMemWait s) n

/-- A physical data access that reaches memory: KPSW.va_dfetch is 0 and the platform has RAM there. -/
def physicalRam (s : State) (a : Word) : Bool := !kpswVaDfetch s && responder s a == .board .ram

/-- A virtual data access that finds its line, of a cacheable page, in the cache, the protection allowing it (R85, R99). -/
def cacheHit (s : State) (a : Word) (l : Line) (write : Bool) : Bool :=
  kpswVaDfetch s && cacheProbe s (globalAddr s a) == some l && permits s l.prot write && l.cacheable

/-- A virtual data access that finds its line in the cache with the mark of a non-cacheable page, the protection allowing
it, and RAM behind it (R84, R97, log 11). -/
def uncachedHit (s : State) (a : Word) (l : Line) (write : Bool) : Bool :=
  kpswVaDfetch s && cacheProbe s (globalAddr s a) == some l && permits s l.prot write && !l.cacheable &&
    responder s (lineAddr l a) == .board .ram

/-! ### What a step leaves unchanged -/

/-- Every physical integer register but those listed. -/
def KeepsRegs (s t : State) (written : List PhysReg) : Prop := ∀ r, r ∉ written → regGet t r = regGet s r

/-- The physical register that destination `d` names; none for R0, a write to which does nothing (R22). -/
def destOf (s : State) (d : RegField) : List PhysReg := if d = 0#5 then [] else [physReg s.cwp d]

/-- UPSW, SWP and INSERT. -/
structure KeepsStatus (s t : State) : Prop where
  upsw : t.upsw = s.upsw
  swp : t.swp = s.swp
  insert : t.insert = s.insert

/-- The registers a trap saves into. -/
structure KeepsTrapRegs (s t : State) : Prop where
  trapPC : t.trapPC = s.trapPC
  trapNextPC : t.trapNextPC = s.trapNextPC

/-- The FPU, its registers and its lines to the CPU; `run` is the operation in progress afterwards. -/
structure FpuKept (s t : State) (run : Option FpuRun) : Prop where
  fregs : t.fregs = s.fregs
  fpsw : t.fpsw = s.fpsw
  fpuPc : t.fpuPc = s.fpuPc
  fpuRun : t.fpuRun = run
  fpuExcep : t.fpuExcep = s.fpuExcep
  fpuExcKind : t.fpuExcKind = s.fpuExcKind
  fpuBrTF : t.fpuBrTF = s.fpuBrTF

/-- All of the FPU. -/
abbrev KeepsFpu (s t : State) : Prop := FpuKept s t s.fpuRun

/-- The registers of the cache controller that an access does not latch. -/
structure KeepsController (s t : State) : Prop where
  gsn : t.gsn = s.gsn
  rptm : t.rptm = s.rptm
  rpteva : t.rpteva = s.rpteva
  intreg : t.intreg = s.intreg
  intmask : t.intmask = s.intmask
  counter0 : t.counter0 = s.counter0
  counter1 : t.counter1 = s.counter1
  faultInfo : t.faultInfo = s.faultInfo
  board : t.board = s.board

/-- GVA and PTEVA, which a virtual access latches (R57, R59). -/
structure KeepsLatches (s t : State) : Prop where
  gva : t.gva = s.gva
  pteva : t.pteva = s.pteva

/-- What a virtual access to `va` latches: GVA, and bits 27 to 0 of PTEVA (R57, R59). -/
structure Latches (s t : State) (va : Word) : Prop where
  gva : t.gva = globalAddr s va
  ptevaHigh : t.pteva.extractLsb' 28 10 = s.pteva.extractLsb' 28 10
  ptevaPage : t.pteva.extractLsb' 2 26 = (globalAddr s va).extractLsb' 12 26
  ptevaLow : t.pteva.extractLsb' 0 2 = 0#2

/-- The instruction buffer, its prefetcher, and the words it may hold. -/
structure KeepsBuffer (s t : State) : Prop where
  ib : t.ib = s.ib
  prefetch : t.prefetch = s.prefetch
  past : t.past = s.past

/-- Every byte of memory, every cache line, and every line that another cache owns. -/
structure KeepsMemory (s t : State) : Prop where
  bytes : ∀ a, memGet t.mem a = memGet s.mem a
  lines : ∀ k, lineGet t.cache k = lineGet s.cache k
  remote : ∀ k, lineGet t.remote k = lineGet s.remote k

/-- Every byte of memory outside the `n` bytes from `a` on, and every cache line of this node and the others. -/
structure KeepsMemoryBut (s t : State) (a n : Nat) : Prop where
  bytes : ∀ x, (x < a ∨ a + n ≤ x) → memGet t.mem x = memGet s.mem x
  lines : ∀ k, lineGet t.cache k = lineGet s.cache k
  remote : ∀ k, lineGet t.remote k = lineGet s.remote k

/-- The lines of other caches once the line of `g`, which is here, has become `l1`: none of them holds it where this
node has gained its ownership (R112, R452). -/
def remoteAfter (s : State) (g : GlobalAddr) (l1 : Line) : List (Nat × RemoteLine) :=
  match cacheProbe s g with
  | some l =>
    if l1.state = .ownedPrivate ∧ l.state ≠ .ownedPrivate then lineDrop s.remote (lineNumber g) else s.remote
  | none => s.remote

/-- Every byte of memory, and every cache line of this node and the others, but the line of `g`, which becomes `l1`. -/
structure KeepsLinesBut (s t : State) (g : GlobalAddr) (l1 : Line) : Prop where
  bytes : ∀ a, memGet t.mem a = memGet s.mem a
  lines : ∀ j, j ≠ lineIndex g → lineGet t.cache j = lineGet s.cache j
  line : cacheProbe t g = some l1
  remote : t.remote = remoteAfter s g l1

/-- The instruction ends and the one at `nextPC` follows: the KPSW as it was, but for the change of a return that
waits (R286, R287), and nothing pending but what `p` says. -/
structure Sequential (s t : State) (p : Pipe) : Prop where
  pc : t.pc = s.nextPC
  nextPC : t.nextPC = s.nextPC + 4#32
  kpsw : t.kpsw = applyRet s.kpsw s.pipe.retPend
  cwp : t.cwp = s.cwp
  pipe : t.pipe = p

/-- Nothing but registers, the end of the instruction and the parts named is touched: the status registers, the trap
registers, the cache controller, the instruction buffer. -/
structure KeepsSystem (s t : State) : Prop where
  status : KeepsStatus s t
  trapRegs : KeepsTrapRegs s t
  controller : KeepsController s t
  buffer : KeepsBuffer s t

/-- The frame of a register operation: only the registers listed. -/
structure OnlyRegs (s t : State) (written : List PhysReg) : Prop where
  regs : KeepsRegs s t written
  system : KeepsSystem s t
  fpu : KeepsFpu s t
  latches : KeepsLatches s t
  memory : KeepsMemory s t

/-- The instruction completes with its own effect: `R[d] <- v` and nothing else, one instruction on. A write to R0
does nothing: R0 still reads zero (R22). -/
def WritesReg (i : Instr) (s : State) (d : RegField) (v : Tagged) : Prop :=
  ∃ t, exec i s = .next t ∧ regVal t d = (if d = 0#5 then zeroTagged else v) ∧
    OnlyRegs s t (destOf s d) ∧ Sequential s t Pipe.idle

/-- The load shadow that a load of `R[d]` leaves, and no other (R171). -/
def shadowOf (s : State) (d : RegField) : Pipe := { Pipe.idle with loadShadow := intTarget s d }

/-- A load completes from memory: as `WritesReg`, with the load shadow (R171). -/
def LoadsReg (i : Instr) (s : State) (d : RegField) (v : Tagged) : Prop :=
  ∃ t, exec i s = .next t ∧ regVal t d = (if d = 0#5 then zeroTagged else v) ∧
    OnlyRegs s t (destOf s d) ∧ Sequential s t (shadowOf s d)

/-- A load completes from the cache line `l` of virtual address `a`: the line is `l1` afterwards, all other lines and
memory are as before, and the access is latched. -/
def LoadsRegCached (i : Instr) (s : State) (d : RegField) (v : Tagged) (p : Pipe) (a : Word) (l1 : Line) : Prop :=
  ∃ t, exec i s = .next t ∧ regVal t d = (if d = 0#5 then zeroTagged else v) ∧
    KeepsRegs s t (destOf s d) ∧ KeepsSystem s t ∧ KeepsFpu s t ∧ Latches s t a ∧
    KeepsLinesBut s t (globalAddr s a) l1 ∧ Sequential s t p

/-- A load completes with a word of RAM, past the cache: as `LoadsReg`, with what the access to `a` latches (R84). -/
def LoadsRegPast (i : Instr) (s : State) (d : RegField) (v : Tagged) (a : Word) : Prop :=
  ∃ t, exec i s = .next t ∧ regVal t d = (if d = 0#5 then zeroTagged else v) ∧
    KeepsRegs s t (destOf s d) ∧ KeepsSystem s t ∧ KeepsFpu s t ∧ Latches s t a ∧ KeepsMemory s t ∧
    Sequential s t (shadowOf s d)

/-- The line after a read for ownership: owned private (R112). -/
def owned (l : Line) : Line := { l with state := .ownedPrivate }

/-- A trap of type `tt` is taken by the instruction at `s.pc` (R352): the window moves on, R10 of the new window and
`trapPC` hold the address of the instruction, `trapNextPC` that of the next one; KPSW keeps every bit but all_en, mode,
prev_mode and, for an error fault, the two virtual-address bits (R353). -/
structure TakesTrap (s t : State) (tt : TrapType) : Prop where
  pc : t.pc = trapVector tt
  nextPC : t.nextPC = trapVector tt + 4#32
  trapPC : t.trapPC = s.pc
  trapNextPC : t.trapNextPC = s.nextPC
  cwp : t.cwp = s.cwp + 1#3
  r10 : regGet t (physReg (s.cwp + 1#3) 10#5) = fixnum s.pc
  regs : KeepsRegs s t [physReg (s.cwp + 1#3) 10#5]
  allEn : kpswAllEn t = false
  mode : kpswMode t = true
  prevMode : t.kpsw.getLsbD 5 = kpswMode s
  physical : tt = .errorFault → kpswVaIfetch t = false ∧ kpswVaDfetch t = false
  otherBits : ∀ n, n ≠ 4 → n ≠ 5 → n ≠ 12 → (tt = .errorFault → n ≠ 2 ∧ n ≠ 3) →
    t.kpsw.getLsbD n = s.kpsw.getLsbD n
  status : KeepsStatus s t
  pipe : t.pipe = { Pipe.idle with windowShadow := true, atVector := true }
  prefetch : t.prefetch = none
  ib : t.ib = s.ib

/-- A trap taken by an instruction that has had no other effect: memory, cache, the FPU, the controller and the latches
are as before (R350). -/
structure TakesTrapOnly (s t : State) (tt : TrapType) : Prop where
  trap : TakesTrap s t tt
  memory : KeepsMemory s t
  fpu : KeepsFpu s t
  controller : KeepsController s t
  latches : KeepsLatches s t

/-- The instruction takes trap `tt` and does nothing else. -/
def Traps (i : Instr) (s : State) (tt : TrapType) : Prop := ∃ t, exec i s = .next t ∧ TakesTrapOnly s t tt

/-! ### Stores -/

/-- What a store leaves of the CPU and the FPU: all but memory, cache and latches; `run` as in `FpuKept`. -/
structure StoreFrame (s t : State) (run : Option FpuRun) : Prop where
  regs : KeepsRegs s t []
  system : KeepsSystem s t
  fpu : FpuKept s t run
  next : Sequential s t Pipe.idle

/-- The FPU operation in progress after an FPU load or store: none, if it has waited for it (R330). -/
def runAfterWait (s : State) : Option FpuRun := if upswFpuParallel s then s.fpuRun else none

/-- A store completes in physical RAM: the word at `a` is `w`, and nothing else changes. -/
def StoresWord (i : Instr) (s : State) (a w : Word) (run : Option FpuRun) : Prop :=
  ∃ t, exec i s = .next t ∧ memWord t.mem a = w ∧ KeepsMemoryBut s t a.toNat 4 ∧ StoreFrame s t run ∧
    KeepsLatches s t

/-- A word store to `a` completes at `p` in RAM, past the cache: as `StoresWord`, with what the access latches (R84). -/
def StoresWordPast (i : Instr) (s : State) (a p w : Word) : Prop :=
  ∃ t, exec i s = .next t ∧ memWord t.mem p = w ∧ KeepsMemoryBut s t p.toNat 4 ∧ StoreFrame s t s.fpuRun ∧ Latches s t a

/-- A word store completes in the cache line `l` of virtual address `a`: the word there is `w`, the other words of the
line stay, the line is owned private and dirty, and memory and all other lines are as before. -/
def StoresWordCached (i : Instr) (s : State) (a : Word) (l : Line) (w : Word) (run : Option FpuRun) : Prop :=
  ∃ t l1, exec i s = .next t ∧ lineWord l1 (globalAddr s a) = w ∧
    (∀ g : GlobalAddr, g.extractLsb' 2 3 ≠ (globalAddr s a).extractLsb' 2 3 → lineWord l1 g = lineWord l g) ∧
    l1.state = .ownedPrivate ∧ l1.blockDirty = true ∧ l1.ptag = l.ptag ∧ l1.prot = l.prot ∧
    l1.pageDirty = l.pageDirty ∧
    KeepsLinesBut s t (globalAddr s a) l1 ∧ StoreFrame s t run ∧ Latches s t a

/-- A store completes in the cache line `l` of virtual address `a`: the doubleword there has `low` at the lower address
and a word that satisfies `high` at the higher, the other words of the line stay, the line is owned private and dirty,
and memory and all other lines are as before. -/
def StoresDouble (i : Instr) (s : State) (a : Word) (l : Line) (low : Word) (high : Word → Prop)
    (run : Option FpuRun) : Prop :=
  ∃ t l1, exec i s = .next t ∧
    lineWord l1 (globalAddr s a) = low ∧ high (lineWord l1 (globalAddr s a ||| 4#38)) ∧
    (∀ g : GlobalAddr, g.extractLsb' 3 2 ≠ (globalAddr s a).extractLsb' 3 2 → lineWord l1 g = lineWord l g) ∧
    l1.state = .ownedPrivate ∧ l1.blockDirty = true ∧ l1.ptag = l.ptag ∧ l1.prot = l.prot ∧
    l1.pageDirty = l.pageDirty ∧
    KeepsLinesBut s t (globalAddr s a) l1 ∧ StoreFrame s t run ∧ Latches s t a

/-! ### Misses -/

/-- A virtual data access to `a` misses, and the walk gives the entry `pte`, which lets it go on (R93, R97 to R100); `s1`
is the state after the walk. -/
structure Misses (s s1 : State) (a : Word) (kind : AccessKind) (pte : Word) : Prop where
  translated : kpswVaDfetch s = true
  miss : cacheProbe s (globalAddr s a) = none
  walk : walkFirst (vaRef s a) a kind slotBusData = .done pte s1
  checks : pteFault s1 pte kind = none
  memory : memWf s1.mem = true

/-- The physical address of `a` on the page of `pte` (R93). -/
def pageAddr (pte a : Word) : Word := ptePpn pte ++ a.extractLsb' 0 12

/-- Word `k` of the block of memory that holds `p`. -/
def blockWord (m : List Host.Cell) (p : Word) (k : Nat) : Word :=
  memWord m (p.extractLsb' 5 27 ++ BitVec.ofNat 3 k ++ 0#2)

/-- The line that leaves the cache when the line of `g` comes in, if it must be written back (R112). -/
def displaces (s1 : State) (g : GlobalAddr) (l : Line) : Prop :=
  lineGet s1.cache (lineIndex g) = some l ∧ mustWriteBack l = true

/-- The page is cacheable, no other cache owns the line, and RAM is behind it and behind the line it displaces. -/
structure FillsFromRam (s1 : State) (g : GlobalAddr) (pte p : Word) : Prop where
  cacheable : pteNc pte = false
  notOwned : lineGet s1.remote (lineNumber g) = none
  ram : responder s1 (p.extractLsb' 5 27 ++ 0#5) = .board .ram
  displaced : ∀ l, displaces s1 g l → responder s1 (l.ptag ++ 0#5) = .board .ram

/-- The line of `g` is in the cache with the attributes of `pte` and these words (R97, R101, R112). -/
def HoldsLine (t : State) (g : GlobalAddr) (pte p : Word) (own dirty : Bool) (words : Nat → Word) : Prop :=
  ∃ l, cacheProbe t g = some l ∧ l.ptag = p.extractLsb' 5 27 ∧
    l.state = (if own then .ownedPrivate else .unowned) ∧ l.pageDirty = pteDirty pte ∧ l.blockDirty = dirty ∧
    l.prot = pteProt pte ∧ l.cacheable = !pteNc pte ∧ ∀ k : Fin 8, l.words[k] = words k

/-- What a fill leaves: the other lines, and memory but for the displaced line, which is written back (R112). -/
structure Filled (s1 t : State) (g : GlobalAddr) : Prop where
  others : ∀ j, j ≠ lineIndex g → lineGet t.cache j = lineGet s1.cache j
  remote : t.remote = s1.remote
  bytes : ∀ x, (∀ l, displaces s1 g l → x / 32 ≠ l.ptag.toNat) → memGet t.mem x = memGet s1.mem x
  writtenBack : ∀ l, displaces s1 g l → ∀ k : Fin 8, memWord t.mem (l.ptag ++ BitVec.ofNat 3 k ++ 0#2) = l.words[k]

/-- An access that missed leaves all but memory and cache as it was, but for what the walk and the transfer latch: RPTEVA
and PTEVA as after the walk, GVA but for its counter (R57 to R59, log 37). -/
structure MissDone (s s1 t : State) (a : Word) (written : List PhysReg) (p : Pipe) : Prop where
  regs : KeepsRegs s t written
  status : KeepsStatus s t
  trapRegs : KeepsTrapRegs s t
  buffer : KeepsBuffer s t
  fpu : KeepsFpu s t
  controller : KeepsController { s with rpteva := s1.rpteva } t
  pteva : t.pteva = s1.pteva
  gva : t.gva.extractLsb' 5 33 = (globalAddr s a).extractLsb' 5 33
  next : Sequential s t p

/-- A load that misses completes with `v`, the line filled from RAM. -/
def LoadsMissed (i : Instr) (s s1 : State) (d : RegField) (v : Tagged) (a pte : Word) (own : Bool) : Prop :=
  ∃ t, exec i s = .next t ∧ regVal t d = (if d = 0#5 then zeroTagged else v) ∧
    MissDone s s1 t a (destOf s d) (shadowOf s d) ∧ Filled s1 t (globalAddr s a) ∧
    HoldsLine t (globalAddr s a) pte (pageAddr pte a) own false (blockWord s1.mem (pageAddr pte a))

/-- A word load from a non-cacheable page completes with `v`: nothing is kept in the cache (R84). -/
def LoadsUncached (i : Instr) (s s1 : State) (d : RegField) (v : Tagged) (a : Word) : Prop :=
  ∃ t, exec i s = .next t ∧ regVal t d = (if d = 0#5 then zeroTagged else v) ∧
    MissDone s s1 t a (destOf s d) (shadowOf s d) ∧ KeepsMemory s1 t

/-! ### The FPU -/

/-- What every FPU instruction leaves alone: the integer registers, the CPU's and the controller's registers. -/
structure KeepsCpu (s t : State) : Prop where
  regs : KeepsRegs s t []
  system : KeepsSystem s t

/-- An FPU load completes: `F[d]` is `v`, the other data registers and the FPSW stay, `d` is in the load shadow. -/
structure FpuLoaded (s t : State) (d : RegField) (v : FpReg) : Prop where
  dest : fpuGet t d = v
  others : ∀ n, n ≠ d → fpuGet t n = fpuGet s n
  fpsw : t.fpsw = s.fpsw
  fpuPc : t.fpuPc = s.fpuPc
  fpuExcep : t.fpuExcep = s.fpuExcep
  fpuExcKind : t.fpuExcKind = s.fpuExcKind
  fpuBrTF : t.fpuBrTF = s.fpuBrTF
  fpuRun : t.fpuRun = runAfterWait s
  cpu : KeepsCpu s t
  next : Sequential s t { Pipe.idle with loadShadow := some (.fpu d) }

/-- A 4-byte FPU load completes from physical RAM. -/
def LoadsFpu (i : Instr) (s : State) (d : RegField) (v : FpReg) : Prop :=
  ∃ t, exec i s = .next t ∧ FpuLoaded s t d v ∧ KeepsMemory s t ∧ KeepsLatches s t

/-- An FPU load completes from the cache line of virtual address `a`, which is `l1` afterwards. -/
def LoadsFpuCached (i : Instr) (s : State) (d : RegField) (v : FpReg) (a : Word) (l1 : Line) : Prop :=
  ∃ t, exec i s = .next t ∧ FpuLoaded s t d v ∧ KeepsLinesBut s t (globalAddr s a) l1 ∧ Latches s t a

/-- The flags hold an enabled exception: FPSW bit 2 enables operand, overflow and underflow, bit 3 inexact (R50, R308). -/
def enabledExc (s : State) (f : FpFlags) : Bool :=
  (s.fpsw.getLsbD 2 && (f.operand || f.overflow || f.underflow)) || (s.fpsw.getLsbD 3 && f.inexact)

/-- What the FPU PSW and the pending exception are after an operation with flags `f`: the sticky flags ORed in, the type
tags replaced, modes and enables kept; an enabled exception becomes pending with kind `kind` (R308, R53). -/
structure FpswEffect (s t : State) (f : FpFlags) (t1 t2 : BitVec 3) (kind : FpuExcKind) : Prop where
  t1 : t.fpsw.extractLsb' 12 3 = t1
  t2 : t.fpsw.extractLsb' 9 3 = t2
  operand : t.fpsw.getLsbD 8 = (s.fpsw.getLsbD 8 || f.operand)
  overflow : t.fpsw.getLsbD 7 = (s.fpsw.getLsbD 7 || f.overflow)
  underflow : t.fpsw.getLsbD 6 = (s.fpsw.getLsbD 6 || f.underflow)
  inexact : t.fpsw.getLsbD 5 = (s.fpsw.getLsbD 5 || f.inexact)
  control : t.fpsw.extractLsb' 0 5 = s.fpsw.extractLsb' 0 5
  pending : t.fpuExcep = (s.fpuExcep || enabledExc s f)
  kind : t.fpuExcKind = (if enabledExc s f then kind else s.fpuExcKind)

/-- An enabled exception keeps the result out of the destination while FPSW bit 4, write destination, is off (R308). -/
def keptOut (s : State) (f : FpFlags) : Bool := enabledExc s f && !s.fpsw.getLsbD 4

/-- So it does in a FIX, but not after an overflow whose own trap, type 9, is off: that FIX delivers its result (R344). -/
def fixKeptOut (s : State) (f : FpFlags) : Bool := keptOut s f && !(f.overflow && !(kpswAllEn s && upswOvfEn s))

/-- An FPU operation completes with result `r` (R300, R308): `F[d]` takes it unless it is kept out (`kept`),
FPU_PC is the operation's address, and only the FPU changes; in parallel mode it is busy with `run` (R330). -/
structure FpuDone (s t : State) (d : RegField) (r : FpResult) (t1 t2 : BitVec 3) (kind : FpuExcKind) (run : FpuRun)
    (kept : Bool) : Prop where
  dest : fpuGet t d = (if kept then fpuGet s d else r.reg)
  others : ∀ n, n ≠ d → fpuGet t n = fpuGet s n
  psw : FpswEffect s t r.flags t1 t2 kind
  fpuPc : t.fpuPc = s.pc.extractLsb' 2 30
  brTF : t.fpuBrTF = s.fpuBrTF
  busy : t.fpuRun = (if upswFpuParallel s then some run else none)
  cpu : KeepsCpu s t
  latches : KeepsLatches s t
  memory : KeepsMemory s t
  next : Sequential s t Pipe.idle

/-- The operation completes, keeping the FPU busy with `run` in parallel mode. -/
def Computes (i : Instr) (s : State) (d : RegField) (r : FpResult) (t1 t2 : BitVec 3) (run : FpuRun) : Prop :=
  ∃ t, exec i s = .next t ∧ FpuDone s t d r t1 t2 .floatingPoint run (keptOut s r.flags)

/-- A FIX completes: as `Computes`, but its overflow leaves a pending exception of kind integer overflow (R319, R53). -/
def ComputesFix (i : Instr) (s : State) (d : RegField) (r : FpResult) (t1 t2 : BitVec 3) (run : FpuRun) : Prop :=
  ∃ t, exec i s = .next t ∧
    FpuDone s t d r t1 t2 (if r.flags.overflow then .integerOverflow else .floatingPoint) run (fixKeptOut s r.flags)

/-- An FPU result is the value `v` with flags `f`. -/
def Gives (r : FpResult) (v : FpVal) (f : FpFlags) : Prop := classify r.reg = some v ∧ r.flags = f

/-- An FPU operation with destination `d` is ready to run: the FPU answers, no pending exception is taken, the
destination is a data register and not in the load shadow. -/
def fpuOpReady (s : State) (d : RegField) : Bool :=
  fpuReady s && noFpuTrap s && isFpuDataField d && !fpuShadowed s d

/-! ### Control transfers -/

/-- A transfer completes: the instruction at `nextPC` is next, then the one at `target`; the registers listed are
written and the pipe is `p`. Nothing else changes but CWP and KPSW, of which the statement speaks. -/
structure Transfers (s t : State) (target : Word) (p : Pipe) (written : List PhysReg) : Prop where
  pc : t.pc = s.nextPC
  nextPC : t.nextPC = target
  pipe : t.pipe = p
  regs : KeepsRegs s t written
  system : KeepsSystem s t
  fpu : KeepsFpu s t
  latches : KeepsLatches s t
  memory : KeepsMemory s t

/-- A compare with no exception completes: branch or not, nothing else. -/
def Branches (i : Instr) (s : State) (target : Word) (p : Pipe) : Prop :=
  ∃ t, exec i s = .next t ∧ Transfers s t target p [] ∧ t.cwp = s.cwp ∧ t.kpsw = applyRet s.kpsw s.pipe.retPend

/-- The pipe after a CMP_BR_TRUE-class branch (R255, R265). -/
def truePipe (taken : Bool) : Pipe := { Pipe.idle with squash := !taken, slotOfTrue := true }

/-- The pipe after a window change (R288). -/
def windowPipe (r : Option RetKind) : Pipe := { Pipe.idle with windowShadow := true, retPend := r }

/-- The address after the slot: the target if the branch is taken, else the next one in line (R255). -/
def branchedTo (s : State) (off : BitVec 9) (taken : Bool) : Word :=
  if taken then branchTarget s.pc off else s.nextPC + 4#32

/-- A byte of memory belongs to the block of a line that must be written back when it leaves the cache (R112). -/
def writtenBack (s : State) (a : Nat) : Prop :=
  ∃ k l, lineGet s.cache k = some l ∧ mustWriteBack l = true ∧ a / 32 = l.ptag.toNat

end Sys2Proof.Safety
end

