-- ==== Sys2Proof/Certificates/Slice0/Obligations.lean ====
section
/-! DEFINITION. The statements for the provers. Operands are named by the functions the meanings use (`src1`, `rcVal`,
`ccVal`, `storedReg`, `sumRC`, `eaStore`, `readFpu`); `OperandForms` says what those are. -/

section Statements

open Sys2Proof Sys2Proof.Machine Sys2Proof.Safety

/-! ### Encoding -/

/-- R121, R122, R133, R136: no operand bit of any encoding is dropped. -/
def Obligations.DecodeEncode : Prop :=
  ∀ i : Instr, decode (encode i) = .ok i

/-- R120 to R133: words written out from the formats, at least one of each of the seven of R121. -/
def Obligations.DecodeSanity : Prop :=
  decode (0x05#7 ++ 16#5 ++ 10#5 ++ 1#1 ++ 0x3FFC#14) = .ok (.ld32 16#5 10#5 (.imm 0x3FFC#14)) ∧
  decode (0x29#7 ++ 16#5 ++ 17#5 ++ 0#1 ++ 18#5 ++ 0#9) = .ok (.add 16#5 17#5 (.reg 18#5)) ∧
  decode (0x19#7 ++ 0x1F#5 ++ 10#5 ++ 1#1 ++ 17#5 ++ 0x1FC#9) = .ok (.st32 17#5 10#5 0x3FFC#14) ∧
  decode (0x3B#7 ++ 1#5 ++ 0#5 ++ 1#1 ++ 0x38#14) = .ok (.wrSpecial 1#5 0#5 (.imm 0x38#14)) ∧
  decode (0x43#7 ++ 1#5 ++ 16#5 ++ 1#1 ++ 0#5 ++ 0x1FD#9) = .ok (.cmpBrTrue 1#5 16#5 (.imm 0#5) 0x1FD#9) ∧
  decode (0x40#7 ++ 0#5 ++ 16#5 ++ 0#1 ++ 17#5 ++ 4#9) = .ok (.cmpBrDelayed 0#5 16#5 (.reg 17#5) 4#9) ∧
  decode (0x41#7 ++ 12#5 ++ 16#5 ++ 0x26#6 ++ 3#9) = .ok (.tagCmpBrDelayed 12#5 16#5 0x26#6 3#9) ∧
  decode (0x4A#7 ++ 0#5 ++ 10#5 ++ 1#1 ++ 8#14) = .ok (.ret 10#5 (.imm 8#14)) ∧
  decode (0x52#7 ++ 3#5 ++ 1#5 ++ 0#1 ++ 2#5 ++ 0#9) = .ok (.fmul 3#5 1#5 2#5) ∧
  decode (0xC#4 ++ 0x808#28) = .ok (.jump 0x808#28) ∧ decode (0xE#4 ++ 0xC00#28) = .ok (.call 0xC00#28)

/-- R133, R134, R346, R350: the 38 unassigned opcodes, and no other word, are illegal; such a word takes trap 7 and has
no other effect. -/
def Obligations.IllegalOpcodes : Prop :=
  (∀ w : Word, decode w = .error .illegalOpcode ↔
    (w.extractLsb' 25 7).toNat ∈
      [0x00, 0x15, 0x16, 0x17, 0x21, 0x22, 0x23, 0x24, 0x25, 0x26, 0x27, 0x35, 0x36, 0x37, 0x4D, 0x4E, 0x4F, 0x5B,
       0x5C, 0x5D, 0x5E, 0x5F, 0x68, 0x69, 0x6A, 0x6B, 0x6C, 0x6D, 0x6E, 0x6F, 0x78, 0x79, 0x7A, 0x7B, 0x7C, 0x7D,
       0x7E, 0x7F]) ∧
  (∀ (w : Word) (s : State), decode w = .error .illegalOpcode → interruptReady s = false → kpswAllEn s = true →
    ∃ t, stepWord w s = .next t ∧ TakesTrapOnly s t .illegalOpcode)

/-! ### The step -/

/-- The step of an instruction that is fetched and decoded: its meaning, then the end of the step. With the instruction
buffer off and physical fetches the word is the one in memory at the PC (R41, R43, R83); that such a fetch leaves the
buffer as it is, and that a word held ready is not used, is the model's choice (log 15). -/
def Obligations.StepRunsDecoded : Prop :=
  (∀ (s s1 : State) (w : Word) (i : Instr), s.pipe.squash = false → fetch s = .done w s1 →
    interruptReady s1 = false → decode w = .ok i → step s = onTick (exec i s1)) ∧
  (∀ (s : State) (i : Instr), s.pipe.squash = false → interruptReady s = false → kpswIbEn s = false →
    kpswVaIfetch s = false → responder s s.pc = .board .ram → decode (memWord s.mem s.pc) = .ok i →
    step s = onTick (exec i s))

/-- What the end of a step can change: the instruction buffer and its prefetcher, GVA and PTEVA if it prefetches, the
FPU's busy time, the two counters, the free-value counter; nothing a program computes with (R62, R309, R61). The moment
is remembered: its words may be fetched until the next INVALIDATE_IB (R110, log 15). -/
def Obligations.TickFrame : Prop :=
  ∀ s : State, KeepsRegs s (tick s) [] ∧ KeepsStatus s (tick s) ∧ KeepsTrapRegs s (tick s) ∧
    KeepsMemory s (tick s) ∧ (tick s).pc = s.pc ∧ (tick s).nextPC = s.nextPC ∧ (tick s).kpsw = s.kpsw ∧
    (tick s).cwp = s.cwp ∧ (tick s).pipe = s.pipe ∧ (tick s).fregs = s.fregs ∧ (tick s).fpsw = s.fpsw ∧
    (tick s).fpuPc = s.fpuPc ∧ (tick s).fpuExcep = s.fpuExcep ∧ (tick s).gsn = s.gsn ∧ (tick s).rptm = s.rptm ∧
    (tick s).rpteva = s.rpteva ∧ (tick s).intreg = s.intreg ∧ (tick s).intmask = s.intmask ∧
    (tick s).fpuExcKind = s.fpuExcKind ∧ (tick s).fpuBrTF = s.fpuBrTF ∧ (tick s).board = s.board ∧
    (tick s).faultInfo = s.faultInfo ∧ (tick s).past = fetchView (tick s) :: s.past ∧
    (s.fpuRun = none → (tick s).fpuRun = none) ∧
    (s.prefetch = none → KeepsLatches s (tick s) ∧ (tick s).ib = s.ib ∧ (tick s).prefetch = none)

/-- R255, R280, R349: a cancelled slot is fetched and passed over; nothing of its instruction happens, and a fault of
its fetch is not taken. The state after the fetch is `s1`: that a cancelled slot is fetched, with all that a fetch does to
cache, latches and buffer, is the model's reading (log 24). -/
def Obligations.SquashedSlotIsSkipped : Prop :=
  ∀ (s s1 : State) (w : Word), s.pipe.squash = true →
    ((fetch s = .done w s1 ∧ prohibitedInSlot w = false) ∨ ∃ c, fetch s = .fault c s1) →
    ∃ t, step s = onTick (.next t) ∧ OnlyRegs s1 t [] ∧ Sequential s1 t Pipe.idle

/-- R371, R372, R343, R352: a bus write to 0xF<id>0xxxxx, `id` the slot of this node, sets bit AD<5:2> of INTREG and no
other bit; an enabled pending interrupt is taken before the fetched instruction, whatever it is. That such a write falls
between two steps is the model's choice (log 8), and so is that the interrupt is taken at the very first boundary: R372
allows any finite wait (log 17). A store of this node to its own interrupt address sets the bit too. -/
def Obligations.Interrupts : Prop :=
  (∀ (s : State) (pa : Word), pa.extractLsb' 28 4 = 0xF#4 → pa.extractLsb' 24 4 = s.board.slot →
    pa.extractLsb' 20 4 = 0#4 → ∀ n < 32,
      (deliverInterrupt pa s).intreg.getLsbD n = (s.intreg.getLsbD n || decide (n = (pa.extractLsb' 2 4).toNat))) ∧
  (∀ (s s1 : State) (w : Word), s.pipe.squash = false → fetch s = .done w s1 →
    s1.intreg &&& s1.intmask ≠ 0#32 → kpswIntEn s1 = true → kpswAllEn s1 = true →
    ∃ t, step s = onTick (.next t) ∧ TakesTrapOnly s1 t .interrupt) ∧
  (∀ (s : State) (s2 s1 : RegField) (sc : BitVec 14) (a : Word), a = alignWord (eaStore s s1 sc) →
    s.pipe.afterTas = false → kpswVaDfetch s = false → a.extractLsb' 28 4 = 0xF#4 → a.extractLsb' 24 4 = s.board.slot →
    a.extractLsb' 20 4 = 0#4 →
    ∃ t, exec (.st32 s2 s1 sc) s = .next t ∧ OnlyRegs { s with intreg := t.intreg } t [] ∧ Sequential s t Pipe.idle ∧
      ∀ n < 32, t.intreg.getLsbD n = (s.intreg.getLsbD n || decide (n = (a.extractLsb' 2 4).toNat)))

/-! ### Reset and invariants -/

/-- R67, R390, D10: what the spec states of reset (UPSW, CWP and INTREG are 0 by D10, where R67's table gives them no
value, log 38; the program counter is the parameter RESET_PC, log 2), of the state that the model starts in and of a System
Reset of any state; that reset keeps memory, and dirty lines are lost. The state after reset meets the invariant. -/
def Obligations.ResetStateAndInv : Prop :=
  AfterReset State.reset ∧ State.reset.pc = State.reset.board.resetPC ++ 0#2 ∧ Invariant State.reset ∧
  ∀ s : State, AfterReset (systemReset s) ∧ (systemReset s).mem = s.mem ∧ (systemReset s).board = s.board ∧
    (systemReset s).pc = s.board.resetPC ++ 0#2 ∧ busReset s = s

/-- Every step keeps the invariant: memory canonical; the lines of this cache and of the others canonical, no line with two
owners and no copy here that differs from its owner's line (R109, R112); program addresses word-aligned (R34), the low bits
of PTEVA and RPTEVA 0 (R57, R58). So does every event between steps (log 8). -/
def Obligations.InvKept : Prop :=
  (∀ s t : State, Invariant s → step s = .next t → Invariant t) ∧
  (∀ (e : OutsideEvent) (s : State), Invariant s → Invariant (outside e s))

/-- R353, R284: user mode is left only at a trap vector or on the way to the entry point of CALL_KERNEL. -/
def Obligations.KernelEntryAtKnownPlace : Prop :=
  ∀ s t : State, step s = .next t → kpswMode s = false → kpswMode t = true →
    (∃ tt, t.pc = trapVector tt) ∨ t.nextPC = 0x1000#32

/-- R236, R352, R284, R286: in user mode no step changes KPSW but for all_en, mode, prev_mode, and the clearing of the
two virtual-address bits by an error fault. -/
def Obligations.UserModeKeepsKpsw : Prop :=
  ∀ s t : State, step s = .next t → kpswMode s = false →
    (∀ n, n ≠ 2 → n ≠ 3 → n ≠ 4 → n ≠ 5 → n ≠ 12 → t.kpsw.getLsbD n = s.kpsw.getLsbD n) ∧
    (∀ n, n = 2 ∨ n = 3 → t.kpsw.getLsbD n = true → s.kpsw.getLsbD n = true)

/-- R350: an instruction that takes a trap has written no register but R10 of the new window, no status register and
no FPU register, and the trap saves its own address and the address that was to follow. -/
def Obligations.TrapsArePrecise : Prop :=
  ∀ (i : Instr) (s t : State), exec i s = .next t → t.pipe.atVector = true →
    t.trapPC = s.pc ∧ t.trapNextPC = s.nextPC ∧ t.cwp = s.cwp + 1#3 ∧
    KeepsRegs s t [physReg (s.cwp + 1#3) 10#5] ∧ KeepsStatus s t ∧ t.fregs = s.fregs ∧ t.fpsw = s.fpsw ∧
    t.fpuPc = s.fpuPc ∧ ∃ tt, t.pc = trapVector tt

/-- R112, R180: an instruction that is no 4-byte store leaves every byte of memory as it was, but for the blocks of
owned dirty lines that leave the cache. -/
def Obligations.MemoryChangesByWriteBack : Prop :=
  ∀ (i : Instr) (s t : State), (∀ a b c, i ≠ .st32 a b c) → (∀ a b c, i ≠ .stSgl a b c) →
    (∀ a b c, i ≠ .stInt a b c) → exec i s = .next t →
    ∀ x, memGet t.mem x = memGet s.mem x ∨ writtenBack s x

/-! ### Operands and registers -/

/-- R22: R0 reads zero with tag byte 0, and a write to it does nothing. -/
def Obligations.RegisterZero : Prop :=
  ∀ (s : State) (slot : Nat) (v : Tagged),
    readReg s slot 0#5 = { taggen := 0#8, data := 0#32 } ∧ writeReg s 0#5 v = s

/-- R126 to R128, R132, R72, R73, R130, R81, R288, R172: the operand forms; a readable register, integer or FPU, gives its
contents; aligned addresses, branch targets, global virtual addresses. -/
def Obligations.OperandForms : Prop :=
  (∀ (s : State) (i : RegField), readable s i = true → src1 s i = regVal s i ∧ rcVal s (.reg i) = regVal s i ∧
    ccVal s (.reg i) = regVal s i ∧ storedReg s i = regVal s i) ∧
  (∀ (s : State) (v : BitVec 14), rcVal s (.imm v) = { taggen := 0#8, data := v.signExtend 32 }) ∧
  (∀ (s : State) (v : BitVec 5), ccVal s (.imm v) = { taggen := 0#8, data := v.setWidth 32 }) ∧
  (∀ (s : State) (s1 : RegField) (rc : RC), sumRC s s1 rc = (src1 s s1).data + (rcVal s rc).data) ∧
  (∀ (s : State) (s1 : RegField) (sc : BitVec 14), eaStore s s1 sc = (src1 s s1).data + sc.signExtend 32) ∧
  (∀ (s : State) (i : RegField), i.toNat < 10 → s.pipe.loadShadow = none → readable s i = true) ∧
  (∀ (s : State) (slot : Nat) (n : RegField), s.pipe.loadShadow ≠ some (.fpu n) → readFpu s slot n = fpuGet s n) ∧
  (∀ (s : State) (n : RegField) (h : n.toNat < 15), fpuGet s n = s.fregs[n.toNat]) ∧
  (∀ a : Word, alignWord a = BitVec.ofNat 32 (a.toNat / 4 * 4) ∧
    alignDouble a = BitVec.ofNat 32 (a.toNat / 8 * 8)) ∧
  (∀ (pc : Word) (off : BitVec 9), branchTarget pc off = BitVec.ofInt 32 ((pc.toNat : Int) + 4 * off.toInt)) ∧
  (∀ (s : State) (n : BitVec 2) (o : BitVec 30), globalAddr s (n ++ o) = (s.gsn[n.toNat]'n.isLt) ++ o)

/-- R23: the output registers of a window are the input registers of the next, and no two registers of one window
are the same. -/
def Obligations.WindowsOverlap : Prop :=
  (∀ (w : BitVec 3) (k : Fin 6), physReg w (BitVec.ofNat 5 (26 + k)) = physReg (w + 1#3) (BitVec.ofNat 5 (10 + k))) ∧
  (∀ (w : BitVec 3) (i j : RegField), physReg w i = physReg w j → i = j) ∧
  (∀ (w v : BitVec 3) (i : RegField), i.toNat < 10 → physReg w i = physReg v i) ∧
  (∀ (w v : BitVec 3) (i j : RegField), 16 ≤ i.toNat → i.toNat ≤ 25 → 10 ≤ j.toNat → physReg w i = physReg v j →
    w = v ∧ i = j)

/-! ### Loads -/

/-- R155 to R157, R171, R85, R112, R108: a 32-bit load from physical memory, from a cached line, and of a device register,
which completes with some word; the ownership variant leaves the line owned private, and no other cache with it. R93, R97,
R84: a load that misses reads the line from RAM, the displaced one written back; from a non-cacheable page it is one word
of RAM. That the line is read before the displaced one is written back, so that a displaced line of the same block under
another address does not reach it, is the model's choice (log 9: R92 allows either copy); so is that a hit on a line with
the mark of a non-cacheable page gives the word of RAM (log 11). That GVA and PTEVA latch the aligned address is the model's
reading (log 14); that a device's answer is any word, and that nothing else of the node changes, is the model's choice
(log 16). -/
def Obligations.LoadWord : Prop :=
  (∀ (s : State) (d s1 : RegField) (rc : RC), writable s d = true → s.pipe.afterTas = false →
    physicalRam s (alignWord (sumRC s s1 rc)) = true →
    LoadsReg (.ld32 d s1 rc) s d { taggen := 0#8, data := memWord s.mem (alignWord (sumRC s s1 rc)) } ∧
    LoadsReg (.ld32Ro d s1 rc) s d { taggen := 0#8, data := memWord s.mem (alignWord (sumRC s s1 rc)) } ∧
    LoadsReg (.ld32Ra d s1 rc) s d { taggen := 0#8, data := memWord s.mem (alignWord (sumRC s s1 rc)) }) ∧
  (∀ (s : State) (d s1 : RegField) (rc : RC) (a : Word) (l : Line) (v : Tagged), writable s d = true →
    s.pipe.afterTas = false → a = alignWord (sumRC s s1 rc) → cacheHit s a l false = true →
    v = { taggen := 0#8, data := lineWord l (globalAddr s a) } →
    LoadsRegCached (.ld32 d s1 rc) s d v (shadowOf s d) a l ∧
    LoadsRegCached (.ld32Ro d s1 rc) s d v (shadowOf s d) a (owned l) ∧
    LoadsRegCached (.ld32Ra d s1 rc) s d v (shadowOf s d) a l) ∧
  (∀ (s : State) (d s1 : RegField) (rc : RC) (a : Word) (l : Line) (v : Tagged), writable s d = true →
    s.pipe.afterTas = false → a = alignWord (sumRC s s1 rc) → uncachedHit s a l false = true →
    v = { taggen := 0#8, data := memWord s.mem (lineAddr l a) } →
    LoadsRegPast (.ld32 d s1 rc) s d v a ∧ LoadsRegPast (.ld32Ro d s1 rc) s d v a ∧
    LoadsRegPast (.ld32Ra d s1 rc) s d v a) ∧
  (∀ (s : State) (d s1 : RegField) (rc : RC), writable s d = true → s.pipe.afterTas = false →
    kpswVaDfetch s = false → responder s (alignWord (sumRC s s1 rc)) = .board .device →
    (∃ v, LoadsReg (.ld32 d s1 rc) s d { taggen := 0#8, data := v }) ∧
    (∃ v, LoadsReg (.ld32Ro d s1 rc) s d { taggen := 0#8, data := v }) ∧
    (∃ v, LoadsReg (.ld32Ra d s1 rc) s d { taggen := 0#8, data := v })) ∧
  (∀ (s s1 : State) (d r : RegField) (rc : RC) (a pte : Word) (v : Tagged), writable s d = true →
    s.pipe.afterTas = false → a = alignWord (sumRC s r rc) →
    v = { taggen := 0#8, data := memWord s1.mem (pageAddr pte a) } →
    ∀ i kind own, (i = .ld32 d r rc ∧ kind = .read ∧ own = false ∨ i = .ld32Ro d r rc ∧ kind = .readOwn ∧ own = true ∨
        i = .ld32Ra d r rc ∧ kind = .readAnyway ∧ own = false) → Misses s s1 a kind pte →
      (FillsFromRam s1 (globalAddr s a) pte (pageAddr pte a) → LoadsMissed i s s1 d v a pte own) ∧
      (pteNc pte = true → responder s1 (pageAddr pte a) = .board .ram → LoadsUncached i s s1 d v a))

/-- R151 to R154, R74: a tagged load from a cached line: data from the word at the lower address, the tag byte from
bits 7 to 0 of the next; CXR where its tag check passes or is off. R93, R84: a load that misses reads the line from RAM; a
non-cacheable page, by the entry or by the mark of a line (log 11), is outside the spec. That the line is read before the displaced one is written back is the model's choice
(log 9: R92 allows either copy of a synonym). That GVA and PTEVA latch the aligned address is the model's reading (log 14). -/
def Obligations.LoadTaggedCached : Prop :=
  (∀ (s : State) (d s1 : RegField) (rc : RC) (a : Word) (l : Line) (v : Tagged), writable s d = true →
    s.pipe.afterTas = false → a = alignDouble (sumRC s s1 rc) → cacheHit s a l false = true →
    v = { taggen := (lineWord l (globalAddr s a ||| 4#38)).extractLsb' 0 8, data := lineWord l (globalAddr s a) } →
    LoadsRegCached (.ld40 d s1 rc) s d v (shadowOf s d) a l ∧
    LoadsRegCached (.ld40Ro d s1 rc) s d v (shadowOf s d) a (owned l) ∧
    (tagOf (src1 s s1) = 0x26#6 ∨ tagOf (src1 s s1) = 0x27#6 ∨ upswTagEn s = false ∨ kpswAllEn s = false →
      LoadsRegCached (.cxr d s1 rc) s d v (shadowOf s d) a l ∧
      LoadsRegCached (.cxrRo d s1 rc) s d v (shadowOf s d) a (owned l))) ∧
  (∀ (s s1 : State) (d r : RegField) (rc : RC) (a pte : Word) (v : Tagged), writable s d = true →
    s.pipe.afterTas = false → a = alignDouble (sumRC s r rc) →
    v = { taggen := (memWord s1.mem (pageAddr pte a ||| 4#32)).extractLsb' 0 8,
          data := memWord s1.mem (pageAddr pte a) } →
    ∀ i kind own, (i = .ld40 d r rc ∧ kind = .read ∧ own = false ∨ i = .ld40Ro d r rc ∧ kind = .readOwn ∧ own = true ∨
        (tagOf (src1 s r) = 0x26#6 ∨ tagOf (src1 s r) = 0x27#6 ∨ upswTagEn s = false ∨ kpswAllEn s = false) ∧
          (i = .cxr d r rc ∧ kind = .read ∧ own = false ∨ i = .cxrRo d r rc ∧ kind = .readOwn ∧ own = true)) →
      Misses s s1 a kind pte →
      (FillsFromRam s1 (globalAddr s a) pte (pageAddr pte a) → LoadsMissed i s s1 d v a pte own) ∧
      (pteNc pte = true → exec i s = .refused .notCacheable)) ∧
  (∀ (s : State) (d s1 : RegField) (rc : RC) (l : Line), writable s d = true → s.pipe.afterTas = false →
    uncachedHit s (alignDouble (sumRC s s1 rc)) l false = true →
    exec (.ld40 d s1 rc) s = .refused .notCacheable ∧ exec (.ld40Ro d s1 rc) s = .refused .notCacheable)

/-- R153, R154, R181, R350: CXR through a register that is neither CONS nor NIL takes trap 10 and loads nothing; ST_40
of a younger value takes trap 14 and stores nothing. -/
def Obligations.AccessTagTraps : Prop :=
  (∀ (s : State) (d s1 : RegField) (rc : RC) (l : Line), writable s d = true → s.pipe.afterTas = false →
    cacheHit s (alignDouble (sumRC s s1 rc)) l false = true → tagOf (src1 s s1) ≠ 0x26#6 →
    tagOf (src1 s s1) ≠ 0x27#6 → upswTagEn s = true → kpswAllEn s = true →
    Traps (.cxr d s1 rc) s .consOrNil ∧ Traps (.cxrRo d s1 rc) s .consOrNil) ∧
  (∀ (s : State) (s2 s1 : RegField) (sc : BitVec 14) (l : Line), s.pipe.afterTas = false →
    cacheHit s (alignDouble (eaStore s s1 sc)) l true = true → l.pageDirty = true →
    (genOf (src1 s s1)).toNat < (genOf (storedReg s s2)).toNat → upswTagEn s = true → kpswAllEn s = true →
    Traps (.st40 s2 s1 sc) s .generation)

/-- R158, R111, R112: TEST_AND_SET gives the old word and sets bit 0 of the cached word, which this node then owns; the
next instruction may be no load or store. That GVA and PTEVA latch the aligned address is the model's reading
(log 14). -/
def Obligations.TestAndSetCached : Prop :=
  ∀ (s : State) (d s1 : RegField) (rc : RC) (a : Word) (l : Line), writable s d = true →
    s.pipe.afterTas = false → a = alignWord (sumRC s s1 rc) → cacheHit s a l true = true → l.pageDirty = true →
    LoadsRegCached (.testAndSet d s1 rc) s d { taggen := 0#8, data := lineWord l (globalAddr s a) }
      { shadowOf s d with afterTas := true } a
      (lineSetWord (owned l) (globalAddr s a) (lineWord l (globalAddr s a) ||| 1#32))

/-- R105, R159, R106: the address map of the cache controller's registers, by type, number and byte, whatever the other
address bits; LD_CACHE completes and gives in data bits 7 to 0 the bits that the addressed register has in that byte; the
rest of the register loaded is any value. -/
def Obligations.LoadController : Prop :=
  (∀ (hi : BitVec 20) (n : BitVec 2) (b : BitVec 3) (lo : BitVec 4),
    (b.toNat ≤ 2 → ccDecode (hi ++ 0#3 ++ n ++ b ++ lo) = .rptm n b.toNat) ∧
    ccDecode (hi ++ 0#3 ++ n ++ 3#3 ++ lo) = .gsn n ∧
    (b.toNat ≤ 4 → ccDecode (hi ++ 2#3 ++ 0#2 ++ b ++ lo) = .pteva b.toNat ∧
      ccDecode (hi ++ 3#3 ++ 0#2 ++ b ++ lo) = .rpteva b.toNat) ∧
    (b.toNat ≤ 3 → ccDecode (hi ++ 4#3 ++ 0#2 ++ b ++ lo) = .intmask b.toNat ∧
      ccDecode (hi ++ 5#3 ++ 0#2 ++ b ++ lo) = .intclr b.toNat ∧
      ccDecode (hi ++ 6#3 ++ 0#2 ++ b ++ lo) = .intreg b.toNat)) ∧
  (∀ (s : State) (d s1 : RegField) (rc : RC) (c : CcByte), writable s d = true → s.pipe.afterTas = false →
    c = ccDecode (sumRC s s1 rc) →
    ∃ t, exec (.ldCache d s1 rc) s = .next t ∧ OnlyRegs s t (destOf s d) ∧ Sequential s t (shadowOf s d) ∧
      (d ≠ 0#5 → ∀ k < 8,
        (∀ n b, c = .rptm n b → b * 8 + k < 20 →
          (regVal t d).data.getLsbD k = (s.rptm[n.toNat]'n.isLt).getLsbD (b * 8 + k)) ∧
        (∀ n, c = .gsn n → (regVal t d).data.getLsbD k = (s.gsn[n.toNat]'n.isLt).getLsbD k) ∧
        (∀ b, c = .pteva b → b * 8 + k < 38 → (regVal t d).data.getLsbD k = s.pteva.getLsbD (b * 8 + k)) ∧
        (∀ b, c = .rpteva b → b * 8 + k < 38 → (regVal t d).data.getLsbD k = s.rpteva.getLsbD (b * 8 + k)) ∧
        (∀ b, c = .intmask b → (regVal t d).data.getLsbD k = s.intmask.getLsbD (b * 8 + k)) ∧
        (∀ b, c = .intreg b → (regVal t d).data.getLsbD k = s.intreg.getLsbD (b * 8 + k))))

/-- R160: FROM_FPU gives the FPU PSW, or the high half of a fraction, with tag byte 0; it waits for the FPU. Of a register
in the load shadow, the FPU PSW too, it gives some word (R401, U37). -/
def Obligations.FromFpu : Prop :=
  ∀ (s : State) (d n : RegField), fpuReady s = true → isFpuField n = true → writable s d = true →
    ∃ t w, exec (.fromFpu d n) s = .next t ∧
      regVal t d = (if d = 0#5 then zeroTagged else { taggen := 0#8, data := w }) ∧
      (s.pipe.loadShadow ≠ some (.fpu n) →
        w = if n = 15#5 then s.fpsw.setWidth 32 else (fpuGet s n).frac.extractLsb' 32 32) ∧
      KeepsRegs s t (destOf s d) ∧ KeepsSystem s t ∧ KeepsMemory s t ∧ KeepsLatches s t ∧ FpuKept s t none ∧
      Sequential s t (shadowOf s d)

/-- R161 to R170: the 4-byte FPU loads from physical memory and from a cached line; the 8-byte FPU loads from a cached
line. LD_EXT1 takes S from bit 63, E from bits 62 to 46, T from bits 36 to 34 and R from bits 33 and 32, and keeps the
fraction; LD_EXT2 keeps all else. That GVA and PTEVA latch the aligned address is the model's
reading (log 14). -/
def Obligations.FpuLoads : Prop :=
  (∀ (s : State) (d s1 : RegField) (rc : RC) (w : Word), fpuReady s = true → isFpuDataField d = true →
    fpuShadowed s d = false → fpuFree s d = true → s.pipe.afterTas = false →
    physicalRam s (alignWord (sumRC s s1 rc)) = true → w = memWord s.mem (alignWord (sumRC s s1 rc)) →
    LoadsFpu (.ldSgl d s1 rc) s d (unpackSingle s w) ∧ LoadsFpu (.ldSglRo d s1 rc) s d (unpackSingle s w) ∧
    LoadsFpu (.ldInt d s1 rc) s d (intImageReg s w) ∧ LoadsFpu (.ldIntRo d s1 rc) s d (intImageReg s w)) ∧
  (∀ (s : State) (d s1 : RegField) (rc : RC) (a : Word) (l : Line) (w : Word), fpuReady s = true →
    isFpuDataField d = true → fpuShadowed s d = false → fpuFree s d = true → s.pipe.afterTas = false →
    a = alignWord (sumRC s s1 rc) → cacheHit s a l false = true → w = lineWord l (globalAddr s a) →
    LoadsFpuCached (.ldSgl d s1 rc) s d (unpackSingle s w) a l ∧
    LoadsFpuCached (.ldSglRo d s1 rc) s d (unpackSingle s w) a (owned l) ∧
    LoadsFpuCached (.ldInt d s1 rc) s d (intImageReg s w) a l ∧
    LoadsFpuCached (.ldIntRo d s1 rc) s d (intImageReg s w) a (owned l)) ∧
  (∀ (s : State) (d s1 : RegField) (rc : RC) (a : Word) (l : Line) (w : DWord), fpuReady s = true →
    isFpuDataField d = true → fpuShadowed s d = false → fpuFree s d = true → s.pipe.afterTas = false →
    a = alignDouble (sumRC s s1 rc) → cacheHit s a l false = true →
    w = lineWord l (globalAddr s a ||| 4#38) ++ lineWord l (globalAddr s a) →
    LoadsFpuCached (.ldDbl d s1 rc) s d (unpackDouble s w) a l ∧
    LoadsFpuCached (.ldDblRo d s1 rc) s d (unpackDouble s w) a (owned l) ∧
    (∀ x : FpReg,
      x = { sign := w.getLsbD 63, exp := w.extractLsb' 46 17, type := w.extractLsb' 34 3, rtag := w.extractLsb' 32 2,
            frac := (fpuGet s d).frac, image := false } →
      LoadsFpuCached (.ldExt1 d s1 rc) s d x a l ∧ LoadsFpuCached (.ldExt1Ro d s1 rc) s d x a (owned l)) ∧
    LoadsFpuCached (.ldExt2 d s1 rc) s d { fpuGet s d with frac := w } a l ∧
    LoadsFpuCached (.ldExt2Ro d s1 rc) s d { fpuGet s d with frac := w } a (owned l))

/-- R302, R303: the value a single-precision and a double-precision image unpacks to, by its exponent and fraction. -/
def Obligations.UnpackValues : Prop :=
  (∀ (s : State) (sg : BitVec 1) (be : BitVec 8) (fr : BitVec 23),
    classify (unpackSingle s (sg ++ be ++ fr)) = some
      (if be = 0#8 then
        (if fr = 0#23 then .zero (sg == 1#1) else .denorm (sg == 1#1) (0#1 ++ fr ++ 0#40))
       else if be = 0xFF#8 then
        (if fr = 0#23 then .inf (sg == 1#1)
         else if fr.getLsbD 22 then .qnan (sg == 1#1) (1#1 ++ fr ++ 0#40)
         else .snan (sg == 1#1) (1#1 ++ fr ++ 0#40))
       else .norm (sg == 1#1) ((be.toNat : Int) - 127) (1#1 ++ fr ++ 0#40))) ∧
  (∀ (s : State) (sg : BitVec 1) (be : BitVec 11) (fr : BitVec 52),
    classify (unpackDouble s (sg ++ be ++ fr)) = some
      (if be = 0#11 then
        (if fr = 0#52 then .zero (sg == 1#1) else .denorm (sg == 1#1) (0#1 ++ fr ++ 0#11))
       else if be = 0x7FF#11 then
        (if fr = 0#52 then .inf (sg == 1#1)
         else if fr.getLsbD 51 then .qnan (sg == 1#1) (1#1 ++ fr ++ 0#11)
         else .snan (sg == 1#1) (1#1 ++ fr ++ 0#11))
       else .norm (sg == 1#1) ((be.toNat : Int) - 1023) (1#1 ++ fr ++ 0#11)))

/-! ### Stores -/

/-- R182, R185, R189, R70, R112, R108: ST_32, ST_SGL and ST_INT store four bytes at the aligned address and nothing else:
in physical memory, or in the cached line of a dirty page, which this node then owns. R93, R84: ST_32 that misses on a dirty
page brings the line in, owned, and changes its word; on a non-cacheable page it stores the word to RAM. That the line is
read before the displaced one is written back is the model's choice (log 9: R92 allows either copy of a synonym), and so is
that a hit on a line with the mark of a non-cacheable page stores to RAM (log 11). R108: a store to a
device register completes; that it changes nothing of the node is the model's choice (log 16). That GVA and PTEVA latch
the aligned address is the model's reading (log 14). -/
def Obligations.StoreWord : Prop :=
  (∀ (s : State) (s2 s1 : RegField) (sc : BitVec 14), memWf s.mem = true → s.pipe.afterTas = false →
    physicalRam s (alignWord (eaStore s s1 sc)) = true →
    StoresWord (.st32 s2 s1 sc) s (alignWord (eaStore s s1 sc)) (storedReg s s2).data s.fpuRun) ∧
  (∀ (s : State) (f s1 : RegField) (sc : BitVec 14), memWf s.mem = true → fpuReady s = true →
    isFpuDataField f = true → fpuSettled s f = true → s.pipe.afterTas = false →
    physicalRam s (alignWord (eaStore s s1 sc)) = true →
    StoresWord (.stSgl f s1 sc) s (alignWord (eaStore s s1 sc)) (packSingle s (readFpu s slotFp1 f))
      (runAfterWait s) ∧
    StoresWord (.stInt f s1 sc) s (alignWord (eaStore s s1 sc)) ((readFpu s slotFp1 f).frac.extractLsb' 32 32)
      (runAfterWait s)) ∧
  (∀ (s : State) (s2 s1 : RegField) (sc : BitVec 14) (l : Line), s.pipe.afterTas = false →
    cacheHit s (alignWord (eaStore s s1 sc)) l true = true → l.pageDirty = true →
    StoresWordCached (.st32 s2 s1 sc) s (alignWord (eaStore s s1 sc)) l (storedReg s s2).data s.fpuRun) ∧
  (∀ (s : State) (s2 s1 : RegField) (sc : BitVec 14) (a : Word) (l : Line), memWf s.mem = true → s.pipe.afterTas = false →
    a = alignWord (eaStore s s1 sc) → uncachedHit s a l true = true → l.pageDirty = true →
    StoresWordPast (.st32 s2 s1 sc) s a (lineAddr l a) (storedReg s s2).data) ∧
  (∀ (s : State) (f s1 : RegField) (sc : BitVec 14) (l : Line), fpuReady s = true → isFpuDataField f = true →
    fpuSettled s f = true → s.pipe.afterTas = false → cacheHit s (alignWord (eaStore s s1 sc)) l true = true →
    l.pageDirty = true →
    StoresWordCached (.stSgl f s1 sc) s (alignWord (eaStore s s1 sc)) l (packSingle s (readFpu s slotFp1 f))
      (runAfterWait s) ∧
    StoresWordCached (.stInt f s1 sc) s (alignWord (eaStore s s1 sc)) l
      ((readFpu s slotFp1 f).frac.extractLsb' 32 32) (runAfterWait s)) ∧
  (∀ (s : State) (s2 s1 : RegField) (sc : BitVec 14), s.pipe.afterTas = false → kpswVaDfetch s = false →
    responder s (alignWord (eaStore s s1 sc)) = .board .device →
    ∃ t, exec (.st32 s2 s1 sc) s = .next t ∧ OnlyRegs s t [] ∧ Sequential s t Pipe.idle) ∧
  (∀ (s s1 : State) (s2 r : RegField) (sc : BitVec 14) (a pte p w : Word) (g : GlobalAddr), s.pipe.afterTas = false →
    a = alignWord (eaStore s r sc) → g = globalAddr s a → p = pageAddr pte a → w = (storedReg s s2).data →
    Misses s s1 a .write pte →
    (FillsFromRam s1 g pte p → pteDirty pte = true →
      ∃ t, exec (.st32 s2 r sc) s = .next t ∧ MissDone s s1 t a [] Pipe.idle ∧ Filled s1 t g ∧
        HoldsLine t g pte p true true (fun k => if k = (g.extractLsb' 2 3).toNat then w else blockWord s1.mem p k)) ∧
    (pteNc pte = true → responder s1 p = .board .ram →
      ∃ t, exec (.st32 s2 r sc) s = .next t ∧ MissDone s s1 t a [] Pipe.idle ∧ memWord t.mem p = w ∧
        KeepsMemoryBut s1 t p.toNat 4))

/-- R302 to R304: an image that is unpacked and packed again comes back as it was. -/
def Obligations.PackUnpack : Prop :=
  (∀ (s : State) (w : Word), packSingle s (unpackSingle s w) = w) ∧
  (∀ (s : State) (w : DWord), packDouble s (unpackDouble s w) = w)

/-- R181, R186 to R188, R112: ST_40, its generation check passed or off, and the 8-byte FPU stores to a cached line of a
dirty page. ST_40 writes the data at the lower address and the tag byte in bits 7 to 0 of the next word. Of the images
of ST_40 and ST_EXT1 only the defined bits are said. That GVA and PTEVA latch the aligned address is the model's reading
(log 14). -/
def Obligations.StoreDoubleCached : Prop :=
  (∀ (s : State) (s2 s1 : RegField) (sc : BitVec 14) (l : Line), s.pipe.afterTas = false →
    cacheHit s (alignDouble (eaStore s s1 sc)) l true = true → l.pageDirty = true →
    ((genOf (storedReg s s2)).toNat ≤ (genOf (src1 s s1)).toNat ∨ upswTagEn s = false ∨ kpswAllEn s = false) →
    StoresDouble (.st40 s2 s1 sc) s (alignDouble (eaStore s s1 sc)) l (storedReg s s2).data
      (fun w => w.extractLsb' 0 8 = (storedReg s s2).taggen) s.fpuRun) ∧
  (∀ (s : State) (f s1 : RegField) (sc : BitVec 14) (a : Word) (l : Line) (x : FpReg), fpuReady s = true →
    isFpuDataField f = true → fpuSettled s f = true → s.pipe.afterTas = false →
    a = alignDouble (eaStore s s1 sc) → cacheHit s a l true = true → l.pageDirty = true →
    x = readFpu s slotFp1 f →
    StoresDouble (.stDbl f s1 sc) s a l ((packDouble s x).extractLsb' 0 32)
      (fun w => w = (packDouble s x).extractLsb' 32 32) (runAfterWait s) ∧
    StoresDouble (.stExt2 f s1 sc) s a l (x.frac.extractLsb' 0 32) (fun w => w = x.frac.extractLsb' 32 32)
      (runAfterWait s) ∧
    (∃ low, StoresDouble (.stExt1 f s1 sc) s a l low (fun w =>
      w.getLsbD 31 = x.sign ∧ w.extractLsb' 14 17 = x.exp ∧ w.extractLsb' 2 3 = x.type ∧
      w.extractLsb' 0 2 = x.rtag) (runAfterWait s)))

/-- R183, R105, R57, R58, R370: ST_CACHE writes the one byte of a cache controller register that its address names,
and no other register; the two low bits of PTEVA and RPTEVA are 0; a byte of INTCLR clears the bits of INTREG that it
has set. Of a store to INTREG's own address only the frame is said. -/
def Obligations.StoreController : Prop :=
  ∀ (s : State) (s2 s1 : RegField) (sc : BitVec 14) (x : Byte) (c : CcByte), s.pipe.afterTas = false →
    x = (storedReg s s2).data.extractLsb' 0 8 → c = ccDecode (eaStore s s1 sc) →
    ∃ t, exec (.stCache s2 s1 sc) s = .next t ∧ KeepsRegs s t [] ∧ KeepsStatus s t ∧ KeepsTrapRegs s t ∧
      KeepsFpu s t ∧ KeepsBuffer s t ∧ KeepsMemory s t ∧ Sequential s t Pipe.idle ∧ t.gva = s.gva ∧
      t.counter0 = s.counter0 ∧ t.counter1 = s.counter1 ∧ t.board = s.board ∧ t.faultInfo = s.faultInfo ∧
      (∀ m : BitVec 2, t.gsn[m.toNat]'m.isLt = (if c = .gsn m then x else s.gsn[m.toNat]'m.isLt)) ∧
      (∀ (m : BitVec 2) (k : Nat), k < 20 → (t.rptm[m.toNat]'m.isLt).getLsbD k =
        (if c = .rptm m (k / 8) then x.getLsbD (k % 8) else (s.rptm[m.toNat]'m.isLt).getLsbD k)) ∧
      (∀ k, 2 ≤ k → k < 38 → t.pteva.getLsbD k =
        (if c = .pteva (k / 8) then x.getLsbD (k % 8) else s.pteva.getLsbD k)) ∧
      (∀ k, 2 ≤ k → k < 38 → t.rpteva.getLsbD k =
        (if c = .rpteva (k / 8) then x.getLsbD (k % 8) else s.rpteva.getLsbD k)) ∧
      (s.pteva.extractLsb' 0 2 = 0#2 → t.pteva.extractLsb' 0 2 = 0#2) ∧
      (s.rpteva.extractLsb' 0 2 = 0#2 → t.rpteva.extractLsb' 0 2 = 0#2) ∧
      (∀ k < 32, t.intmask.getLsbD k =
        (if c = .intmask (k / 8) then x.getLsbD (k % 8) else s.intmask.getLsbD k)) ∧
      (∀ k < 32, c ≠ .intreg (k / 8) → t.intreg.getLsbD k =
        (s.intreg.getLsbD k && !(decide (c = .intclr (k / 8)) && x.getLsbD (k % 8))))

/-- R184, R400, R401: TO_FPU writes the FPU PSW, or an integer image into a data register, and leaves it in the load
shadow, where a TO_FPU of it directly after is outside the spec. That it waits where a running operation uses the register is
the model's reading (log 35). -/
def Obligations.ToFpu : Prop :=
  ∀ (s : State) (s2 d : RegField), fpuReady s = true → isFpuField d = true → fpuShadowed s d = false →
    ∃ t, exec (.toFpu s2 d) s = .next t ∧ KeepsCpu s t ∧ KeepsMemory s t ∧ KeepsLatches s t ∧
      t.fpuPc = s.fpuPc ∧ t.fpuExcep = s.fpuExcep ∧ t.fpuExcKind = s.fpuExcKind ∧ t.fpuBrTF = s.fpuBrTF ∧
      t.fpuRun = none ∧
      (d = 15#5 → t.fpsw = (storedReg s s2).data.extractLsb' 0 15 ∧ t.fregs = s.fregs) ∧
      (d ≠ 15#5 → (fpuGet t d).frac = (storedReg s s2).data ++ 0#32 ∧ t.fpsw = s.fpsw ∧
        (∀ n, n ≠ d → fpuGet t n = fpuGet s n)) ∧
      Sequential s t { Pipe.idle with loadShadow := some (.fpu d) } ∧
      ∀ (s3 : RegField) (u : State), fpuReady u = true → u.pipe = t.pipe →
        exec (.toFpu s3 d) u = .refused .shadowedWrite

/-! ### Register operations -/

/-- R201: ADD_NT adds modulo 2^32, keeps the tag byte of its first operand, and checks nothing. -/
def Obligations.AddNoTraps : Prop :=
  ∀ (s : State) (d s1 : RegField) (rc : RC), writable s d = true →
    WritesReg (.addNt d s1 rc) s d
      { taggen := (src1 s s1).taggen, data := (src1 s s1).data + (rcVal s rc).data }

/-- R202, R203, R200: ADD and SUB where neither check is met, or its enable is off. -/
def Obligations.AddSub : Prop :=
  ∀ (s : State) (d s1 : RegField) (rc : RC) (a b : Tagged), writable s d = true → a = src1 s s1 → b = rcVal s rc →
    (a.taggen.extractLsb' 4 2 = 0#2 ∧ b.taggen.extractLsb' 4 2 = 0#2 ∨ upswTagEn s = false ∨
      kpswAllEn s = false) →
    ((-2147483648 ≤ a.data.toInt + b.data.toInt ∧ a.data.toInt + b.data.toInt ≤ 2147483647) ∨
        upswOvfEn s = false ∨ kpswAllEn s = false →
      WritesReg (.add d s1 rc) s d { taggen := a.taggen, data := a.data + b.data }) ∧
    ((-2147483648 ≤ a.data.toInt - b.data.toInt ∧ a.data.toInt - b.data.toInt ≤ 2147483647) ∨
        upswOvfEn s = false ∨ kpswAllEn s = false →
      WritesReg (.sub d s1 rc) s d { taggen := a.taggen, data := a.data - b.data })

/-- R202 to R209, R200, R343: an enabled overflow of ADD or SUB takes trap 9 whatever the tags; else an enabled tag
check takes trap 11, whatever the result while the overflow check is off, as it does in the logical operations and
shifts. -/
def Obligations.ArithmeticTraps : Prop :=
  (∀ (s : State) (d s1 : RegField) (rc : RC) (a b : Tagged), writable s d = true → a = src1 s s1 → b = rcVal s rc →
    kpswAllEn s = true →
    (a.data.toInt + b.data.toInt < -2147483648 ∨ 2147483647 < a.data.toInt + b.data.toInt → upswOvfEn s = true →
      Traps (.add d s1 rc) s .integerOverflow) ∧
    (a.data.toInt - b.data.toInt < -2147483648 ∨ 2147483647 < a.data.toInt - b.data.toInt → upswOvfEn s = true →
      Traps (.sub d s1 rc) s .integerOverflow) ∧
    (upswTagEn s = true → a.taggen.extractLsb' 4 2 ≠ 0#2 ∨ b.taggen.extractLsb' 4 2 ≠ 0#2 →
      ((-2147483648 ≤ a.data.toInt + b.data.toInt ∧ a.data.toInt + b.data.toInt ≤ 2147483647) ∨
          upswOvfEn s = false → Traps (.add d s1 rc) s .fixnumTag) ∧
      ((-2147483648 ≤ a.data.toInt - b.data.toInt ∧ a.data.toInt - b.data.toInt ≤ 2147483647) ∨
          upswOvfEn s = false → Traps (.sub d s1 rc) s .fixnumTag))) ∧
  (∀ (s : State) (d s1 : RegField) (rc : RC), writable s d = true → kpswAllEn s = true → upswTagEn s = true →
    (src1 s s1).taggen.extractLsb' 4 2 ≠ 0#2 ∨ (rcVal s rc).taggen.extractLsb' 4 2 ≠ 0#2 →
    Traps (.and d s1 rc) s .fixnumTag ∧ Traps (.or d s1 rc) s .fixnumTag ∧ Traps (.xor d s1 rc) s .fixnumTag ∧
    Traps (.sll d s1 rc) s .fixnumTag ∧ Traps (.sra d s1 rc) s .fixnumTag ∧ Traps (.srl d s1 rc) s .fixnumTag)

/-- R204 to R209: the logical operations and shifts where the tag check passes or is off. The shift counts are two
bits for SLL, one bit for SRA and SRL. -/
def Obligations.LogicAndShift : Prop :=
  ∀ (s : State) (d s1 : RegField) (rc : RC) (a b : Tagged), writable s d = true → a = src1 s s1 → b = rcVal s rc →
    (a.taggen.extractLsb' 4 2 = 0#2 ∧ b.taggen.extractLsb' 4 2 = 0#2 ∨ upswTagEn s = false ∨
      kpswAllEn s = false) →
    WritesReg (.and d s1 rc) s d { taggen := a.taggen, data := a.data &&& b.data } ∧
    WritesReg (.or d s1 rc) s d { taggen := a.taggen, data := a.data ||| b.data } ∧
    WritesReg (.xor d s1 rc) s d { taggen := a.taggen, data := a.data ^^^ b.data } ∧
    WritesReg (.sll d s1 rc) s d
      { taggen := a.taggen, data := BitVec.ofNat 32 (a.data.toNat * 2 ^ (b.data.toNat % 4)) } ∧
    WritesReg (.sra d s1 rc) s d
      { taggen := a.taggen, data := BitVec.ofInt 32 (a.data.toInt / 2 ^ (b.data.toNat % 2)) } ∧
    WritesReg (.srl d s1 rc) s d
      { taggen := a.taggen, data := BitVec.ofNat 32 (a.data.toNat / 2 ^ (b.data.toNat % 2)) }

/-- R210 to R213: RD_TAG, EXTRACT, WR_TAG and INSERT, byte by byte; they check nothing. -/
def Obligations.TagAndByteOps : Prop :=
  ∀ (s : State) (d s1 : RegField) (rc : RC) (a b : Tagged), writable s d = true → a = src1 s s1 → b = rcVal s rc →
    WritesReg (.rdTag d s1) s d { taggen := 0#8, data := 0#24 ++ a.taggen } ∧
    WritesReg (.extract d s1 rc) s d
      { taggen := 0#8, data := BitVec.ofNat 32 (a.data.toNat / 256 ^ (b.data.toNat % 4) % 256) } ∧
    WritesReg (.wrTag d s1 rc) s d { taggen := b.data.extractLsb' 0 8, data := a.data } ∧
    ∃ v : Word, WritesReg (.insert d s1 rc) s d { taggen := a.taggen, data := v } ∧
      ∀ k < 4, v.extractLsb' (8 * k) 8 =
        (if k = s.insert.toNat then b.data.extractLsb' 0 8 else a.data.extractLsb' (8 * k) 8)

/-! ### Special registers -/

/-- R231 to R233: the values read from the special registers; the CWP where no WR_SPECIAL of it precedes, the WRITE_PC
at a trap vector. Of the other numbers and of the cases left out only completion and the frame are said. -/
def Obligations.ReadSpecial : Prop :=
  ∀ (s : State) (d n : RegField), writable s d = true →
    (∃ v, WritesReg (.rdSpecial d n) s d { taggen := 0#8, data := v } ∧
      (n = 1#5 → v = s.upsw.setWidth 32) ∧
      (n = 2#5 → s.pipe.cwpShadow = false → v = 0#22 ++ s.cwp ++ 0#7) ∧
      (n = 3#5 → v = s.swp ++ 0#3) ∧ (n = 4#5 → v = s.pc) ∧ (n = 5#5 → v = s.fpuPc ++ 0#2) ∧
      (n = 6#5 → s.pipe.atVector = true → v = s.trapNextPC)) ∧
    WritesReg (.rdInsert d) s d { taggen := 0#8, data := 0#30 ++ s.insert } ∧
    WritesReg (.rdKpsw d) s d { taggen := 0#8, data := 0#8 ++ s.kpsw }

/-- R234, R404: the fields WR_SPECIAL writes; a write of CWP leaves the window shadow. -/
def Obligations.WriteSpecial : Prop :=
  ∀ (s : State) (n s1 : RegField) (rc : RC) (x : Word), x = sumRC s s1 rc →
    (n = 1#5 ∨ n = 2#5 ∧ s.pipe.slotOfTrue = false ∨ n = 3#5 ∨ n = 5#5) →
    ∃ t, exec (.wrSpecial n s1 rc) s = .next t ∧ KeepsRegs s t [] ∧ KeepsTrapRegs s t ∧ KeepsController s t ∧
      KeepsBuffer s t ∧ KeepsLatches s t ∧ KeepsMemory s t ∧ t.fregs = s.fregs ∧ t.fpsw = s.fpsw ∧
      t.fpuRun = s.fpuRun ∧ t.fpuExcep = s.fpuExcep ∧ t.fpuExcKind = s.fpuExcKind ∧ t.fpuBrTF = s.fpuBrTF ∧
      t.insert = s.insert ∧ t.kpsw = applyRet s.kpsw s.pipe.retPend ∧ t.pc = s.nextPC ∧
      t.nextPC = s.nextPC + 4#32 ∧
      t.upsw = (if n = 1#5 then x.extractLsb' 0 6 else s.upsw) ∧
      t.cwp = (if n = 2#5 then x.extractLsb' 7 3 else s.cwp) ∧
      t.swp = (if n = 3#5 then x.extractLsb' 3 29 else s.swp) ∧
      t.fpuPc = (if n = 5#5 then x.extractLsb' 2 30 else s.fpuPc) ∧
      t.pipe = (if n = 2#5 then { Pipe.idle with windowShadow := true, cwpShadow := true } else Pipe.idle)

/-- R235: WR_INSERT takes the two low bits of its operand, with no addition. -/
def Obligations.WriteInsert : Prop :=
  ∀ (s : State) (rc : RC), ∃ t, exec (.wrInsert rc) s = .next t ∧ t.insert = (rcVal s rc).data.extractLsb' 0 2 ∧
    t.upsw = s.upsw ∧ t.swp = s.swp ∧ KeepsRegs s t [] ∧ KeepsTrapRegs s t ∧ KeepsController s t ∧
    KeepsBuffer s t ∧ KeepsFpu s t ∧ KeepsLatches s t ∧ KeepsMemory s t ∧ Sequential s t Pipe.idle

/-- R236, R347, R344: WR_KPSW writes all 24 bits in kernel mode; in user mode it takes trap 8, or with traps off has no
effect. -/
def Obligations.WriteKpsw : Prop :=
  ∀ (s : State) (s1 : RegField) (rc : RC),
    (kpswMode s = true → s.pipe.retPend = none → ∃ t, exec (.wrKpsw s1 rc) s = .next t ∧
      t.kpsw = (sumRC s s1 rc).extractLsb' 0 24 ∧ t.pc = s.nextPC ∧ t.nextPC = s.nextPC + 4#32 ∧ t.cwp = s.cwp ∧
      t.pipe = Pipe.idle ∧ KeepsRegs s t [] ∧ KeepsStatus s t ∧ KeepsTrapRegs s t ∧ KeepsController s t ∧
      KeepsFpu s t ∧ KeepsLatches s t ∧ KeepsMemory s t ∧ t.ib = s.ib ∧ t.past = s.past ∧ t.prefetch = none) ∧
    (kpswMode s = false → kpswAllEn s = true → Traps (.wrKpsw s1 rc) s .kernelMode) ∧
    (kpswMode s = false → kpswAllEn s = false →
      ∃ t, exec (.wrKpsw s1 rc) s = .next t ∧ OnlyRegs s t [] ∧ Sequential s t Pipe.idle)

/-- R237, R238, R330, R53, R110: SYNC waits for the FPU and does nothing else, a pending exception whose trap is not
enabled staying pending; with an enabled one it takes trap 4, or 9 for the overflow of a FIX, and the exception is no
longer pending. That the overflow of a FIX stays pending while UPSW.ovf_en is off is the model's reading (log 20), and that
SYNC does this whatever UPSW.fpu_id is, is its choice (log 29: R331 refuses an FPU instruction for another coprocessor).
INVALIDATE_IB clears every valid bit and forgets every word of the past; the next instruction may be one fetched before
it, which is not refetched; that none is held ready with the buffer off is the model's choice (log 15). -/
def Obligations.SyncAndInvalidate : Prop :=
  ∀ s : State,
    (noFpuTrap s = true → ∃ t, exec .sync s = .next t ∧ KeepsCpu s t ∧ KeepsMemory s t ∧ KeepsLatches s t ∧
      FpuKept s t none ∧ Sequential s t Pipe.idle) ∧
    (s.fpuExcep = true → upswFpuEn s = true → kpswAllEn s = true →
      (s.fpuExcKind = .floatingPoint → ∃ t, exec .sync s = .next t ∧ t.fpuExcep = false ∧
        TakesTrapOnly { s with fpuExcep := false, fpuRun := none } t .floatingPoint) ∧
      (s.fpuExcKind = .integerOverflow → upswOvfEn s = true → ∃ t, exec .sync s = .next t ∧ t.fpuExcep = false ∧
        TakesTrapOnly { s with fpuExcep := false, fpuRun := none } t .integerOverflow) ∧
      (s.fpuExcKind = .integerOverflow → upswOvfEn s = false → noFpuTrap s = true)) ∧
    (upswFpuEn s = false ∨ kpswAllEn s = false ∨ s.fpuExcep = false → noFpuTrap s = true) ∧
    (∃ t, exec .invalidateIb s = .next t ∧ (∀ k : Fin 16, t.ib[k].valid = 0#8) ∧ t.past = [] ∧
      t.prefetch = s.prefetch ∧ KeepsRegs s t [] ∧ KeepsStatus s t ∧ KeepsTrapRegs s t ∧ KeepsController s t ∧
      KeepsFpu s t ∧ KeepsLatches s t ∧ KeepsMemory s t ∧
      Sequential s t { Pipe.idle with ready := t.pipe.ready } ∧ (kpswIbEn s = false → t.pipe.ready = none) ∧
      ∀ w, t.pipe.ready = some w → fetch t = .done w t)

/-! ### Compares -/

/-- R251, R252, R255 to R260: a data or tag compare that meets no enabled tag exception branches on its condition. The
delayed form always runs the slot; the other runs it only if the branch is taken. -/
def Obligations.CompareBranch : Prop :=
  (∀ (s : State) (cond s1 : RegField) (cc : CC) (off : BitVec 9) (c : Bool),
    dataCond cond (src1 s s1) (ccVal s cc) = some c →
    dataExc cond (src1 s s1) (ccVal s cc) = none ∨ upswTagEn s = false ∨ kpswAllEn s = false →
    Branches (.cmpBrDelayed cond s1 cc off) s (branchedTo s off c) Pipe.idle ∧
    Branches (.cmpBrTrue cond s1 cc off) s (branchedTo s off c) (truePipe c)) ∧
  (∀ (s : State) (cond s1 : RegField) (tc : BitVec 6) (off : BitVec 9) (c : Bool),
    tagCond cond (tagOf (src1 s s1)) tc = some c →
    tagExc cond (src1 s s1) = none ∨ upswTagEn s = false ∨ kpswAllEn s = false →
    Branches (.tagCmpBrDelayed cond s1 tc off) s (branchedTo s off c) Pipe.idle ∧
    Branches (.tagCmpBrTrue cond s1 tc off) s (branchedTo s off c) (truePipe c))

/-- R262, R263, R254, R343, R351: CMP_TRAP and TAG_CMP_TRAP do nothing where the condition is false or traps are off, a tag
exception they meet included, and take trap 15 where it is true; a compare that meets an enabled tag exception takes that trap instead. -/
def Obligations.CompareTraps : Prop :=
  (∀ (s : State) (cond s1 : RegField) (cc : CC) (tc : BitVec 6) (off : BitVec 9) (c : Bool),
    (dataCond cond (src1 s s1) (ccVal s cc) = some c →
      dataExc cond (src1 s s1) (ccVal s cc) = none ∨ upswTagEn s = false ∨ kpswAllEn s = false →
      if c && kpswAllEn s then Traps (.cmpTrap cond s1 cc off) s .cmpTrap
      else Branches (.cmpTrap cond s1 cc off) s (s.nextPC + 4#32) Pipe.idle) ∧
    (tagCond cond (tagOf (src1 s s1)) tc = some c →
      tagExc cond (src1 s s1) = none ∨ upswTagEn s = false ∨ kpswAllEn s = false →
      if c && kpswAllEn s then Traps (.tagCmpTrap cond s1 tc off) s .cmpTrap
      else Branches (.tagCmpTrap cond s1 tc off) s (s.nextPC + 4#32) Pipe.idle)) ∧
  (∀ (s : State) (cond s1 : RegField) (cc : CC) (tc : BitVec 6) (off : BitVec 9) (tt : TrapType),
    upswTagEn s = true → kpswAllEn s = true →
    (dataExc cond (src1 s s1) (ccVal s cc) = some tt →
      Traps (.cmpBrDelayed cond s1 cc off) s tt ∧ Traps (.cmpBrTrue cond s1 cc off) s tt ∧
      Traps (.cmpTrap cond s1 cc off) s tt) ∧
    (tagExc cond (src1 s s1) = some tt →
      Traps (.tagCmpBrDelayed cond s1 tc off) s tt ∧ Traps (.tagCmpBrTrue cond s1 tc off) s tt ∧
      Traps (.tagCmpTrap cond s1 tc off) s tt))

/-- R251 to R254, R264: every condition code of the three families, the codes with no row, and the exceptions they
check. -/
def Obligations.Conditions : Prop :=
  ∀ a b : Tagged,
    dataCond 0x00#5 a b = some (decide (a.data = b.data)) ∧ dataCond 0x01#5 a b = some (decide (a.data ≠ b.data)) ∧
    dataCond 0x02#5 a b = some (decide (b.data.toInt < a.data.toInt)) ∧
    dataCond 0x03#5 a b = some (decide (a.data.toInt ≤ b.data.toInt)) ∧
    dataCond 0x04#5 a b = some (decide (b.data.toInt ≤ a.data.toInt)) ∧
    dataCond 0x05#5 a b = some (decide (a.data.toInt < b.data.toInt)) ∧
    dataCond 0x06#5 a b = some (decide (b.data.toNat < a.data.toNat)) ∧
    dataCond 0x07#5 a b = some (decide (a.data.toNat ≤ b.data.toNat)) ∧
    dataCond 0x08#5 a b = some (decide (b.data.toNat ≤ a.data.toNat)) ∧
    dataCond 0x09#5 a b = some (decide (a.data.toNat < b.data.toNat)) ∧
    dataCond 0x0A#5 a b = some true ∧ dataCond 0x0B#5 a b = some false ∧
    dataCond 0x0C#5 a b = some (decide (a.taggen.extractLsb' 0 6 = b.taggen.extractLsb' 0 6)) ∧
    dataCond 0x0D#5 a b = some (decide (a.taggen.extractLsb' 0 6 ≠ b.taggen.extractLsb' 0 6)) ∧
    dataCond 0x0E#5 a b = some (decide (a = b)) ∧ dataCond 0x0F#5 a b = some (decide (a ≠ b)) ∧
    dataCond 0x1E#5 a b =
      some (decide (a.taggen.extractLsb' 0 6 = b.taggen.extractLsb' 0 6 ∧ a.data = b.data)) ∧
    dataCond 0x1F#5 a b =
      some (decide (a.taggen.extractLsb' 0 6 ≠ b.taggen.extractLsb' 0 6 ∨ a.data ≠ b.data)) ∧
    (∀ c : BitVec 5, 0x10 ≤ c.toNat → c.toNat ≤ 0x1D → dataCond c a b = none) ∧
    (∀ t tc : BitVec 6, tagCond 0x0C#5 t tc = some (decide (t = tc)) ∧ tagCond 0x0D#5 t tc = some (decide (t ≠ tc)) ∧
      tagCond 0x1C#5 t tc = some (decide (t = tc)) ∧ tagCond 0x1D#5 t tc = some (decide (t ≠ tc)) ∧
      ∀ c : BitVec 5, c ≠ 0x0C#5 → c ≠ 0x0D#5 → c ≠ 0x1C#5 → c ≠ 0x1D#5 → tagCond c t tc = none) ∧
    (∀ c : BitVec 5, fpCond c .un = c.getLsbD 3 ∧ fpCond c .lt = c.getLsbD 2 ∧ fpCond c .eq = c.getLsbD 1 ∧
      fpCond c .gt = c.getLsbD 0) ∧
    (∀ c, dataExc c a b = some .eqlTag ↔ (c = 0x1E#5 ∨ c = 0x1F#5) ∧
      a.taggen.extractLsb' 0 6 = b.taggen.extractLsb' 0 6 ∧ 0x38 ≤ (a.taggen.extractLsb' 0 6).toNat ∧
      a.data ≠ b.data) ∧
    (∀ c x, dataExc c a b = some x → x = .fixnumOrChar ∨ x = .eqlTag) ∧
    (∀ c x, tagExc c a = some x → x = .consOrNil) ∧
    (∀ c, dataExc c a b = some .fixnumOrChar ↔ c.toNat ≤ 9 ∧
      ¬(a.taggen.extractLsb' 4 2 = 0#2 ∧ b.taggen.extractLsb' 4 2 = 0#2) ∧
      ¬(a.taggen.extractLsb' 4 2 = 1#2 ∧ b.taggen.extractLsb' 4 2 = 1#2)) ∧
    (∀ c, tagExc c a = some .consOrNil ↔ (c = 0x1C#5 ∨ c = 0x1D#5) ∧ tagOf a ≠ 0x26#6 ∧ tagOf a ≠ 0x27#6)

/-- R253, R258, R261, R322, R307: an FP compare of two registers that hold values branches by the mask of relations;
FPU_PC, the type tags and the operand flag change, no data register does. The operand flag of numbers and Not-a-Numbers:
a signaling one, or an unordered relation with condition bit 4 set; and no other flag; a denormalized operand sets it.
That a pending overflow of a FIX lets the compare run while UPSW.ovf_en is off is the model's reading (log 20). -/
def Obligations.FpCompareBranch : Prop :=
  (∀ (s : State) (cond : BitVec 5) (va vb : FpVal) (r : FpRel), va ≠ .unknown → vb ≠ .unknown →
    (isDenorm va = false → isDenorm vb = false → compareFlags s cond va vb r =
      { operand := isSNaN va || isSNaN vb || (decide (r = .un) && cond.getLsbD 4), overflow := false,
        underflow := false, inexact := false }) ∧
    (isDenorm va = true ∨ isDenorm vb = true → (compareFlags s cond va vb r).operand = true)) ∧
  ∀ (s : State) (cond a b : RegField) (off : BitVec 9) (va vb : FpVal) (x y : FpReg) (c : Bool),
    fpuReady s = true → noFpuTrap s = true → isFpuDataField a = true → isFpuDataField b = true →
    x = readFpu s slotFp1 a → y = readFpu s slotFp2 b → classify x = some va → classify y = some vb →
    c = fpCond cond (fpRelation s va vb) →
    ∀ i p, (i = .fpCmpBrDelayed cond a b off ∧ p = Pipe.idle ∨ i = .fpCmpBrTrue cond a b off ∧ p = truePipe c) →
      ∃ t, exec i s = .next t ∧ t.pc = s.nextPC ∧ t.nextPC = branchedTo s off c ∧ t.pipe = p ∧ t.cwp = s.cwp ∧
        t.kpsw = applyRet s.kpsw s.pipe.retPend ∧ t.fpuBrTF = c ∧ t.fpuPc = s.pc.extractLsb' 2 30 ∧
        t.fregs = s.fregs ∧ t.fpuRun = none ∧
        FpswEffect s t (compareFlags s cond va vb (fpRelation s va vb)) x.type y.type .floatingPoint ∧
        KeepsCpu s t ∧ KeepsLatches s t ∧ KeepsMemory s t

/-- R322: the relation of two normalized numbers is the order of their values, zeros of both signs being 0 and infinities
at the ends; a Not-a-Number is unordered with everything but a register of unknown contents. -/
def Obligations.RelationIsOrder : Prop :=
  (∀ (s : State) (s1 s2 : Bool) (e1 e2 : Int) (m1 m2 : BitVec 64) (x y : ℚ),
    x = (if s1 then -1 else 1) * (m1.toNat : ℚ) * (2 : ℚ) ^ (e1 - 63) →
    y = (if s2 then -1 else 1) * (m2.toNat : ℚ) * (2 : ℚ) ^ (e2 - 63) →
    fpRelation s (.norm s1 e1 m1) (.norm s2 e2 m2) = (if x < y then .lt else if x = y then .eq else .gt)) ∧
  (∀ (s : State) (sg : Bool) (m : BitVec 64) (v : FpVal), v ≠ .unknown →
    fpRelation s (.qnan sg m) v = .un ∧ fpRelation s v (.qnan sg m) = .un ∧ fpRelation s (.snan sg m) v = .un ∧
    fpRelation s v (.snan sg m) = .un) ∧
  (∀ (s : State) (s1 s2 : Bool) (e : Int) (m : BitVec 64) (x : ℚ),
    x = (if s2 then -1 else 1) * (m.toNat : ℚ) * (2 : ℚ) ^ (e - 63) →
    fpRelation s (.zero s1) (.zero s2) = .eq ∧
    fpRelation s (.zero s1) (.norm s2 e m) = (if 0 < x then .lt else if x = 0 then .eq else .gt) ∧
    fpRelation s (.norm s2 e m) (.zero s1) = (if x < 0 then .lt else if x = 0 then .eq else .gt) ∧
    fpRelation s (.inf s1) (.inf s2) = (if s1 = s2 then .eq else if s1 then .lt else .gt) ∧
    ∀ v ∈ [FpVal.zero s2, .norm s2 e m],
      fpRelation s (.inf s1) v = (if s1 then .lt else .gt) ∧ fpRelation s v (.inf s1) = (if s1 then .gt else .lt))

/-! ### Calls, jumps, returns -/

/-- R281, R131, R282: JUMP goes, after its slot, to the word address in the segment the JUMP is in; JUMP_REG to the
sum of its operands with the two low bits dropped. -/
def Obligations.Jumps : Prop :=
  (∀ (s : State) (addr : BitVec 28), ∃ t, exec (.jump addr) s = .next t ∧
    Transfers s t (s.pc.extractLsb' 30 2 ++ addr ++ 0#2) Pipe.idle [] ∧ t.cwp = s.cwp ∧
    t.kpsw = applyRet s.kpsw s.pipe.retPend) ∧
  (∀ (s : State) (s1 : RegField) (rc : RC), ∃ t, exec (.jumpReg s1 rc) s = .next t ∧
    Transfers s t ((sumRC s s1 rc).extractLsb' 2 30 ++ 0#2) Pipe.idle [] ∧ t.cwp = s.cwp ∧
    t.kpsw = applyRet s.kpsw s.pipe.retPend)

/-- R283, R284: the calls where no enabled window overflow is met, whatever predicate of CWP and SWP it is (R8; its default
is in `WindowTraps`): the next window, its own address in R10, the target
after the slot; CALL_KERNEL also enters kernel mode and saves the mode, which is said where no return's KPSW change
waits. -/
def Obligations.Calls : Prop :=
  ∀ (s : State) (addr : BitVec 28), s.pipe.slotOfTrue = false →
    s.pipe.loadShadow ≠ some (.int (physReg (s.cwp + 1#3) 10#5)) →
    (windowOverflow s = false ∨ kpswWinEn s = false ∨ kpswAllEn s = false) →
    (∃ t, exec (.call addr) s = .next t ∧
      Transfers s t (s.pc.extractLsb' 30 2 ++ addr ++ 0#2) (windowPipe none) [physReg (s.cwp + 1#3) 10#5] ∧
      t.cwp = s.cwp + 1#3 ∧ regVal t 10#5 = { taggen := 0#8, data := s.pc } ∧
      t.kpsw = applyRet s.kpsw s.pipe.retPend) ∧
    (∃ t, exec .callKernel s = .next t ∧
      Transfers s t 0x1000#32 (windowPipe none) [physReg (s.cwp + 1#3) 10#5] ∧
      t.cwp = s.cwp + 1#3 ∧ regVal t 10#5 = { taggen := 0#8, data := s.pc } ∧
      (s.pipe.retPend = none → kpswMode t = true ∧ t.kpsw.getLsbD 5 = kpswMode s ∧
        ∀ n, n ≠ 4 → n ≠ 5 → t.kpsw.getLsbD n = s.kpsw.getLsbD n))

/-- R285 to R287: the returns where no enabled window underflow is met, whatever predicate it is (R8): the previous window,
the target after the slot, KPSW not yet changed. The change that waits sets all_en, and for RET_KERNEL user mode, and no other bit. -/
def Obligations.Returns : Prop :=
  (∀ (s : State) (s1 : RegField) (rc : RC), s.pipe.slotOfTrue = false →
    (windowUnderflow s = false ∨ kpswWinEn s = false ∨ kpswAllEn s = false) →
    ∀ i r, (i = .ret s1 rc ∧ r = none ∨ i = .retTrap s1 rc ∧ r = some .trap ∨ i = .retKernel s1 rc ∧ r = some .kernel) →
      ∃ t, exec i s = .next t ∧ Transfers s t ((sumRC s s1 rc).extractLsb' 2 30 ++ 0#2) (windowPipe r) [] ∧
        t.cwp = s.cwp - 1#3 ∧ t.kpsw = applyRet s.kpsw s.pipe.retPend) ∧
  (∀ k : BitVec 24,
    (∀ n, (applyRet k (some .trap)).getLsbD n = (if n = 12 then true else k.getLsbD n)) ∧
    (∀ n, (applyRet k (some .kernel)).getLsbD n = (if n = 12 then true else if n = 4 then false else k.getLsbD n)))

/-- R283, R285, R356: an enabled window overflow or underflow takes trap 5 or 6, and the call or return has not
happened. The two predicates are parameters (R8): whatever they are they look at CWP, SWP and the parameter alone, and at
their default they compare CWP with the oldest window, SWP[9:7]. -/
def Obligations.WindowTraps : Prop :=
  (∀ s : State, s.board.windowTests = .ofSwp →
    windowOverflow s = decide (s.cwp + 2#3 = s.swp.extractLsb' 4 3) ∧
    windowUnderflow s = decide (s.cwp = s.swp.extractLsb' 4 3)) ∧
  (∀ s t : State, t.board.windowTests = s.board.windowTests → t.cwp = s.cwp → t.swp = s.swp →
    windowOverflow t = windowOverflow s ∧ windowUnderflow t = windowUnderflow s) ∧
  (∀ (s : State) (addr : BitVec 28) (s1 : RegField) (rc : RC), s.pipe.slotOfTrue = false →
    s.pipe.loadShadow ≠ some (.int (physReg (s.cwp + 1#3) 10#5)) → kpswWinEn s = true → kpswAllEn s = true →
    (windowOverflow s = true → Traps (.call addr) s .windowOverflow ∧ Traps .callKernel s .windowOverflow) ∧
    (windowUnderflow s = true → Traps (.ret s1 rc) s .windowUnderflow ∧
      Traps (.retTrap s1 rc) s .windowUnderflow ∧ Traps (.retKernel s1 rc) s .windowUnderflow))

/-! ### Floating point -/

/-- R311 to R314, R300, R308: the two-operand arithmetic: result, flags, FPU_PC, and only the FPU changes. R307, R323: what
it gives for Not-a-Numbers, denormalized operands, zeros and infinities; the sum, product and quotient of two normalized
numbers are in `ResultIsRoundedExactValue`. The busy times are parameters (log 19). That a pending overflow of a FIX lets
the operation run while UPSW.ovf_en is off is the model's reading (log 20). -/
def Obligations.FpArithmetic : Prop :=
  (∀ (s : State) (d a b : RegField) (x y : FpReg) (va vb : FpVal) (run : Nat → FpuRun), fpuOpReady s d = true →
    isFpuDataField a = true → isFpuDataField b = true → x = readFpu s slotFp1 a → y = readFpu s slotFp2 b →
    classify x = some va → classify y = some vb →
    run = (fun n => { dest := d, src1 := a, src2 := b, cyclesLeft := n }) →
    Computes (.fadd d a b) s d (arith2 s x y va vb (addNumbers s)) x.type y.type (run cyclesAdd) ∧
    Computes (.fsub d a b) s d (arith2 s x y va (negateVal vb) (addNumbers s)) x.type y.type (run cyclesAdd) ∧
    Computes (.fmul d a b) s d (arith2 s x y va vb (mulNumbers s)) x.type y.type (run cyclesMul) ∧
    Computes (.fdiv d a b) s d (arith2 s x y va vb (divNumbers s)) x.type y.type (run cyclesDiv)) ∧
  (∀ (s : State) (x y : FpReg) (a b : FpVal) (f : FpVal → FpVal → FpResult), a ≠ .unknown → b ≠ .unknown →
    (isDenorm a = true ∨ isDenorm b = true → (arith2 s x y a b f).flags.operand = true) ∧
    (isDenorm a = false → isDenorm b = false →
      (isSNaN a = true → Gives (arith2 s x y a b f) (.qnan x.sign x.frac) operandFlag) ∧
      (isSNaN a = false → isSNaN b = true → Gives (arith2 s x y a b f) (.qnan y.sign y.frac) operandFlag) ∧
      (isSNaN a = false → isSNaN b = false →
        (isQNaN a = true → arith2 s x y a b f = { reg := x, flags := noFlags }) ∧
        (isQNaN a = false → isQNaN b = true → arith2 s x y a b f = { reg := y, flags := noFlags }) ∧
        (isQNaN a = false → isQNaN b = false → arith2 s x y a b f = f a b)))) ∧
  (∀ (sg : Bool) (e : Int) (m : BitVec 64), negateVal (.zero sg) = .zero (!sg) ∧ negateVal (.inf sg) = .inf (!sg) ∧
    negateVal (.norm sg e m) = .norm (!sg) e m ∧ negateVal (.denorm sg m) = .denorm (!sg) m ∧
    negateVal (.qnan sg m) = .qnan sg m ∧ negateVal (.snan sg m) = .snan sg m) ∧
  (∀ (s : State) (p q : Bool) (e : Int) (m : BitVec 64) (invalid : FpResult → Prop),
    invalid = (fun r => Gives r (.qnan false 0xC000000000000000#64) operandFlag) →
    Gives (addNumbers s (.zero p) (.zero q)) (.zero (if p = q then p else s.fpsw.extractLsb' 0 2 == 3#2)) noFlags ∧
    (m.getLsbD 63 = true → -65535 ≤ e → e ≤ 65536 →
      Gives (addNumbers s (.zero p) (.norm q e m)) (.norm q e m)
        { noFlags with overflow := decide (16383 < e), underflow := decide (e < -16382) } ∧
      Gives (addNumbers s (.norm q e m) (.zero p)) (.norm q e m)
        { noFlags with overflow := decide (16383 < e), underflow := decide (e < -16382) }) ∧
    (if p = q then Gives (addNumbers s (.inf p) (.inf q)) (.inf p) noFlags
      else invalid (addNumbers s (.inf p) (.inf q))) ∧
    invalid (mulNumbers s (.inf p) (.zero q)) ∧ invalid (mulNumbers s (.zero p) (.inf q)) ∧
    invalid (divNumbers s (.zero p) (.zero q)) ∧ invalid (divNumbers s (.inf p) (.inf q)) ∧
    Gives (mulNumbers s (.zero p) (.zero q)) (.zero (p != q)) noFlags ∧
    Gives (mulNumbers s (.inf p) (.inf q)) (.inf (p != q)) noFlags ∧
    Gives (mulNumbers s (.zero p) (.norm q e m)) (.zero (p != q)) noFlags ∧
    Gives (mulNumbers s (.norm p e m) (.zero q)) (.zero (p != q)) noFlags ∧
    Gives (mulNumbers s (.inf p) (.norm q e m)) (.inf (p != q)) noFlags ∧
    Gives (mulNumbers s (.norm p e m) (.inf q)) (.inf (p != q)) noFlags ∧
    Gives (divNumbers s (.zero p) (.norm q e m)) (.zero (p != q)) noFlags ∧
    Gives (divNumbers s (.norm p e m) (.zero q)) (.inf (p != q)) operandFlag ∧
    Gives (divNumbers s (.inf p) (.zero q)) (.inf (p != q)) noFlags ∧
    Gives (divNumbers s (.zero p) (.inf q)) (.zero (p != q)) noFlags ∧
    ∀ v ∈ [FpVal.zero q, .norm q e m],
      Gives (addNumbers s (.inf p) v) (.inf p) noFlags ∧ Gives (addNumbers s v (.inf p)) (.inf p) noFlags ∧
      Gives (divNumbers s (.inf p) v) (.inf (p != q)) noFlags ∧
      Gives (divNumbers s v (.inf p)) (.zero (q != p)) noFlags)

/-- R315 to R321, R300, R308: FMOV; FABS and FNEG of a register that holds no integer image; FLOAT of an integer image
with a zero low half; FIX, CVTS and CVTD of a consistent register. A FIX that overflows leaves a pending exception of the
kind integer overflow (R319, R53). R307, R320, R321: what FIX, CVTS and CVTD give; FIX of a normalized number is in
`IntegerConversion`. The busy times are parameters (log 19). That a pending overflow of a FIX lets the operation run while
UPSW.ovf_en is off is the model's reading, and so is that a FIX whose overflow is enabled in the FPSW, write destination
off, writes its result while trap 9 is off (log 20: R344 has it deliver any value, R308 would keep the destination). -/
def Obligations.FpUnary : Prop :=
  (∀ (s : State) (d a : RegField) (x : FpReg) (t2 : BitVec 3) (run : Nat → FpuRun), fpuOpReady s d = true →
    isFpuDataField a = true → x = readFpu s slotFp1 a → t2 = s.fpsw.extractLsb' 9 3 →
    run = (fun n => { dest := d, src1 := a, src2 := a, cyclesLeft := n }) →
    Computes (.fmov d a) s d { reg := x, flags := noFlags } x.type t2 (run cyclesCopy) ∧
    (x.image = false →
      Computes (.fabs d a) s d { reg := { x with sign := false }, flags := noFlags } x.type t2 (run cyclesCopy) ∧
      Computes (.fneg d a) s d { reg := { x with sign := !x.sign }, flags := noFlags } x.type t2 (run cyclesCopy)) ∧
    (x.frac.extractLsb' 0 32 = 0#32 →
      Computes (.float d a) s d { reg := intToFp s (x.frac.extractLsb' 32 32), flags := noFlags } x.type t2
        (run cyclesIntConvert)) ∧
    (∀ va, classify x = some va →
      ComputesFix (.fix d a) s d (fixResult s va) x.type t2 (run cyclesIntConvert) ∧
      Computes (.cvts d a) s d (convertResult s { prec := 24, emin := -126, emax := 127 } 40 x va) x.type t2
        (run cyclesConvert) ∧
      Computes (.cvtd d a) s d (convertResult s { prec := 53, emin := -1022, emax := 1023 } 11 x va) x.type t2
        (run cyclesConvert))) ∧
  (∀ (s : State) (fmt : FpFormat) (k : Nat) (x : FpReg) (sg : Bool) (e : Int) (m : BitVec 64),
    convertResult s fmt k x (.zero sg) = { reg := x, flags := noFlags } ∧
    convertResult s fmt k x (.inf sg) = { reg := x, flags := noFlags } ∧
    (∃ f, convertResult s fmt k x (.qnan sg m) = { reg := { x with frac := f }, flags := noFlags } ∧
      ∀ j < 64, f.getLsbD j = (decide (k ≤ j) && x.frac.getLsbD j)) ∧
    Gives (convertResult s fmt k x (.snan sg m)) (.qnan x.sign x.frac) operandFlag ∧
    (convertResult s fmt k x (.denorm sg m)).flags.operand = true ∧
    convertResult s fmt k x (.norm sg e m) = roundedResult s fmt sg m.toNat 1 (e - 63)) ∧
  (∀ (s : State) (sg : Bool) (m : BitVec 64),
    (fixResult s (.zero sg)).reg.frac = 0#64 ∧ (fixResult s (.zero sg)).flags = noFlags ∧
    (fixResult s (.inf sg)).flags = operandFlag ∧ (fixResult s (.qnan sg m)).flags = operandFlag ∧
    (fixResult s (.snan sg m)).flags = operandFlag ∧ (fixResult s (.denorm sg m)).flags.operand = true)

/-- R305: rounding a positive number (num / den) x 2^scale to `p` bits gives a significand of `p` bits, an error below
one unit in the last place on the side the mode names, at most half a unit to the nearest and there an even
significand at a tie; `inexact` and `up` say which side. -/
def Obligations.RoundingIsCorrect : Prop :=
  ∀ (sign : Bool) (num den : Nat) (scale : Int) (p : Nat) (rm : BitVec 2) (r : Rounded) (x v ulp : ℚ),
    0 < num → 0 < den → 2 ≤ p → r = roundMag sign num den scale p rm →
    x = (num : ℚ) / (den : ℚ) * (2 : ℚ) ^ scale → ulp = (2 : ℚ) ^ (r.exp - (p : Int) + 1) → v = (r.sig : ℚ) * ulp →
    2 ^ (p - 1) ≤ r.sig ∧ r.sig < 2 ^ p ∧ (r.inexact = true ↔ v ≠ x) ∧ (r.up = true ↔ x < v) ∧
    (rm = 1#2 → v ≤ x ∧ x < v + ulp) ∧
    (rm = 2#2 → if sign then v ≤ x ∧ x < v + ulp else x ≤ v ∧ v - ulp < x) ∧
    (rm = 3#2 → if sign then x ≤ v ∧ v - ulp < x else v ≤ x ∧ x < v + ulp) ∧
    (rm = 0#2 → |v - x| ≤ ulp / 2 ∧ (|v - x| = ulp / 2 → r.sig % 2 = 0))

/-- R305, R323, R307: the sum, product and quotient of two normalized numbers are the exact rational value, rounded once;
an exact zero sum is a zero. A rounded result is the normalized number that `roundMag` gives, with its rounding tag and its
flags by the range of the format; the codes of the tags are parameters (log 7). -/
def Obligations.ResultIsRoundedExactValue : Prop :=
  (∀ (s : State) (fmt : FpFormat) (sg : Bool) (num den : Nat) (scale : Int) (r : Rounded) (v : FpResult), 0 < num →
    0 < den → 2 ≤ fmt.prec → fmt.prec ≤ 64 → r = roundMag sg num den scale fmt.prec (s.fpsw.extractLsb' 0 2) →
    v = roundedResult s fmt sg num den scale →
    v.flags = { operand := false, overflow := decide (fmt.emax < r.exp), underflow := decide (r.exp < fmt.emin),
                inexact := r.inexact } ∧
    v.reg.rtag = (if r.inexact then (if r.up then rtagUp else rtagDown) else rtagExact) ∧
    (-65535 ≤ r.exp → r.exp ≤ 65536 →
      classify v.reg = some (.norm sg r.exp (BitVec.ofNat 64 (r.sig * 2 ^ (64 - fmt.prec)))))) ∧
  ∀ (s : State) (s1 s2 : Bool) (e1 e2 : Int) (m1 m2 : BitVec 64) (x y : ℚ), m1 ≠ 0#64 → m2 ≠ 0#64 →
    x = (if s1 then -1 else 1) * (m1.toNat : ℚ) * (2 : ℚ) ^ (e1 - 63) →
    y = (if s2 then -1 else 1) * (m2.toNat : ℚ) * (2 : ℚ) ^ (e2 - 63) →
    (x + y = 0 → addNumbers s (.norm s1 e1 m1) (.norm s2 e2 m2) =
      { reg := zeroReg s (s.fpsw.extractLsb' 0 2 == 3#2), flags := noFlags }) ∧
    (x + y ≠ 0 → ∃ (sg : Bool) (num : Nat) (scale : Int), 0 < num ∧
      addNumbers s (.norm s1 e1 m1) (.norm s2 e2 m2) = roundedResult s fmtExtended sg num 1 scale ∧
      (if sg then -1 else 1) * (num : ℚ) * (2 : ℚ) ^ scale = x + y) ∧
    (∃ (sg : Bool) (num : Nat) (scale : Int), 0 < num ∧
      mulNumbers s (.norm s1 e1 m1) (.norm s2 e2 m2) = roundedResult s fmtExtended sg num 1 scale ∧
      (if sg then -1 else 1) * (num : ℚ) * (2 : ℚ) ^ scale = x * y) ∧
    (∃ (sg : Bool) (num den : Nat) (scale : Int), 0 < num ∧ 0 < den ∧
      divNumbers s (.norm s1 e1 m1) (.norm s2 e2 m2) = roundedResult s fmtExtended sg num den scale ∧
      (if sg then -1 else 1) * ((num : ℚ) / (den : ℚ)) * (2 : ℚ) ^ scale = x / y)

/-- R306, R318, R319: an integer converts exactly, zero to a zero and any other to a normalized number of the same
value, and FIX gives it back in every rounding mode with no flag. FIX of a normalized number is its value rounded to an
integer by the mode, inexact where they differ, or the overflow flag where it does not fit 32 bits. -/
def Obligations.IntegerConversion : Prop :=
  (∀ (s : State) (w : Word),
    (w = 0#32 → classify (intToFp s w) = some (.zero false)) ∧
    (w ≠ 0#32 → ∃ sg e m, classify (intToFp s w) = some (.norm sg e m) ∧
      (if sg then -1 else 1) * (m.toNat : ℚ) * (2 : ℚ) ^ (e - 63) = (w.toInt : ℚ))) ∧
  (∀ (s : State) (w : Word) (v : FpVal), classify (intToFp s w) = some v →
    (fixResult s v).reg.frac = w ++ 0#32 ∧ (fixResult s v).flags = noFlags) ∧
  (∀ (s : State) (sg : Bool) (e : Int) (m : BitVec 64) (x : ℚ),
    x = (if sg then -1 else 1) * (m.toNat : ℚ) * (2 : ℚ) ^ (e - 63) →
    ∃ n : Int,
      (s.fpsw.extractLsb' 0 2 = 0#2 → |(n : ℚ) - x| ≤ 1 / 2 ∧ (|(n : ℚ) - x| = 1 / 2 → n % 2 = 0)) ∧
      (s.fpsw.extractLsb' 0 2 = 1#2 → n = (if sg then ⌈x⌉ else ⌊x⌋)) ∧
      (s.fpsw.extractLsb' 0 2 = 2#2 → n = ⌈x⌉) ∧ (s.fpsw.extractLsb' 0 2 = 3#2 → n = ⌊x⌋) ∧
      if -2147483648 ≤ n ∧ n ≤ 2147483647 then
        (fixResult s (.norm sg e m)).reg.frac = BitVec.ofInt 32 n ++ 0#32 ∧
        (fixResult s (.norm sg e m)).flags = { noFlags with inexact := decide ((n : ℚ) ≠ x) }
      else (fixResult s (.norm sg e m)).flags = { noFlags with overflow := true })

/-- R330, R331, R346, R319, R53: every FPU operation and FP compare that finds an enabled pending exception takes trap 4,
or trap 9 where it is the overflow of a FIX, and does not run, and the exception is no longer pending; that the exception
goes before a refusal of the register fields is the model's choice (log 29). With the FPU made illegal or absent every FPU
instruction takes trap 7. -/
def Obligations.FpuTraps : Prop :=
  (∀ (s : State) (d a b cond : RegField) (off : BitVec 9) (tt : TrapType), fpuReady s = true → s.fpuExcep = true →
    upswFpuEn s = true → kpswAllEn s = true →
    (s.fpuExcKind = .floatingPoint ∧ tt = .floatingPoint ∨
      s.fpuExcKind = .integerOverflow ∧ upswOvfEn s = true ∧ tt = .integerOverflow) →
    ∀ i ∈ [Instr.fadd d a b, .fsub d a b, .fmul d a b, .fdiv d a b, .fmov d a, .fabs d a, .fneg d a, .float d a,
        .fix d a, .cvts d a, .cvtd d a, .fpCmpBrDelayed cond a b off, .fpCmpBrTrue cond a b off],
      ∃ t, exec i s = .next t ∧ t.fpuExcep = false ∧
        TakesTrapOnly { s with fpuExcep := false, fpuRun := none } t tt) ∧
  (∀ (s : State) (d a b cond s1 : RegField) (rc : RC) (sc : BitVec 14) (off : BitVec 9),
    upswFpuIllegal s = true ∨ s.board.fpuPresent = false → kpswAllEn s = true →
    ∀ i ∈ [Instr.fadd d a b, .fsub d a b, .fmul d a b, .fdiv d a b, .fmov d a, .fabs d a, .fneg d a, .float d a,
        .fix d a, .cvts d a, .cvtd d a, .fpCmpBrDelayed cond a b off, .fpCmpBrTrue cond a b off, .fromFpu d a,
        .toFpu a d, .ldSgl d s1 rc, .ldSglRo d s1 rc, .ldDbl d s1 rc, .ldDblRo d s1 rc, .ldExt1 d s1 rc,
        .ldExt1Ro d s1 rc, .ldExt2 d s1 rc, .ldExt2Ro d s1 rc, .ldInt d s1 rc, .ldIntRo d s1 rc, .stSgl d s1 sc,
        .stDbl d s1 sc, .stExt1 d s1 sc, .stExt2 d s1 sc, .stInt d s1 sc],
      Traps i s .illegalOpcode)

/-! ### Exceptions, translation, the bus -/

/-- R342, R352, R353, R330: the trap types and vectors; what taking a trap does. A pending FPU exception is no longer pending
when its trap is entered, type 4, or type 9 of the overflow of a FIX; an entry of any other cause leaves it as it was. -/
def Obligations.TrapEntry : Prop :=
  ((∀ tt, trapVector tt = BitVec.ofNat 32 (0x1000 + 16 * (trapNumber tt).toNat)) ∧
  trapNumber .errorFault = 1#4 ∧ trapNumber .normalFault = 2#4 ∧ trapNumber .interrupt = 3#4 ∧
  trapNumber .floatingPoint = 4#4 ∧ trapNumber .windowOverflow = 5#4 ∧ trapNumber .windowUnderflow = 6#4 ∧
  trapNumber .illegalOpcode = 7#4 ∧ trapNumber .kernelMode = 8#4 ∧ trapNumber .integerOverflow = 9#4 ∧
  trapNumber .consOrNil = 10#4 ∧ trapNumber .fixnumTag = 11#4 ∧ trapNumber .fixnumOrChar = 12#4 ∧
  trapNumber .eqlTag = 13#4 ∧ trapNumber .generation = 14#4 ∧ trapNumber .cmpTrap = 15#4) ∧
  (∀ (tt : TrapType) (s : State),
    (tt = .floatingPoint ∨ tt = .integerOverflow ∧ s.fpuExcKind = .integerOverflow → s.fpuExcep = false) →
    TakesTrapOnly s (takeTrap tt s) tt) ∧
  (∀ (s : State) (k : State → Host.Outcome State Fault Refusal) (tt : TrapType), noFpuTrap s = false →
    tt = (if s.fpuExcKind = .integerOverflow then .integerOverflow else .floatingPoint) →
    ∃ t, withPending s k = .next t ∧ t.fpuExcep = false ∧ TakesTrapOnly { s with fpuExcep := false } t tt)

/-- R104, R348, R344: a fault of an access takes trap 1 for a bus fault and trap 2 for the others, the cause recorded;
with its enable or all traps off the machine is stuck. -/
def Obligations.FaultTraps : Prop :=
  ∀ (c : FaultCause) (s : State),
    (if kpswAllEn s && (if c = .busFault then kpswErrEn s else kpswFltEn s) then
      ∃ t, raiseFault c s = .next t ∧ TakesTrap s t (if c = .busFault then .errorFault else .normalFault) ∧
        t.faultInfo = some c ∧ KeepsMemory s t ∧ t.fregs = s.fregs
    else raiseFault c s = .fault (.disabledFault c))

/-- R99, R101, R104, R348, R455: a word access whose line is cached but whose page protection forbids it, and a store
to a line of a clean page, take the normal fault; a physical access that no board answers takes the error fault.
Nothing is loaded or stored. That GVA and PTEVA latch the aligned address is the model's reading (log 14). -/
def Obligations.AccessFaults : Prop :=
  (∀ (s : State) (d s1 : RegField) (rc : RC) (sc : BitVec 14) (l : Line), kpswAllEn s = true → kpswFltEn s = true →
    s.pipe.afterTas = false → kpswVaDfetch s = true →
    (writable s d = true → cacheProbe s (globalAddr s (alignWord (sumRC s s1 rc))) = some l →
      permits s l.prot false = false →
      ∃ t, exec (.ld32 d s1 rc) s = .next t ∧ TakesTrap s t .normalFault ∧ t.faultInfo = some .accessViolation ∧
        KeepsMemory s t ∧ Latches s t (alignWord (sumRC s s1 rc))) ∧
    (cacheProbe s (globalAddr s (alignWord (eaStore s s1 sc))) = some l → permits s l.prot true = true →
      l.pageDirty = false →
      ∃ t, exec (.st32 d s1 sc) s = .next t ∧ TakesTrap s t .normalFault ∧ t.faultInfo = some .dirtyTrap ∧
        KeepsMemory s t ∧ Latches s t (alignWord (eaStore s s1 sc)))) ∧
  (∀ (s : State) (d s1 : RegField) (rc : RC) (sc : BitVec 14), kpswAllEn s = true → kpswErrEn s = true →
    s.pipe.afterTas = false → kpswVaDfetch s = false →
    (writable s d = true → responder s (alignWord (sumRC s s1 rc)) = .nobody →
      ∃ t, exec (.ld32 d s1 rc) s = .next t ∧ TakesTrap s t .errorFault ∧ t.faultInfo = some .busFault ∧
        KeepsMemory s t) ∧
    (responder s (alignWord (eaStore s s1 sc)) = .nobody →
      ∃ t, exec (.st32 d s1 sc) s = .next t ∧ TakesTrap s t .errorFault ∧ t.faultInfo = some .busFault ∧
        KeepsMemory s t))

/-- R93, R96 to R100, R102, R451, R453: the table walk with nothing cached and RAM at the tables: the second-level entry
at RPTM @ RPTEVA[11:0], the first-level entry on the page it names, from the cache that owns its line if one does; an
absent table page is a page fault. That the walk leaves memory as it is, since the second-level entry is one word that is
not entered in the cache, is the model's choice (log 10: R96 allows either, and a fill may write a displaced line back). The
checks on a first-level entry; LD_32_RA alone skips the presence check. Where the bits of an entry lie is a parameter, which
these functions hold (R98, log 7); that presence goes before protection and protection before REFERENCE is the model's
choice (log 7), and so is the dirty check on a non-cacheable page (log 13). -/
def Obligations.TableWalk : Prop :=
  (∀ (s : State) (va : Word) (kind : AccessKind) (slot : Nat) (pa2 pte2 pa1 : Word),
    cacheProbe s s.pteva = none → s.pteva.extractLsb' 0 2 = 0#2 → cacheProbe s (pteRefLatch s).rpteva = none →
    lineGet s.cache (lineIndex s.pteva) = none →
    pa2 = (s.rptm[(va.extractLsb' 30 2).toNat]'(va.extractLsb' 30 2).isLt) ++ s.pteva.extractLsb' 12 10 ++ 0#2 →
    responder s pa2 = .board .ram → pte2 = memWord s.mem pa2 →
    (ptePresent pte2 = false → ∃ t, walkFirst s va kind slot = .fault (pageFault kind) t) ∧
    (ptePresent pte2 = true → pa1 = ptePpn pte2 ++ s.pteva.extractLsb' 0 12 →
      (lineGet s.remote (lineNumber s.pteva) = none → responder s (pa1.extractLsb' 5 27 ++ 0#5) = .board .ram →
        ∃ t, walkFirst s va kind slot = .done (memWord s.mem pa1) t ∧ t.mem = s.mem ∧
          t.rpteva.extractLsb' 2 16 = s.pteva.extractLsb' 12 16 ∧ t.rpteva.extractLsb' 0 2 = 0#2) ∧
      (∀ r, lineGet s.remote (lineNumber s.pteva) = some r →
        (r.status = .unspecifiedError → ∃ t, walkFirst s va kind slot = .fault .busFault t) ∧
        (r.status ≠ .unspecifiedError → ∃ t, t.mem = s.mem ∧ walkFirst s va kind slot =
          .done (r.words[(s.pteva.extractLsb' 2 3).toNat]'(s.pteva.extractLsb' 2 3).isLt) t)))) ∧
  (∀ (s : State) (pte : Word) (kind : AccessKind),
    (ptePresent pte = false → kind ≠ .readAnyway → pteFault s pte kind = some (pageFault kind)) ∧
    (ptePresent pte = true ∨ kind = .readAnyway →
      (permits s (pteProt pte) (kindWrites kind) = false → pteFault s pte kind = some .accessViolation) ∧
      (permits s (pteProt pte) (kindWrites kind) = true →
        (pteRef pte = false → pteFault s pte kind = some .referenceTrap) ∧
        (pteRef pte = true → pteFault s pte kind =
          (if pteNc pte = true ∧ kindWrites kind = true ∧ pteDirty pte = false then some .dirtyTrap else none)))))

/-- R445: whatever boards contend, the arbitration lines settle to the number of the highest. -/
def Obligations.ArbitrationHighestWins : Prop :=
  ∀ (id : BitVec 4) (ids : List (BitVec 4)), waveWinner (id :: ids) = some (arbSettled (id :: ids))

/-- Where the spec defines no effect of an operand the meaning stops by name: an FPU register number that names nothing
(R174; of a store, R185, R186), a condition with no row (R264), a write of PC or WRITE_PC (R234), the target of the load
just before (R171), a call in the slot of CMP_BR_TRUE (R265), and a write of CWP there, by the spec's own extension (R405),
a load or store after TEST_AND_SET (R158). -/
def Obligations.StopsByName : Prop :=
  ∀ (s : State) (d s1 s2 cond : RegField) (rc : RC) (cc : CC) (tc : BitVec 6) (off : BitVec 9) (sc : BitVec 14)
      (addr : BitVec 28),
    (fpuReady s = true → isFpuDataField d = false → exec (.ldSgl d s1 rc) s = .refused .fpuRegister ∧
      exec (.stDbl d s1 sc) s = .refused .fpuRegister) ∧
    (isDataCond cond = false → exec (.cmpBrDelayed cond s1 cc off) s = .refused .unassignedCond ∧
      exec (.cmpTrap cond s1 cc off) s = .refused .unassignedCond) ∧
    (isTagCond cond = false → exec (.tagCmpBrTrue cond s1 tc off) s = .refused .unassignedCond) ∧
    exec (.wrSpecial 4#5 s1 rc) s = .refused .readOnlySpecial ∧
    exec (.wrSpecial 6#5 s1 rc) s = .refused .readOnlySpecial ∧
    (d ≠ 0#5 → s.pipe.loadShadow = some (.int (physReg s.cwp d)) →
      exec (.addNt d s1 rc) s = .refused .shadowedWrite ∧ exec (.ld32 d s1 rc) s = .refused .shadowedWrite) ∧
    (s.pipe.slotOfTrue = true → exec (.call addr) s = .refused .prohibitedSlot ∧
      exec (.ret s1 rc) s = .refused .prohibitedSlot ∧ exec (.wrSpecial 2#5 s1 rc) s = .refused .prohibitedSlot) ∧
    (s.pipe.afterTas = true → exec (.st32 s2 s1 sc) s = .refused .afterTestAndSet ∧
      (writable s d = true → exec (.ld40 d s1 rc) s = .refused .afterTestAndSet))

end Statements
end

