-- ==== Sys2Proof/Laws/State.lean ====
section
/-! SUPPORT. One lemma per field for each update of the state. -/

namespace Sys2Proof.Laws

open Sys2Proof Sys2Proof.Machine

/-! #### `advance` -/

@[simp] theorem advance_globals (s : State) : (advance s).globals = s.globals := rfl
@[simp] theorem advance_windows (s : State) : (advance s).windows = s.windows := rfl
@[simp] theorem advance_upsw (s : State) : (advance s).upsw = s.upsw := rfl
@[simp] theorem advance_cwp (s : State) : (advance s).cwp = s.cwp := rfl
@[simp] theorem advance_swp (s : State) : (advance s).swp = s.swp := rfl
@[simp] theorem advance_kpsw (s : State) : (advance s).kpsw = applyRet s.kpsw s.pipe.retPend := rfl
@[simp] theorem advance_insert (s : State) : (advance s).insert = s.insert := rfl
@[simp] theorem advance_fpuPc (s : State) : (advance s).fpuPc = s.fpuPc := rfl
@[simp] theorem advance_pc (s : State) : (advance s).pc = s.nextPC := rfl
@[simp] theorem advance_nextPC (s : State) : (advance s).nextPC = s.nextPC + 4#32 := rfl
@[simp] theorem advance_trapPC (s : State) : (advance s).trapPC = s.trapPC := rfl
@[simp] theorem advance_trapNextPC (s : State) : (advance s).trapNextPC = s.trapNextPC := rfl
@[simp] theorem advance_pipe (s : State) : (advance s).pipe = Pipe.idle := rfl
@[simp] theorem advance_ib (s : State) : (advance s).ib = s.ib := rfl
@[simp] theorem advance_prefetch (s : State) : (advance s).prefetch = s.prefetch := rfl
@[simp] theorem advance_past (s : State) : (advance s).past = s.past := rfl
@[simp] theorem advance_fregs (s : State) : (advance s).fregs = s.fregs := rfl
@[simp] theorem advance_fpsw (s : State) : (advance s).fpsw = s.fpsw := rfl
@[simp] theorem advance_fpuRun (s : State) : (advance s).fpuRun = s.fpuRun := rfl
@[simp] theorem advance_fpuExcep (s : State) : (advance s).fpuExcep = s.fpuExcep := rfl
@[simp] theorem advance_fpuExcKind (s : State) : (advance s).fpuExcKind = s.fpuExcKind := rfl
@[simp] theorem advance_fpuBrTF (s : State) : (advance s).fpuBrTF = s.fpuBrTF := rfl
@[simp] theorem advance_gsn (s : State) : (advance s).gsn = s.gsn := rfl
@[simp] theorem advance_rptm (s : State) : (advance s).rptm = s.rptm := rfl
@[simp] theorem advance_pteva (s : State) : (advance s).pteva = s.pteva := rfl
@[simp] theorem advance_rpteva (s : State) : (advance s).rpteva = s.rpteva := rfl
@[simp] theorem advance_gva (s : State) : (advance s).gva = s.gva := rfl
@[simp] theorem advance_intreg (s : State) : (advance s).intreg = s.intreg := rfl
@[simp] theorem advance_intmask (s : State) : (advance s).intmask = s.intmask := rfl
@[simp] theorem advance_counter0 (s : State) : (advance s).counter0 = s.counter0 := rfl
@[simp] theorem advance_counter1 (s : State) : (advance s).counter1 = s.counter1 := rfl
@[simp] theorem advance_cache (s : State) : (advance s).cache = s.cache := rfl
@[simp] theorem advance_remote (s : State) : (advance s).remote = s.remote := rfl
@[simp] theorem advance_mem (s : State) : (advance s).mem = s.mem := rfl
@[simp] theorem advance_faultInfo (s : State) : (advance s).faultInfo = s.faultInfo := rfl
@[simp] theorem advance_board (s : State) : (advance s).board = s.board := rfl
@[simp] theorem advance_free (s : State) : (advance s).free = s.free + freeStride := rfl

/-! #### `advanceTo` -/

@[simp] theorem advanceTo_globals (a : Word) (s : State) : (advanceTo a s).globals = s.globals := rfl
@[simp] theorem advanceTo_windows (a : Word) (s : State) : (advanceTo a s).windows = s.windows := rfl
@[simp] theorem advanceTo_upsw (a : Word) (s : State) : (advanceTo a s).upsw = s.upsw := rfl
@[simp] theorem advanceTo_cwp (a : Word) (s : State) : (advanceTo a s).cwp = s.cwp := rfl
@[simp] theorem advanceTo_swp (a : Word) (s : State) : (advanceTo a s).swp = s.swp := rfl
@[simp] theorem advanceTo_kpsw (a : Word) (s : State) : (advanceTo a s).kpsw = applyRet s.kpsw s.pipe.retPend := rfl
@[simp] theorem advanceTo_insert (a : Word) (s : State) : (advanceTo a s).insert = s.insert := rfl
@[simp] theorem advanceTo_fpuPc (a : Word) (s : State) : (advanceTo a s).fpuPc = s.fpuPc := rfl
@[simp] theorem advanceTo_pc (a : Word) (s : State) : (advanceTo a s).pc = s.nextPC := rfl
@[simp] theorem advanceTo_nextPC (a : Word) (s : State) : (advanceTo a s).nextPC = a := rfl
@[simp] theorem advanceTo_trapPC (a : Word) (s : State) : (advanceTo a s).trapPC = s.trapPC := rfl
@[simp] theorem advanceTo_trapNextPC (a : Word) (s : State) : (advanceTo a s).trapNextPC = s.trapNextPC := rfl
@[simp] theorem advanceTo_pipe (a : Word) (s : State) : (advanceTo a s).pipe = Pipe.idle := rfl
@[simp] theorem advanceTo_ib (a : Word) (s : State) : (advanceTo a s).ib = s.ib := rfl
@[simp] theorem advanceTo_prefetch (a : Word) (s : State) : (advanceTo a s).prefetch = s.prefetch := rfl
@[simp] theorem advanceTo_past (a : Word) (s : State) : (advanceTo a s).past = s.past := rfl
@[simp] theorem advanceTo_fregs (a : Word) (s : State) : (advanceTo a s).fregs = s.fregs := rfl
@[simp] theorem advanceTo_fpsw (a : Word) (s : State) : (advanceTo a s).fpsw = s.fpsw := rfl
@[simp] theorem advanceTo_fpuRun (a : Word) (s : State) : (advanceTo a s).fpuRun = s.fpuRun := rfl
@[simp] theorem advanceTo_fpuExcep (a : Word) (s : State) : (advanceTo a s).fpuExcep = s.fpuExcep := rfl
@[simp] theorem advanceTo_fpuExcKind (a : Word) (s : State) : (advanceTo a s).fpuExcKind = s.fpuExcKind := rfl
@[simp] theorem advanceTo_fpuBrTF (a : Word) (s : State) : (advanceTo a s).fpuBrTF = s.fpuBrTF := rfl
@[simp] theorem advanceTo_gsn (a : Word) (s : State) : (advanceTo a s).gsn = s.gsn := rfl
@[simp] theorem advanceTo_rptm (a : Word) (s : State) : (advanceTo a s).rptm = s.rptm := rfl
@[simp] theorem advanceTo_pteva (a : Word) (s : State) : (advanceTo a s).pteva = s.pteva := rfl
@[simp] theorem advanceTo_rpteva (a : Word) (s : State) : (advanceTo a s).rpteva = s.rpteva := rfl
@[simp] theorem advanceTo_gva (a : Word) (s : State) : (advanceTo a s).gva = s.gva := rfl
@[simp] theorem advanceTo_intreg (a : Word) (s : State) : (advanceTo a s).intreg = s.intreg := rfl
@[simp] theorem advanceTo_intmask (a : Word) (s : State) : (advanceTo a s).intmask = s.intmask := rfl
@[simp] theorem advanceTo_counter0 (a : Word) (s : State) : (advanceTo a s).counter0 = s.counter0 := rfl
@[simp] theorem advanceTo_counter1 (a : Word) (s : State) : (advanceTo a s).counter1 = s.counter1 := rfl
@[simp] theorem advanceTo_cache (a : Word) (s : State) : (advanceTo a s).cache = s.cache := rfl
@[simp] theorem advanceTo_remote (a : Word) (s : State) : (advanceTo a s).remote = s.remote := rfl
@[simp] theorem advanceTo_mem (a : Word) (s : State) : (advanceTo a s).mem = s.mem := rfl
@[simp] theorem advanceTo_faultInfo (a : Word) (s : State) : (advanceTo a s).faultInfo = s.faultInfo := rfl
@[simp] theorem advanceTo_board (a : Word) (s : State) : (advanceTo a s).board = s.board := rfl
@[simp] theorem advanceTo_free (a : Word) (s : State) : (advanceTo a s).free = s.free + freeStride := rfl

/-! #### `advanceLoad` -/

@[simp] theorem advanceLoad_globals (x : Option LoadTarget) (s : State) : (advanceLoad x s).globals = s.globals := rfl
@[simp] theorem advanceLoad_windows (x : Option LoadTarget) (s : State) : (advanceLoad x s).windows = s.windows := rfl
@[simp] theorem advanceLoad_upsw (x : Option LoadTarget) (s : State) : (advanceLoad x s).upsw = s.upsw := rfl
@[simp] theorem advanceLoad_cwp (x : Option LoadTarget) (s : State) : (advanceLoad x s).cwp = s.cwp := rfl
@[simp] theorem advanceLoad_swp (x : Option LoadTarget) (s : State) : (advanceLoad x s).swp = s.swp := rfl
@[simp] theorem advanceLoad_kpsw (x : Option LoadTarget) (s : State) : (advanceLoad x s).kpsw = applyRet s.kpsw s.pipe.retPend := rfl
@[simp] theorem advanceLoad_insert (x : Option LoadTarget) (s : State) : (advanceLoad x s).insert = s.insert := rfl
@[simp] theorem advanceLoad_fpuPc (x : Option LoadTarget) (s : State) : (advanceLoad x s).fpuPc = s.fpuPc := rfl
@[simp] theorem advanceLoad_pc (x : Option LoadTarget) (s : State) : (advanceLoad x s).pc = s.nextPC := rfl
@[simp] theorem advanceLoad_nextPC (x : Option LoadTarget) (s : State) : (advanceLoad x s).nextPC = s.nextPC + 4#32 := rfl
@[simp] theorem advanceLoad_trapPC (x : Option LoadTarget) (s : State) : (advanceLoad x s).trapPC = s.trapPC := rfl
@[simp] theorem advanceLoad_trapNextPC (x : Option LoadTarget) (s : State) : (advanceLoad x s).trapNextPC = s.trapNextPC := rfl
@[simp] theorem advanceLoad_pipe (x : Option LoadTarget) (s : State) : (advanceLoad x s).pipe = { Pipe.idle with loadShadow := x } := rfl
@[simp] theorem advanceLoad_ib (x : Option LoadTarget) (s : State) : (advanceLoad x s).ib = s.ib := rfl
@[simp] theorem advanceLoad_prefetch (x : Option LoadTarget) (s : State) : (advanceLoad x s).prefetch = s.prefetch := rfl
@[simp] theorem advanceLoad_past (x : Option LoadTarget) (s : State) : (advanceLoad x s).past = s.past := rfl
@[simp] theorem advanceLoad_fregs (x : Option LoadTarget) (s : State) : (advanceLoad x s).fregs = s.fregs := rfl
@[simp] theorem advanceLoad_fpsw (x : Option LoadTarget) (s : State) : (advanceLoad x s).fpsw = s.fpsw := rfl
@[simp] theorem advanceLoad_fpuRun (x : Option LoadTarget) (s : State) : (advanceLoad x s).fpuRun = s.fpuRun := rfl
@[simp] theorem advanceLoad_fpuExcep (x : Option LoadTarget) (s : State) : (advanceLoad x s).fpuExcep = s.fpuExcep := rfl
@[simp] theorem advanceLoad_fpuExcKind (x : Option LoadTarget) (s : State) : (advanceLoad x s).fpuExcKind = s.fpuExcKind := rfl
@[simp] theorem advanceLoad_fpuBrTF (x : Option LoadTarget) (s : State) : (advanceLoad x s).fpuBrTF = s.fpuBrTF := rfl
@[simp] theorem advanceLoad_gsn (x : Option LoadTarget) (s : State) : (advanceLoad x s).gsn = s.gsn := rfl
@[simp] theorem advanceLoad_rptm (x : Option LoadTarget) (s : State) : (advanceLoad x s).rptm = s.rptm := rfl
@[simp] theorem advanceLoad_pteva (x : Option LoadTarget) (s : State) : (advanceLoad x s).pteva = s.pteva := rfl
@[simp] theorem advanceLoad_rpteva (x : Option LoadTarget) (s : State) : (advanceLoad x s).rpteva = s.rpteva := rfl
@[simp] theorem advanceLoad_gva (x : Option LoadTarget) (s : State) : (advanceLoad x s).gva = s.gva := rfl
@[simp] theorem advanceLoad_intreg (x : Option LoadTarget) (s : State) : (advanceLoad x s).intreg = s.intreg := rfl
@[simp] theorem advanceLoad_intmask (x : Option LoadTarget) (s : State) : (advanceLoad x s).intmask = s.intmask := rfl
@[simp] theorem advanceLoad_counter0 (x : Option LoadTarget) (s : State) : (advanceLoad x s).counter0 = s.counter0 := rfl
@[simp] theorem advanceLoad_counter1 (x : Option LoadTarget) (s : State) : (advanceLoad x s).counter1 = s.counter1 := rfl
@[simp] theorem advanceLoad_cache (x : Option LoadTarget) (s : State) : (advanceLoad x s).cache = s.cache := rfl
@[simp] theorem advanceLoad_remote (x : Option LoadTarget) (s : State) : (advanceLoad x s).remote = s.remote := rfl
@[simp] theorem advanceLoad_mem (x : Option LoadTarget) (s : State) : (advanceLoad x s).mem = s.mem := rfl
@[simp] theorem advanceLoad_faultInfo (x : Option LoadTarget) (s : State) : (advanceLoad x s).faultInfo = s.faultInfo := rfl
@[simp] theorem advanceLoad_board (x : Option LoadTarget) (s : State) : (advanceLoad x s).board = s.board := rfl
@[simp] theorem advanceLoad_free (x : Option LoadTarget) (s : State) : (advanceLoad x s).free = s.free + freeStride := rfl

/-! #### `regSet` -/

@[simp] theorem regSet_upsw (s : State) (r : PhysReg) (v : Tagged) : (regSet s r v).upsw = s.upsw := by unfold regSet; split <;> (try split) <;> rfl
@[simp] theorem regSet_cwp (s : State) (r : PhysReg) (v : Tagged) : (regSet s r v).cwp = s.cwp := by unfold regSet; split <;> (try split) <;> rfl
@[simp] theorem regSet_swp (s : State) (r : PhysReg) (v : Tagged) : (regSet s r v).swp = s.swp := by unfold regSet; split <;> (try split) <;> rfl
@[simp] theorem regSet_kpsw (s : State) (r : PhysReg) (v : Tagged) : (regSet s r v).kpsw = s.kpsw := by unfold regSet; split <;> (try split) <;> rfl
@[simp] theorem regSet_insert (s : State) (r : PhysReg) (v : Tagged) : (regSet s r v).insert = s.insert := by unfold regSet; split <;> (try split) <;> rfl
@[simp] theorem regSet_fpuPc (s : State) (r : PhysReg) (v : Tagged) : (regSet s r v).fpuPc = s.fpuPc := by unfold regSet; split <;> (try split) <;> rfl
@[simp] theorem regSet_pc (s : State) (r : PhysReg) (v : Tagged) : (regSet s r v).pc = s.pc := by unfold regSet; split <;> (try split) <;> rfl
@[simp] theorem regSet_nextPC (s : State) (r : PhysReg) (v : Tagged) : (regSet s r v).nextPC = s.nextPC := by unfold regSet; split <;> (try split) <;> rfl
@[simp] theorem regSet_trapPC (s : State) (r : PhysReg) (v : Tagged) : (regSet s r v).trapPC = s.trapPC := by unfold regSet; split <;> (try split) <;> rfl
@[simp] theorem regSet_trapNextPC (s : State) (r : PhysReg) (v : Tagged) : (regSet s r v).trapNextPC = s.trapNextPC := by unfold regSet; split <;> (try split) <;> rfl
@[simp] theorem regSet_pipe (s : State) (r : PhysReg) (v : Tagged) : (regSet s r v).pipe = s.pipe := by unfold regSet; split <;> (try split) <;> rfl
@[simp] theorem regSet_ib (s : State) (r : PhysReg) (v : Tagged) : (regSet s r v).ib = s.ib := by unfold regSet; split <;> (try split) <;> rfl
@[simp] theorem regSet_prefetch (s : State) (r : PhysReg) (v : Tagged) : (regSet s r v).prefetch = s.prefetch := by unfold regSet; split <;> (try split) <;> rfl
@[simp] theorem regSet_past (s : State) (r : PhysReg) (v : Tagged) : (regSet s r v).past = s.past := by unfold regSet; split <;> (try split) <;> rfl
@[simp] theorem regSet_fregs (s : State) (r : PhysReg) (v : Tagged) : (regSet s r v).fregs = s.fregs := by unfold regSet; split <;> (try split) <;> rfl
@[simp] theorem regSet_fpsw (s : State) (r : PhysReg) (v : Tagged) : (regSet s r v).fpsw = s.fpsw := by unfold regSet; split <;> (try split) <;> rfl
@[simp] theorem regSet_fpuRun (s : State) (r : PhysReg) (v : Tagged) : (regSet s r v).fpuRun = s.fpuRun := by unfold regSet; split <;> (try split) <;> rfl
@[simp] theorem regSet_fpuExcep (s : State) (r : PhysReg) (v : Tagged) : (regSet s r v).fpuExcep = s.fpuExcep := by unfold regSet; split <;> (try split) <;> rfl
@[simp] theorem regSet_fpuExcKind (s : State) (r : PhysReg) (v : Tagged) : (regSet s r v).fpuExcKind = s.fpuExcKind := by unfold regSet; split <;> (try split) <;> rfl
@[simp] theorem regSet_fpuBrTF (s : State) (r : PhysReg) (v : Tagged) : (regSet s r v).fpuBrTF = s.fpuBrTF := by unfold regSet; split <;> (try split) <;> rfl
@[simp] theorem regSet_gsn (s : State) (r : PhysReg) (v : Tagged) : (regSet s r v).gsn = s.gsn := by unfold regSet; split <;> (try split) <;> rfl
@[simp] theorem regSet_rptm (s : State) (r : PhysReg) (v : Tagged) : (regSet s r v).rptm = s.rptm := by unfold regSet; split <;> (try split) <;> rfl
@[simp] theorem regSet_pteva (s : State) (r : PhysReg) (v : Tagged) : (regSet s r v).pteva = s.pteva := by unfold regSet; split <;> (try split) <;> rfl
@[simp] theorem regSet_rpteva (s : State) (r : PhysReg) (v : Tagged) : (regSet s r v).rpteva = s.rpteva := by unfold regSet; split <;> (try split) <;> rfl
@[simp] theorem regSet_gva (s : State) (r : PhysReg) (v : Tagged) : (regSet s r v).gva = s.gva := by unfold regSet; split <;> (try split) <;> rfl
@[simp] theorem regSet_intreg (s : State) (r : PhysReg) (v : Tagged) : (regSet s r v).intreg = s.intreg := by unfold regSet; split <;> (try split) <;> rfl
@[simp] theorem regSet_intmask (s : State) (r : PhysReg) (v : Tagged) : (regSet s r v).intmask = s.intmask := by unfold regSet; split <;> (try split) <;> rfl
@[simp] theorem regSet_counter0 (s : State) (r : PhysReg) (v : Tagged) : (regSet s r v).counter0 = s.counter0 := by unfold regSet; split <;> (try split) <;> rfl
@[simp] theorem regSet_counter1 (s : State) (r : PhysReg) (v : Tagged) : (regSet s r v).counter1 = s.counter1 := by unfold regSet; split <;> (try split) <;> rfl
@[simp] theorem regSet_cache (s : State) (r : PhysReg) (v : Tagged) : (regSet s r v).cache = s.cache := by unfold regSet; split <;> (try split) <;> rfl
@[simp] theorem regSet_remote (s : State) (r : PhysReg) (v : Tagged) : (regSet s r v).remote = s.remote := by unfold regSet; split <;> (try split) <;> rfl
@[simp] theorem regSet_mem (s : State) (r : PhysReg) (v : Tagged) : (regSet s r v).mem = s.mem := by unfold regSet; split <;> (try split) <;> rfl
@[simp] theorem regSet_faultInfo (s : State) (r : PhysReg) (v : Tagged) : (regSet s r v).faultInfo = s.faultInfo := by unfold regSet; split <;> (try split) <;> rfl
@[simp] theorem regSet_board (s : State) (r : PhysReg) (v : Tagged) : (regSet s r v).board = s.board := by unfold regSet; split <;> (try split) <;> rfl
@[simp] theorem regSet_free (s : State) (r : PhysReg) (v : Tagged) : (regSet s r v).free = s.free := by unfold regSet; split <;> (try split) <;> rfl

/-! #### `writeReg` -/

@[simp] theorem writeReg_upsw (s : State) (i : RegField) (v : Tagged) : (writeReg s i v).upsw = s.upsw := by unfold writeReg; split <;> simp
@[simp] theorem writeReg_cwp (s : State) (i : RegField) (v : Tagged) : (writeReg s i v).cwp = s.cwp := by unfold writeReg; split <;> simp
@[simp] theorem writeReg_swp (s : State) (i : RegField) (v : Tagged) : (writeReg s i v).swp = s.swp := by unfold writeReg; split <;> simp
@[simp] theorem writeReg_kpsw (s : State) (i : RegField) (v : Tagged) : (writeReg s i v).kpsw = s.kpsw := by unfold writeReg; split <;> simp
@[simp] theorem writeReg_insert (s : State) (i : RegField) (v : Tagged) : (writeReg s i v).insert = s.insert := by unfold writeReg; split <;> simp
@[simp] theorem writeReg_fpuPc (s : State) (i : RegField) (v : Tagged) : (writeReg s i v).fpuPc = s.fpuPc := by unfold writeReg; split <;> simp
@[simp] theorem writeReg_pc (s : State) (i : RegField) (v : Tagged) : (writeReg s i v).pc = s.pc := by unfold writeReg; split <;> simp
@[simp] theorem writeReg_nextPC (s : State) (i : RegField) (v : Tagged) : (writeReg s i v).nextPC = s.nextPC := by unfold writeReg; split <;> simp
@[simp] theorem writeReg_trapPC (s : State) (i : RegField) (v : Tagged) : (writeReg s i v).trapPC = s.trapPC := by unfold writeReg; split <;> simp
@[simp] theorem writeReg_trapNextPC (s : State) (i : RegField) (v : Tagged) : (writeReg s i v).trapNextPC = s.trapNextPC := by unfold writeReg; split <;> simp
@[simp] theorem writeReg_pipe (s : State) (i : RegField) (v : Tagged) : (writeReg s i v).pipe = s.pipe := by unfold writeReg; split <;> simp
@[simp] theorem writeReg_ib (s : State) (i : RegField) (v : Tagged) : (writeReg s i v).ib = s.ib := by unfold writeReg; split <;> simp
@[simp] theorem writeReg_prefetch (s : State) (i : RegField) (v : Tagged) : (writeReg s i v).prefetch = s.prefetch := by unfold writeReg; split <;> simp
@[simp] theorem writeReg_past (s : State) (i : RegField) (v : Tagged) : (writeReg s i v).past = s.past := by unfold writeReg; split <;> simp
@[simp] theorem writeReg_fregs (s : State) (i : RegField) (v : Tagged) : (writeReg s i v).fregs = s.fregs := by unfold writeReg; split <;> simp
@[simp] theorem writeReg_fpsw (s : State) (i : RegField) (v : Tagged) : (writeReg s i v).fpsw = s.fpsw := by unfold writeReg; split <;> simp
@[simp] theorem writeReg_fpuRun (s : State) (i : RegField) (v : Tagged) : (writeReg s i v).fpuRun = s.fpuRun := by unfold writeReg; split <;> simp
@[simp] theorem writeReg_fpuExcep (s : State) (i : RegField) (v : Tagged) : (writeReg s i v).fpuExcep = s.fpuExcep := by unfold writeReg; split <;> simp
@[simp] theorem writeReg_fpuExcKind (s : State) (i : RegField) (v : Tagged) : (writeReg s i v).fpuExcKind = s.fpuExcKind := by unfold writeReg; split <;> simp
@[simp] theorem writeReg_fpuBrTF (s : State) (i : RegField) (v : Tagged) : (writeReg s i v).fpuBrTF = s.fpuBrTF := by unfold writeReg; split <;> simp
@[simp] theorem writeReg_gsn (s : State) (i : RegField) (v : Tagged) : (writeReg s i v).gsn = s.gsn := by unfold writeReg; split <;> simp
@[simp] theorem writeReg_rptm (s : State) (i : RegField) (v : Tagged) : (writeReg s i v).rptm = s.rptm := by unfold writeReg; split <;> simp
@[simp] theorem writeReg_pteva (s : State) (i : RegField) (v : Tagged) : (writeReg s i v).pteva = s.pteva := by unfold writeReg; split <;> simp
@[simp] theorem writeReg_rpteva (s : State) (i : RegField) (v : Tagged) : (writeReg s i v).rpteva = s.rpteva := by unfold writeReg; split <;> simp
@[simp] theorem writeReg_gva (s : State) (i : RegField) (v : Tagged) : (writeReg s i v).gva = s.gva := by unfold writeReg; split <;> simp
@[simp] theorem writeReg_intreg (s : State) (i : RegField) (v : Tagged) : (writeReg s i v).intreg = s.intreg := by unfold writeReg; split <;> simp
@[simp] theorem writeReg_intmask (s : State) (i : RegField) (v : Tagged) : (writeReg s i v).intmask = s.intmask := by unfold writeReg; split <;> simp
@[simp] theorem writeReg_counter0 (s : State) (i : RegField) (v : Tagged) : (writeReg s i v).counter0 = s.counter0 := by unfold writeReg; split <;> simp
@[simp] theorem writeReg_counter1 (s : State) (i : RegField) (v : Tagged) : (writeReg s i v).counter1 = s.counter1 := by unfold writeReg; split <;> simp
@[simp] theorem writeReg_cache (s : State) (i : RegField) (v : Tagged) : (writeReg s i v).cache = s.cache := by unfold writeReg; split <;> simp
@[simp] theorem writeReg_remote (s : State) (i : RegField) (v : Tagged) : (writeReg s i v).remote = s.remote := by unfold writeReg; split <;> simp
@[simp] theorem writeReg_mem (s : State) (i : RegField) (v : Tagged) : (writeReg s i v).mem = s.mem := by unfold writeReg; split <;> simp
@[simp] theorem writeReg_faultInfo (s : State) (i : RegField) (v : Tagged) : (writeReg s i v).faultInfo = s.faultInfo := by unfold writeReg; split <;> simp
@[simp] theorem writeReg_board (s : State) (i : RegField) (v : Tagged) : (writeReg s i v).board = s.board := by unfold writeReg; split <;> simp
@[simp] theorem writeReg_free (s : State) (i : RegField) (v : Tagged) : (writeReg s i v).free = s.free := by unfold writeReg; split <;> simp

/-! #### `takeTrap` -/

@[simp] theorem takeTrap_upsw (x : TrapType) (s : State) : (takeTrap x s).upsw = s.upsw := by simp [takeTrap]
@[simp] theorem takeTrap_cwp (x : TrapType) (s : State) : (takeTrap x s).cwp = s.cwp + 1#3 := by simp [takeTrap]
@[simp] theorem takeTrap_swp (x : TrapType) (s : State) : (takeTrap x s).swp = s.swp := by simp [takeTrap]
@[simp] theorem takeTrap_kpsw (x : TrapType) (s : State) : (takeTrap x s).kpsw = entryKpsw x s.kpsw := by simp [takeTrap]
@[simp] theorem takeTrap_insert (x : TrapType) (s : State) : (takeTrap x s).insert = s.insert := by simp [takeTrap]
@[simp] theorem takeTrap_fpuPc (x : TrapType) (s : State) : (takeTrap x s).fpuPc = s.fpuPc := by simp [takeTrap]
@[simp] theorem takeTrap_pc (x : TrapType) (s : State) : (takeTrap x s).pc = trapVector x := by simp [takeTrap]
@[simp] theorem takeTrap_nextPC (x : TrapType) (s : State) : (takeTrap x s).nextPC = trapVector x + 4#32 := by simp [takeTrap]
@[simp] theorem takeTrap_trapPC (x : TrapType) (s : State) : (takeTrap x s).trapPC = s.pc := by simp [takeTrap]
@[simp] theorem takeTrap_trapNextPC (x : TrapType) (s : State) : (takeTrap x s).trapNextPC = s.nextPC := by simp [takeTrap]
@[simp] theorem takeTrap_pipe (x : TrapType) (s : State) : (takeTrap x s).pipe = { Pipe.idle with windowShadow := true, atVector := true } := by simp [takeTrap]
@[simp] theorem takeTrap_ib (x : TrapType) (s : State) : (takeTrap x s).ib = s.ib := by simp [takeTrap]
@[simp] theorem takeTrap_prefetch (x : TrapType) (s : State) : (takeTrap x s).prefetch = none := by simp [takeTrap]
@[simp] theorem takeTrap_past (x : TrapType) (s : State) : (takeTrap x s).past = s.past := by simp [takeTrap]
@[simp] theorem takeTrap_fregs (x : TrapType) (s : State) : (takeTrap x s).fregs = s.fregs := by simp [takeTrap]
@[simp] theorem takeTrap_fpsw (x : TrapType) (s : State) : (takeTrap x s).fpsw = s.fpsw := by simp [takeTrap]
@[simp] theorem takeTrap_fpuRun (x : TrapType) (s : State) : (takeTrap x s).fpuRun = s.fpuRun := by simp [takeTrap]
@[simp] theorem takeTrap_fpuExcep (x : TrapType) (s : State) : (takeTrap x s).fpuExcep = s.fpuExcep := by simp [takeTrap]
@[simp] theorem takeTrap_fpuExcKind (x : TrapType) (s : State) : (takeTrap x s).fpuExcKind = s.fpuExcKind := by simp [takeTrap]
@[simp] theorem takeTrap_fpuBrTF (x : TrapType) (s : State) : (takeTrap x s).fpuBrTF = s.fpuBrTF := by simp [takeTrap]
@[simp] theorem takeTrap_gsn (x : TrapType) (s : State) : (takeTrap x s).gsn = s.gsn := by simp [takeTrap]
@[simp] theorem takeTrap_rptm (x : TrapType) (s : State) : (takeTrap x s).rptm = s.rptm := by simp [takeTrap]
@[simp] theorem takeTrap_pteva (x : TrapType) (s : State) : (takeTrap x s).pteva = s.pteva := by simp [takeTrap]
@[simp] theorem takeTrap_rpteva (x : TrapType) (s : State) : (takeTrap x s).rpteva = s.rpteva := by simp [takeTrap]
@[simp] theorem takeTrap_gva (x : TrapType) (s : State) : (takeTrap x s).gva = s.gva := by simp [takeTrap]
@[simp] theorem takeTrap_intreg (x : TrapType) (s : State) : (takeTrap x s).intreg = s.intreg := by simp [takeTrap]
@[simp] theorem takeTrap_intmask (x : TrapType) (s : State) : (takeTrap x s).intmask = s.intmask := by simp [takeTrap]
@[simp] theorem takeTrap_counter0 (x : TrapType) (s : State) : (takeTrap x s).counter0 = s.counter0 := by simp [takeTrap]
@[simp] theorem takeTrap_counter1 (x : TrapType) (s : State) : (takeTrap x s).counter1 = s.counter1 := by simp [takeTrap]
@[simp] theorem takeTrap_cache (x : TrapType) (s : State) : (takeTrap x s).cache = s.cache := by simp [takeTrap]
@[simp] theorem takeTrap_remote (x : TrapType) (s : State) : (takeTrap x s).remote = s.remote := by simp [takeTrap]
@[simp] theorem takeTrap_mem (x : TrapType) (s : State) : (takeTrap x s).mem = s.mem := by simp [takeTrap]
@[simp] theorem takeTrap_faultInfo (x : TrapType) (s : State) : (takeTrap x s).faultInfo = s.faultInfo := by simp [takeTrap]
@[simp] theorem takeTrap_board (x : TrapType) (s : State) : (takeTrap x s).board = s.board := by simp [takeTrap]
@[simp] theorem takeTrap_free (x : TrapType) (s : State) : (takeTrap x s).free = s.free + freeStride := by simp [takeTrap]

/-! #### `writeFpu` -/

@[simp] theorem writeFpu_globals (s : State) (n : RegField) (v : FpReg) : (writeFpu s n v).globals = s.globals := by unfold writeFpu; split <;> rfl
@[simp] theorem writeFpu_windows (s : State) (n : RegField) (v : FpReg) : (writeFpu s n v).windows = s.windows := by unfold writeFpu; split <;> rfl
@[simp] theorem writeFpu_upsw (s : State) (n : RegField) (v : FpReg) : (writeFpu s n v).upsw = s.upsw := by unfold writeFpu; split <;> rfl
@[simp] theorem writeFpu_cwp (s : State) (n : RegField) (v : FpReg) : (writeFpu s n v).cwp = s.cwp := by unfold writeFpu; split <;> rfl
@[simp] theorem writeFpu_swp (s : State) (n : RegField) (v : FpReg) : (writeFpu s n v).swp = s.swp := by unfold writeFpu; split <;> rfl
@[simp] theorem writeFpu_kpsw (s : State) (n : RegField) (v : FpReg) : (writeFpu s n v).kpsw = s.kpsw := by unfold writeFpu; split <;> rfl
@[simp] theorem writeFpu_insert (s : State) (n : RegField) (v : FpReg) : (writeFpu s n v).insert = s.insert := by unfold writeFpu; split <;> rfl
@[simp] theorem writeFpu_fpuPc (s : State) (n : RegField) (v : FpReg) : (writeFpu s n v).fpuPc = s.fpuPc := by unfold writeFpu; split <;> rfl
@[simp] theorem writeFpu_pc (s : State) (n : RegField) (v : FpReg) : (writeFpu s n v).pc = s.pc := by unfold writeFpu; split <;> rfl
@[simp] theorem writeFpu_nextPC (s : State) (n : RegField) (v : FpReg) : (writeFpu s n v).nextPC = s.nextPC := by unfold writeFpu; split <;> rfl
@[simp] theorem writeFpu_trapPC (s : State) (n : RegField) (v : FpReg) : (writeFpu s n v).trapPC = s.trapPC := by unfold writeFpu; split <;> rfl
@[simp] theorem writeFpu_trapNextPC (s : State) (n : RegField) (v : FpReg) : (writeFpu s n v).trapNextPC = s.trapNextPC := by unfold writeFpu; split <;> rfl
@[simp] theorem writeFpu_pipe (s : State) (n : RegField) (v : FpReg) : (writeFpu s n v).pipe = s.pipe := by unfold writeFpu; split <;> rfl
@[simp] theorem writeFpu_ib (s : State) (n : RegField) (v : FpReg) : (writeFpu s n v).ib = s.ib := by unfold writeFpu; split <;> rfl
@[simp] theorem writeFpu_prefetch (s : State) (n : RegField) (v : FpReg) : (writeFpu s n v).prefetch = s.prefetch := by unfold writeFpu; split <;> rfl
@[simp] theorem writeFpu_past (s : State) (n : RegField) (v : FpReg) : (writeFpu s n v).past = s.past := by unfold writeFpu; split <;> rfl
@[simp] theorem writeFpu_fpsw (s : State) (n : RegField) (v : FpReg) : (writeFpu s n v).fpsw = s.fpsw := by unfold writeFpu; split <;> rfl
@[simp] theorem writeFpu_fpuRun (s : State) (n : RegField) (v : FpReg) : (writeFpu s n v).fpuRun = s.fpuRun := by unfold writeFpu; split <;> rfl
@[simp] theorem writeFpu_fpuExcep (s : State) (n : RegField) (v : FpReg) : (writeFpu s n v).fpuExcep = s.fpuExcep := by unfold writeFpu; split <;> rfl
@[simp] theorem writeFpu_fpuExcKind (s : State) (n : RegField) (v : FpReg) : (writeFpu s n v).fpuExcKind = s.fpuExcKind := by unfold writeFpu; split <;> rfl
@[simp] theorem writeFpu_fpuBrTF (s : State) (n : RegField) (v : FpReg) : (writeFpu s n v).fpuBrTF = s.fpuBrTF := by unfold writeFpu; split <;> rfl
@[simp] theorem writeFpu_gsn (s : State) (n : RegField) (v : FpReg) : (writeFpu s n v).gsn = s.gsn := by unfold writeFpu; split <;> rfl
@[simp] theorem writeFpu_rptm (s : State) (n : RegField) (v : FpReg) : (writeFpu s n v).rptm = s.rptm := by unfold writeFpu; split <;> rfl
@[simp] theorem writeFpu_pteva (s : State) (n : RegField) (v : FpReg) : (writeFpu s n v).pteva = s.pteva := by unfold writeFpu; split <;> rfl
@[simp] theorem writeFpu_rpteva (s : State) (n : RegField) (v : FpReg) : (writeFpu s n v).rpteva = s.rpteva := by unfold writeFpu; split <;> rfl
@[simp] theorem writeFpu_gva (s : State) (n : RegField) (v : FpReg) : (writeFpu s n v).gva = s.gva := by unfold writeFpu; split <;> rfl
@[simp] theorem writeFpu_intreg (s : State) (n : RegField) (v : FpReg) : (writeFpu s n v).intreg = s.intreg := by unfold writeFpu; split <;> rfl
@[simp] theorem writeFpu_intmask (s : State) (n : RegField) (v : FpReg) : (writeFpu s n v).intmask = s.intmask := by unfold writeFpu; split <;> rfl
@[simp] theorem writeFpu_counter0 (s : State) (n : RegField) (v : FpReg) : (writeFpu s n v).counter0 = s.counter0 := by unfold writeFpu; split <;> rfl
@[simp] theorem writeFpu_counter1 (s : State) (n : RegField) (v : FpReg) : (writeFpu s n v).counter1 = s.counter1 := by unfold writeFpu; split <;> rfl
@[simp] theorem writeFpu_cache (s : State) (n : RegField) (v : FpReg) : (writeFpu s n v).cache = s.cache := by unfold writeFpu; split <;> rfl
@[simp] theorem writeFpu_remote (s : State) (n : RegField) (v : FpReg) : (writeFpu s n v).remote = s.remote := by unfold writeFpu; split <;> rfl
@[simp] theorem writeFpu_mem (s : State) (n : RegField) (v : FpReg) : (writeFpu s n v).mem = s.mem := by unfold writeFpu; split <;> rfl
@[simp] theorem writeFpu_faultInfo (s : State) (n : RegField) (v : FpReg) : (writeFpu s n v).faultInfo = s.faultInfo := by unfold writeFpu; split <;> rfl
@[simp] theorem writeFpu_board (s : State) (n : RegField) (v : FpReg) : (writeFpu s n v).board = s.board := by unfold writeFpu; split <;> rfl
@[simp] theorem writeFpu_free (s : State) (n : RegField) (v : FpReg) : (writeFpu s n v).free = s.free := by unfold writeFpu; split <;> rfl

/-! #### `fpuWait` -/

@[simp] theorem fpuWait_globals (s : State) : (fpuWait s).globals = s.globals := rfl
@[simp] theorem fpuWait_windows (s : State) : (fpuWait s).windows = s.windows := rfl
@[simp] theorem fpuWait_upsw (s : State) : (fpuWait s).upsw = s.upsw := rfl
@[simp] theorem fpuWait_cwp (s : State) : (fpuWait s).cwp = s.cwp := rfl
@[simp] theorem fpuWait_swp (s : State) : (fpuWait s).swp = s.swp := rfl
@[simp] theorem fpuWait_kpsw (s : State) : (fpuWait s).kpsw = s.kpsw := rfl
@[simp] theorem fpuWait_insert (s : State) : (fpuWait s).insert = s.insert := rfl
@[simp] theorem fpuWait_fpuPc (s : State) : (fpuWait s).fpuPc = s.fpuPc := rfl
@[simp] theorem fpuWait_pc (s : State) : (fpuWait s).pc = s.pc := rfl
@[simp] theorem fpuWait_nextPC (s : State) : (fpuWait s).nextPC = s.nextPC := rfl
@[simp] theorem fpuWait_trapPC (s : State) : (fpuWait s).trapPC = s.trapPC := rfl
@[simp] theorem fpuWait_trapNextPC (s : State) : (fpuWait s).trapNextPC = s.trapNextPC := rfl
@[simp] theorem fpuWait_pipe (s : State) : (fpuWait s).pipe = s.pipe := rfl
@[simp] theorem fpuWait_ib (s : State) : (fpuWait s).ib = s.ib := rfl
@[simp] theorem fpuWait_prefetch (s : State) : (fpuWait s).prefetch = s.prefetch := rfl
@[simp] theorem fpuWait_past (s : State) : (fpuWait s).past = s.past := rfl
@[simp] theorem fpuWait_fregs (s : State) : (fpuWait s).fregs = s.fregs := rfl
@[simp] theorem fpuWait_fpsw (s : State) : (fpuWait s).fpsw = s.fpsw := rfl
@[simp] theorem fpuWait_fpuRun (s : State) : (fpuWait s).fpuRun = none := rfl
@[simp] theorem fpuWait_fpuExcep (s : State) : (fpuWait s).fpuExcep = s.fpuExcep := rfl
@[simp] theorem fpuWait_fpuExcKind (s : State) : (fpuWait s).fpuExcKind = s.fpuExcKind := rfl
@[simp] theorem fpuWait_fpuBrTF (s : State) : (fpuWait s).fpuBrTF = s.fpuBrTF := rfl
@[simp] theorem fpuWait_gsn (s : State) : (fpuWait s).gsn = s.gsn := rfl
@[simp] theorem fpuWait_rptm (s : State) : (fpuWait s).rptm = s.rptm := rfl
@[simp] theorem fpuWait_pteva (s : State) : (fpuWait s).pteva = s.pteva := rfl
@[simp] theorem fpuWait_rpteva (s : State) : (fpuWait s).rpteva = s.rpteva := rfl
@[simp] theorem fpuWait_gva (s : State) : (fpuWait s).gva = s.gva := rfl
@[simp] theorem fpuWait_intreg (s : State) : (fpuWait s).intreg = s.intreg := rfl
@[simp] theorem fpuWait_intmask (s : State) : (fpuWait s).intmask = s.intmask := rfl
@[simp] theorem fpuWait_counter0 (s : State) : (fpuWait s).counter0 = s.counter0 := rfl
@[simp] theorem fpuWait_counter1 (s : State) : (fpuWait s).counter1 = s.counter1 := rfl
@[simp] theorem fpuWait_cache (s : State) : (fpuWait s).cache = s.cache := rfl
@[simp] theorem fpuWait_remote (s : State) : (fpuWait s).remote = s.remote := rfl
@[simp] theorem fpuWait_mem (s : State) : (fpuWait s).mem = s.mem := rfl
@[simp] theorem fpuWait_faultInfo (s : State) : (fpuWait s).faultInfo = s.faultInfo := rfl
@[simp] theorem fpuWait_board (s : State) : (fpuWait s).board = s.board := rfl
@[simp] theorem fpuWait_free (s : State) : (fpuWait s).free = s.free := rfl

/-! #### `fpuMemWait` -/

@[simp] theorem fpuMemWait_globals (s : State) : (fpuMemWait s).globals = s.globals := by unfold fpuMemWait; split <;> rfl
@[simp] theorem fpuMemWait_windows (s : State) : (fpuMemWait s).windows = s.windows := by unfold fpuMemWait; split <;> rfl
@[simp] theorem fpuMemWait_upsw (s : State) : (fpuMemWait s).upsw = s.upsw := by unfold fpuMemWait; split <;> rfl
@[simp] theorem fpuMemWait_cwp (s : State) : (fpuMemWait s).cwp = s.cwp := by unfold fpuMemWait; split <;> rfl
@[simp] theorem fpuMemWait_swp (s : State) : (fpuMemWait s).swp = s.swp := by unfold fpuMemWait; split <;> rfl
@[simp] theorem fpuMemWait_kpsw (s : State) : (fpuMemWait s).kpsw = s.kpsw := by unfold fpuMemWait; split <;> rfl
@[simp] theorem fpuMemWait_insert (s : State) : (fpuMemWait s).insert = s.insert := by unfold fpuMemWait; split <;> rfl
@[simp] theorem fpuMemWait_fpuPc (s : State) : (fpuMemWait s).fpuPc = s.fpuPc := by unfold fpuMemWait; split <;> rfl
@[simp] theorem fpuMemWait_pc (s : State) : (fpuMemWait s).pc = s.pc := by unfold fpuMemWait; split <;> rfl
@[simp] theorem fpuMemWait_nextPC (s : State) : (fpuMemWait s).nextPC = s.nextPC := by unfold fpuMemWait; split <;> rfl
@[simp] theorem fpuMemWait_trapPC (s : State) : (fpuMemWait s).trapPC = s.trapPC := by unfold fpuMemWait; split <;> rfl
@[simp] theorem fpuMemWait_trapNextPC (s : State) : (fpuMemWait s).trapNextPC = s.trapNextPC := by unfold fpuMemWait; split <;> rfl
@[simp] theorem fpuMemWait_pipe (s : State) : (fpuMemWait s).pipe = s.pipe := by unfold fpuMemWait; split <;> rfl
@[simp] theorem fpuMemWait_ib (s : State) : (fpuMemWait s).ib = s.ib := by unfold fpuMemWait; split <;> rfl
@[simp] theorem fpuMemWait_prefetch (s : State) : (fpuMemWait s).prefetch = s.prefetch := by unfold fpuMemWait; split <;> rfl
@[simp] theorem fpuMemWait_past (s : State) : (fpuMemWait s).past = s.past := by unfold fpuMemWait; split <;> rfl
@[simp] theorem fpuMemWait_fregs (s : State) : (fpuMemWait s).fregs = s.fregs := by unfold fpuMemWait; split <;> rfl
@[simp] theorem fpuMemWait_fpsw (s : State) : (fpuMemWait s).fpsw = s.fpsw := by unfold fpuMemWait; split <;> rfl
@[simp] theorem fpuMemWait_fpuExcep (s : State) : (fpuMemWait s).fpuExcep = s.fpuExcep := by unfold fpuMemWait; split <;> rfl
@[simp] theorem fpuMemWait_fpuExcKind (s : State) : (fpuMemWait s).fpuExcKind = s.fpuExcKind := by unfold fpuMemWait; split <;> rfl
@[simp] theorem fpuMemWait_fpuBrTF (s : State) : (fpuMemWait s).fpuBrTF = s.fpuBrTF := by unfold fpuMemWait; split <;> rfl
@[simp] theorem fpuMemWait_gsn (s : State) : (fpuMemWait s).gsn = s.gsn := by unfold fpuMemWait; split <;> rfl
@[simp] theorem fpuMemWait_rptm (s : State) : (fpuMemWait s).rptm = s.rptm := by unfold fpuMemWait; split <;> rfl
@[simp] theorem fpuMemWait_pteva (s : State) : (fpuMemWait s).pteva = s.pteva := by unfold fpuMemWait; split <;> rfl
@[simp] theorem fpuMemWait_rpteva (s : State) : (fpuMemWait s).rpteva = s.rpteva := by unfold fpuMemWait; split <;> rfl
@[simp] theorem fpuMemWait_gva (s : State) : (fpuMemWait s).gva = s.gva := by unfold fpuMemWait; split <;> rfl
@[simp] theorem fpuMemWait_intreg (s : State) : (fpuMemWait s).intreg = s.intreg := by unfold fpuMemWait; split <;> rfl
@[simp] theorem fpuMemWait_intmask (s : State) : (fpuMemWait s).intmask = s.intmask := by unfold fpuMemWait; split <;> rfl
@[simp] theorem fpuMemWait_counter0 (s : State) : (fpuMemWait s).counter0 = s.counter0 := by unfold fpuMemWait; split <;> rfl
@[simp] theorem fpuMemWait_counter1 (s : State) : (fpuMemWait s).counter1 = s.counter1 := by unfold fpuMemWait; split <;> rfl
@[simp] theorem fpuMemWait_cache (s : State) : (fpuMemWait s).cache = s.cache := by unfold fpuMemWait; split <;> rfl
@[simp] theorem fpuMemWait_remote (s : State) : (fpuMemWait s).remote = s.remote := by unfold fpuMemWait; split <;> rfl
@[simp] theorem fpuMemWait_mem (s : State) : (fpuMemWait s).mem = s.mem := by unfold fpuMemWait; split <;> rfl
@[simp] theorem fpuMemWait_faultInfo (s : State) : (fpuMemWait s).faultInfo = s.faultInfo := by unfold fpuMemWait; split <;> rfl
@[simp] theorem fpuMemWait_board (s : State) : (fpuMemWait s).board = s.board := by unfold fpuMemWait; split <;> rfl
@[simp] theorem fpuMemWait_free (s : State) : (fpuMemWait s).free = s.free := by unfold fpuMemWait; split <;> rfl

/-! #### `setFpuPc` -/

@[simp] theorem setFpuPc_globals (s : State) : (setFpuPc s).globals = s.globals := rfl
@[simp] theorem setFpuPc_windows (s : State) : (setFpuPc s).windows = s.windows := rfl
@[simp] theorem setFpuPc_upsw (s : State) : (setFpuPc s).upsw = s.upsw := rfl
@[simp] theorem setFpuPc_cwp (s : State) : (setFpuPc s).cwp = s.cwp := rfl
@[simp] theorem setFpuPc_swp (s : State) : (setFpuPc s).swp = s.swp := rfl
@[simp] theorem setFpuPc_kpsw (s : State) : (setFpuPc s).kpsw = s.kpsw := rfl
@[simp] theorem setFpuPc_insert (s : State) : (setFpuPc s).insert = s.insert := rfl
@[simp] theorem setFpuPc_fpuPc (s : State) : (setFpuPc s).fpuPc = s.pc.extractLsb' 2 30 := rfl
@[simp] theorem setFpuPc_pc (s : State) : (setFpuPc s).pc = s.pc := rfl
@[simp] theorem setFpuPc_nextPC (s : State) : (setFpuPc s).nextPC = s.nextPC := rfl
@[simp] theorem setFpuPc_trapPC (s : State) : (setFpuPc s).trapPC = s.trapPC := rfl
@[simp] theorem setFpuPc_trapNextPC (s : State) : (setFpuPc s).trapNextPC = s.trapNextPC := rfl
@[simp] theorem setFpuPc_pipe (s : State) : (setFpuPc s).pipe = s.pipe := rfl
@[simp] theorem setFpuPc_ib (s : State) : (setFpuPc s).ib = s.ib := rfl
@[simp] theorem setFpuPc_prefetch (s : State) : (setFpuPc s).prefetch = s.prefetch := rfl
@[simp] theorem setFpuPc_past (s : State) : (setFpuPc s).past = s.past := rfl
@[simp] theorem setFpuPc_fregs (s : State) : (setFpuPc s).fregs = s.fregs := rfl
@[simp] theorem setFpuPc_fpsw (s : State) : (setFpuPc s).fpsw = s.fpsw := rfl
@[simp] theorem setFpuPc_fpuRun (s : State) : (setFpuPc s).fpuRun = s.fpuRun := rfl
@[simp] theorem setFpuPc_fpuExcep (s : State) : (setFpuPc s).fpuExcep = s.fpuExcep := rfl
@[simp] theorem setFpuPc_fpuExcKind (s : State) : (setFpuPc s).fpuExcKind = s.fpuExcKind := rfl
@[simp] theorem setFpuPc_fpuBrTF (s : State) : (setFpuPc s).fpuBrTF = s.fpuBrTF := rfl
@[simp] theorem setFpuPc_gsn (s : State) : (setFpuPc s).gsn = s.gsn := rfl
@[simp] theorem setFpuPc_rptm (s : State) : (setFpuPc s).rptm = s.rptm := rfl
@[simp] theorem setFpuPc_pteva (s : State) : (setFpuPc s).pteva = s.pteva := rfl
@[simp] theorem setFpuPc_rpteva (s : State) : (setFpuPc s).rpteva = s.rpteva := rfl
@[simp] theorem setFpuPc_gva (s : State) : (setFpuPc s).gva = s.gva := rfl
@[simp] theorem setFpuPc_intreg (s : State) : (setFpuPc s).intreg = s.intreg := rfl
@[simp] theorem setFpuPc_intmask (s : State) : (setFpuPc s).intmask = s.intmask := rfl
@[simp] theorem setFpuPc_counter0 (s : State) : (setFpuPc s).counter0 = s.counter0 := rfl
@[simp] theorem setFpuPc_counter1 (s : State) : (setFpuPc s).counter1 = s.counter1 := rfl
@[simp] theorem setFpuPc_cache (s : State) : (setFpuPc s).cache = s.cache := rfl
@[simp] theorem setFpuPc_remote (s : State) : (setFpuPc s).remote = s.remote := rfl
@[simp] theorem setFpuPc_mem (s : State) : (setFpuPc s).mem = s.mem := rfl
@[simp] theorem setFpuPc_faultInfo (s : State) : (setFpuPc s).faultInfo = s.faultInfo := rfl
@[simp] theorem setFpuPc_board (s : State) : (setFpuPc s).board = s.board := rfl
@[simp] theorem setFpuPc_free (s : State) : (setFpuPc s).free = s.free := rfl

/-! #### `setPending` -/

@[simp] theorem setPending_globals (s : State) (b : Bool) (k : FpuExcKind) : (setPending s b k).globals = s.globals := by unfold setPending; split <;> rfl
@[simp] theorem setPending_windows (s : State) (b : Bool) (k : FpuExcKind) : (setPending s b k).windows = s.windows := by unfold setPending; split <;> rfl
@[simp] theorem setPending_upsw (s : State) (b : Bool) (k : FpuExcKind) : (setPending s b k).upsw = s.upsw := by unfold setPending; split <;> rfl
@[simp] theorem setPending_cwp (s : State) (b : Bool) (k : FpuExcKind) : (setPending s b k).cwp = s.cwp := by unfold setPending; split <;> rfl
@[simp] theorem setPending_swp (s : State) (b : Bool) (k : FpuExcKind) : (setPending s b k).swp = s.swp := by unfold setPending; split <;> rfl
@[simp] theorem setPending_kpsw (s : State) (b : Bool) (k : FpuExcKind) : (setPending s b k).kpsw = s.kpsw := by unfold setPending; split <;> rfl
@[simp] theorem setPending_insert (s : State) (b : Bool) (k : FpuExcKind) : (setPending s b k).insert = s.insert := by unfold setPending; split <;> rfl
@[simp] theorem setPending_fpuPc (s : State) (b : Bool) (k : FpuExcKind) : (setPending s b k).fpuPc = s.fpuPc := by unfold setPending; split <;> rfl
@[simp] theorem setPending_pc (s : State) (b : Bool) (k : FpuExcKind) : (setPending s b k).pc = s.pc := by unfold setPending; split <;> rfl
@[simp] theorem setPending_nextPC (s : State) (b : Bool) (k : FpuExcKind) : (setPending s b k).nextPC = s.nextPC := by unfold setPending; split <;> rfl
@[simp] theorem setPending_trapPC (s : State) (b : Bool) (k : FpuExcKind) : (setPending s b k).trapPC = s.trapPC := by unfold setPending; split <;> rfl
@[simp] theorem setPending_trapNextPC (s : State) (b : Bool) (k : FpuExcKind) : (setPending s b k).trapNextPC = s.trapNextPC := by unfold setPending; split <;> rfl
@[simp] theorem setPending_pipe (s : State) (b : Bool) (k : FpuExcKind) : (setPending s b k).pipe = s.pipe := by unfold setPending; split <;> rfl
@[simp] theorem setPending_ib (s : State) (b : Bool) (k : FpuExcKind) : (setPending s b k).ib = s.ib := by unfold setPending; split <;> rfl
@[simp] theorem setPending_prefetch (s : State) (b : Bool) (k : FpuExcKind) : (setPending s b k).prefetch = s.prefetch := by unfold setPending; split <;> rfl
@[simp] theorem setPending_past (s : State) (b : Bool) (k : FpuExcKind) : (setPending s b k).past = s.past := by unfold setPending; split <;> rfl
@[simp] theorem setPending_fregs (s : State) (b : Bool) (k : FpuExcKind) : (setPending s b k).fregs = s.fregs := by unfold setPending; split <;> rfl
@[simp] theorem setPending_fpsw (s : State) (b : Bool) (k : FpuExcKind) : (setPending s b k).fpsw = s.fpsw := by unfold setPending; split <;> rfl
@[simp] theorem setPending_fpuRun (s : State) (b : Bool) (k : FpuExcKind) : (setPending s b k).fpuRun = s.fpuRun := by unfold setPending; split <;> rfl
@[simp] theorem setPending_fpuBrTF (s : State) (b : Bool) (k : FpuExcKind) : (setPending s b k).fpuBrTF = s.fpuBrTF := by unfold setPending; split <;> rfl
@[simp] theorem setPending_gsn (s : State) (b : Bool) (k : FpuExcKind) : (setPending s b k).gsn = s.gsn := by unfold setPending; split <;> rfl
@[simp] theorem setPending_rptm (s : State) (b : Bool) (k : FpuExcKind) : (setPending s b k).rptm = s.rptm := by unfold setPending; split <;> rfl
@[simp] theorem setPending_pteva (s : State) (b : Bool) (k : FpuExcKind) : (setPending s b k).pteva = s.pteva := by unfold setPending; split <;> rfl
@[simp] theorem setPending_rpteva (s : State) (b : Bool) (k : FpuExcKind) : (setPending s b k).rpteva = s.rpteva := by unfold setPending; split <;> rfl
@[simp] theorem setPending_gva (s : State) (b : Bool) (k : FpuExcKind) : (setPending s b k).gva = s.gva := by unfold setPending; split <;> rfl
@[simp] theorem setPending_intreg (s : State) (b : Bool) (k : FpuExcKind) : (setPending s b k).intreg = s.intreg := by unfold setPending; split <;> rfl
@[simp] theorem setPending_intmask (s : State) (b : Bool) (k : FpuExcKind) : (setPending s b k).intmask = s.intmask := by unfold setPending; split <;> rfl
@[simp] theorem setPending_counter0 (s : State) (b : Bool) (k : FpuExcKind) : (setPending s b k).counter0 = s.counter0 := by unfold setPending; split <;> rfl
@[simp] theorem setPending_counter1 (s : State) (b : Bool) (k : FpuExcKind) : (setPending s b k).counter1 = s.counter1 := by unfold setPending; split <;> rfl
@[simp] theorem setPending_cache (s : State) (b : Bool) (k : FpuExcKind) : (setPending s b k).cache = s.cache := by unfold setPending; split <;> rfl
@[simp] theorem setPending_remote (s : State) (b : Bool) (k : FpuExcKind) : (setPending s b k).remote = s.remote := by unfold setPending; split <;> rfl
@[simp] theorem setPending_mem (s : State) (b : Bool) (k : FpuExcKind) : (setPending s b k).mem = s.mem := by unfold setPending; split <;> rfl
@[simp] theorem setPending_faultInfo (s : State) (b : Bool) (k : FpuExcKind) : (setPending s b k).faultInfo = s.faultInfo := by unfold setPending; split <;> rfl
@[simp] theorem setPending_board (s : State) (b : Bool) (k : FpuExcKind) : (setPending s b k).board = s.board := by unfold setPending; split <;> rfl
@[simp] theorem setPending_free (s : State) (b : Bool) (k : FpuExcKind) : (setPending s b k).free = s.free := by unfold setPending; split <;> rfl

/-! #### `fpuLaunch` -/

@[simp] theorem fpuLaunch_globals (s : State) (d a b : RegField) (n : Nat) : (fpuLaunch s d a b n).globals = s.globals := by unfold fpuLaunch; split <;> rfl
@[simp] theorem fpuLaunch_windows (s : State) (d a b : RegField) (n : Nat) : (fpuLaunch s d a b n).windows = s.windows := by unfold fpuLaunch; split <;> rfl
@[simp] theorem fpuLaunch_upsw (s : State) (d a b : RegField) (n : Nat) : (fpuLaunch s d a b n).upsw = s.upsw := by unfold fpuLaunch; split <;> rfl
@[simp] theorem fpuLaunch_cwp (s : State) (d a b : RegField) (n : Nat) : (fpuLaunch s d a b n).cwp = s.cwp := by unfold fpuLaunch; split <;> rfl
@[simp] theorem fpuLaunch_swp (s : State) (d a b : RegField) (n : Nat) : (fpuLaunch s d a b n).swp = s.swp := by unfold fpuLaunch; split <;> rfl
@[simp] theorem fpuLaunch_kpsw (s : State) (d a b : RegField) (n : Nat) : (fpuLaunch s d a b n).kpsw = s.kpsw := by unfold fpuLaunch; split <;> rfl
@[simp] theorem fpuLaunch_insert (s : State) (d a b : RegField) (n : Nat) : (fpuLaunch s d a b n).insert = s.insert := by unfold fpuLaunch; split <;> rfl
@[simp] theorem fpuLaunch_fpuPc (s : State) (d a b : RegField) (n : Nat) : (fpuLaunch s d a b n).fpuPc = s.fpuPc := by unfold fpuLaunch; split <;> rfl
@[simp] theorem fpuLaunch_pc (s : State) (d a b : RegField) (n : Nat) : (fpuLaunch s d a b n).pc = s.pc := by unfold fpuLaunch; split <;> rfl
@[simp] theorem fpuLaunch_nextPC (s : State) (d a b : RegField) (n : Nat) : (fpuLaunch s d a b n).nextPC = s.nextPC := by unfold fpuLaunch; split <;> rfl
@[simp] theorem fpuLaunch_trapPC (s : State) (d a b : RegField) (n : Nat) : (fpuLaunch s d a b n).trapPC = s.trapPC := by unfold fpuLaunch; split <;> rfl
@[simp] theorem fpuLaunch_trapNextPC (s : State) (d a b : RegField) (n : Nat) : (fpuLaunch s d a b n).trapNextPC = s.trapNextPC := by unfold fpuLaunch; split <;> rfl
@[simp] theorem fpuLaunch_pipe (s : State) (d a b : RegField) (n : Nat) : (fpuLaunch s d a b n).pipe = s.pipe := by unfold fpuLaunch; split <;> rfl
@[simp] theorem fpuLaunch_ib (s : State) (d a b : RegField) (n : Nat) : (fpuLaunch s d a b n).ib = s.ib := by unfold fpuLaunch; split <;> rfl
@[simp] theorem fpuLaunch_prefetch (s : State) (d a b : RegField) (n : Nat) : (fpuLaunch s d a b n).prefetch = s.prefetch := by unfold fpuLaunch; split <;> rfl
@[simp] theorem fpuLaunch_past (s : State) (d a b : RegField) (n : Nat) : (fpuLaunch s d a b n).past = s.past := by unfold fpuLaunch; split <;> rfl
@[simp] theorem fpuLaunch_fregs (s : State) (d a b : RegField) (n : Nat) : (fpuLaunch s d a b n).fregs = s.fregs := by unfold fpuLaunch; split <;> rfl
@[simp] theorem fpuLaunch_fpsw (s : State) (d a b : RegField) (n : Nat) : (fpuLaunch s d a b n).fpsw = s.fpsw := by unfold fpuLaunch; split <;> rfl
@[simp] theorem fpuLaunch_fpuExcep (s : State) (d a b : RegField) (n : Nat) : (fpuLaunch s d a b n).fpuExcep = s.fpuExcep := by unfold fpuLaunch; split <;> rfl
@[simp] theorem fpuLaunch_fpuExcKind (s : State) (d a b : RegField) (n : Nat) : (fpuLaunch s d a b n).fpuExcKind = s.fpuExcKind := by unfold fpuLaunch; split <;> rfl
@[simp] theorem fpuLaunch_fpuBrTF (s : State) (d a b : RegField) (n : Nat) : (fpuLaunch s d a b n).fpuBrTF = s.fpuBrTF := by unfold fpuLaunch; split <;> rfl
@[simp] theorem fpuLaunch_gsn (s : State) (d a b : RegField) (n : Nat) : (fpuLaunch s d a b n).gsn = s.gsn := by unfold fpuLaunch; split <;> rfl
@[simp] theorem fpuLaunch_rptm (s : State) (d a b : RegField) (n : Nat) : (fpuLaunch s d a b n).rptm = s.rptm := by unfold fpuLaunch; split <;> rfl
@[simp] theorem fpuLaunch_pteva (s : State) (d a b : RegField) (n : Nat) : (fpuLaunch s d a b n).pteva = s.pteva := by unfold fpuLaunch; split <;> rfl
@[simp] theorem fpuLaunch_rpteva (s : State) (d a b : RegField) (n : Nat) : (fpuLaunch s d a b n).rpteva = s.rpteva := by unfold fpuLaunch; split <;> rfl
@[simp] theorem fpuLaunch_gva (s : State) (d a b : RegField) (n : Nat) : (fpuLaunch s d a b n).gva = s.gva := by unfold fpuLaunch; split <;> rfl
@[simp] theorem fpuLaunch_intreg (s : State) (d a b : RegField) (n : Nat) : (fpuLaunch s d a b n).intreg = s.intreg := by unfold fpuLaunch; split <;> rfl
@[simp] theorem fpuLaunch_intmask (s : State) (d a b : RegField) (n : Nat) : (fpuLaunch s d a b n).intmask = s.intmask := by unfold fpuLaunch; split <;> rfl
@[simp] theorem fpuLaunch_counter0 (s : State) (d a b : RegField) (n : Nat) : (fpuLaunch s d a b n).counter0 = s.counter0 := by unfold fpuLaunch; split <;> rfl
@[simp] theorem fpuLaunch_counter1 (s : State) (d a b : RegField) (n : Nat) : (fpuLaunch s d a b n).counter1 = s.counter1 := by unfold fpuLaunch; split <;> rfl
@[simp] theorem fpuLaunch_cache (s : State) (d a b : RegField) (n : Nat) : (fpuLaunch s d a b n).cache = s.cache := by unfold fpuLaunch; split <;> rfl
@[simp] theorem fpuLaunch_remote (s : State) (d a b : RegField) (n : Nat) : (fpuLaunch s d a b n).remote = s.remote := by unfold fpuLaunch; split <;> rfl
@[simp] theorem fpuLaunch_mem (s : State) (d a b : RegField) (n : Nat) : (fpuLaunch s d a b n).mem = s.mem := by unfold fpuLaunch; split <;> rfl
@[simp] theorem fpuLaunch_faultInfo (s : State) (d a b : RegField) (n : Nat) : (fpuLaunch s d a b n).faultInfo = s.faultInfo := by unfold fpuLaunch; split <;> rfl
@[simp] theorem fpuLaunch_board (s : State) (d a b : RegField) (n : Nat) : (fpuLaunch s d a b n).board = s.board := by unfold fpuLaunch; split <;> rfl
@[simp] theorem fpuLaunch_free (s : State) (d a b : RegField) (n : Nat) : (fpuLaunch s d a b n).free = s.free := by unfold fpuLaunch; split <;> rfl

/-! #### `fpuFinish` -/

@[simp] theorem fpuFinish_globals (s : State) (d : RegField) (r : FpResult) (p : BitVec 3) (q : Option (BitVec 3)) (b : Bool) : (fpuFinish s d r p q b).globals = s.globals := by unfold fpuFinish; dsimp only; split <;> simp
@[simp] theorem fpuFinish_windows (s : State) (d : RegField) (r : FpResult) (p : BitVec 3) (q : Option (BitVec 3)) (b : Bool) : (fpuFinish s d r p q b).windows = s.windows := by unfold fpuFinish; dsimp only; split <;> simp
@[simp] theorem fpuFinish_upsw (s : State) (d : RegField) (r : FpResult) (p : BitVec 3) (q : Option (BitVec 3)) (b : Bool) : (fpuFinish s d r p q b).upsw = s.upsw := by unfold fpuFinish; dsimp only; split <;> simp
@[simp] theorem fpuFinish_cwp (s : State) (d : RegField) (r : FpResult) (p : BitVec 3) (q : Option (BitVec 3)) (b : Bool) : (fpuFinish s d r p q b).cwp = s.cwp := by unfold fpuFinish; dsimp only; split <;> simp
@[simp] theorem fpuFinish_swp (s : State) (d : RegField) (r : FpResult) (p : BitVec 3) (q : Option (BitVec 3)) (b : Bool) : (fpuFinish s d r p q b).swp = s.swp := by unfold fpuFinish; dsimp only; split <;> simp
@[simp] theorem fpuFinish_kpsw (s : State) (d : RegField) (r : FpResult) (p : BitVec 3) (q : Option (BitVec 3)) (b : Bool) : (fpuFinish s d r p q b).kpsw = s.kpsw := by unfold fpuFinish; dsimp only; split <;> simp
@[simp] theorem fpuFinish_insert (s : State) (d : RegField) (r : FpResult) (p : BitVec 3) (q : Option (BitVec 3)) (b : Bool) : (fpuFinish s d r p q b).insert = s.insert := by unfold fpuFinish; dsimp only; split <;> simp
@[simp] theorem fpuFinish_fpuPc (s : State) (d : RegField) (r : FpResult) (p : BitVec 3) (q : Option (BitVec 3)) (b : Bool) : (fpuFinish s d r p q b).fpuPc = s.fpuPc := by unfold fpuFinish; dsimp only; split <;> simp
@[simp] theorem fpuFinish_pc (s : State) (d : RegField) (r : FpResult) (p : BitVec 3) (q : Option (BitVec 3)) (b : Bool) : (fpuFinish s d r p q b).pc = s.pc := by unfold fpuFinish; dsimp only; split <;> simp
@[simp] theorem fpuFinish_nextPC (s : State) (d : RegField) (r : FpResult) (p : BitVec 3) (q : Option (BitVec 3)) (b : Bool) : (fpuFinish s d r p q b).nextPC = s.nextPC := by unfold fpuFinish; dsimp only; split <;> simp
@[simp] theorem fpuFinish_trapPC (s : State) (d : RegField) (r : FpResult) (p : BitVec 3) (q : Option (BitVec 3)) (b : Bool) : (fpuFinish s d r p q b).trapPC = s.trapPC := by unfold fpuFinish; dsimp only; split <;> simp
@[simp] theorem fpuFinish_trapNextPC (s : State) (d : RegField) (r : FpResult) (p : BitVec 3) (q : Option (BitVec 3)) (b : Bool) : (fpuFinish s d r p q b).trapNextPC = s.trapNextPC := by unfold fpuFinish; dsimp only; split <;> simp
@[simp] theorem fpuFinish_pipe (s : State) (d : RegField) (r : FpResult) (p : BitVec 3) (q : Option (BitVec 3)) (b : Bool) : (fpuFinish s d r p q b).pipe = s.pipe := by unfold fpuFinish; dsimp only; split <;> simp
@[simp] theorem fpuFinish_ib (s : State) (d : RegField) (r : FpResult) (p : BitVec 3) (q : Option (BitVec 3)) (b : Bool) : (fpuFinish s d r p q b).ib = s.ib := by unfold fpuFinish; dsimp only; split <;> simp
@[simp] theorem fpuFinish_prefetch (s : State) (d : RegField) (r : FpResult) (p : BitVec 3) (q : Option (BitVec 3)) (b : Bool) : (fpuFinish s d r p q b).prefetch = s.prefetch := by unfold fpuFinish; dsimp only; split <;> simp
@[simp] theorem fpuFinish_past (s : State) (d : RegField) (r : FpResult) (p : BitVec 3) (q : Option (BitVec 3)) (b : Bool) : (fpuFinish s d r p q b).past = s.past := by unfold fpuFinish; dsimp only; split <;> simp
theorem fpuFinish_fregs (s : State) (d : RegField) (r : FpResult) (p : BitVec 3) (q : Option (BitVec 3)) (b : Bool) : (fpuFinish s d r p q b).fregs = if writesDest s r.flags b then (writeFpu s d r.reg).fregs else s.fregs := by unfold fpuFinish setPending; dsimp only; split <;> split <;> rfl
@[simp] theorem fpuFinish_fpsw (s : State) (d : RegField) (r : FpResult) (p : BitVec 3) (q : Option (BitVec 3)) (b : Bool) : (fpuFinish s d r p q b).fpsw = fpswAfter s.fpsw p q r.flags := by unfold fpuFinish; dsimp only; split <;> simp
@[simp] theorem fpuFinish_fpuRun (s : State) (d : RegField) (r : FpResult) (p : BitVec 3) (q : Option (BitVec 3)) (b : Bool) : (fpuFinish s d r p q b).fpuRun = s.fpuRun := by unfold fpuFinish; dsimp only; split <;> simp
@[simp] theorem fpuFinish_fpuBrTF (s : State) (d : RegField) (r : FpResult) (p : BitVec 3) (q : Option (BitVec 3)) (b : Bool) : (fpuFinish s d r p q b).fpuBrTF = s.fpuBrTF := by unfold fpuFinish; dsimp only; split <;> simp
@[simp] theorem fpuFinish_gsn (s : State) (d : RegField) (r : FpResult) (p : BitVec 3) (q : Option (BitVec 3)) (b : Bool) : (fpuFinish s d r p q b).gsn = s.gsn := by unfold fpuFinish; dsimp only; split <;> simp
@[simp] theorem fpuFinish_rptm (s : State) (d : RegField) (r : FpResult) (p : BitVec 3) (q : Option (BitVec 3)) (b : Bool) : (fpuFinish s d r p q b).rptm = s.rptm := by unfold fpuFinish; dsimp only; split <;> simp
@[simp] theorem fpuFinish_pteva (s : State) (d : RegField) (r : FpResult) (p : BitVec 3) (q : Option (BitVec 3)) (b : Bool) : (fpuFinish s d r p q b).pteva = s.pteva := by unfold fpuFinish; dsimp only; split <;> simp
@[simp] theorem fpuFinish_rpteva (s : State) (d : RegField) (r : FpResult) (p : BitVec 3) (q : Option (BitVec 3)) (b : Bool) : (fpuFinish s d r p q b).rpteva = s.rpteva := by unfold fpuFinish; dsimp only; split <;> simp
@[simp] theorem fpuFinish_gva (s : State) (d : RegField) (r : FpResult) (p : BitVec 3) (q : Option (BitVec 3)) (b : Bool) : (fpuFinish s d r p q b).gva = s.gva := by unfold fpuFinish; dsimp only; split <;> simp
@[simp] theorem fpuFinish_intreg (s : State) (d : RegField) (r : FpResult) (p : BitVec 3) (q : Option (BitVec 3)) (b : Bool) : (fpuFinish s d r p q b).intreg = s.intreg := by unfold fpuFinish; dsimp only; split <;> simp
@[simp] theorem fpuFinish_intmask (s : State) (d : RegField) (r : FpResult) (p : BitVec 3) (q : Option (BitVec 3)) (b : Bool) : (fpuFinish s d r p q b).intmask = s.intmask := by unfold fpuFinish; dsimp only; split <;> simp
@[simp] theorem fpuFinish_counter0 (s : State) (d : RegField) (r : FpResult) (p : BitVec 3) (q : Option (BitVec 3)) (b : Bool) : (fpuFinish s d r p q b).counter0 = s.counter0 := by unfold fpuFinish; dsimp only; split <;> simp
@[simp] theorem fpuFinish_counter1 (s : State) (d : RegField) (r : FpResult) (p : BitVec 3) (q : Option (BitVec 3)) (b : Bool) : (fpuFinish s d r p q b).counter1 = s.counter1 := by unfold fpuFinish; dsimp only; split <;> simp
@[simp] theorem fpuFinish_cache (s : State) (d : RegField) (r : FpResult) (p : BitVec 3) (q : Option (BitVec 3)) (b : Bool) : (fpuFinish s d r p q b).cache = s.cache := by unfold fpuFinish; dsimp only; split <;> simp
@[simp] theorem fpuFinish_remote (s : State) (d : RegField) (r : FpResult) (p : BitVec 3) (q : Option (BitVec 3)) (b : Bool) : (fpuFinish s d r p q b).remote = s.remote := by unfold fpuFinish; dsimp only; split <;> simp
@[simp] theorem fpuFinish_mem (s : State) (d : RegField) (r : FpResult) (p : BitVec 3) (q : Option (BitVec 3)) (b : Bool) : (fpuFinish s d r p q b).mem = s.mem := by unfold fpuFinish; dsimp only; split <;> simp
@[simp] theorem fpuFinish_faultInfo (s : State) (d : RegField) (r : FpResult) (p : BitVec 3) (q : Option (BitVec 3)) (b : Bool) : (fpuFinish s d r p q b).faultInfo = s.faultInfo := by unfold fpuFinish; dsimp only; split <;> simp
@[simp] theorem fpuFinish_board (s : State) (d : RegField) (r : FpResult) (p : BitVec 3) (q : Option (BitVec 3)) (b : Bool) : (fpuFinish s d r p q b).board = s.board := by unfold fpuFinish; dsimp only; split <;> simp
@[simp] theorem fpuFinish_free (s : State) (d : RegField) (r : FpResult) (p : BitVec 3) (q : Option (BitVec 3)) (b : Bool) : (fpuFinish s d r p q b).free = s.free := by unfold fpuFinish; dsimp only; split <;> simp

/-! #### `vaRef` -/

@[simp] theorem vaRef_globals (s : State) (va : Word) : (vaRef s va).globals = s.globals := rfl
@[simp] theorem vaRef_windows (s : State) (va : Word) : (vaRef s va).windows = s.windows := rfl
@[simp] theorem vaRef_upsw (s : State) (va : Word) : (vaRef s va).upsw = s.upsw := rfl
@[simp] theorem vaRef_cwp (s : State) (va : Word) : (vaRef s va).cwp = s.cwp := rfl
@[simp] theorem vaRef_swp (s : State) (va : Word) : (vaRef s va).swp = s.swp := rfl
@[simp] theorem vaRef_kpsw (s : State) (va : Word) : (vaRef s va).kpsw = s.kpsw := rfl
@[simp] theorem vaRef_insert (s : State) (va : Word) : (vaRef s va).insert = s.insert := rfl
@[simp] theorem vaRef_fpuPc (s : State) (va : Word) : (vaRef s va).fpuPc = s.fpuPc := rfl
@[simp] theorem vaRef_pc (s : State) (va : Word) : (vaRef s va).pc = s.pc := rfl
@[simp] theorem vaRef_nextPC (s : State) (va : Word) : (vaRef s va).nextPC = s.nextPC := rfl
@[simp] theorem vaRef_trapPC (s : State) (va : Word) : (vaRef s va).trapPC = s.trapPC := rfl
@[simp] theorem vaRef_trapNextPC (s : State) (va : Word) : (vaRef s va).trapNextPC = s.trapNextPC := rfl
@[simp] theorem vaRef_pipe (s : State) (va : Word) : (vaRef s va).pipe = s.pipe := rfl
@[simp] theorem vaRef_ib (s : State) (va : Word) : (vaRef s va).ib = s.ib := rfl
@[simp] theorem vaRef_prefetch (s : State) (va : Word) : (vaRef s va).prefetch = s.prefetch := rfl
@[simp] theorem vaRef_past (s : State) (va : Word) : (vaRef s va).past = s.past := rfl
@[simp] theorem vaRef_fregs (s : State) (va : Word) : (vaRef s va).fregs = s.fregs := rfl
@[simp] theorem vaRef_fpsw (s : State) (va : Word) : (vaRef s va).fpsw = s.fpsw := rfl
@[simp] theorem vaRef_fpuRun (s : State) (va : Word) : (vaRef s va).fpuRun = s.fpuRun := rfl
@[simp] theorem vaRef_fpuExcep (s : State) (va : Word) : (vaRef s va).fpuExcep = s.fpuExcep := rfl
@[simp] theorem vaRef_fpuExcKind (s : State) (va : Word) : (vaRef s va).fpuExcKind = s.fpuExcKind := rfl
@[simp] theorem vaRef_fpuBrTF (s : State) (va : Word) : (vaRef s va).fpuBrTF = s.fpuBrTF := rfl
@[simp] theorem vaRef_gsn (s : State) (va : Word) : (vaRef s va).gsn = s.gsn := rfl
@[simp] theorem vaRef_rptm (s : State) (va : Word) : (vaRef s va).rptm = s.rptm := rfl
@[simp] theorem vaRef_rpteva (s : State) (va : Word) : (vaRef s va).rpteva = s.rpteva := rfl
@[simp] theorem vaRef_gva (s : State) (va : Word) : (vaRef s va).gva = globalAddr s va := rfl
@[simp] theorem vaRef_intreg (s : State) (va : Word) : (vaRef s va).intreg = s.intreg := rfl
@[simp] theorem vaRef_intmask (s : State) (va : Word) : (vaRef s va).intmask = s.intmask := rfl
@[simp] theorem vaRef_counter0 (s : State) (va : Word) : (vaRef s va).counter0 = s.counter0 := rfl
@[simp] theorem vaRef_counter1 (s : State) (va : Word) : (vaRef s va).counter1 = s.counter1 := rfl
@[simp] theorem vaRef_cache (s : State) (va : Word) : (vaRef s va).cache = s.cache := rfl
@[simp] theorem vaRef_remote (s : State) (va : Word) : (vaRef s va).remote = s.remote := rfl
@[simp] theorem vaRef_mem (s : State) (va : Word) : (vaRef s va).mem = s.mem := rfl
@[simp] theorem vaRef_faultInfo (s : State) (va : Word) : (vaRef s va).faultInfo = s.faultInfo := rfl
@[simp] theorem vaRef_board (s : State) (va : Word) : (vaRef s va).board = s.board := rfl
@[simp] theorem vaRef_free (s : State) (va : Word) : (vaRef s va).free = s.free := rfl

/-! #### `pteRefLatch` -/

@[simp] theorem pteRefLatch_globals (s : State) : (pteRefLatch s).globals = s.globals := rfl
@[simp] theorem pteRefLatch_windows (s : State) : (pteRefLatch s).windows = s.windows := rfl
@[simp] theorem pteRefLatch_upsw (s : State) : (pteRefLatch s).upsw = s.upsw := rfl
@[simp] theorem pteRefLatch_cwp (s : State) : (pteRefLatch s).cwp = s.cwp := rfl
@[simp] theorem pteRefLatch_swp (s : State) : (pteRefLatch s).swp = s.swp := rfl
@[simp] theorem pteRefLatch_kpsw (s : State) : (pteRefLatch s).kpsw = s.kpsw := rfl
@[simp] theorem pteRefLatch_insert (s : State) : (pteRefLatch s).insert = s.insert := rfl
@[simp] theorem pteRefLatch_fpuPc (s : State) : (pteRefLatch s).fpuPc = s.fpuPc := rfl
@[simp] theorem pteRefLatch_pc (s : State) : (pteRefLatch s).pc = s.pc := rfl
@[simp] theorem pteRefLatch_nextPC (s : State) : (pteRefLatch s).nextPC = s.nextPC := rfl
@[simp] theorem pteRefLatch_trapPC (s : State) : (pteRefLatch s).trapPC = s.trapPC := rfl
@[simp] theorem pteRefLatch_trapNextPC (s : State) : (pteRefLatch s).trapNextPC = s.trapNextPC := rfl
@[simp] theorem pteRefLatch_pipe (s : State) : (pteRefLatch s).pipe = s.pipe := rfl
@[simp] theorem pteRefLatch_ib (s : State) : (pteRefLatch s).ib = s.ib := rfl
@[simp] theorem pteRefLatch_prefetch (s : State) : (pteRefLatch s).prefetch = s.prefetch := rfl
@[simp] theorem pteRefLatch_past (s : State) : (pteRefLatch s).past = s.past := rfl
@[simp] theorem pteRefLatch_fregs (s : State) : (pteRefLatch s).fregs = s.fregs := rfl
@[simp] theorem pteRefLatch_fpsw (s : State) : (pteRefLatch s).fpsw = s.fpsw := rfl
@[simp] theorem pteRefLatch_fpuRun (s : State) : (pteRefLatch s).fpuRun = s.fpuRun := rfl
@[simp] theorem pteRefLatch_fpuExcep (s : State) : (pteRefLatch s).fpuExcep = s.fpuExcep := rfl
@[simp] theorem pteRefLatch_fpuExcKind (s : State) : (pteRefLatch s).fpuExcKind = s.fpuExcKind := rfl
@[simp] theorem pteRefLatch_fpuBrTF (s : State) : (pteRefLatch s).fpuBrTF = s.fpuBrTF := rfl
@[simp] theorem pteRefLatch_gsn (s : State) : (pteRefLatch s).gsn = s.gsn := rfl
@[simp] theorem pteRefLatch_rptm (s : State) : (pteRefLatch s).rptm = s.rptm := rfl
@[simp] theorem pteRefLatch_pteva (s : State) : (pteRefLatch s).pteva = s.pteva := rfl
@[simp] theorem pteRefLatch_gva (s : State) : (pteRefLatch s).gva = s.gva := rfl
@[simp] theorem pteRefLatch_intreg (s : State) : (pteRefLatch s).intreg = s.intreg := rfl
@[simp] theorem pteRefLatch_intmask (s : State) : (pteRefLatch s).intmask = s.intmask := rfl
@[simp] theorem pteRefLatch_counter0 (s : State) : (pteRefLatch s).counter0 = s.counter0 := rfl
@[simp] theorem pteRefLatch_counter1 (s : State) : (pteRefLatch s).counter1 = s.counter1 := rfl
@[simp] theorem pteRefLatch_cache (s : State) : (pteRefLatch s).cache = s.cache := rfl
@[simp] theorem pteRefLatch_remote (s : State) : (pteRefLatch s).remote = s.remote := rfl
@[simp] theorem pteRefLatch_mem (s : State) : (pteRefLatch s).mem = s.mem := rfl
@[simp] theorem pteRefLatch_faultInfo (s : State) : (pteRefLatch s).faultInfo = s.faultInfo := rfl
@[simp] theorem pteRefLatch_board (s : State) : (pteRefLatch s).board = s.board := rfl
@[simp] theorem pteRefLatch_free (s : State) : (pteRefLatch s).free = s.free := rfl

/-! #### `installLine` -/

@[simp] theorem installLine_globals (s : State) (g : GlobalAddr) (l : Line) : (installLine s g l).globals = s.globals := rfl
@[simp] theorem installLine_windows (s : State) (g : GlobalAddr) (l : Line) : (installLine s g l).windows = s.windows := rfl
@[simp] theorem installLine_upsw (s : State) (g : GlobalAddr) (l : Line) : (installLine s g l).upsw = s.upsw := rfl
@[simp] theorem installLine_cwp (s : State) (g : GlobalAddr) (l : Line) : (installLine s g l).cwp = s.cwp := rfl
@[simp] theorem installLine_swp (s : State) (g : GlobalAddr) (l : Line) : (installLine s g l).swp = s.swp := rfl
@[simp] theorem installLine_kpsw (s : State) (g : GlobalAddr) (l : Line) : (installLine s g l).kpsw = s.kpsw := rfl
@[simp] theorem installLine_insert (s : State) (g : GlobalAddr) (l : Line) : (installLine s g l).insert = s.insert := rfl
@[simp] theorem installLine_fpuPc (s : State) (g : GlobalAddr) (l : Line) : (installLine s g l).fpuPc = s.fpuPc := rfl
@[simp] theorem installLine_pc (s : State) (g : GlobalAddr) (l : Line) : (installLine s g l).pc = s.pc := rfl
@[simp] theorem installLine_nextPC (s : State) (g : GlobalAddr) (l : Line) : (installLine s g l).nextPC = s.nextPC := rfl
@[simp] theorem installLine_trapPC (s : State) (g : GlobalAddr) (l : Line) : (installLine s g l).trapPC = s.trapPC := rfl
@[simp] theorem installLine_trapNextPC (s : State) (g : GlobalAddr) (l : Line) : (installLine s g l).trapNextPC = s.trapNextPC := rfl
@[simp] theorem installLine_pipe (s : State) (g : GlobalAddr) (l : Line) : (installLine s g l).pipe = s.pipe := rfl
@[simp] theorem installLine_ib (s : State) (g : GlobalAddr) (l : Line) : (installLine s g l).ib = s.ib := rfl
@[simp] theorem installLine_prefetch (s : State) (g : GlobalAddr) (l : Line) : (installLine s g l).prefetch = s.prefetch := rfl
@[simp] theorem installLine_past (s : State) (g : GlobalAddr) (l : Line) : (installLine s g l).past = s.past := rfl
@[simp] theorem installLine_fregs (s : State) (g : GlobalAddr) (l : Line) : (installLine s g l).fregs = s.fregs := rfl
@[simp] theorem installLine_fpsw (s : State) (g : GlobalAddr) (l : Line) : (installLine s g l).fpsw = s.fpsw := rfl
@[simp] theorem installLine_fpuRun (s : State) (g : GlobalAddr) (l : Line) : (installLine s g l).fpuRun = s.fpuRun := rfl
@[simp] theorem installLine_fpuExcep (s : State) (g : GlobalAddr) (l : Line) : (installLine s g l).fpuExcep = s.fpuExcep := rfl
@[simp] theorem installLine_fpuExcKind (s : State) (g : GlobalAddr) (l : Line) : (installLine s g l).fpuExcKind = s.fpuExcKind := rfl
@[simp] theorem installLine_fpuBrTF (s : State) (g : GlobalAddr) (l : Line) : (installLine s g l).fpuBrTF = s.fpuBrTF := rfl
@[simp] theorem installLine_gsn (s : State) (g : GlobalAddr) (l : Line) : (installLine s g l).gsn = s.gsn := rfl
@[simp] theorem installLine_rptm (s : State) (g : GlobalAddr) (l : Line) : (installLine s g l).rptm = s.rptm := rfl
@[simp] theorem installLine_pteva (s : State) (g : GlobalAddr) (l : Line) : (installLine s g l).pteva = s.pteva := rfl
@[simp] theorem installLine_rpteva (s : State) (g : GlobalAddr) (l : Line) : (installLine s g l).rpteva = s.rpteva := rfl
@[simp] theorem installLine_gva (s : State) (g : GlobalAddr) (l : Line) : (installLine s g l).gva = s.gva := rfl
@[simp] theorem installLine_intreg (s : State) (g : GlobalAddr) (l : Line) : (installLine s g l).intreg = s.intreg := rfl
@[simp] theorem installLine_intmask (s : State) (g : GlobalAddr) (l : Line) : (installLine s g l).intmask = s.intmask := rfl
@[simp] theorem installLine_counter0 (s : State) (g : GlobalAddr) (l : Line) : (installLine s g l).counter0 = s.counter0 := rfl
@[simp] theorem installLine_counter1 (s : State) (g : GlobalAddr) (l : Line) : (installLine s g l).counter1 = s.counter1 := rfl
@[simp] theorem installLine_cache (s : State) (g : GlobalAddr) (l : Line) : (installLine s g l).cache = linePut s.cache (lineIndex g) l := rfl
@[simp] theorem installLine_remote (s : State) (g : GlobalAddr) (l : Line) : (installLine s g l).remote = s.remote := rfl
@[simp] theorem installLine_mem (s : State) (g : GlobalAddr) (l : Line) : (installLine s g l).mem = s.mem := rfl
@[simp] theorem installLine_faultInfo (s : State) (g : GlobalAddr) (l : Line) : (installLine s g l).faultInfo = s.faultInfo := rfl
@[simp] theorem installLine_board (s : State) (g : GlobalAddr) (l : Line) : (installLine s g l).board = s.board := rfl
@[simp] theorem installLine_free (s : State) (g : GlobalAddr) (l : Line) : (installLine s g l).free = s.free := rfl

/-! #### `countBlock` -/

@[simp] theorem countBlock_globals (s : State) : (countBlock s).globals = s.globals := rfl
@[simp] theorem countBlock_windows (s : State) : (countBlock s).windows = s.windows := rfl
@[simp] theorem countBlock_upsw (s : State) : (countBlock s).upsw = s.upsw := rfl
@[simp] theorem countBlock_cwp (s : State) : (countBlock s).cwp = s.cwp := rfl
@[simp] theorem countBlock_swp (s : State) : (countBlock s).swp = s.swp := rfl
@[simp] theorem countBlock_kpsw (s : State) : (countBlock s).kpsw = s.kpsw := rfl
@[simp] theorem countBlock_insert (s : State) : (countBlock s).insert = s.insert := rfl
@[simp] theorem countBlock_fpuPc (s : State) : (countBlock s).fpuPc = s.fpuPc := rfl
@[simp] theorem countBlock_pc (s : State) : (countBlock s).pc = s.pc := rfl
@[simp] theorem countBlock_nextPC (s : State) : (countBlock s).nextPC = s.nextPC := rfl
@[simp] theorem countBlock_trapPC (s : State) : (countBlock s).trapPC = s.trapPC := rfl
@[simp] theorem countBlock_trapNextPC (s : State) : (countBlock s).trapNextPC = s.trapNextPC := rfl
@[simp] theorem countBlock_pipe (s : State) : (countBlock s).pipe = s.pipe := rfl
@[simp] theorem countBlock_ib (s : State) : (countBlock s).ib = s.ib := rfl
@[simp] theorem countBlock_prefetch (s : State) : (countBlock s).prefetch = s.prefetch := rfl
@[simp] theorem countBlock_past (s : State) : (countBlock s).past = s.past := rfl
@[simp] theorem countBlock_fregs (s : State) : (countBlock s).fregs = s.fregs := rfl
@[simp] theorem countBlock_fpsw (s : State) : (countBlock s).fpsw = s.fpsw := rfl
@[simp] theorem countBlock_fpuRun (s : State) : (countBlock s).fpuRun = s.fpuRun := rfl
@[simp] theorem countBlock_fpuExcep (s : State) : (countBlock s).fpuExcep = s.fpuExcep := rfl
@[simp] theorem countBlock_fpuExcKind (s : State) : (countBlock s).fpuExcKind = s.fpuExcKind := rfl
@[simp] theorem countBlock_fpuBrTF (s : State) : (countBlock s).fpuBrTF = s.fpuBrTF := rfl
@[simp] theorem countBlock_gsn (s : State) : (countBlock s).gsn = s.gsn := rfl
@[simp] theorem countBlock_rptm (s : State) : (countBlock s).rptm = s.rptm := rfl
@[simp] theorem countBlock_pteva (s : State) : (countBlock s).pteva = s.pteva := rfl
@[simp] theorem countBlock_rpteva (s : State) : (countBlock s).rpteva = s.rpteva := rfl
@[simp] theorem countBlock_intreg (s : State) : (countBlock s).intreg = s.intreg := rfl
@[simp] theorem countBlock_intmask (s : State) : (countBlock s).intmask = s.intmask := rfl
@[simp] theorem countBlock_counter0 (s : State) : (countBlock s).counter0 = s.counter0 := rfl
@[simp] theorem countBlock_counter1 (s : State) : (countBlock s).counter1 = s.counter1 := rfl
@[simp] theorem countBlock_cache (s : State) : (countBlock s).cache = s.cache := rfl
@[simp] theorem countBlock_remote (s : State) : (countBlock s).remote = s.remote := rfl
@[simp] theorem countBlock_mem (s : State) : (countBlock s).mem = s.mem := rfl
@[simp] theorem countBlock_faultInfo (s : State) : (countBlock s).faultInfo = s.faultInfo := rfl
@[simp] theorem countBlock_board (s : State) : (countBlock s).board = s.board := rfl
@[simp] theorem countBlock_free (s : State) : (countBlock s).free = s.free := rfl

/-! #### `busInvalidate` -/

@[simp] theorem busInvalidate_globals (s : State) (g : GlobalAddr) : (busInvalidate s g).globals = s.globals := rfl
@[simp] theorem busInvalidate_windows (s : State) (g : GlobalAddr) : (busInvalidate s g).windows = s.windows := rfl
@[simp] theorem busInvalidate_upsw (s : State) (g : GlobalAddr) : (busInvalidate s g).upsw = s.upsw := rfl
@[simp] theorem busInvalidate_cwp (s : State) (g : GlobalAddr) : (busInvalidate s g).cwp = s.cwp := rfl
@[simp] theorem busInvalidate_swp (s : State) (g : GlobalAddr) : (busInvalidate s g).swp = s.swp := rfl
@[simp] theorem busInvalidate_kpsw (s : State) (g : GlobalAddr) : (busInvalidate s g).kpsw = s.kpsw := rfl
@[simp] theorem busInvalidate_insert (s : State) (g : GlobalAddr) : (busInvalidate s g).insert = s.insert := rfl
@[simp] theorem busInvalidate_fpuPc (s : State) (g : GlobalAddr) : (busInvalidate s g).fpuPc = s.fpuPc := rfl
@[simp] theorem busInvalidate_pc (s : State) (g : GlobalAddr) : (busInvalidate s g).pc = s.pc := rfl
@[simp] theorem busInvalidate_nextPC (s : State) (g : GlobalAddr) : (busInvalidate s g).nextPC = s.nextPC := rfl
@[simp] theorem busInvalidate_trapPC (s : State) (g : GlobalAddr) : (busInvalidate s g).trapPC = s.trapPC := rfl
@[simp] theorem busInvalidate_trapNextPC (s : State) (g : GlobalAddr) : (busInvalidate s g).trapNextPC = s.trapNextPC := rfl
@[simp] theorem busInvalidate_pipe (s : State) (g : GlobalAddr) : (busInvalidate s g).pipe = s.pipe := rfl
@[simp] theorem busInvalidate_ib (s : State) (g : GlobalAddr) : (busInvalidate s g).ib = s.ib := rfl
@[simp] theorem busInvalidate_prefetch (s : State) (g : GlobalAddr) : (busInvalidate s g).prefetch = s.prefetch := rfl
@[simp] theorem busInvalidate_past (s : State) (g : GlobalAddr) : (busInvalidate s g).past = s.past := rfl
@[simp] theorem busInvalidate_fregs (s : State) (g : GlobalAddr) : (busInvalidate s g).fregs = s.fregs := rfl
@[simp] theorem busInvalidate_fpsw (s : State) (g : GlobalAddr) : (busInvalidate s g).fpsw = s.fpsw := rfl
@[simp] theorem busInvalidate_fpuRun (s : State) (g : GlobalAddr) : (busInvalidate s g).fpuRun = s.fpuRun := rfl
@[simp] theorem busInvalidate_fpuExcep (s : State) (g : GlobalAddr) : (busInvalidate s g).fpuExcep = s.fpuExcep := rfl
@[simp] theorem busInvalidate_fpuExcKind (s : State) (g : GlobalAddr) : (busInvalidate s g).fpuExcKind = s.fpuExcKind := rfl
@[simp] theorem busInvalidate_fpuBrTF (s : State) (g : GlobalAddr) : (busInvalidate s g).fpuBrTF = s.fpuBrTF := rfl
@[simp] theorem busInvalidate_gsn (s : State) (g : GlobalAddr) : (busInvalidate s g).gsn = s.gsn := rfl
@[simp] theorem busInvalidate_rptm (s : State) (g : GlobalAddr) : (busInvalidate s g).rptm = s.rptm := rfl
@[simp] theorem busInvalidate_pteva (s : State) (g : GlobalAddr) : (busInvalidate s g).pteva = s.pteva := rfl
@[simp] theorem busInvalidate_rpteva (s : State) (g : GlobalAddr) : (busInvalidate s g).rpteva = s.rpteva := rfl
@[simp] theorem busInvalidate_gva (s : State) (g : GlobalAddr) : (busInvalidate s g).gva = s.gva := rfl
@[simp] theorem busInvalidate_intreg (s : State) (g : GlobalAddr) : (busInvalidate s g).intreg = s.intreg := rfl
@[simp] theorem busInvalidate_intmask (s : State) (g : GlobalAddr) : (busInvalidate s g).intmask = s.intmask := rfl
@[simp] theorem busInvalidate_counter0 (s : State) (g : GlobalAddr) : (busInvalidate s g).counter0 = s.counter0 := rfl
@[simp] theorem busInvalidate_counter1 (s : State) (g : GlobalAddr) : (busInvalidate s g).counter1 = s.counter1 := rfl
@[simp] theorem busInvalidate_cache (s : State) (g : GlobalAddr) : (busInvalidate s g).cache = s.cache := rfl
@[simp] theorem busInvalidate_remote (s : State) (g : GlobalAddr) : (busInvalidate s g).remote = lineDrop s.remote (lineNumber g) := rfl
@[simp] theorem busInvalidate_mem (s : State) (g : GlobalAddr) : (busInvalidate s g).mem = s.mem := rfl
@[simp] theorem busInvalidate_faultInfo (s : State) (g : GlobalAddr) : (busInvalidate s g).faultInfo = s.faultInfo := rfl
@[simp] theorem busInvalidate_board (s : State) (g : GlobalAddr) : (busInvalidate s g).board = s.board := rfl
@[simp] theorem busInvalidate_free (s : State) (g : GlobalAddr) : (busInvalidate s g).free = s.free := rfl

/-! #### `gainOwnership` -/

@[simp] theorem gainOwnership_globals (s : State) (g : GlobalAddr) (l : Line) : (gainOwnership s g l).globals = s.globals := by unfold gainOwnership; split <;> rfl
@[simp] theorem gainOwnership_windows (s : State) (g : GlobalAddr) (l : Line) : (gainOwnership s g l).windows = s.windows := by unfold gainOwnership; split <;> rfl
@[simp] theorem gainOwnership_upsw (s : State) (g : GlobalAddr) (l : Line) : (gainOwnership s g l).upsw = s.upsw := by unfold gainOwnership; split <;> rfl
@[simp] theorem gainOwnership_cwp (s : State) (g : GlobalAddr) (l : Line) : (gainOwnership s g l).cwp = s.cwp := by unfold gainOwnership; split <;> rfl
@[simp] theorem gainOwnership_swp (s : State) (g : GlobalAddr) (l : Line) : (gainOwnership s g l).swp = s.swp := by unfold gainOwnership; split <;> rfl
@[simp] theorem gainOwnership_kpsw (s : State) (g : GlobalAddr) (l : Line) : (gainOwnership s g l).kpsw = s.kpsw := by unfold gainOwnership; split <;> rfl
@[simp] theorem gainOwnership_insert (s : State) (g : GlobalAddr) (l : Line) : (gainOwnership s g l).insert = s.insert := by unfold gainOwnership; split <;> rfl
@[simp] theorem gainOwnership_fpuPc (s : State) (g : GlobalAddr) (l : Line) : (gainOwnership s g l).fpuPc = s.fpuPc := by unfold gainOwnership; split <;> rfl
@[simp] theorem gainOwnership_pc (s : State) (g : GlobalAddr) (l : Line) : (gainOwnership s g l).pc = s.pc := by unfold gainOwnership; split <;> rfl
@[simp] theorem gainOwnership_nextPC (s : State) (g : GlobalAddr) (l : Line) : (gainOwnership s g l).nextPC = s.nextPC := by unfold gainOwnership; split <;> rfl
@[simp] theorem gainOwnership_trapPC (s : State) (g : GlobalAddr) (l : Line) : (gainOwnership s g l).trapPC = s.trapPC := by unfold gainOwnership; split <;> rfl
@[simp] theorem gainOwnership_trapNextPC (s : State) (g : GlobalAddr) (l : Line) : (gainOwnership s g l).trapNextPC = s.trapNextPC := by unfold gainOwnership; split <;> rfl
@[simp] theorem gainOwnership_pipe (s : State) (g : GlobalAddr) (l : Line) : (gainOwnership s g l).pipe = s.pipe := by unfold gainOwnership; split <;> rfl
@[simp] theorem gainOwnership_ib (s : State) (g : GlobalAddr) (l : Line) : (gainOwnership s g l).ib = s.ib := by unfold gainOwnership; split <;> rfl
@[simp] theorem gainOwnership_prefetch (s : State) (g : GlobalAddr) (l : Line) : (gainOwnership s g l).prefetch = s.prefetch := by unfold gainOwnership; split <;> rfl
@[simp] theorem gainOwnership_past (s : State) (g : GlobalAddr) (l : Line) : (gainOwnership s g l).past = s.past := by unfold gainOwnership; split <;> rfl
@[simp] theorem gainOwnership_fregs (s : State) (g : GlobalAddr) (l : Line) : (gainOwnership s g l).fregs = s.fregs := by unfold gainOwnership; split <;> rfl
@[simp] theorem gainOwnership_fpsw (s : State) (g : GlobalAddr) (l : Line) : (gainOwnership s g l).fpsw = s.fpsw := by unfold gainOwnership; split <;> rfl
@[simp] theorem gainOwnership_fpuRun (s : State) (g : GlobalAddr) (l : Line) : (gainOwnership s g l).fpuRun = s.fpuRun := by unfold gainOwnership; split <;> rfl
@[simp] theorem gainOwnership_fpuExcep (s : State) (g : GlobalAddr) (l : Line) : (gainOwnership s g l).fpuExcep = s.fpuExcep := by unfold gainOwnership; split <;> rfl
@[simp] theorem gainOwnership_fpuExcKind (s : State) (g : GlobalAddr) (l : Line) : (gainOwnership s g l).fpuExcKind = s.fpuExcKind := by unfold gainOwnership; split <;> rfl
@[simp] theorem gainOwnership_fpuBrTF (s : State) (g : GlobalAddr) (l : Line) : (gainOwnership s g l).fpuBrTF = s.fpuBrTF := by unfold gainOwnership; split <;> rfl
@[simp] theorem gainOwnership_gsn (s : State) (g : GlobalAddr) (l : Line) : (gainOwnership s g l).gsn = s.gsn := by unfold gainOwnership; split <;> rfl
@[simp] theorem gainOwnership_rptm (s : State) (g : GlobalAddr) (l : Line) : (gainOwnership s g l).rptm = s.rptm := by unfold gainOwnership; split <;> rfl
@[simp] theorem gainOwnership_pteva (s : State) (g : GlobalAddr) (l : Line) : (gainOwnership s g l).pteva = s.pteva := by unfold gainOwnership; split <;> rfl
@[simp] theorem gainOwnership_rpteva (s : State) (g : GlobalAddr) (l : Line) : (gainOwnership s g l).rpteva = s.rpteva := by unfold gainOwnership; split <;> rfl
@[simp] theorem gainOwnership_gva (s : State) (g : GlobalAddr) (l : Line) : (gainOwnership s g l).gva = s.gva := by unfold gainOwnership; split <;> rfl
@[simp] theorem gainOwnership_intreg (s : State) (g : GlobalAddr) (l : Line) : (gainOwnership s g l).intreg = s.intreg := by unfold gainOwnership; split <;> rfl
@[simp] theorem gainOwnership_intmask (s : State) (g : GlobalAddr) (l : Line) : (gainOwnership s g l).intmask = s.intmask := by unfold gainOwnership; split <;> rfl
@[simp] theorem gainOwnership_counter0 (s : State) (g : GlobalAddr) (l : Line) : (gainOwnership s g l).counter0 = s.counter0 := by unfold gainOwnership; split <;> rfl
@[simp] theorem gainOwnership_counter1 (s : State) (g : GlobalAddr) (l : Line) : (gainOwnership s g l).counter1 = s.counter1 := by unfold gainOwnership; split <;> rfl
@[simp] theorem gainOwnership_cache (s : State) (g : GlobalAddr) (l : Line) : (gainOwnership s g l).cache = s.cache := by unfold gainOwnership; split <;> rfl
@[simp] theorem gainOwnership_mem (s : State) (g : GlobalAddr) (l : Line) : (gainOwnership s g l).mem = s.mem := by unfold gainOwnership; split <;> rfl
@[simp] theorem gainOwnership_faultInfo (s : State) (g : GlobalAddr) (l : Line) : (gainOwnership s g l).faultInfo = s.faultInfo := by unfold gainOwnership; split <;> rfl
@[simp] theorem gainOwnership_board (s : State) (g : GlobalAddr) (l : Line) : (gainOwnership s g l).board = s.board := by unfold gainOwnership; split <;> rfl
@[simp] theorem gainOwnership_free (s : State) (g : GlobalAddr) (l : Line) : (gainOwnership s g l).free = s.free := by unfold gainOwnership; split <;> rfl

/-! #### `writeFpuWord32` -/

@[simp] theorem writeFpuWord32_globals (s : State) (n : RegField) (w : Word) : (writeFpuWord32 s n w).globals = s.globals := by unfold writeFpuWord32; split <;> simp
@[simp] theorem writeFpuWord32_windows (s : State) (n : RegField) (w : Word) : (writeFpuWord32 s n w).windows = s.windows := by unfold writeFpuWord32; split <;> simp
@[simp] theorem writeFpuWord32_upsw (s : State) (n : RegField) (w : Word) : (writeFpuWord32 s n w).upsw = s.upsw := by unfold writeFpuWord32; split <;> simp
@[simp] theorem writeFpuWord32_cwp (s : State) (n : RegField) (w : Word) : (writeFpuWord32 s n w).cwp = s.cwp := by unfold writeFpuWord32; split <;> simp
@[simp] theorem writeFpuWord32_swp (s : State) (n : RegField) (w : Word) : (writeFpuWord32 s n w).swp = s.swp := by unfold writeFpuWord32; split <;> simp
@[simp] theorem writeFpuWord32_kpsw (s : State) (n : RegField) (w : Word) : (writeFpuWord32 s n w).kpsw = s.kpsw := by unfold writeFpuWord32; split <;> simp
@[simp] theorem writeFpuWord32_insert (s : State) (n : RegField) (w : Word) : (writeFpuWord32 s n w).insert = s.insert := by unfold writeFpuWord32; split <;> simp
@[simp] theorem writeFpuWord32_fpuPc (s : State) (n : RegField) (w : Word) : (writeFpuWord32 s n w).fpuPc = s.fpuPc := by unfold writeFpuWord32; split <;> simp
@[simp] theorem writeFpuWord32_pc (s : State) (n : RegField) (w : Word) : (writeFpuWord32 s n w).pc = s.pc := by unfold writeFpuWord32; split <;> simp
@[simp] theorem writeFpuWord32_nextPC (s : State) (n : RegField) (w : Word) : (writeFpuWord32 s n w).nextPC = s.nextPC := by unfold writeFpuWord32; split <;> simp
@[simp] theorem writeFpuWord32_trapPC (s : State) (n : RegField) (w : Word) : (writeFpuWord32 s n w).trapPC = s.trapPC := by unfold writeFpuWord32; split <;> simp
@[simp] theorem writeFpuWord32_trapNextPC (s : State) (n : RegField) (w : Word) : (writeFpuWord32 s n w).trapNextPC = s.trapNextPC := by unfold writeFpuWord32; split <;> simp
@[simp] theorem writeFpuWord32_pipe (s : State) (n : RegField) (w : Word) : (writeFpuWord32 s n w).pipe = s.pipe := by unfold writeFpuWord32; split <;> simp
@[simp] theorem writeFpuWord32_ib (s : State) (n : RegField) (w : Word) : (writeFpuWord32 s n w).ib = s.ib := by unfold writeFpuWord32; split <;> simp
@[simp] theorem writeFpuWord32_prefetch (s : State) (n : RegField) (w : Word) : (writeFpuWord32 s n w).prefetch = s.prefetch := by unfold writeFpuWord32; split <;> simp
@[simp] theorem writeFpuWord32_past (s : State) (n : RegField) (w : Word) : (writeFpuWord32 s n w).past = s.past := by unfold writeFpuWord32; split <;> simp
@[simp] theorem writeFpuWord32_fpuRun (s : State) (n : RegField) (w : Word) : (writeFpuWord32 s n w).fpuRun = s.fpuRun := by unfold writeFpuWord32; split <;> simp
@[simp] theorem writeFpuWord32_fpuExcep (s : State) (n : RegField) (w : Word) : (writeFpuWord32 s n w).fpuExcep = s.fpuExcep := by unfold writeFpuWord32; split <;> simp
@[simp] theorem writeFpuWord32_fpuExcKind (s : State) (n : RegField) (w : Word) : (writeFpuWord32 s n w).fpuExcKind = s.fpuExcKind := by unfold writeFpuWord32; split <;> simp
@[simp] theorem writeFpuWord32_fpuBrTF (s : State) (n : RegField) (w : Word) : (writeFpuWord32 s n w).fpuBrTF = s.fpuBrTF := by unfold writeFpuWord32; split <;> simp
@[simp] theorem writeFpuWord32_gsn (s : State) (n : RegField) (w : Word) : (writeFpuWord32 s n w).gsn = s.gsn := by unfold writeFpuWord32; split <;> simp
@[simp] theorem writeFpuWord32_rptm (s : State) (n : RegField) (w : Word) : (writeFpuWord32 s n w).rptm = s.rptm := by unfold writeFpuWord32; split <;> simp
@[simp] theorem writeFpuWord32_pteva (s : State) (n : RegField) (w : Word) : (writeFpuWord32 s n w).pteva = s.pteva := by unfold writeFpuWord32; split <;> simp
@[simp] theorem writeFpuWord32_rpteva (s : State) (n : RegField) (w : Word) : (writeFpuWord32 s n w).rpteva = s.rpteva := by unfold writeFpuWord32; split <;> simp
@[simp] theorem writeFpuWord32_gva (s : State) (n : RegField) (w : Word) : (writeFpuWord32 s n w).gva = s.gva := by unfold writeFpuWord32; split <;> simp
@[simp] theorem writeFpuWord32_intreg (s : State) (n : RegField) (w : Word) : (writeFpuWord32 s n w).intreg = s.intreg := by unfold writeFpuWord32; split <;> simp
@[simp] theorem writeFpuWord32_intmask (s : State) (n : RegField) (w : Word) : (writeFpuWord32 s n w).intmask = s.intmask := by unfold writeFpuWord32; split <;> simp
@[simp] theorem writeFpuWord32_counter0 (s : State) (n : RegField) (w : Word) : (writeFpuWord32 s n w).counter0 = s.counter0 := by unfold writeFpuWord32; split <;> simp
@[simp] theorem writeFpuWord32_counter1 (s : State) (n : RegField) (w : Word) : (writeFpuWord32 s n w).counter1 = s.counter1 := by unfold writeFpuWord32; split <;> simp
@[simp] theorem writeFpuWord32_cache (s : State) (n : RegField) (w : Word) : (writeFpuWord32 s n w).cache = s.cache := by unfold writeFpuWord32; split <;> simp
@[simp] theorem writeFpuWord32_mem (s : State) (n : RegField) (w : Word) : (writeFpuWord32 s n w).mem = s.mem := by unfold writeFpuWord32; split <;> simp
@[simp] theorem writeFpuWord32_faultInfo (s : State) (n : RegField) (w : Word) : (writeFpuWord32 s n w).faultInfo = s.faultInfo := by unfold writeFpuWord32; split <;> simp
@[simp] theorem writeFpuWord32_board (s : State) (n : RegField) (w : Word) : (writeFpuWord32 s n w).board = s.board := by unfold writeFpuWord32; split <;> simp
@[simp] theorem writeFpuWord32_free (s : State) (n : RegField) (w : Word) : (writeFpuWord32 s n w).free = s.free := by unfold writeFpuWord32; split <;> simp
@[simp] theorem writeFpuWord32_remote (s : State) (n : RegField) (w : Word) : (writeFpuWord32 s n w).remote = s.remote := by unfold writeFpuWord32; split <;> simp

/-! #### `dropLine` -/

@[simp] theorem dropLine_globals (s : State) (g : GlobalAddr) : (dropLine s g).globals = s.globals := rfl
@[simp] theorem dropLine_windows (s : State) (g : GlobalAddr) : (dropLine s g).windows = s.windows := rfl
@[simp] theorem dropLine_upsw (s : State) (g : GlobalAddr) : (dropLine s g).upsw = s.upsw := rfl
@[simp] theorem dropLine_cwp (s : State) (g : GlobalAddr) : (dropLine s g).cwp = s.cwp := rfl
@[simp] theorem dropLine_swp (s : State) (g : GlobalAddr) : (dropLine s g).swp = s.swp := rfl
@[simp] theorem dropLine_kpsw (s : State) (g : GlobalAddr) : (dropLine s g).kpsw = s.kpsw := rfl
@[simp] theorem dropLine_insert (s : State) (g : GlobalAddr) : (dropLine s g).insert = s.insert := rfl
@[simp] theorem dropLine_fpuPc (s : State) (g : GlobalAddr) : (dropLine s g).fpuPc = s.fpuPc := rfl
@[simp] theorem dropLine_pc (s : State) (g : GlobalAddr) : (dropLine s g).pc = s.pc := rfl
@[simp] theorem dropLine_nextPC (s : State) (g : GlobalAddr) : (dropLine s g).nextPC = s.nextPC := rfl
@[simp] theorem dropLine_trapPC (s : State) (g : GlobalAddr) : (dropLine s g).trapPC = s.trapPC := rfl
@[simp] theorem dropLine_trapNextPC (s : State) (g : GlobalAddr) : (dropLine s g).trapNextPC = s.trapNextPC := rfl
@[simp] theorem dropLine_pipe (s : State) (g : GlobalAddr) : (dropLine s g).pipe = s.pipe := rfl
@[simp] theorem dropLine_ib (s : State) (g : GlobalAddr) : (dropLine s g).ib = s.ib := rfl
@[simp] theorem dropLine_prefetch (s : State) (g : GlobalAddr) : (dropLine s g).prefetch = s.prefetch := rfl
@[simp] theorem dropLine_past (s : State) (g : GlobalAddr) : (dropLine s g).past = s.past := rfl
@[simp] theorem dropLine_fregs (s : State) (g : GlobalAddr) : (dropLine s g).fregs = s.fregs := rfl
@[simp] theorem dropLine_fpsw (s : State) (g : GlobalAddr) : (dropLine s g).fpsw = s.fpsw := rfl
@[simp] theorem dropLine_fpuRun (s : State) (g : GlobalAddr) : (dropLine s g).fpuRun = s.fpuRun := rfl
@[simp] theorem dropLine_fpuExcep (s : State) (g : GlobalAddr) : (dropLine s g).fpuExcep = s.fpuExcep := rfl
@[simp] theorem dropLine_fpuExcKind (s : State) (g : GlobalAddr) : (dropLine s g).fpuExcKind = s.fpuExcKind := rfl
@[simp] theorem dropLine_fpuBrTF (s : State) (g : GlobalAddr) : (dropLine s g).fpuBrTF = s.fpuBrTF := rfl
@[simp] theorem dropLine_gsn (s : State) (g : GlobalAddr) : (dropLine s g).gsn = s.gsn := rfl
@[simp] theorem dropLine_rptm (s : State) (g : GlobalAddr) : (dropLine s g).rptm = s.rptm := rfl
@[simp] theorem dropLine_pteva (s : State) (g : GlobalAddr) : (dropLine s g).pteva = s.pteva := rfl
@[simp] theorem dropLine_rpteva (s : State) (g : GlobalAddr) : (dropLine s g).rpteva = s.rpteva := rfl
@[simp] theorem dropLine_gva (s : State) (g : GlobalAddr) : (dropLine s g).gva = s.gva := rfl
@[simp] theorem dropLine_intreg (s : State) (g : GlobalAddr) : (dropLine s g).intreg = s.intreg := rfl
@[simp] theorem dropLine_intmask (s : State) (g : GlobalAddr) : (dropLine s g).intmask = s.intmask := rfl
@[simp] theorem dropLine_counter0 (s : State) (g : GlobalAddr) : (dropLine s g).counter0 = s.counter0 := rfl
@[simp] theorem dropLine_counter1 (s : State) (g : GlobalAddr) : (dropLine s g).counter1 = s.counter1 := rfl
@[simp] theorem dropLine_cache (s : State) (g : GlobalAddr) : (dropLine s g).cache = lineDrop s.cache (lineIndex g) := rfl
@[simp] theorem dropLine_mem (s : State) (g : GlobalAddr) : (dropLine s g).mem = s.mem := rfl
@[simp] theorem dropLine_faultInfo (s : State) (g : GlobalAddr) : (dropLine s g).faultInfo = s.faultInfo := rfl
@[simp] theorem dropLine_board (s : State) (g : GlobalAddr) : (dropLine s g).board = s.board := rfl
@[simp] theorem dropLine_free (s : State) (g : GlobalAddr) : (dropLine s g).free = s.free := rfl
@[simp] theorem dropLine_remote (s : State) (g : GlobalAddr) : (dropLine s g).remote = s.remote := rfl

/-! #### `ownerSupplied` -/

@[simp] theorem ownerSupplied_globals (s : State) (g : GlobalAddr) (r : RemoteLine) (b : Bool) : (ownerSupplied s g r b).globals = s.globals := by unfold ownerSupplied; split <;> rfl
@[simp] theorem ownerSupplied_windows (s : State) (g : GlobalAddr) (r : RemoteLine) (b : Bool) : (ownerSupplied s g r b).windows = s.windows := by unfold ownerSupplied; split <;> rfl
@[simp] theorem ownerSupplied_upsw (s : State) (g : GlobalAddr) (r : RemoteLine) (b : Bool) : (ownerSupplied s g r b).upsw = s.upsw := by unfold ownerSupplied; split <;> rfl
@[simp] theorem ownerSupplied_cwp (s : State) (g : GlobalAddr) (r : RemoteLine) (b : Bool) : (ownerSupplied s g r b).cwp = s.cwp := by unfold ownerSupplied; split <;> rfl
@[simp] theorem ownerSupplied_swp (s : State) (g : GlobalAddr) (r : RemoteLine) (b : Bool) : (ownerSupplied s g r b).swp = s.swp := by unfold ownerSupplied; split <;> rfl
@[simp] theorem ownerSupplied_kpsw (s : State) (g : GlobalAddr) (r : RemoteLine) (b : Bool) : (ownerSupplied s g r b).kpsw = s.kpsw := by unfold ownerSupplied; split <;> rfl
@[simp] theorem ownerSupplied_insert (s : State) (g : GlobalAddr) (r : RemoteLine) (b : Bool) : (ownerSupplied s g r b).insert = s.insert := by unfold ownerSupplied; split <;> rfl
@[simp] theorem ownerSupplied_fpuPc (s : State) (g : GlobalAddr) (r : RemoteLine) (b : Bool) : (ownerSupplied s g r b).fpuPc = s.fpuPc := by unfold ownerSupplied; split <;> rfl
@[simp] theorem ownerSupplied_pc (s : State) (g : GlobalAddr) (r : RemoteLine) (b : Bool) : (ownerSupplied s g r b).pc = s.pc := by unfold ownerSupplied; split <;> rfl
@[simp] theorem ownerSupplied_nextPC (s : State) (g : GlobalAddr) (r : RemoteLine) (b : Bool) : (ownerSupplied s g r b).nextPC = s.nextPC := by unfold ownerSupplied; split <;> rfl
@[simp] theorem ownerSupplied_trapPC (s : State) (g : GlobalAddr) (r : RemoteLine) (b : Bool) : (ownerSupplied s g r b).trapPC = s.trapPC := by unfold ownerSupplied; split <;> rfl
@[simp] theorem ownerSupplied_trapNextPC (s : State) (g : GlobalAddr) (r : RemoteLine) (b : Bool) : (ownerSupplied s g r b).trapNextPC = s.trapNextPC := by unfold ownerSupplied; split <;> rfl
@[simp] theorem ownerSupplied_pipe (s : State) (g : GlobalAddr) (r : RemoteLine) (b : Bool) : (ownerSupplied s g r b).pipe = s.pipe := by unfold ownerSupplied; split <;> rfl
@[simp] theorem ownerSupplied_ib (s : State) (g : GlobalAddr) (r : RemoteLine) (b : Bool) : (ownerSupplied s g r b).ib = s.ib := by unfold ownerSupplied; split <;> rfl
@[simp] theorem ownerSupplied_prefetch (s : State) (g : GlobalAddr) (r : RemoteLine) (b : Bool) : (ownerSupplied s g r b).prefetch = s.prefetch := by unfold ownerSupplied; split <;> rfl
@[simp] theorem ownerSupplied_past (s : State) (g : GlobalAddr) (r : RemoteLine) (b : Bool) : (ownerSupplied s g r b).past = s.past := by unfold ownerSupplied; split <;> rfl
@[simp] theorem ownerSupplied_fregs (s : State) (g : GlobalAddr) (r : RemoteLine) (b : Bool) : (ownerSupplied s g r b).fregs = s.fregs := by unfold ownerSupplied; split <;> rfl
@[simp] theorem ownerSupplied_fpsw (s : State) (g : GlobalAddr) (r : RemoteLine) (b : Bool) : (ownerSupplied s g r b).fpsw = s.fpsw := by unfold ownerSupplied; split <;> rfl
@[simp] theorem ownerSupplied_fpuRun (s : State) (g : GlobalAddr) (r : RemoteLine) (b : Bool) : (ownerSupplied s g r b).fpuRun = s.fpuRun := by unfold ownerSupplied; split <;> rfl
@[simp] theorem ownerSupplied_fpuExcep (s : State) (g : GlobalAddr) (r : RemoteLine) (b : Bool) : (ownerSupplied s g r b).fpuExcep = s.fpuExcep := by unfold ownerSupplied; split <;> rfl
@[simp] theorem ownerSupplied_fpuExcKind (s : State) (g : GlobalAddr) (r : RemoteLine) (b : Bool) : (ownerSupplied s g r b).fpuExcKind = s.fpuExcKind := by unfold ownerSupplied; split <;> rfl
@[simp] theorem ownerSupplied_fpuBrTF (s : State) (g : GlobalAddr) (r : RemoteLine) (b : Bool) : (ownerSupplied s g r b).fpuBrTF = s.fpuBrTF := by unfold ownerSupplied; split <;> rfl
@[simp] theorem ownerSupplied_gsn (s : State) (g : GlobalAddr) (r : RemoteLine) (b : Bool) : (ownerSupplied s g r b).gsn = s.gsn := by unfold ownerSupplied; split <;> rfl
@[simp] theorem ownerSupplied_rptm (s : State) (g : GlobalAddr) (r : RemoteLine) (b : Bool) : (ownerSupplied s g r b).rptm = s.rptm := by unfold ownerSupplied; split <;> rfl
@[simp] theorem ownerSupplied_pteva (s : State) (g : GlobalAddr) (r : RemoteLine) (b : Bool) : (ownerSupplied s g r b).pteva = s.pteva := by unfold ownerSupplied; split <;> rfl
@[simp] theorem ownerSupplied_rpteva (s : State) (g : GlobalAddr) (r : RemoteLine) (b : Bool) : (ownerSupplied s g r b).rpteva = s.rpteva := by unfold ownerSupplied; split <;> rfl
@[simp] theorem ownerSupplied_gva (s : State) (g : GlobalAddr) (r : RemoteLine) (b : Bool) : (ownerSupplied s g r b).gva = s.gva := by unfold ownerSupplied; split <;> rfl
@[simp] theorem ownerSupplied_intreg (s : State) (g : GlobalAddr) (r : RemoteLine) (b : Bool) : (ownerSupplied s g r b).intreg = s.intreg := by unfold ownerSupplied; split <;> rfl
@[simp] theorem ownerSupplied_intmask (s : State) (g : GlobalAddr) (r : RemoteLine) (b : Bool) : (ownerSupplied s g r b).intmask = s.intmask := by unfold ownerSupplied; split <;> rfl
@[simp] theorem ownerSupplied_counter0 (s : State) (g : GlobalAddr) (r : RemoteLine) (b : Bool) : (ownerSupplied s g r b).counter0 = s.counter0 := by unfold ownerSupplied; split <;> rfl
@[simp] theorem ownerSupplied_counter1 (s : State) (g : GlobalAddr) (r : RemoteLine) (b : Bool) : (ownerSupplied s g r b).counter1 = s.counter1 := by unfold ownerSupplied; split <;> rfl
@[simp] theorem ownerSupplied_cache (s : State) (g : GlobalAddr) (r : RemoteLine) (b : Bool) : (ownerSupplied s g r b).cache = s.cache := by unfold ownerSupplied; split <;> rfl
@[simp] theorem ownerSupplied_mem (s : State) (g : GlobalAddr) (r : RemoteLine) (b : Bool) : (ownerSupplied s g r b).mem = s.mem := by unfold ownerSupplied; split <;> rfl
@[simp] theorem ownerSupplied_faultInfo (s : State) (g : GlobalAddr) (r : RemoteLine) (b : Bool) : (ownerSupplied s g r b).faultInfo = s.faultInfo := by unfold ownerSupplied; split <;> rfl
@[simp] theorem ownerSupplied_board (s : State) (g : GlobalAddr) (r : RemoteLine) (b : Bool) : (ownerSupplied s g r b).board = s.board := by unfold ownerSupplied; split <;> rfl
@[simp] theorem ownerSupplied_free (s : State) (g : GlobalAddr) (r : RemoteLine) (b : Bool) : (ownerSupplied s g r b).free = s.free := by unfold ownerSupplied; split <;> rfl

/-! #### `recordView` -/

@[simp] theorem recordView_globals (s : State) : (recordView s).globals = s.globals := rfl
@[simp] theorem recordView_windows (s : State) : (recordView s).windows = s.windows := rfl
@[simp] theorem recordView_upsw (s : State) : (recordView s).upsw = s.upsw := rfl
@[simp] theorem recordView_cwp (s : State) : (recordView s).cwp = s.cwp := rfl
@[simp] theorem recordView_swp (s : State) : (recordView s).swp = s.swp := rfl
@[simp] theorem recordView_kpsw (s : State) : (recordView s).kpsw = s.kpsw := rfl
@[simp] theorem recordView_insert (s : State) : (recordView s).insert = s.insert := rfl
@[simp] theorem recordView_fpuPc (s : State) : (recordView s).fpuPc = s.fpuPc := rfl
@[simp] theorem recordView_pc (s : State) : (recordView s).pc = s.pc := rfl
@[simp] theorem recordView_nextPC (s : State) : (recordView s).nextPC = s.nextPC := rfl
@[simp] theorem recordView_trapPC (s : State) : (recordView s).trapPC = s.trapPC := rfl
@[simp] theorem recordView_trapNextPC (s : State) : (recordView s).trapNextPC = s.trapNextPC := rfl
@[simp] theorem recordView_pipe (s : State) : (recordView s).pipe = s.pipe := rfl
@[simp] theorem recordView_ib (s : State) : (recordView s).ib = s.ib := rfl
@[simp] theorem recordView_prefetch (s : State) : (recordView s).prefetch = s.prefetch := rfl
@[simp] theorem recordView_past (s : State) : (recordView s).past = fetchView s :: s.past := rfl
@[simp] theorem recordView_fregs (s : State) : (recordView s).fregs = s.fregs := rfl
@[simp] theorem recordView_fpsw (s : State) : (recordView s).fpsw = s.fpsw := rfl
@[simp] theorem recordView_fpuRun (s : State) : (recordView s).fpuRun = s.fpuRun := rfl
@[simp] theorem recordView_fpuExcep (s : State) : (recordView s).fpuExcep = s.fpuExcep := rfl
@[simp] theorem recordView_fpuExcKind (s : State) : (recordView s).fpuExcKind = s.fpuExcKind := rfl
@[simp] theorem recordView_fpuBrTF (s : State) : (recordView s).fpuBrTF = s.fpuBrTF := rfl
@[simp] theorem recordView_gsn (s : State) : (recordView s).gsn = s.gsn := rfl
@[simp] theorem recordView_rptm (s : State) : (recordView s).rptm = s.rptm := rfl
@[simp] theorem recordView_pteva (s : State) : (recordView s).pteva = s.pteva := rfl
@[simp] theorem recordView_rpteva (s : State) : (recordView s).rpteva = s.rpteva := rfl
@[simp] theorem recordView_gva (s : State) : (recordView s).gva = s.gva := rfl
@[simp] theorem recordView_intreg (s : State) : (recordView s).intreg = s.intreg := rfl
@[simp] theorem recordView_intmask (s : State) : (recordView s).intmask = s.intmask := rfl
@[simp] theorem recordView_counter0 (s : State) : (recordView s).counter0 = s.counter0 := rfl
@[simp] theorem recordView_counter1 (s : State) : (recordView s).counter1 = s.counter1 := rfl
@[simp] theorem recordView_cache (s : State) : (recordView s).cache = s.cache := rfl
@[simp] theorem recordView_remote (s : State) : (recordView s).remote = s.remote := rfl
@[simp] theorem recordView_mem (s : State) : (recordView s).mem = s.mem := rfl
@[simp] theorem recordView_faultInfo (s : State) : (recordView s).faultInfo = s.faultInfo := rfl
@[simp] theorem recordView_board (s : State) : (recordView s).board = s.board := rfl
@[simp] theorem recordView_free (s : State) : (recordView s).free = s.free := rfl

/-! #### `eachBlock` -/

@[simp] theorem eachBlock_globals (s : State) (f : IbBlock → IbBlock) : (eachBlock s f).globals = s.globals := by simp only [eachBlock]
@[simp] theorem eachBlock_windows (s : State) (f : IbBlock → IbBlock) : (eachBlock s f).windows = s.windows := by simp only [eachBlock]
@[simp] theorem eachBlock_upsw (s : State) (f : IbBlock → IbBlock) : (eachBlock s f).upsw = s.upsw := by simp only [eachBlock]
@[simp] theorem eachBlock_cwp (s : State) (f : IbBlock → IbBlock) : (eachBlock s f).cwp = s.cwp := by simp only [eachBlock]
@[simp] theorem eachBlock_swp (s : State) (f : IbBlock → IbBlock) : (eachBlock s f).swp = s.swp := by simp only [eachBlock]
@[simp] theorem eachBlock_kpsw (s : State) (f : IbBlock → IbBlock) : (eachBlock s f).kpsw = s.kpsw := by simp only [eachBlock]
@[simp] theorem eachBlock_insert (s : State) (f : IbBlock → IbBlock) : (eachBlock s f).insert = s.insert := by simp only [eachBlock]
@[simp] theorem eachBlock_fpuPc (s : State) (f : IbBlock → IbBlock) : (eachBlock s f).fpuPc = s.fpuPc := by simp only [eachBlock]
@[simp] theorem eachBlock_pc (s : State) (f : IbBlock → IbBlock) : (eachBlock s f).pc = s.pc := by simp only [eachBlock]
@[simp] theorem eachBlock_nextPC (s : State) (f : IbBlock → IbBlock) : (eachBlock s f).nextPC = s.nextPC := by simp only [eachBlock]
@[simp] theorem eachBlock_trapPC (s : State) (f : IbBlock → IbBlock) : (eachBlock s f).trapPC = s.trapPC := by simp only [eachBlock]
@[simp] theorem eachBlock_trapNextPC (s : State) (f : IbBlock → IbBlock) : (eachBlock s f).trapNextPC = s.trapNextPC := by simp only [eachBlock]
@[simp] theorem eachBlock_pipe (s : State) (f : IbBlock → IbBlock) : (eachBlock s f).pipe = s.pipe := by simp only [eachBlock]
@[simp] theorem eachBlock_prefetch (s : State) (f : IbBlock → IbBlock) : (eachBlock s f).prefetch = s.prefetch := by simp only [eachBlock]
@[simp] theorem eachBlock_past (s : State) (f : IbBlock → IbBlock) : (eachBlock s f).past = s.past := by simp only [eachBlock]
@[simp] theorem eachBlock_fregs (s : State) (f : IbBlock → IbBlock) : (eachBlock s f).fregs = s.fregs := by simp only [eachBlock]
@[simp] theorem eachBlock_fpsw (s : State) (f : IbBlock → IbBlock) : (eachBlock s f).fpsw = s.fpsw := by simp only [eachBlock]
@[simp] theorem eachBlock_fpuRun (s : State) (f : IbBlock → IbBlock) : (eachBlock s f).fpuRun = s.fpuRun := by simp only [eachBlock]
@[simp] theorem eachBlock_fpuExcep (s : State) (f : IbBlock → IbBlock) : (eachBlock s f).fpuExcep = s.fpuExcep := by simp only [eachBlock]
@[simp] theorem eachBlock_fpuExcKind (s : State) (f : IbBlock → IbBlock) : (eachBlock s f).fpuExcKind = s.fpuExcKind := by simp only [eachBlock]
@[simp] theorem eachBlock_fpuBrTF (s : State) (f : IbBlock → IbBlock) : (eachBlock s f).fpuBrTF = s.fpuBrTF := by simp only [eachBlock]
@[simp] theorem eachBlock_gsn (s : State) (f : IbBlock → IbBlock) : (eachBlock s f).gsn = s.gsn := by simp only [eachBlock]
@[simp] theorem eachBlock_rptm (s : State) (f : IbBlock → IbBlock) : (eachBlock s f).rptm = s.rptm := by simp only [eachBlock]
@[simp] theorem eachBlock_pteva (s : State) (f : IbBlock → IbBlock) : (eachBlock s f).pteva = s.pteva := by simp only [eachBlock]
@[simp] theorem eachBlock_rpteva (s : State) (f : IbBlock → IbBlock) : (eachBlock s f).rpteva = s.rpteva := by simp only [eachBlock]
@[simp] theorem eachBlock_gva (s : State) (f : IbBlock → IbBlock) : (eachBlock s f).gva = s.gva := by simp only [eachBlock]
@[simp] theorem eachBlock_intreg (s : State) (f : IbBlock → IbBlock) : (eachBlock s f).intreg = s.intreg := by simp only [eachBlock]
@[simp] theorem eachBlock_intmask (s : State) (f : IbBlock → IbBlock) : (eachBlock s f).intmask = s.intmask := by simp only [eachBlock]
@[simp] theorem eachBlock_counter0 (s : State) (f : IbBlock → IbBlock) : (eachBlock s f).counter0 = s.counter0 := by simp only [eachBlock]
@[simp] theorem eachBlock_counter1 (s : State) (f : IbBlock → IbBlock) : (eachBlock s f).counter1 = s.counter1 := by simp only [eachBlock]
@[simp] theorem eachBlock_cache (s : State) (f : IbBlock → IbBlock) : (eachBlock s f).cache = s.cache := by simp only [eachBlock]
@[simp] theorem eachBlock_remote (s : State) (f : IbBlock → IbBlock) : (eachBlock s f).remote = s.remote := by simp only [eachBlock]
@[simp] theorem eachBlock_mem (s : State) (f : IbBlock → IbBlock) : (eachBlock s f).mem = s.mem := by simp only [eachBlock]
@[simp] theorem eachBlock_faultInfo (s : State) (f : IbBlock → IbBlock) : (eachBlock s f).faultInfo = s.faultInfo := by simp only [eachBlock]
@[simp] theorem eachBlock_board (s : State) (f : IbBlock → IbBlock) : (eachBlock s f).board = s.board := by simp only [eachBlock]
@[simp] theorem eachBlock_free (s : State) (f : IbBlock → IbBlock) : (eachBlock s f).free = s.free := by simp only [eachBlock]

/-! #### `clearIb` -/

@[simp] theorem clearIb_globals (s : State) : (clearIb s).globals = s.globals := by simp [clearIb]
@[simp] theorem clearIb_windows (s : State) : (clearIb s).windows = s.windows := by simp [clearIb]
@[simp] theorem clearIb_upsw (s : State) : (clearIb s).upsw = s.upsw := by simp [clearIb]
@[simp] theorem clearIb_cwp (s : State) : (clearIb s).cwp = s.cwp := by simp [clearIb]
@[simp] theorem clearIb_swp (s : State) : (clearIb s).swp = s.swp := by simp [clearIb]
@[simp] theorem clearIb_kpsw (s : State) : (clearIb s).kpsw = s.kpsw := by simp [clearIb]
@[simp] theorem clearIb_insert (s : State) : (clearIb s).insert = s.insert := by simp [clearIb]
@[simp] theorem clearIb_fpuPc (s : State) : (clearIb s).fpuPc = s.fpuPc := by simp [clearIb]
@[simp] theorem clearIb_pc (s : State) : (clearIb s).pc = s.pc := by simp [clearIb]
@[simp] theorem clearIb_nextPC (s : State) : (clearIb s).nextPC = s.nextPC := by simp [clearIb]
@[simp] theorem clearIb_trapPC (s : State) : (clearIb s).trapPC = s.trapPC := by simp [clearIb]
@[simp] theorem clearIb_trapNextPC (s : State) : (clearIb s).trapNextPC = s.trapNextPC := by simp [clearIb]
@[simp] theorem clearIb_pipe (s : State) : (clearIb s).pipe = s.pipe := by simp [clearIb]
@[simp] theorem clearIb_prefetch (s : State) : (clearIb s).prefetch = s.prefetch := by simp [clearIb]
@[simp] theorem clearIb_past (s : State) : (clearIb s).past = s.past := by simp [clearIb]
@[simp] theorem clearIb_fregs (s : State) : (clearIb s).fregs = s.fregs := by simp [clearIb]
@[simp] theorem clearIb_fpsw (s : State) : (clearIb s).fpsw = s.fpsw := by simp [clearIb]
@[simp] theorem clearIb_fpuRun (s : State) : (clearIb s).fpuRun = s.fpuRun := by simp [clearIb]
@[simp] theorem clearIb_fpuExcep (s : State) : (clearIb s).fpuExcep = s.fpuExcep := by simp [clearIb]
@[simp] theorem clearIb_fpuExcKind (s : State) : (clearIb s).fpuExcKind = s.fpuExcKind := by simp [clearIb]
@[simp] theorem clearIb_fpuBrTF (s : State) : (clearIb s).fpuBrTF = s.fpuBrTF := by simp [clearIb]
@[simp] theorem clearIb_gsn (s : State) : (clearIb s).gsn = s.gsn := by simp [clearIb]
@[simp] theorem clearIb_rptm (s : State) : (clearIb s).rptm = s.rptm := by simp [clearIb]
@[simp] theorem clearIb_pteva (s : State) : (clearIb s).pteva = s.pteva := by simp [clearIb]
@[simp] theorem clearIb_rpteva (s : State) : (clearIb s).rpteva = s.rpteva := by simp [clearIb]
@[simp] theorem clearIb_gva (s : State) : (clearIb s).gva = s.gva := by simp [clearIb]
@[simp] theorem clearIb_intreg (s : State) : (clearIb s).intreg = s.intreg := by simp [clearIb]
@[simp] theorem clearIb_intmask (s : State) : (clearIb s).intmask = s.intmask := by simp [clearIb]
@[simp] theorem clearIb_counter0 (s : State) : (clearIb s).counter0 = s.counter0 := by simp [clearIb]
@[simp] theorem clearIb_counter1 (s : State) : (clearIb s).counter1 = s.counter1 := by simp [clearIb]
@[simp] theorem clearIb_cache (s : State) : (clearIb s).cache = s.cache := by simp [clearIb]
@[simp] theorem clearIb_remote (s : State) : (clearIb s).remote = s.remote := by simp [clearIb]
@[simp] theorem clearIb_mem (s : State) : (clearIb s).mem = s.mem := by simp [clearIb]
@[simp] theorem clearIb_faultInfo (s : State) : (clearIb s).faultInfo = s.faultInfo := by simp [clearIb]
@[simp] theorem clearIb_board (s : State) : (clearIb s).board = s.board := by simp [clearIb]
@[simp] theorem clearIb_free (s : State) : (clearIb s).free = s.free := by simp [clearIb]

/-! #### `emptyBuffer` -/

@[simp] theorem emptyBuffer_globals (s : State) : (emptyBuffer s).globals = s.globals := by simp [emptyBuffer]
@[simp] theorem emptyBuffer_windows (s : State) : (emptyBuffer s).windows = s.windows := by simp [emptyBuffer]
@[simp] theorem emptyBuffer_upsw (s : State) : (emptyBuffer s).upsw = s.upsw := by simp [emptyBuffer]
@[simp] theorem emptyBuffer_cwp (s : State) : (emptyBuffer s).cwp = s.cwp := by simp [emptyBuffer]
@[simp] theorem emptyBuffer_swp (s : State) : (emptyBuffer s).swp = s.swp := by simp [emptyBuffer]
@[simp] theorem emptyBuffer_kpsw (s : State) : (emptyBuffer s).kpsw = s.kpsw := by simp [emptyBuffer]
@[simp] theorem emptyBuffer_insert (s : State) : (emptyBuffer s).insert = s.insert := by simp [emptyBuffer]
@[simp] theorem emptyBuffer_fpuPc (s : State) : (emptyBuffer s).fpuPc = s.fpuPc := by simp [emptyBuffer]
@[simp] theorem emptyBuffer_pc (s : State) : (emptyBuffer s).pc = s.pc := by simp [emptyBuffer]
@[simp] theorem emptyBuffer_nextPC (s : State) : (emptyBuffer s).nextPC = s.nextPC := by simp [emptyBuffer]
@[simp] theorem emptyBuffer_trapPC (s : State) : (emptyBuffer s).trapPC = s.trapPC := by simp [emptyBuffer]
@[simp] theorem emptyBuffer_trapNextPC (s : State) : (emptyBuffer s).trapNextPC = s.trapNextPC := by simp [emptyBuffer]
@[simp] theorem emptyBuffer_pipe (s : State) : (emptyBuffer s).pipe = s.pipe := by simp [emptyBuffer]
@[simp] theorem emptyBuffer_prefetch (s : State) : (emptyBuffer s).prefetch = s.prefetch := by simp [emptyBuffer]
@[simp] theorem emptyBuffer_past (s : State) : (emptyBuffer s).past = [] := by simp [emptyBuffer]
@[simp] theorem emptyBuffer_fregs (s : State) : (emptyBuffer s).fregs = s.fregs := by simp [emptyBuffer]
@[simp] theorem emptyBuffer_fpsw (s : State) : (emptyBuffer s).fpsw = s.fpsw := by simp [emptyBuffer]
@[simp] theorem emptyBuffer_fpuRun (s : State) : (emptyBuffer s).fpuRun = s.fpuRun := by simp [emptyBuffer]
@[simp] theorem emptyBuffer_fpuExcep (s : State) : (emptyBuffer s).fpuExcep = s.fpuExcep := by simp [emptyBuffer]
@[simp] theorem emptyBuffer_fpuExcKind (s : State) : (emptyBuffer s).fpuExcKind = s.fpuExcKind := by simp [emptyBuffer]
@[simp] theorem emptyBuffer_fpuBrTF (s : State) : (emptyBuffer s).fpuBrTF = s.fpuBrTF := by simp [emptyBuffer]
@[simp] theorem emptyBuffer_gsn (s : State) : (emptyBuffer s).gsn = s.gsn := by simp [emptyBuffer]
@[simp] theorem emptyBuffer_rptm (s : State) : (emptyBuffer s).rptm = s.rptm := by simp [emptyBuffer]
@[simp] theorem emptyBuffer_pteva (s : State) : (emptyBuffer s).pteva = s.pteva := by simp [emptyBuffer]
@[simp] theorem emptyBuffer_rpteva (s : State) : (emptyBuffer s).rpteva = s.rpteva := by simp [emptyBuffer]
@[simp] theorem emptyBuffer_gva (s : State) : (emptyBuffer s).gva = s.gva := by simp [emptyBuffer]
@[simp] theorem emptyBuffer_intreg (s : State) : (emptyBuffer s).intreg = s.intreg := by simp [emptyBuffer]
@[simp] theorem emptyBuffer_intmask (s : State) : (emptyBuffer s).intmask = s.intmask := by simp [emptyBuffer]
@[simp] theorem emptyBuffer_counter0 (s : State) : (emptyBuffer s).counter0 = s.counter0 := by simp [emptyBuffer]
@[simp] theorem emptyBuffer_counter1 (s : State) : (emptyBuffer s).counter1 = s.counter1 := by simp [emptyBuffer]
@[simp] theorem emptyBuffer_cache (s : State) : (emptyBuffer s).cache = s.cache := by simp [emptyBuffer]
@[simp] theorem emptyBuffer_remote (s : State) : (emptyBuffer s).remote = s.remote := by simp [emptyBuffer]
@[simp] theorem emptyBuffer_mem (s : State) : (emptyBuffer s).mem = s.mem := by simp [emptyBuffer]
@[simp] theorem emptyBuffer_faultInfo (s : State) : (emptyBuffer s).faultInfo = s.faultInfo := by simp [emptyBuffer]
@[simp] theorem emptyBuffer_board (s : State) : (emptyBuffer s).board = s.board := by simp [emptyBuffer]
@[simp] theorem emptyBuffer_free (s : State) : (emptyBuffer s).free = s.free := by simp [emptyBuffer]

/-! #### `finishInvalidate` -/

@[simp] theorem finishInvalidate_globals (s : State) : (finishInvalidate s).globals = s.globals := by simp [finishInvalidate]
@[simp] theorem finishInvalidate_windows (s : State) : (finishInvalidate s).windows = s.windows := by simp [finishInvalidate]
@[simp] theorem finishInvalidate_upsw (s : State) : (finishInvalidate s).upsw = s.upsw := by simp [finishInvalidate]
@[simp] theorem finishInvalidate_cwp (s : State) : (finishInvalidate s).cwp = s.cwp := by simp [finishInvalidate]
@[simp] theorem finishInvalidate_swp (s : State) : (finishInvalidate s).swp = s.swp := by simp [finishInvalidate]
@[simp] theorem finishInvalidate_kpsw (s : State) : (finishInvalidate s).kpsw = applyRet s.kpsw s.pipe.retPend := by simp [finishInvalidate]
@[simp] theorem finishInvalidate_insert (s : State) : (finishInvalidate s).insert = s.insert := by simp [finishInvalidate]
@[simp] theorem finishInvalidate_fpuPc (s : State) : (finishInvalidate s).fpuPc = s.fpuPc := by simp [finishInvalidate]
@[simp] theorem finishInvalidate_pc (s : State) : (finishInvalidate s).pc = s.nextPC := by simp [finishInvalidate]
@[simp] theorem finishInvalidate_nextPC (s : State) : (finishInvalidate s).nextPC = s.nextPC + 4#32 := by simp [finishInvalidate]
@[simp] theorem finishInvalidate_trapPC (s : State) : (finishInvalidate s).trapPC = s.trapPC := by simp [finishInvalidate]
@[simp] theorem finishInvalidate_trapNextPC (s : State) : (finishInvalidate s).trapNextPC = s.trapNextPC := by simp [finishInvalidate]
@[simp] theorem finishInvalidate_pipe (s : State) : (finishInvalidate s).pipe = { Pipe.idle with ready := fetchedAhead s } := by simp [finishInvalidate]
@[simp] theorem finishInvalidate_prefetch (s : State) : (finishInvalidate s).prefetch = s.prefetch := by simp [finishInvalidate]
@[simp] theorem finishInvalidate_past (s : State) : (finishInvalidate s).past = [] := by simp [finishInvalidate]
@[simp] theorem finishInvalidate_fregs (s : State) : (finishInvalidate s).fregs = s.fregs := by simp [finishInvalidate]
@[simp] theorem finishInvalidate_fpsw (s : State) : (finishInvalidate s).fpsw = s.fpsw := by simp [finishInvalidate]
@[simp] theorem finishInvalidate_fpuRun (s : State) : (finishInvalidate s).fpuRun = s.fpuRun := by simp [finishInvalidate]
@[simp] theorem finishInvalidate_fpuExcep (s : State) : (finishInvalidate s).fpuExcep = s.fpuExcep := by simp [finishInvalidate]
@[simp] theorem finishInvalidate_fpuExcKind (s : State) : (finishInvalidate s).fpuExcKind = s.fpuExcKind := by simp [finishInvalidate]
@[simp] theorem finishInvalidate_fpuBrTF (s : State) : (finishInvalidate s).fpuBrTF = s.fpuBrTF := by simp [finishInvalidate]
@[simp] theorem finishInvalidate_gsn (s : State) : (finishInvalidate s).gsn = s.gsn := by simp [finishInvalidate]
@[simp] theorem finishInvalidate_rptm (s : State) : (finishInvalidate s).rptm = s.rptm := by simp [finishInvalidate]
@[simp] theorem finishInvalidate_pteva (s : State) : (finishInvalidate s).pteva = s.pteva := by simp [finishInvalidate]
@[simp] theorem finishInvalidate_rpteva (s : State) : (finishInvalidate s).rpteva = s.rpteva := by simp [finishInvalidate]
@[simp] theorem finishInvalidate_gva (s : State) : (finishInvalidate s).gva = s.gva := by simp [finishInvalidate]
@[simp] theorem finishInvalidate_intreg (s : State) : (finishInvalidate s).intreg = s.intreg := by simp [finishInvalidate]
@[simp] theorem finishInvalidate_intmask (s : State) : (finishInvalidate s).intmask = s.intmask := by simp [finishInvalidate]
@[simp] theorem finishInvalidate_counter0 (s : State) : (finishInvalidate s).counter0 = s.counter0 := by simp [finishInvalidate]
@[simp] theorem finishInvalidate_counter1 (s : State) : (finishInvalidate s).counter1 = s.counter1 := by simp [finishInvalidate]
@[simp] theorem finishInvalidate_cache (s : State) : (finishInvalidate s).cache = s.cache := by simp [finishInvalidate]
@[simp] theorem finishInvalidate_remote (s : State) : (finishInvalidate s).remote = s.remote := by simp [finishInvalidate]
@[simp] theorem finishInvalidate_mem (s : State) : (finishInvalidate s).mem = s.mem := by simp [finishInvalidate]
@[simp] theorem finishInvalidate_faultInfo (s : State) : (finishInvalidate s).faultInfo = s.faultInfo := by simp [finishInvalidate]
@[simp] theorem finishInvalidate_board (s : State) : (finishInvalidate s).board = s.board := by simp [finishInvalidate]
@[simp] theorem finishInvalidate_free (s : State) : (finishInvalidate s).free = s.free + freeStride := by simp [finishInvalidate]

/-! #### `ibFill` -/

@[simp] theorem ibFill_globals (s : State) (a w : Word) : (ibFill s a w).globals = s.globals := rfl
@[simp] theorem ibFill_windows (s : State) (a w : Word) : (ibFill s a w).windows = s.windows := rfl
@[simp] theorem ibFill_upsw (s : State) (a w : Word) : (ibFill s a w).upsw = s.upsw := rfl
@[simp] theorem ibFill_cwp (s : State) (a w : Word) : (ibFill s a w).cwp = s.cwp := rfl
@[simp] theorem ibFill_swp (s : State) (a w : Word) : (ibFill s a w).swp = s.swp := rfl
@[simp] theorem ibFill_kpsw (s : State) (a w : Word) : (ibFill s a w).kpsw = s.kpsw := rfl
@[simp] theorem ibFill_insert (s : State) (a w : Word) : (ibFill s a w).insert = s.insert := rfl
@[simp] theorem ibFill_fpuPc (s : State) (a w : Word) : (ibFill s a w).fpuPc = s.fpuPc := rfl
@[simp] theorem ibFill_pc (s : State) (a w : Word) : (ibFill s a w).pc = s.pc := rfl
@[simp] theorem ibFill_nextPC (s : State) (a w : Word) : (ibFill s a w).nextPC = s.nextPC := rfl
@[simp] theorem ibFill_trapPC (s : State) (a w : Word) : (ibFill s a w).trapPC = s.trapPC := rfl
@[simp] theorem ibFill_trapNextPC (s : State) (a w : Word) : (ibFill s a w).trapNextPC = s.trapNextPC := rfl
@[simp] theorem ibFill_pipe (s : State) (a w : Word) : (ibFill s a w).pipe = s.pipe := rfl
@[simp] theorem ibFill_prefetch (s : State) (a w : Word) : (ibFill s a w).prefetch = s.prefetch := rfl
@[simp] theorem ibFill_past (s : State) (a w : Word) : (ibFill s a w).past = s.past := rfl
@[simp] theorem ibFill_fregs (s : State) (a w : Word) : (ibFill s a w).fregs = s.fregs := rfl
@[simp] theorem ibFill_fpsw (s : State) (a w : Word) : (ibFill s a w).fpsw = s.fpsw := rfl
@[simp] theorem ibFill_fpuRun (s : State) (a w : Word) : (ibFill s a w).fpuRun = s.fpuRun := rfl
@[simp] theorem ibFill_fpuExcep (s : State) (a w : Word) : (ibFill s a w).fpuExcep = s.fpuExcep := rfl
@[simp] theorem ibFill_fpuExcKind (s : State) (a w : Word) : (ibFill s a w).fpuExcKind = s.fpuExcKind := rfl
@[simp] theorem ibFill_fpuBrTF (s : State) (a w : Word) : (ibFill s a w).fpuBrTF = s.fpuBrTF := rfl
@[simp] theorem ibFill_gsn (s : State) (a w : Word) : (ibFill s a w).gsn = s.gsn := rfl
@[simp] theorem ibFill_rptm (s : State) (a w : Word) : (ibFill s a w).rptm = s.rptm := rfl
@[simp] theorem ibFill_pteva (s : State) (a w : Word) : (ibFill s a w).pteva = s.pteva := rfl
@[simp] theorem ibFill_rpteva (s : State) (a w : Word) : (ibFill s a w).rpteva = s.rpteva := rfl
@[simp] theorem ibFill_gva (s : State) (a w : Word) : (ibFill s a w).gva = s.gva := rfl
@[simp] theorem ibFill_intreg (s : State) (a w : Word) : (ibFill s a w).intreg = s.intreg := rfl
@[simp] theorem ibFill_intmask (s : State) (a w : Word) : (ibFill s a w).intmask = s.intmask := rfl
@[simp] theorem ibFill_counter0 (s : State) (a w : Word) : (ibFill s a w).counter0 = s.counter0 := rfl
@[simp] theorem ibFill_counter1 (s : State) (a w : Word) : (ibFill s a w).counter1 = s.counter1 := rfl
@[simp] theorem ibFill_cache (s : State) (a w : Word) : (ibFill s a w).cache = s.cache := rfl
@[simp] theorem ibFill_remote (s : State) (a w : Word) : (ibFill s a w).remote = s.remote := rfl
@[simp] theorem ibFill_mem (s : State) (a w : Word) : (ibFill s a w).mem = s.mem := rfl
@[simp] theorem ibFill_faultInfo (s : State) (a w : Word) : (ibFill s a w).faultInfo = s.faultInfo := rfl
@[simp] theorem ibFill_board (s : State) (a w : Word) : (ibFill s a w).board = s.board := rfl
@[simp] theorem ibFill_free (s : State) (a w : Word) : (ibFill s a w).free = s.free := rfl

/-! #### `finishCwp` -/

@[simp] theorem finishCwp_globals (s : State) : (finishCwp s).globals = s.globals := rfl
@[simp] theorem finishCwp_windows (s : State) : (finishCwp s).windows = s.windows := rfl
@[simp] theorem finishCwp_upsw (s : State) : (finishCwp s).upsw = s.upsw := rfl
@[simp] theorem finishCwp_cwp (s : State) : (finishCwp s).cwp = s.cwp := rfl
@[simp] theorem finishCwp_swp (s : State) : (finishCwp s).swp = s.swp := rfl
@[simp] theorem finishCwp_kpsw (s : State) : (finishCwp s).kpsw = applyRet s.kpsw s.pipe.retPend := rfl
@[simp] theorem finishCwp_insert (s : State) : (finishCwp s).insert = s.insert := rfl
@[simp] theorem finishCwp_fpuPc (s : State) : (finishCwp s).fpuPc = s.fpuPc := rfl
@[simp] theorem finishCwp_pc (s : State) : (finishCwp s).pc = s.nextPC := rfl
@[simp] theorem finishCwp_nextPC (s : State) : (finishCwp s).nextPC = s.nextPC + 4#32 := rfl
@[simp] theorem finishCwp_trapPC (s : State) : (finishCwp s).trapPC = s.trapPC := rfl
@[simp] theorem finishCwp_trapNextPC (s : State) : (finishCwp s).trapNextPC = s.trapNextPC := rfl
@[simp] theorem finishCwp_pipe (s : State) : (finishCwp s).pipe = { Pipe.idle with windowShadow := true, cwpShadow := true } := rfl
@[simp] theorem finishCwp_ib (s : State) : (finishCwp s).ib = s.ib := rfl
@[simp] theorem finishCwp_prefetch (s : State) : (finishCwp s).prefetch = s.prefetch := rfl
@[simp] theorem finishCwp_past (s : State) : (finishCwp s).past = s.past := rfl
@[simp] theorem finishCwp_fregs (s : State) : (finishCwp s).fregs = s.fregs := rfl
@[simp] theorem finishCwp_fpsw (s : State) : (finishCwp s).fpsw = s.fpsw := rfl
@[simp] theorem finishCwp_fpuRun (s : State) : (finishCwp s).fpuRun = s.fpuRun := rfl
@[simp] theorem finishCwp_fpuExcep (s : State) : (finishCwp s).fpuExcep = s.fpuExcep := rfl
@[simp] theorem finishCwp_fpuExcKind (s : State) : (finishCwp s).fpuExcKind = s.fpuExcKind := rfl
@[simp] theorem finishCwp_fpuBrTF (s : State) : (finishCwp s).fpuBrTF = s.fpuBrTF := rfl
@[simp] theorem finishCwp_gsn (s : State) : (finishCwp s).gsn = s.gsn := rfl
@[simp] theorem finishCwp_rptm (s : State) : (finishCwp s).rptm = s.rptm := rfl
@[simp] theorem finishCwp_pteva (s : State) : (finishCwp s).pteva = s.pteva := rfl
@[simp] theorem finishCwp_rpteva (s : State) : (finishCwp s).rpteva = s.rpteva := rfl
@[simp] theorem finishCwp_gva (s : State) : (finishCwp s).gva = s.gva := rfl
@[simp] theorem finishCwp_intreg (s : State) : (finishCwp s).intreg = s.intreg := rfl
@[simp] theorem finishCwp_intmask (s : State) : (finishCwp s).intmask = s.intmask := rfl
@[simp] theorem finishCwp_counter0 (s : State) : (finishCwp s).counter0 = s.counter0 := rfl
@[simp] theorem finishCwp_counter1 (s : State) : (finishCwp s).counter1 = s.counter1 := rfl
@[simp] theorem finishCwp_cache (s : State) : (finishCwp s).cache = s.cache := rfl
@[simp] theorem finishCwp_remote (s : State) : (finishCwp s).remote = s.remote := rfl
@[simp] theorem finishCwp_mem (s : State) : (finishCwp s).mem = s.mem := rfl
@[simp] theorem finishCwp_faultInfo (s : State) : (finishCwp s).faultInfo = s.faultInfo := rfl
@[simp] theorem finishCwp_board (s : State) : (finishCwp s).board = s.board := rfl
@[simp] theorem finishCwp_free (s : State) : (finishCwp s).free = s.free + freeStride := rfl

/-! #### `finishWindow` -/

@[simp] theorem finishWindow_globals (a : Word) (r : Option RetKind) (s : State) : (finishWindow a r s).globals = s.globals := rfl
@[simp] theorem finishWindow_windows (a : Word) (r : Option RetKind) (s : State) : (finishWindow a r s).windows = s.windows := rfl
@[simp] theorem finishWindow_upsw (a : Word) (r : Option RetKind) (s : State) : (finishWindow a r s).upsw = s.upsw := rfl
@[simp] theorem finishWindow_cwp (a : Word) (r : Option RetKind) (s : State) : (finishWindow a r s).cwp = s.cwp := rfl
@[simp] theorem finishWindow_swp (a : Word) (r : Option RetKind) (s : State) : (finishWindow a r s).swp = s.swp := rfl
@[simp] theorem finishWindow_kpsw (a : Word) (r : Option RetKind) (s : State) : (finishWindow a r s).kpsw = applyRet s.kpsw s.pipe.retPend := rfl
@[simp] theorem finishWindow_insert (a : Word) (r : Option RetKind) (s : State) : (finishWindow a r s).insert = s.insert := rfl
@[simp] theorem finishWindow_fpuPc (a : Word) (r : Option RetKind) (s : State) : (finishWindow a r s).fpuPc = s.fpuPc := rfl
@[simp] theorem finishWindow_pc (a : Word) (r : Option RetKind) (s : State) : (finishWindow a r s).pc = s.nextPC := rfl
@[simp] theorem finishWindow_nextPC (a : Word) (r : Option RetKind) (s : State) : (finishWindow a r s).nextPC = a := rfl
@[simp] theorem finishWindow_trapPC (a : Word) (r : Option RetKind) (s : State) : (finishWindow a r s).trapPC = s.trapPC := rfl
@[simp] theorem finishWindow_trapNextPC (a : Word) (r : Option RetKind) (s : State) : (finishWindow a r s).trapNextPC = s.trapNextPC := rfl
@[simp] theorem finishWindow_pipe (a : Word) (r : Option RetKind) (s : State) : (finishWindow a r s).pipe = { Pipe.idle with windowShadow := true, retPend := r } := rfl
@[simp] theorem finishWindow_ib (a : Word) (r : Option RetKind) (s : State) : (finishWindow a r s).ib = s.ib := rfl
@[simp] theorem finishWindow_prefetch (a : Word) (r : Option RetKind) (s : State) : (finishWindow a r s).prefetch = s.prefetch := rfl
@[simp] theorem finishWindow_past (a : Word) (r : Option RetKind) (s : State) : (finishWindow a r s).past = s.past := rfl
@[simp] theorem finishWindow_fregs (a : Word) (r : Option RetKind) (s : State) : (finishWindow a r s).fregs = s.fregs := rfl
@[simp] theorem finishWindow_fpsw (a : Word) (r : Option RetKind) (s : State) : (finishWindow a r s).fpsw = s.fpsw := rfl
@[simp] theorem finishWindow_fpuRun (a : Word) (r : Option RetKind) (s : State) : (finishWindow a r s).fpuRun = s.fpuRun := rfl
@[simp] theorem finishWindow_fpuExcep (a : Word) (r : Option RetKind) (s : State) : (finishWindow a r s).fpuExcep = s.fpuExcep := rfl
@[simp] theorem finishWindow_fpuExcKind (a : Word) (r : Option RetKind) (s : State) : (finishWindow a r s).fpuExcKind = s.fpuExcKind := rfl
@[simp] theorem finishWindow_fpuBrTF (a : Word) (r : Option RetKind) (s : State) : (finishWindow a r s).fpuBrTF = s.fpuBrTF := rfl
@[simp] theorem finishWindow_gsn (a : Word) (r : Option RetKind) (s : State) : (finishWindow a r s).gsn = s.gsn := rfl
@[simp] theorem finishWindow_rptm (a : Word) (r : Option RetKind) (s : State) : (finishWindow a r s).rptm = s.rptm := rfl
@[simp] theorem finishWindow_pteva (a : Word) (r : Option RetKind) (s : State) : (finishWindow a r s).pteva = s.pteva := rfl
@[simp] theorem finishWindow_rpteva (a : Word) (r : Option RetKind) (s : State) : (finishWindow a r s).rpteva = s.rpteva := rfl
@[simp] theorem finishWindow_gva (a : Word) (r : Option RetKind) (s : State) : (finishWindow a r s).gva = s.gva := rfl
@[simp] theorem finishWindow_intreg (a : Word) (r : Option RetKind) (s : State) : (finishWindow a r s).intreg = s.intreg := rfl
@[simp] theorem finishWindow_intmask (a : Word) (r : Option RetKind) (s : State) : (finishWindow a r s).intmask = s.intmask := rfl
@[simp] theorem finishWindow_counter0 (a : Word) (r : Option RetKind) (s : State) : (finishWindow a r s).counter0 = s.counter0 := rfl
@[simp] theorem finishWindow_counter1 (a : Word) (r : Option RetKind) (s : State) : (finishWindow a r s).counter1 = s.counter1 := rfl
@[simp] theorem finishWindow_cache (a : Word) (r : Option RetKind) (s : State) : (finishWindow a r s).cache = s.cache := rfl
@[simp] theorem finishWindow_remote (a : Word) (r : Option RetKind) (s : State) : (finishWindow a r s).remote = s.remote := rfl
@[simp] theorem finishWindow_mem (a : Word) (r : Option RetKind) (s : State) : (finishWindow a r s).mem = s.mem := rfl
@[simp] theorem finishWindow_faultInfo (a : Word) (r : Option RetKind) (s : State) : (finishWindow a r s).faultInfo = s.faultInfo := rfl
@[simp] theorem finishWindow_board (a : Word) (r : Option RetKind) (s : State) : (finishWindow a r s).board = s.board := rfl
@[simp] theorem finishWindow_free (a : Word) (r : Option RetKind) (s : State) : (finishWindow a r s).free = s.free + freeStride := rfl

/-! #### `enterWindow` -/

@[simp] theorem enterWindow_upsw (s : State) : (enterWindow s).upsw = s.upsw := by simp [enterWindow]
@[simp] theorem enterWindow_cwp (s : State) : (enterWindow s).cwp = s.cwp + 1#3 := by simp [enterWindow]
@[simp] theorem enterWindow_swp (s : State) : (enterWindow s).swp = s.swp := by simp [enterWindow]
@[simp] theorem enterWindow_kpsw (s : State) : (enterWindow s).kpsw = s.kpsw := by simp [enterWindow]
@[simp] theorem enterWindow_insert (s : State) : (enterWindow s).insert = s.insert := by simp [enterWindow]
@[simp] theorem enterWindow_fpuPc (s : State) : (enterWindow s).fpuPc = s.fpuPc := by simp [enterWindow]
@[simp] theorem enterWindow_pc (s : State) : (enterWindow s).pc = s.pc := by simp [enterWindow]
@[simp] theorem enterWindow_nextPC (s : State) : (enterWindow s).nextPC = s.nextPC := by simp [enterWindow]
@[simp] theorem enterWindow_trapPC (s : State) : (enterWindow s).trapPC = s.trapPC := by simp [enterWindow]
@[simp] theorem enterWindow_trapNextPC (s : State) : (enterWindow s).trapNextPC = s.trapNextPC := by simp [enterWindow]
@[simp] theorem enterWindow_pipe (s : State) : (enterWindow s).pipe = s.pipe := by simp [enterWindow]
@[simp] theorem enterWindow_ib (s : State) : (enterWindow s).ib = s.ib := by simp [enterWindow]
@[simp] theorem enterWindow_prefetch (s : State) : (enterWindow s).prefetch = s.prefetch := by simp [enterWindow]
@[simp] theorem enterWindow_past (s : State) : (enterWindow s).past = s.past := by simp [enterWindow]
@[simp] theorem enterWindow_fregs (s : State) : (enterWindow s).fregs = s.fregs := by simp [enterWindow]
@[simp] theorem enterWindow_fpsw (s : State) : (enterWindow s).fpsw = s.fpsw := by simp [enterWindow]
@[simp] theorem enterWindow_fpuRun (s : State) : (enterWindow s).fpuRun = s.fpuRun := by simp [enterWindow]
@[simp] theorem enterWindow_fpuExcep (s : State) : (enterWindow s).fpuExcep = s.fpuExcep := by simp [enterWindow]
@[simp] theorem enterWindow_fpuExcKind (s : State) : (enterWindow s).fpuExcKind = s.fpuExcKind := by simp [enterWindow]
@[simp] theorem enterWindow_fpuBrTF (s : State) : (enterWindow s).fpuBrTF = s.fpuBrTF := by simp [enterWindow]
@[simp] theorem enterWindow_gsn (s : State) : (enterWindow s).gsn = s.gsn := by simp [enterWindow]
@[simp] theorem enterWindow_rptm (s : State) : (enterWindow s).rptm = s.rptm := by simp [enterWindow]
@[simp] theorem enterWindow_pteva (s : State) : (enterWindow s).pteva = s.pteva := by simp [enterWindow]
@[simp] theorem enterWindow_rpteva (s : State) : (enterWindow s).rpteva = s.rpteva := by simp [enterWindow]
@[simp] theorem enterWindow_gva (s : State) : (enterWindow s).gva = s.gva := by simp [enterWindow]
@[simp] theorem enterWindow_intreg (s : State) : (enterWindow s).intreg = s.intreg := by simp [enterWindow]
@[simp] theorem enterWindow_intmask (s : State) : (enterWindow s).intmask = s.intmask := by simp [enterWindow]
@[simp] theorem enterWindow_counter0 (s : State) : (enterWindow s).counter0 = s.counter0 := by simp [enterWindow]
@[simp] theorem enterWindow_counter1 (s : State) : (enterWindow s).counter1 = s.counter1 := by simp [enterWindow]
@[simp] theorem enterWindow_cache (s : State) : (enterWindow s).cache = s.cache := by simp [enterWindow]
@[simp] theorem enterWindow_remote (s : State) : (enterWindow s).remote = s.remote := by simp [enterWindow]
@[simp] theorem enterWindow_mem (s : State) : (enterWindow s).mem = s.mem := by simp [enterWindow]
@[simp] theorem enterWindow_faultInfo (s : State) : (enterWindow s).faultInfo = s.faultInfo := by simp [enterWindow]
@[simp] theorem enterWindow_board (s : State) : (enterWindow s).board = s.board := by simp [enterWindow]
@[simp] theorem enterWindow_free (s : State) : (enterWindow s).free = s.free := by simp [enterWindow]

end Sys2Proof.Laws
end

