-- ==== Sys2Proof/Laws/Memory.lean ====
section
/-! SUPPORT. Memory bytes, words and blocks, and lines by number: read after write, what a write leaves alone, and that
every operation keeps the canonical form. -/

namespace Sys2Proof.Laws

open Sys2Proof Sys2Proof.Machine Sys2Proof.Safety

/-! ### Bytes -/

theorem memCanonFrom_mono {lo hi : Nat} (h : lo ≤ hi) {m : List Host.Cell} (hm : memCanonFrom hi m = true) :
    memCanonFrom lo m = true := by
  cases m with
  | nil => rfl
  | cons c t =>
    simp only [memCanonFrom, Bool.and_eq_true, decide_eq_true_eq] at hm ⊢
    exact ⟨⟨⟨by omega, hm.1.1.2⟩, hm.1.2⟩, hm.2⟩

/-- Below its first address a canonical list reads as unlisted. -/
theorem memGet_below {lo a : Nat} (h : a < lo) {m : List Host.Cell} (hm : memCanonFrom lo m = true) :
    memGet m a = unlistedByte := by
  induction m generalizing lo with
  | nil => rfl
  | cons c t ih =>
    obtain ⟨k, v⟩ := c
    simp [memCanonFrom] at hm
    simp only [memGet]
    rw [if_neg (by omega)]
    exact ih (by omega) hm.2

/-- A byte written is the byte read. -/
theorem memGet_memPut_self {lo : Nat} {m : List Host.Cell} (hm : memCanonFrom lo m = true) (a : Nat) (b : Byte) :
    memGet (memPut m a b) a = b := by
  induction m generalizing lo with
  | nil => unfold memPut; split <;> simp_all [memGet]
  | cons c t ih =>
    obtain ⟨k, v⟩ := c
    have hm' := hm
    simp [memCanonFrom] at hm
    unfold memPut
    split
    · split
      · subst b
        simp only [memGet]
        rw [if_neg (by omega)]
        exact memGet_below (by omega) hm.2
      · simp [memGet]
    · split
      · split
        · subst b; subst a
          exact memGet_below (by omega) hm.2
        · simp [memGet]
      · simp only [memGet]
        rw [if_neg (by omega)]
        exact ih hm.2

/-- Every other byte is as before. -/
theorem memGet_memPut_other (m : List Host.Cell) (a x : Nat) (b : Byte) (h : x ≠ a) :
    memGet (memPut m a b) x = memGet m x := by
  induction m with
  | nil =>
    unfold memPut; split
    · rfl
    · simp [memGet, Ne.symm h]
  | cons c t ih =>
    obtain ⟨k, v⟩ := c
    unfold memPut
    split
    · split
      · rfl
      · simp only [memGet]; rw [if_neg (Ne.symm h)]
    · split
      · subst a
        split
        · simp only [memGet]; rw [if_neg (Ne.symm h)]
        · simp only [memGet]; rw [if_neg (Ne.symm h), if_neg (Ne.symm h)]
      · simp only [memGet, ih]

/-- A byte written keeps the canonical form. -/
theorem memPut_canon {lo : Nat} {m : List Host.Cell} (hm : memCanonFrom lo m = true) (a : Nat) (b : Byte)
    (ha : a < 2 ^ 32) (hlo : lo ≤ a) : memCanonFrom lo (memPut m a b) = true := by
  induction m generalizing lo with
  | nil => unfold memPut; split <;> simp_all [memCanonFrom]
  | cons c t ih =>
    obtain ⟨k, v⟩ := c
    have hm' := hm
    simp [memCanonFrom] at hm
    unfold memPut
    split
    · split
      · exact hm'
      · simp [memCanonFrom, *]
        omega
    · split
      · subst a
        split
        · exact memCanonFrom_mono (by omega) hm.2
        · simp [memCanonFrom, *]
      · simp [memCanonFrom, hm, ih hm.2 (by omega)]

theorem memPut_wf {m : List Host.Cell} (hm : memWf m = true) (a : Word) (b : Byte) :
    memWf (memPut m a.toNat b) = true := memPut_canon hm _ b a.isLt (Nat.zero_le _)

/-! ### Words -/

/-- A word address and the three after it do not wrap. -/
theorem aligned_offsets {a : Word} (h : wordAligned a) :
    (a + 1#32).toNat = a.toNat + 1 ∧ (a + 2#32).toNat = a.toNat + 2 ∧ (a + 3#32).toNat = a.toNat + 3 := by
  have h4 : a.toNat % 4 = 0 := by
    have := congrArg BitVec.toNat h
    simpa [BitVec.extractLsb'_toNat] using this
  have := a.isLt
  simp [BitVec.toNat_add]
  omega

theorem wordOfBytes_bytes (w : Word) :
    wordOfBytes (wordByte w 0) (wordByte w 1) (wordByte w 2) (wordByte w 3) = w := by
  unfold wordOfBytes wordByte
  ext i hi
  simp only [BitVec.getElem_append, BitVec.getElem_extractLsb']
  rw [← BitVec.getLsbD_eq_getElem hi]
  split
  · congr 1; omega
  · split
    · congr 1; omega
    · split <;> congr 1 <;> omega

theorem memPutWord_wf {m : List Host.Cell} (hm : memWf m = true) (a w : Word) : memWf (memPutWord m a w) = true :=
  memPut_wf (memPut_wf (memPut_wf (memPut_wf hm a _) _ _) _ _) _ _

/-- A word stored at a word address is the word read. -/
theorem memWord_memPutWord {m : List Host.Cell} (hm : memWf m = true) {a : Word} (ha : wordAligned a) (w : Word) :
    memWord (memPutWord m a w) a = w := by
  obtain ⟨h1, h2, h3⟩ := aligned_offsets ha
  have w1 := memPut_wf hm a (wordByte w 0)
  have w2 := memPut_wf w1 (a + 1#32) (wordByte w 1)
  have w3 := memPut_wf w2 (a + 2#32) (wordByte w 2)
  unfold memWord memPutWord
  rw [h1, h2, h3]
  rw [h1] at w2; rw [h1, h2] at w3
  rw [memGet_memPut_self w3, memGet_memPut_other _ (_ + 3) (_ + 2) _ (by omega), memGet_memPut_self w2,
    memGet_memPut_other _ (_ + 3) (_ + 1) _ (by omega), memGet_memPut_other _ (_ + 2) (_ + 1) _ (by omega),
    memGet_memPut_self w1, memGet_memPut_other _ (_ + 3) _ _ (by omega),
    memGet_memPut_other _ (_ + 2) _ _ (by omega), memGet_memPut_other _ (_ + 1) _ _ (by omega),
    memGet_memPut_self hm]
  exact wordOfBytes_bytes w

/-- A word stored leaves every byte outside its four alone. -/
theorem memGet_memPutWord_other (m : List Host.Cell) {a : Word} (ha : wordAligned a) (w : Word) (x : Nat)
    (h : x < a.toNat ∨ a.toNat + 4 ≤ x) : memGet (memPutWord m a w) x = memGet m x := by
  obtain ⟨h1, h2, h3⟩ := aligned_offsets ha
  unfold memPutWord
  rw [h1, h2, h3, memGet_memPut_other _ _ _ _ (by omega), memGet_memPut_other _ _ _ _ (by omega),
    memGet_memPut_other _ _ _ _ (by omega), memGet_memPut_other _ _ _ _ (by omega)]

theorem alignWord_aligned (a : Word) : wordAligned (alignWord a) := by
  unfold wordAligned alignWord
  ext i hi
  simp only [BitVec.getElem_extractLsb', BitVec.getLsbD_and]
  have : i = 0 ∨ i = 1 := by omega
  rcases this with rfl | rfl <;> simp

theorem alignMask_bits : ∀ j : Fin 32, 2 ≤ j.val → (0xFFFFFFFC#32)[j.val] = true := by decide

theorem alignWord_eq (a : Word) : alignWord a = a.extractLsb' 2 30 ++ 0#2 := by
  unfold alignWord
  ext i hi
  rw [BitVec.getElem_and, BitVec.getElem_append]
  split
  · have : i = 0 ∨ i = 1 := by omega
    rcases this with rfl | rfl <;> simp
  · have h2 : 2 + (i - 2) = i := by omega
    rw [BitVec.getElem_extractLsb', h2, BitVec.getLsbD_eq_getElem hi]
    have : (0xFFFFFFFC#32)[i] = true := alignMask_bits ⟨i, hi⟩ (show 2 ≤ i by omega)
    rw [this, Bool.and_true]

/-! ### Blocks -/

theorem blockWordAddr_aligned (block : BitVec 27) (k : Nat) : wordAligned (blockWordAddr block k) := by
  unfold wordAligned blockWordAddr
  ext i hi
  simp only [BitVec.getElem_extractLsb', BitVec.getLsbD_append]
  have : i = 0 ∨ i = 1 := by omega
  rcases this with rfl | rfl <;> simp

theorem blockWordAddr_toNat (block : BitVec 27) (k : Nat) (hk : k < 8) :
    (blockWordAddr block k).toNat = block.toNat * 32 + k * 4 := by
  unfold blockWordAddr
  simp only [BitVec.toNat_append, BitVec.toNat_ofNat]
  rw [Nat.mod_eq_of_lt (by omega : k < 2 ^ 3)]
  rw [← Nat.shiftLeft_add_eq_or_of_lt (by omega), ← Nat.shiftLeft_add_eq_or_of_lt (by simpa using hk), Nat.shiftLeft_eq,
    Nat.shiftLeft_eq]
  simp
  omega

theorem blockWordAddr_zero (block : BitVec 27) : blockWordAddr block 0 = block ++ 0#5 := by
  apply BitVec.eq_of_toNat_eq
  rw [blockWordAddr_toNat _ _ (by omega)]
  simp only [BitVec.toNat_append, Nat.shiftLeft_eq]
  simp

theorem memPutWords_wf {m : List Host.Cell} (hm : memWf m = true) (block : BitVec 27) (ws : Vector Word 8) (k : Nat) :
    memWf (memPutWords m block ws k) = true := by
  induction k with
  | zero => exact hm
  | succ k ih => exact memPutWord_wf ih _ _

/-- A block stored leaves every byte outside it alone. -/
theorem memGet_memPutWords_other (m : List Host.Cell) (block : BitVec 27) (ws : Vector Word 8) (k : Nat) (hk : k ≤ 8)
    (x : Nat) (h : x / 32 ≠ block.toNat) : memGet (memPutWords m block ws k) x = memGet m x := by
  induction k with
  | zero => rfl
  | succ k ih =>
    unfold memPutWords
    rw [memGet_memPutWord_other _ (blockWordAddr_aligned block k) _ _ (by
      rw [blockWordAddr_toNat block k (by omega)]; omega)]
    exact ih (by omega)

theorem memPutBlock_wf {m : List Host.Cell} (hm : memWf m = true) (block : BitVec 27) (ws : Vector Word 8) :
    memWf (memPutBlock m block ws) = true := memPutWords_wf hm block ws 8

theorem memGet_memPutBlock_other (m : List Host.Cell) (block : BitVec 27) (ws : Vector Word 8) (x : Nat)
    (h : x / 32 ≠ block.toNat) : memGet (memPutBlock m block ws) x = memGet m x :=
  memGet_memPutWords_other m block ws 8 (Nat.le_refl 8) x h

/-! ### Words of a block -/

/-- A word depends on its four bytes only. -/
theorem memWord_congr {m m' : List Host.Cell} (a : Word)
    (h : ∀ x ∈ [a.toNat, (a + 1#32).toNat, (a + 2#32).toNat, (a + 3#32).toNat], memGet m x = memGet m' x) :
    memWord m a = memWord m' a := by
  unfold memWord
  simp only [List.mem_cons, List.not_mem_nil, or_false] at h
  rw [h _ (.inl rfl), h _ (.inr (.inl rfl)), h _ (.inr (.inr (.inl rfl))), h _ (.inr (.inr (.inr rfl)))]

/-- A word stored leaves the other words. -/
theorem memWord_memPutWord_other {m : List Host.Cell} {a b : Word} (ha : wordAligned a) (hb : wordAligned b) (w : Word)
    (h : a.toNat + 4 ≤ b.toNat ∨ b.toNat + 4 ≤ a.toNat) : memWord (memPutWord m a w) b = memWord m b := by
  obtain ⟨h1, h2, h3⟩ := aligned_offsets hb
  apply memWord_congr
  intro x hx
  simp only [List.mem_cons, List.not_mem_nil, or_false, h1, h2, h3] at hx
  exact memGet_memPutWord_other m ha w x (by omega)

/-- The first words of a block stored are the words read. -/
theorem memWord_memPutWords {m : List Host.Cell} (hm : memWf m = true) (block : BitVec 27) (ws : Vector Word 8) :
    ∀ n ≤ 8, ∀ k, k < n → memWord (memPutWords m block ws n) (blockWordAddr block k) = ws[k]?.getD 0#32 := by
  intro n
  induction n with
  | zero => intro _ k hk; omega
  | succ n ih =>
    intro hn k hk
    have ha := blockWordAddr_aligned block
    unfold memPutWords
    by_cases e : k = n
    · subst e
      exact memWord_memPutWord (memPutWords_wf hm block ws k) (ha k) _
    · rw [memWord_memPutWord_other (ha n) (ha k)]
      · exact ih (by omega) k (by omega)
      · rw [blockWordAddr_toNat _ _ (by omega), blockWordAddr_toNat _ _ (by omega)]; omega

/-- A block stored is the block read. -/
theorem memWord_memPutBlock {m : List Host.Cell} (hm : memWf m = true) (block : BitVec 27) (ws : Vector Word 8)
    (k : Fin 8) : memWord (memPutBlock m block ws) (blockWordAddr block k) = ws[k] := by
  rw [memPutBlock, memWord_memPutWords hm block ws 8 (Nat.le_refl 8) k k.isLt]
  simp

/-! ### Lines: those of the cache, and those that other caches own -/

section Lines

variable {α : Type} {n : Nat}

/-- A line installed is the line found. -/
theorem lineGet_linePut_self (c : List (Nat × α)) (i : Nat) (l : α) : lineGet (linePut c i l) i = some l := by
  induction c with
  | nil => simp [linePut, lineGet]
  | cons e t ih =>
    obtain ⟨k, l0⟩ := e
    unfold linePut
    split
    · simp [lineGet]
    · split
      · simp [lineGet]
      · simp only [lineGet]; rw [if_neg (by omega)]; exact ih

/-- Every other line stays. -/
theorem lineGet_linePut_other (c : List (Nat × α)) (i j : Nat) (l : α) (h : j ≠ i) :
    lineGet (linePut c i l) j = lineGet c j := by
  induction c with
  | nil => simp [linePut, lineGet, Ne.symm h]
  | cons e t ih =>
    obtain ⟨k, l0⟩ := e
    unfold linePut
    split
    · simp only [lineGet]; rw [if_neg (Ne.symm h)]
    · split
      · subst i; simp only [lineGet]; rw [if_neg (Ne.symm h), if_neg (Ne.symm h)]
      · simp only [lineGet, ih]

theorem lineGet_lineDrop_other (c : List (Nat × α)) (i j : Nat) (h : j ≠ i) :
    lineGet (lineDrop c i) j = lineGet c j := by
  induction c with
  | nil => rfl
  | cons e t ih =>
    obtain ⟨k, l0⟩ := e
    unfold lineDrop
    split
    · subst i; simp only [lineGet]; rw [if_neg (Ne.symm h)]
    · simp only [lineGet, ih]

theorem linesCanonFrom_mono {lo hi : Nat} (h : lo ≤ hi) {c : List (Nat × α)} (hc : linesCanonFrom n hi c = true) :
    linesCanonFrom n lo c = true := by
  cases c with
  | nil => rfl
  | cons e t =>
    simp only [linesCanonFrom, Bool.and_eq_true, decide_eq_true_eq] at hc ⊢
    exact ⟨⟨by omega, hc.1.2⟩, hc.2⟩

theorem linePut_canon {lo : Nat} {c : List (Nat × α)} (hc : linesCanonFrom n lo c = true) (i : Nat) (l : α)
    (hi : i < n) (hlo : lo ≤ i) : linesCanonFrom n lo (linePut c i l) = true := by
  induction c generalizing lo with
  | nil => simp [linePut, linesCanonFrom, *]
  | cons e t ih =>
    obtain ⟨k, l0⟩ := e
    have hc' := hc
    simp [linesCanonFrom] at hc
    unfold linePut
    split
    · simp [linesCanonFrom, *]
    · split
      · subst i; simp [linesCanonFrom, *]
      · simp [linesCanonFrom, hc, ih hc.2 (by omega)]

theorem lineDrop_canon {lo : Nat} {c : List (Nat × α)} (hc : linesCanonFrom n lo c = true) (i : Nat) :
    linesCanonFrom n lo (lineDrop c i) = true := by
  induction c generalizing lo with
  | nil => rfl
  | cons e t ih =>
    obtain ⟨k, l0⟩ := e
    simp [linesCanonFrom] at hc
    unfold lineDrop
    split
    · exact linesCanonFrom_mono (by omega) hc.2
    · simp [linesCanonFrom, hc, ih hc.2]

theorem lineGet_below {lo i : Nat} (h : i < lo) {c : List (Nat × α)} (hc : linesCanonFrom n lo c = true) :
    lineGet c i = none := by
  induction c generalizing lo with
  | nil => rfl
  | cons e t ih =>
    obtain ⟨k, l0⟩ := e
    simp [linesCanonFrom] at hc
    simp only [lineGet]
    rw [if_neg (by omega)]
    exact ih (by omega) hc.2

/-- A line dropped is gone. -/
theorem lineGet_lineDrop_self {lo : Nat} {c : List (Nat × α)} (hc : linesCanonFrom n lo c = true) (i : Nat) :
    lineGet (lineDrop c i) i = none := by
  induction c generalizing lo with
  | nil => rfl
  | cons e t ih =>
    obtain ⟨k, l0⟩ := e
    simp [linesCanonFrom] at hc
    unfold lineDrop
    split
    · subst i; exact lineGet_below (by omega) hc.2
    · simp only [lineGet]; rw [if_neg (by assumption)]; exact ih hc.2

end Lines

theorem lineIndex_lt (g : GlobalAddr) : lineIndex g < 4096 := (g.extractLsb' 5 12).isLt

theorem lineNumber_lt (g : GlobalAddr) : lineNumber g < 2 ^ 33 := (g.extractLsb' 5 33).isLt

theorem cacheWf_linePut {c : List (Nat × Line)} (h : cacheWf c = true) (g : GlobalAddr) (l : Line) :
    cacheWf (linePut c (lineIndex g) l) = true := linePut_canon h _ l (lineIndex_lt g) (Nat.zero_le _)

theorem cacheWf_lineDrop {c : List (Nat × Line)} (h : cacheWf c = true) (i : Nat) :
    cacheWf (lineDrop c i) = true := lineDrop_canon h i

theorem remoteWf_linePut {c : List (Nat × RemoteLine)} (h : remoteWf c = true) (k : Nat) (hk : k < 2 ^ 33)
    (r : RemoteLine) : remoteWf (linePut c k r) = true := linePut_canon h _ r hk (Nat.zero_le _)

theorem remoteWf_lineDrop {c : List (Nat × RemoteLine)} (h : remoteWf c = true) (i : Nat) :
    remoteWf (lineDrop c i) = true := lineDrop_canon h i

/-- The number of a line is its tag and its index (R63, R449). -/
theorem lineNumber_eq_iff {g h : GlobalAddr} :
    lineNumber g = lineNumber h ↔ lineIndex g = lineIndex h ∧ lineTag g = lineTag h := by
  have hg := g.isLt
  have hh := h.isLt
  rw [← BitVec.toNat_inj]
  simp only [lineNumber, lineIndex, lineTag, BitVec.extractLsb'_toNat, Nat.shiftRight_eq_div_pow]
  omega

/-- The line installed for an address is found there. -/
theorem cacheProbe_installLine_self (s : State) (g : GlobalAddr) (l : Line) (h : l.vtag = lineTag g) :
    cacheProbe (installLine s g l) g = some l := by
  simp [cacheProbe, lineGet_linePut_self, h]

theorem reset_memory : memWf State.reset.mem = true := rfl
theorem reset_cache : cacheWf State.reset.cache = true := rfl
theorem reset_remote : remoteWf State.reset.remote = true := rfl

end Sys2Proof.Laws
end

