-- ==== Sys2Proof/Laws/Registers.lean ====
section
/-! SUPPORT. Integer and FPU registers: what a read after a write gives, and the bits of a word set or cleared. -/

namespace Sys2Proof.Laws

open Sys2Proof Sys2Proof.Machine Sys2Proof.Safety

/-- A bit of a word with bit `n` set to `b`. -/
theorem setBit_getLsbD {w : Nat} (v : BitVec w) (n k : Nat) (b : Bool) :
    (setBit v n b).getLsbD k = if k = n ∧ k < w then b else v.getLsbD k := by
  unfold setBit
  by_cases hk : k < w
  · cases b <;> by_cases h : k = n <;> simp_all <;> omega
  · have : v.getLsbD k = false := BitVec.getLsbD_of_ge _ _ (by omega)
    cases b <;> simp [hk, this]

/-- A register read depends on the register file alone. -/
theorem regGet_congr {s t : State} (hg : t.globals = s.globals) (hw : t.windows = s.windows) (r : PhysReg) :
    regGet t r = regGet s r := by
  cases r <;> simp [regGet, hg, hw]

theorem regVal_congr {s t : State} (hg : t.globals = s.globals) (hw : t.windows = s.windows) (hc : t.cwp = s.cwp)
    (i : RegField) : regVal t i = regVal s i := by
  simp [regVal, regGet_congr hg hw, hc]

/-- The register that a field names, read after it is written. -/
theorem regGet_regSet_physReg (s : State) (w : BitVec 3) (i : RegField) (v : Tagged) :
    regGet (regSet s (physReg w i) v) (physReg w i) = v := by
  unfold physReg
  split
  · simp_all [regSet, regGet]
  · simp [regSet, regGet]

/-- Another register, read after a write. -/
theorem regGet_regSet_other (s : State) (r q : PhysReg) (v : Tagged) (h : q ≠ r) :
    regGet (regSet s r v) q = regGet s q := by
  cases r with
  | global i =>
    cases q with
    | global j =>
      have hne : i ≠ j := fun e => h (by rw [e])
      have : i.toNat ≠ j.toNat := fun e => hne (BitVec.eq_of_toNat_eq e)
      unfold regSet regGet
      by_cases hi : i.toNat < 10 <;> by_cases hj : j.toNat < 10 <;> simp [hi, hj, this]
    | window k => unfold regSet regGet; by_cases hi : i.toNat < 10 <;> simp [hi]
  | window k =>
    cases q with
    | global j => simp [regSet, regGet]
    | window m =>
      have hne : k ≠ m := fun e => h (by rw [e])
      have : k.toNat ≠ m.toNat := fun e => hne (BitVec.eq_of_toNat_eq e)
      simp [regSet, regGet, this]

/-- `R[i]` of the window after `R[i] <- v`. -/
theorem regVal_writeReg_self (s : State) (i : RegField) (v : Tagged) :
    regVal (writeReg s i v) i = if i = 0#5 then zeroTagged else v := by
  unfold regVal writeReg
  split
  · rfl
  · simp [regGet_regSet_physReg]

/-- Every physical register but the one written. -/
theorem writeReg_keeps (s : State) (i : RegField) (v : Tagged) : KeepsRegs s (writeReg s i v) (destOf s i) := by
  intro r hr
  unfold writeReg
  split
  · rfl
  · rename_i h
    exact regGet_regSet_other s _ r v (by simpa [destOf, h] using hr)

/-- A readable register gives its contents. -/
theorem readReg_readable {s : State} {i : RegField} (h : readable s i = true) (slot : Nat) :
    readReg s slot i = regVal s i := by
  simp_all [readReg, readable]

/-- The register file is untouched. -/
theorem keepsRegs_nil {s t : State} (hg : t.globals = s.globals) (hw : t.windows = s.windows) (l : List PhysReg) :
    KeepsRegs s t l := fun r _ => regGet_congr hg hw r

/-- `F[n]` after `F[n] <- v`. -/
theorem fpuGet_writeFpu_self (s : State) (n : RegField) (v : FpReg) (h : isFpuDataField n = true) :
    fpuGet (writeFpu s n v) n = v := by
  have h' : n.toNat < 15 := by simpa [isFpuDataField] using h
  simp [fpuGet, writeFpu, h']

/-- Another FPU register after `F[n] <- v`. -/
theorem fpuGet_writeFpu_other (s : State) (n m : RegField) (v : FpReg) (h : m ≠ n) :
    fpuGet (writeFpu s n v) m = fpuGet s m := by
  have hne : n.toNat ≠ m.toNat := fun e => h (BitVec.eq_of_toNat_eq e.symm)
  unfold writeFpu fpuGet
  by_cases hn : n.toNat < 15 <;> by_cases hm : m.toNat < 15 <;> simp [hn, hm, hne]

theorem fpuGet_congr {s t : State} (h : t.fregs = s.fregs) (n : RegField) : fpuGet t n = fpuGet s n := by
  simp [fpuGet, h]

end Sys2Proof.Laws
end

