-- ==== Sys2Proof/Laws/Outcomes.lean ====
section
/-! SUPPORT. What the shared operations can answer: one lemma for each, so that a proof never unfolds them. -/

namespace Sys2Proof.Laws

open Sys2Proof Sys2Proof.Machine Sys2Proof.Safety

/-! ### Traps -/

theorem raiseOr_enabled {t : TrapType} {s : State} (h : trapEnabled s t = true) (k : Out) :
    raiseOr t s k = .next (takeTrap t s) := by simp [raiseOr, h]

theorem raiseOr_disabled {t : TrapType} {s : State} (h : trapEnabled s t = false) (k : Out) :
    raiseOr t s k = k := by simp [raiseOr, h]

/-- A trap that may be raised: taken, or the instruction goes on. -/
theorem raiseOr_next {x : TrapType} {s t : State} {k : Out} (h : raiseOr x s k = .next t) :
    t = takeTrap x s ∨ k = .next t := by
  unfold raiseOr at h
  split at h
  · exact .inl (by cases h; rfl)
  · exact .inr h

theorem raiseIf_next {c : Bool} {x : TrapType} {s t : State} {k : Out} (h : raiseIf c x s k = .next t) :
    t = takeTrap x s ∨ k = .next t := by
  unfold raiseIf at h
  split at h
  · exact raiseOr_next h
  · exact .inr h

@[simp] theorem raiseIf_false (x : TrapType) (s : State) (k : Out) : raiseIf false x s k = k := rfl
@[simp] theorem raiseIf_true (x : TrapType) (s : State) (k : Out) : raiseIf true x s k = raiseOr x s k := rfl

/-- The state in which a fault's trap is taken. -/
def faulted (c : FaultCause) (s : State) : State := { s with faultInfo := some c }

theorem raiseFault_next {c : FaultCause} {s t : State} (h : raiseFault c s = .next t) :
    t = takeTrap (faultTrap c) (faulted c s) := by
  unfold raiseFault at h
  dsimp only at h
  split at h <;> cases h
  rfl

theorem raiseIllegal_next {s t : State} (h : raiseIllegal s = .next t) : t = takeTrap .illegalOpcode s := by
  rcases raiseOr_next h with h | h
  · exact h
  · cases h

/-- An access made by an instruction: it completes and the instruction goes on, or its fault is taken. -/
theorem onAccess_next {α : Type} {x : Access α} {k : α → State → Out} {t : State} (h : onAccess x k = .next t) :
    (∃ v s1, x = .done v s1 ∧ k v s1 = .next t) ∨
      ∃ c s1, x = .fault c s1 ∧ t = takeTrap (faultTrap c) (faulted c s1) := by
  cases x with
  | done v s1 => exact .inl ⟨v, s1, rfl, h⟩
  | fault c s1 => exact .inr ⟨c, s1, rfl, raiseFault_next h⟩
  | stuck f => cases h
  | refused r => cases h

/-- An access checked by a CPU exception: as `onAccess`, or the exception's trap is taken from the state before. -/
theorem onCheckedAccess_next {α : Type} {c : Bool} {x : TrapType} {s : State} {y : Access α}
    {k : α → State → Out} {t : State} (h : onCheckedAccess c x s y k = .next t) :
    t = takeTrap x s ∨ (∃ v s1, y = .done v s1 ∧ k v s1 = .next t) ∨
      ∃ c s1, y = .fault c s1 ∧ t = takeTrap (faultTrap c) (faulted c s1) := by
  unfold onCheckedAccess at h
  split at h
  · cases y with
    | done v s1 => exact .inl (by cases h; rfl)
    | fault c s1 => exact .inr (.inr ⟨c, s1, rfl, raiseFault_next h⟩)
    | stuck f => cases h
    | refused r => exact .inl (by cases h; rfl)
  · exact .inr (onAccess_next h)

/-- The check is not met or not enabled. -/
theorem onCheckedAccess_off {α : Type} {c : Bool} {x : TrapType} {s : State} (h : (c && trapEnabled s x) = false)
    (y : Access α) (k : α → State → Out) : onCheckedAccess c x s y k = onAccess y k := by
  simp [onCheckedAccess, h]

/-- The check is met and enabled, and the access would complete. -/
theorem onCheckedAccess_on {α : Type} {c : Bool} {x : TrapType} {s s1 : State} {v : α}
    (h : (c && trapEnabled s x) = true) (k : α → State → Out) :
    onCheckedAccess c x s (.done v s1) k = .next (takeTrap x s) := by
  simp [onCheckedAccess, h]

/-- A register that is neither R10 of the new window is kept by a trap. -/
theorem takeTrap_regs (x : TrapType) (s : State) :
    KeepsRegs s (takeTrap x s) [physReg (s.cwp + 1#3) 10#5] := by
  intro r hr
  have h := writeReg_keeps { s with cwp := s.cwp + 1#3 } 10#5 (fixnum s.pc) r (by simpa [destOf] using hr)
  have e : regGet (takeTrap x s) r = regGet (writeReg { s with cwp := s.cwp + 1#3 } 10#5 (fixnum s.pc)) r :=
    regGet_congr (by simp [takeTrap]) (by simp [takeTrap]) r
  rw [e, h]
  exact regGet_congr rfl rfl r

/-- R10 of the new window holds the address of the trapped instruction. -/
theorem takeTrap_r10 (x : TrapType) (s : State) :
    regGet (takeTrap x s) (physReg (s.cwp + 1#3) 10#5) = fixnum s.pc := by
  have h := regVal_writeReg_self { s with cwp := s.cwp + 1#3 } 10#5 (fixnum s.pc)
  rw [if_neg (by decide)] at h
  rw [← h]
  simp only [regVal, if_neg (by decide : ¬(10#5 : BitVec 5) = 0#5), writeReg_cwp]
  exact regGet_congr (by simp [takeTrap]) (by simp [takeTrap]) _

/-- The bits of KPSW after trap entry. -/
theorem entryKpsw_getLsbD (x : TrapType) (k : BitVec 24) (n : Nat) :
    (entryKpsw x k).getLsbD n =
      if n = 4 then true else if n = 12 then false else if n = 5 then k.getLsbD 4
      else if x = .errorFault ∧ (n = 2 ∨ n = 3) then false else k.getLsbD n := by
  cases x <;> simp only [entryKpsw, setBit_getLsbD] <;> split_ifs <;> simp_all

/-! ### Guards -/

theorem writeGuard_next {d : RegField} {s t : State} {k : Out} (h : writeGuard d s k = .next t) :
    writable s d = true ∧ k = .next t := by
  unfold writeGuard at h
  split at h
  · cases h
  · exact ⟨by simp_all [writable], h⟩

theorem writeGuard_of {d : RegField} {s : State} (h : writable s d = true) (k : Out) : writeGuard d s k = k := by
  simp_all [writeGuard, writable]

theorem loadGuard_next {d : RegField} {s t : State} {k : Out} (h : loadGuard d s k = .next t) :
    writable s d = true ∧ s.pipe.afterTas = false ∧ k = .next t := by
  unfold loadGuard at h
  split at h
  · cases h
  · split at h
    · cases h
    · exact ⟨by simp_all [writable], by simp_all, h⟩

theorem loadGuard_of {d : RegField} {s : State} (h : writable s d = true) (ht : s.pipe.afterTas = false) (k : Out) :
    loadGuard d s k = k := by
  simp_all [loadGuard, writable]

theorem storeGuard_next {s t : State} {k : Out} (h : storeGuard s k = .next t) :
    s.pipe.afterTas = false ∧ k = .next t := by
  unfold storeGuard at h
  split at h
  · cases h
  · exact ⟨by simp_all, h⟩

theorem slotGuard_next {s t : State} {k : Out} (h : slotGuard s k = .next t) :
    s.pipe.slotOfTrue = false ∧ k = .next t := by
  unfold slotGuard at h
  split at h
  · cases h
  · exact ⟨by simp_all, h⟩

/-! ### The checks of an FPU instruction -/

/-- An FPU instruction that answers: the illegal opcode trap, or the FPU is ready and the instruction goes on. -/
theorem withFpu_next {s t : State} {k : Out} (h : withFpu s k = .next t) :
    t = takeTrap .illegalOpcode s ∨ (fpuReady s = true ∧ k = .next t) := by
  unfold withFpu at h
  split at h
  · exact .inl (raiseIllegal_next h)
  · split at h
    · cases h
    · exact .inr ⟨by simp_all [fpuReady], h⟩

theorem withFpu_of {s : State} (h : fpuReady s = true) (k : Out) : withFpu s k = k := by
  simp_all [withFpu, fpuReady]

/-- A pending exception is taken, or the instruction goes on with what is pending as it was. -/
theorem withPending_next {s t : State} {k : State → Out} (h : withPending s k = .next t) :
    t = takeTrap (pendingTrap s) { s with fpuExcep := false } ∨ k s = .next t := by
  unfold withPending at h
  split at h
  · exact .inl (by cases h; rfl)
  · exact .inr h

theorem withPending_of {s : State} (h : noFpuTrap s = true) (k : State → Out) : withPending s k = k s := by
  have h' : (s.fpuExcep && fpuTrapEnabled s && trapEnabled s (pendingTrap s)) = false := by
    simpa only [noFpuTrap, Bool.not_eq_true'] using h
  unfold withPending
  rw [h']
  rfl

theorem withPending_on {s : State} (h : noFpuTrap s = false) (k : State → Out) :
    withPending s k = .next (takeTrap (pendingTrap s) { s with fpuExcep := false }) := by
  have h' : (s.fpuExcep && fpuTrapEnabled s && trapEnabled s (pendingTrap s)) = true := by
    simpa only [noFpuTrap, Bool.not_eq_false'] using h
  unfold withPending
  rw [h']
  rfl

theorem fpuStart_of {s : State} (h : noFpuTrap s = true) (k : State → Out) : fpuStart s k = k (fpuWait s) :=
  withPending_of (s := fpuWait s) h k

theorem fpuStart_on {s : State} (h : noFpuTrap s = false) (k : State → Out) :
    fpuStart s k = .next (takeTrap (pendingTrap s) { s with fpuRun := none, fpuExcep := false }) :=
  withPending_on (s := fpuWait s) h k

end Sys2Proof.Laws
end

