-- ==== Sys2Proof/Laws/Access.lean ====
section
/-! SUPPORT. What a memory access can do to the state: the walk, the fill of a line, and the access itself. -/

namespace Sys2Proof.Laws

open Sys2Proof Sys2Proof.Machine Sys2Proof.Safety

/-! ### One owner of a line (R109, R112) -/

theorem lineGet_lineDrop_some {α : Type} {n : Nat} {c : List (Nat × α)} (hc : linesCanonFrom n 0 c = true) {i j : Nat}
    {l : α} (h : lineGet (lineDrop c i) j = some l) : j ≠ i ∧ lineGet c j = some l := by
  by_cases e : j = i
  · subst e; rw [lineGet_lineDrop_self hc] at h; cases h
  · exact ⟨e, lineGet_lineDrop_other c i j e ▸ h⟩

theorem coherent_drop {c r} (h : Coherent c r) (i : Nat) : Coherent (lineDrop c i) r where
  cache := cacheWf_lineDrop h.cache i
  remote := h.remote
  owner g l x hl ht hx := h.owner g l x (lineGet_lineDrop_some h.cache hl).2 ht hx

theorem coherent_dropRemote {c r} (h : Coherent c r) (i : Nat) : Coherent c (lineDrop r i) where
  cache := h.cache
  remote := remoteWf_lineDrop h.remote i
  owner g l x hl ht hx := h.owner g l x hl ht (lineGet_lineDrop_some h.remote hx).2

theorem coherent_put {c r} (h : Coherent c r) {g : GlobalAddr} {l : Line} (ht : l.vtag = lineTag g)
    (hl : ∀ x, lineGet r (lineNumber g) = some x → l.state = .unowned ∧ l.words = x.words) :
    Coherent (linePut c (lineIndex g) l) r where
  cache := cacheWf_linePut h.cache g l
  remote := h.remote
  owner g1 l1 x h1 ht1 hx := by
    by_cases e : lineIndex g1 = lineIndex g
    · rw [e, lineGet_linePut_self] at h1
      cases h1
      exact hl x (lineNumber_eq_iff.2 ⟨e, ht1.symm.trans ht⟩ ▸ hx)
    · rw [lineGet_linePut_other _ _ _ _ e] at h1
      exact h.owner g1 l1 x h1 ht1 hx

theorem coherent_putRemote {c r} (h : Coherent c r) {g : GlobalAddr} {x : RemoteLine}
    (hx : ∀ l, lineGet c (lineIndex g) = some l → l.vtag = lineTag g → l.state = .unowned ∧ l.words = x.words) :
    Coherent c (linePut r (lineNumber g) x) where
  cache := h.cache
  remote := remoteWf_linePut h.remote _ (lineNumber_lt g) x
  owner g1 l x1 hl ht h1 := by
    by_cases e : lineNumber g1 = lineNumber g
    · rw [e, lineGet_linePut_self] at h1
      cases h1
      obtain ⟨e1, e2⟩ := lineNumber_eq_iff.1 e
      exact hx l (e1 ▸ hl) (ht.trans e2)
    · rw [lineGet_linePut_other _ _ _ _ e] at h1
      exact h.owner g1 l x1 hl ht h1

/-- A line found by its address is at its index, with its tag. -/
theorem cacheProbe_some {s : State} {g : GlobalAddr} {l : Line} (h : cacheProbe s g = some l) :
    lineGet s.cache (lineIndex g) = some l ∧ l.vtag = lineTag g := by
  unfold cacheProbe at h
  split at h
  · rename_i l0 hl
    split at h
    · cases h; exact ⟨hl, ‹_›⟩
    · cases h
  · cases h

/-- No other cache owns a line that is owned here. -/
theorem coherent_not_owned {s : State} (h : Coherent s.cache s.remote) {g : GlobalAddr} {l : Line}
    (hl : cacheProbe s g = some l) (ho : l.state ≠ .unowned) : lineGet s.remote (lineNumber g) = none := by
  cases hx : lineGet s.remote (lineNumber g) with
  | none => rfl
  | some x => exact absurd (h.owner g l x (cacheProbe_some hl).1 (cacheProbe_some hl).2 hx).1 ho

/-! ### What an access leaves -/

/-- Only memory, the lines here and elsewhere, GVA, PTEVA, RPTEVA and INTREG may differ: all an access can change. -/
def Touches (s t : State) : Prop :=
  t = { s with mem := t.mem, cache := t.cache, remote := t.remote, gva := t.gva, pteva := t.pteva,
               rpteva := t.rpteva, intreg := t.intreg }

theorem Touches.refl (s : State) : Touches s s := rfl

theorem Touches.trans {s t u : State} (h1 : Touches s t) (h2 : Touches t u) : Touches s u := by
  unfold Touches at *
  conv_lhs => rw [h2]
  conv_lhs => rw [h1]

theorem Touches.globals {s t : State} (h : Touches s t) : t.globals = s.globals := by unfold Touches at h; rw [h]
theorem Touches.windows {s t : State} (h : Touches s t) : t.windows = s.windows := by unfold Touches at h; rw [h]
theorem Touches.upsw {s t : State} (h : Touches s t) : t.upsw = s.upsw := by unfold Touches at h; rw [h]
theorem Touches.cwp {s t : State} (h : Touches s t) : t.cwp = s.cwp := by unfold Touches at h; rw [h]
theorem Touches.swp {s t : State} (h : Touches s t) : t.swp = s.swp := by unfold Touches at h; rw [h]
theorem Touches.kpsw {s t : State} (h : Touches s t) : t.kpsw = s.kpsw := by unfold Touches at h; rw [h]
theorem Touches.insert {s t : State} (h : Touches s t) : t.insert = s.insert := by unfold Touches at h; rw [h]
theorem Touches.fpuPc {s t : State} (h : Touches s t) : t.fpuPc = s.fpuPc := by unfold Touches at h; rw [h]
theorem Touches.pc {s t : State} (h : Touches s t) : t.pc = s.pc := by unfold Touches at h; rw [h]
theorem Touches.nextPC {s t : State} (h : Touches s t) : t.nextPC = s.nextPC := by unfold Touches at h; rw [h]
theorem Touches.trapPC {s t : State} (h : Touches s t) : t.trapPC = s.trapPC := by unfold Touches at h; rw [h]
theorem Touches.trapNextPC {s t : State} (h : Touches s t) : t.trapNextPC = s.trapNextPC := by unfold Touches at h; rw [h]
theorem Touches.pipe {s t : State} (h : Touches s t) : t.pipe = s.pipe := by unfold Touches at h; rw [h]
theorem Touches.ib {s t : State} (h : Touches s t) : t.ib = s.ib := by unfold Touches at h; rw [h]
theorem Touches.prefetch {s t : State} (h : Touches s t) : t.prefetch = s.prefetch := by unfold Touches at h; rw [h]
theorem Touches.past {s t : State} (h : Touches s t) : t.past = s.past := by unfold Touches at h; rw [h]
theorem Touches.fregs {s t : State} (h : Touches s t) : t.fregs = s.fregs := by unfold Touches at h; rw [h]
theorem Touches.fpsw {s t : State} (h : Touches s t) : t.fpsw = s.fpsw := by unfold Touches at h; rw [h]
theorem Touches.fpuRun {s t : State} (h : Touches s t) : t.fpuRun = s.fpuRun := by unfold Touches at h; rw [h]
theorem Touches.fpuExcep {s t : State} (h : Touches s t) : t.fpuExcep = s.fpuExcep := by unfold Touches at h; rw [h]
theorem Touches.fpuExcKind {s t : State} (h : Touches s t) : t.fpuExcKind = s.fpuExcKind := by unfold Touches at h; rw [h]
theorem Touches.fpuBrTF {s t : State} (h : Touches s t) : t.fpuBrTF = s.fpuBrTF := by unfold Touches at h; rw [h]
theorem Touches.gsn {s t : State} (h : Touches s t) : t.gsn = s.gsn := by unfold Touches at h; rw [h]
theorem Touches.rptm {s t : State} (h : Touches s t) : t.rptm = s.rptm := by unfold Touches at h; rw [h]
theorem Touches.intmask {s t : State} (h : Touches s t) : t.intmask = s.intmask := by unfold Touches at h; rw [h]
theorem Touches.counter0 {s t : State} (h : Touches s t) : t.counter0 = s.counter0 := by unfold Touches at h; rw [h]
theorem Touches.counter1 {s t : State} (h : Touches s t) : t.counter1 = s.counter1 := by unfold Touches at h; rw [h]
theorem Touches.faultInfo {s t : State} (h : Touches s t) : t.faultInfo = s.faultInfo := by unfold Touches at h; rw [h]
theorem Touches.board {s t : State} (h : Touches s t) : t.board = s.board := by unfold Touches at h; rw [h]
theorem Touches.free {s t : State} (h : Touches s t) : t.free = s.free := by unfold Touches at h; rw [h]

/-- What an access without a store of its own leaves: the canonical forms, the low bits of the latches, INTREG, and
memory but for lines written back. -/
structure Accessed (s t : State) : Prop where
  touches : Touches s t
  memory : memWf s.mem = true → memWf t.mem = true
  lines : Coherent s.cache s.remote → Coherent t.cache t.remote
  pteva : s.pteva.extractLsb' 0 2 = 0#2 → t.pteva.extractLsb' 0 2 = 0#2
  rpteva : s.rpteva.extractLsb' 0 2 = 0#2 → t.rpteva.extractLsb' 0 2 = 0#2
  intreg : t.intreg = s.intreg
  bytes : ∀ x, memGet t.mem x = memGet s.mem x ∨ writtenBack s x

/-- The same, and no line has become one to write back: so that accesses compose. -/
structure Fetched (s t : State) : Prop where
  access : Accessed s t
  still : ∀ k l, lineGet t.cache k = some l → mustWriteBack l = true → lineGet s.cache k = some l

theorem Accessed.refl (s : State) : Accessed s s :=
  ⟨.refl s, id, id, id, id, rfl, fun _ => .inl rfl⟩

theorem Fetched.refl (s : State) : Fetched s s := ⟨.refl s, fun _ _ h _ => h⟩

theorem Fetched.then {s t u : State} (h1 : Fetched s t) (h2 : Accessed t u) : Accessed s u where
  touches := h1.access.touches.trans h2.touches
  memory := h2.memory ∘ h1.access.memory
  lines := h2.lines ∘ h1.access.lines
  pteva := h2.pteva ∘ h1.access.pteva
  rpteva := h2.rpteva ∘ h1.access.rpteva
  intreg := h2.intreg.trans h1.access.intreg
  bytes := by
    intro x
    rcases h2.bytes x with h | ⟨k, l, hl, hm, hx⟩
    · rcases h1.access.bytes x with h' | h'
      · exact .inl (h.trans h')
      · exact .inr h'
    · exact .inr ⟨k, l, h1.still k l hl hm, hm, hx⟩

theorem Fetched.trans {s t u : State} (h1 : Fetched s t) (h2 : Fetched t u) : Fetched s u :=
  ⟨h1.then h2.access, fun k l h hm => h1.still k l (h2.still k l h hm) hm⟩

/-- Only lines have changed, and memory is as it was: nothing has left the cache. -/
structure Installed (s t : State) : Prop where
  only : t = { s with cache := t.cache, remote := t.remote }
  lines : Coherent s.cache s.remote → Coherent t.cache t.remote

theorem Installed.refl (s : State) : Installed s s := ⟨rfl, id⟩

theorem Accessed.then {s t u : State} (h1 : Accessed s t) (h2 : Installed t u) : Accessed s u := by
  obtain ⟨ho, hl⟩ := h2
  have ht : Touches t u := by unfold Touches; rw [ho]
  refine ⟨h1.touches.trans ht, ?_, hl ∘ h1.lines, ?_, ?_, ?_, ?_⟩ <;> rw [ho]
  · exact h1.memory
  · exact h1.pteva
  · exact h1.rpteva
  · exact h1.intreg
  · exact h1.bytes

/-- An access that completes meets `D`; one that faults, `F`. -/
def Ends {α : Type} (D : α → State → Prop) (F : State → Prop) : Access α → Prop
  | .done v t => D v t
  | .fault _ t => F t
  | .stuck _ => True
  | .refused _ => True

theorem Ends.done {α : Type} {D : α → State → Prop} {F : State → Prop} {x : Access α} (hx : Ends D F x) {v : α}
    {t : State} (h : x = .done v t) : D v t := by subst h; exact hx

theorem Ends.fault {α : Type} {D : α → State → Prop} {F : State → Prop} {x : Access α} (hx : Ends D F x)
    {c : FaultCause} {t : State} (h : x = .fault c t) : F t := by subst h; exact hx

theorem Ends.mono {α : Type} {D D' : α → State → Prop} {F F' : State → Prop} {x : Access α} (hx : Ends D F x)
    (hd : ∀ v t, D v t → D' v t) (hf : ∀ t, F t → F' t) : Ends D' F' x := by
  cases x with
  | done v t => exact hd v t hx
  | fault c t => exact hf t hx
  | stuck f => trivial
  | refused r => trivial

theorem Ends.then {α β : Type} {D : α → State → Prop} {F F' : State → Prop} {D' : β → State → Prop} {x : Access α}
    {k : α → State → Access β} (hx : Ends D F x) (hf : ∀ t, F t → F' t) (hk : ∀ v t, D v t → Ends D' F' (k v t)) :
    Ends D' F' (accessThen x k) := by
  cases x with
  | done v t => exact hk v t hx
  | fault c t => exact hf t hx
  | stuck f => trivial
  | refused r => trivial

theorem Ends.map {α β : Type} {D : State → Prop} {F : State → Prop} {x : Access α} (f : α → β)
    (hx : Ends (fun _ => D) F x) : Ends (fun _ => D) F (accessMap f x) := hx.then (fun _ h => h) (fun _ _ h => h)

/-! ### The bus -/

/-- A board that is read changes nothing. -/
theorem boardRead_ends {α : Type} (k : RegionKind) (v w : α) (s : State) :
    Ends (fun _ t => t = s) (fun t => t = s) (boardRead k v w s) := by
  cases k <;> first | exact rfl | trivial

/-- A word read changes nothing. -/
theorem busRead_ends (s : State) (pa : Word) (slot : Nat) :
    Ends (fun _ t => t = s) (fun t => t = s) (busRead s pa slot) := by
  unfold busRead
  cases responder s pa with
  | ownInterrupts => exact rfl
  | nobody => exact rfl
  | board k => exact boardRead_ends k _ _ s

theorem unstoredWrite_ends (s : State) : Ends (fun _ t => t = s) (fun t => t = s) (unstoredWrite s) := by
  unfold unstoredWrite; split <;> exact rfl

/-- A board that is written: the state with memory written, or nothing. -/
theorem boardWrite_ends (k : RegionKind) (s t : State) :
    Ends (fun _ u => u = s ∨ u = t) (fun u => u = s) (boardWrite k s t) := by
  cases k with
  | prom => exact (unstoredWrite_ends s).mono (fun _ _ h => .inl h) (fun _ h => h)
  | ram => exact .inr rfl
  | device => exact .inl rfl
  | spurNode => exact .inl rfl
  | faulty => exact rfl
  | retry => trivial

/-- A word written: memory in RAM, a bit of INTREG at an interrupt address, or nothing. -/
theorem busWrite_ends (s : State) (pa w : Word) :
    Ends (fun _ t => t = s ∨ t = { s with mem := memPutWord s.mem pa w } ∨
      t = { s with intreg := setInterrupt s.intreg pa }) (fun t => t = s) (busWrite s pa w) := by
  unfold busWrite
  cases responder s pa with
  | ownInterrupts => exact .inr (.inr rfl)
  | nobody => exact rfl
  | board k => exact (boardWrite_ends k s _).mono (fun _ _ h => h.imp_right .inl) (fun _ h => h)

/-- Eight words read: GVA's counter may have moved, and a line of another cache changed its state or gone. -/
structure BlockRead (s t : State) : Prop where
  only : t = { s with gva := t.gva, remote := t.remote }
  lines : Coherent s.cache s.remote → Coherent s.cache t.remote

/-- What a block read gives: to a plain read, the words of the owner, if there is one; a read for ownership leaves no
other owner (R112). -/
def FromOwner (own : Bool) (g : GlobalAddr) (f : FilledBlock) (s t : State) : Prop :=
  Coherent s.cache s.remote → ∀ x, lineGet t.remote (lineNumber g) = some x → own = false ∧ f.words = x.words

theorem ownerBlock_ends (s : State) (g : GlobalAddr) (r : RemoteLine) (own : Bool)
    (hr : lineGet s.remote (lineNumber g) = some r) :
    Ends (fun f t => BlockRead s t ∧ FromOwner own g f s t) (BlockRead s) (ownerBlock s g r own) := by
  have h : BlockRead s (ownerSupplied s g r own) := by
    unfold ownerSupplied
    split
    · exact ⟨rfl, fun h => coherent_dropRemote h _⟩
    · exact ⟨rfl, fun h => coherent_putRemote h (fun l hl ht => h.owner g l r hl ht hr)⟩
  have words : ∀ d, FromOwner own g { words := r.words, dirty := d } s (ownerSupplied s g r own) := by
    intro d hc x hx
    cases own with
    | true => exact absurd rfl (lineGet_lineDrop_some hc.remote hx).1
    | false =>
      simp only [ownerSupplied, Bool.false_eq_true, if_false, lineGet_linePut_self] at hx
      cases hx
      exact ⟨rfl, rfl⟩
  unfold ownerBlock
  cases r.status with
  | dirty => exact ⟨h, words true⟩
  | clean => exact ⟨h, words false⟩
  | unspecifiedError => exact ⟨rfl, id⟩

theorem memoryBlock_ends (s : State) (block : BitVec 27) (slot : Nat) :
    Ends (fun _ t => t = s) (fun t => t = s) (memoryBlock s block slot) := by
  unfold memoryBlock
  cases responder s (blockWordAddr block 0) with
  | ownInterrupts => exact rfl
  | nobody => exact rfl
  | board k => exact boardRead_ends k _ _ s

theorem busReadLine_ends (s : State) (block : BitVec 27) (g : GlobalAddr) (own : Bool) (slot : Nat) :
    Ends (fun f t => BlockRead s t ∧ FromOwner own g f s t) (BlockRead s) (busReadLine s block g own slot) := by
  have counted : ∀ t, BlockRead (countBlock s) t → BlockRead s t := fun t h => ⟨by rw [h.only]; rfl, h.lines⟩
  have still : BlockRead s (countBlock s) := ⟨rfl, id⟩
  unfold busReadLine
  split
  · rename_i r hr
    exact (ownerBlock_ends (countBlock s) g r own hr).mono (fun _ t h => ⟨counted t h.1, h.2⟩) counted
  · rename_i hr
    refine (memoryBlock_ends _ block slot).mono (fun f t h => ?_) (fun t h => h ▸ still)
    subst h
    exact ⟨still, fun _ x hx => by rw [countBlock_remote, hr] at hx; cases hx⟩

/-- Eight words written: GVA's counter may have moved. -/
theorem busWriteLine_ends (s : State) (block : BitVec 27) (ws : Vector Word 8) :
    Ends (fun _ t => ∃ g m, t = { s with gva := g, mem := m } ∧ (m = s.mem ∨ m = memPutBlock s.mem block ws))
      (fun t => ∃ g, t = { s with gva := g }) (busWriteLine s block ws) := by
  unfold busWriteLine
  dsimp only
  cases responder (countBlock s) (blockWordAddr block 0) with
  | ownInterrupts =>
    exact (unstoredWrite_ends _).mono (fun _ t h => ⟨_, s.mem, h, .inl rfl⟩) (fun t h => ⟨_, h⟩)
  | nobody => exact ⟨_, rfl⟩
  | board k =>
    refine (boardWrite_ends k _ _).mono (fun _ t h => ?_) (fun t h => ⟨_, h⟩)
    rcases h with h | h
    · exact ⟨_, s.mem, h, .inl rfl⟩
    · exact ⟨_, _, h, .inr rfl⟩

/-! ### Lines -/

/-- A line leaves the cache, written back or not: memory is as before or has its words. -/
theorem leaveCache_ends (s : State) (g : GlobalAddr) (l : Line) (back : Bool) :
    Ends (fun _ t => ∃ m a, t = { s with mem := m, cache := lineDrop s.cache (lineIndex g), gva := a } ∧
        (m = s.mem ∨ back = true ∧ m = memPutBlock s.mem l.ptag l.words))
      (fun t => ∃ a, t = { s with gva := a }) (leaveCache s g l back) := by
  unfold leaveCache
  split
  · refine (busWriteLine_ends s l.ptag l.words).then (fun t ht => ht) ?_
    rintro _ t ⟨a, m, rfl, hM⟩
    exact ⟨m, a, rfl, hM.imp_right (fun e => ⟨‹_›, e⟩)⟩
  · exact ⟨s.mem, s.gva, rfl, .inl rfl⟩

/-- A line is displaced: memory is as before or the line, owned and dirty, has been written back. -/
theorem evict_ends (s : State) (g : GlobalAddr) :
    Ends (fun _ t => ∃ m c a, t = { s with mem := m, cache := c, gva := a } ∧
        (m = s.mem ∨ ∃ l, lineGet s.cache (lineIndex g) = some l ∧ mustWriteBack l = true ∧
          m = memPutBlock s.mem l.ptag l.words) ∧
        (c = s.cache ∨ c = lineDrop s.cache (lineIndex g)))
      (fun t => ∃ a, t = { s with gva := a }) (evict s g) := by
  unfold evict
  cases h : lineGet s.cache (lineIndex g) with
  | none => exact ⟨s.mem, s.cache, s.gva, rfl, .inl rfl, .inl rfl⟩
  | some l =>
    refine (leaveCache_ends s g l _).mono ?_ (fun t ht => ht)
    rintro _ t ⟨m, a, rfl, hm⟩
    exact ⟨m, _, a, rfl, hm.imp_right (fun e => ⟨l, rfl, e⟩), .inr rfl⟩

/-- A flush ends with the line gone; memory is as before or has the words of the line, if its block was dirty (R115). -/
theorem flushLine_ends (g : GlobalAddr) (s : State) :
    Ends (fun _ t => ∃ m c a, t = { s with mem := m, cache := c, gva := a } ∧
        (cacheWf s.cache = true → cacheProbe t g = none) ∧
        (m = s.mem ∨ ∃ l, cacheProbe s g = some l ∧ l.blockDirty = true ∧ m = memPutBlock s.mem l.ptag l.words))
      (fun t => ∃ a, t = { s with gva := a }) (flushLine g s) := by
  unfold flushLine
  cases h : cacheProbe s g with
  | none => exact ⟨s.mem, s.cache, s.gva, rfl, fun _ => h, .inl rfl⟩
  | some l =>
    refine (leaveCache_ends s g l _).mono ?_ (fun t ht => ht)
    rintro _ t ⟨m, a, rfl, hm⟩
    refine ⟨m, _, a, rfl, fun hc => ?_, hm.imp_right (fun e => ⟨l, rfl, e⟩)⟩
    unfold cacheProbe
    rw [lineGet_lineDrop_self hc]

/-- A line installed where one has left; the state in between. -/
theorem install_evicted {s t : State} {g a : GlobalAddr} {m : List Host.Cell} {c : List (Nat × Line)} {l : Line}
    (ht : BlockRead s t)
    (hm : m = s.mem ∨ ∃ l, lineGet s.cache (lineIndex g) = some l ∧ mustWriteBack l = true ∧
      m = memPutBlock s.mem l.ptag l.words)
    (hc : c = s.cache ∨ c = lineDrop s.cache (lineIndex g)) (hv : l.vtag = lineTag g)
    (ho : Coherent s.cache s.remote → ∀ x, lineGet t.remote (lineNumber g) = some x →
      l.state = .unowned ∧ l.words = x.words) :
    Accessed s (installLine { t with mem := m, cache := c, gva := a } g l) ∧
      (mustWriteBack l = false → Fetched s (installLine { t with mem := m, cache := c, gva := a } g l)) := by
  have memory : memWf s.mem = true → memWf m = true := by
    intro h
    rcases hm with h0 | ⟨l0, _, _, h0⟩
    · rw [h0]; exact h
    · rw [h0]; exact memPutBlock_wf h _ _
  have lines : Coherent s.cache s.remote → Coherent (linePut c (lineIndex g) l) t.remote := by
    intro h
    refine coherent_put ?_ hv (ho h)
    rcases hc with h0 | h0
    · rw [h0]; exact ht.lines h
    · rw [h0]; exact coherent_drop (ht.lines h) _
  have bytes : ∀ x, memGet m x = memGet s.mem x ∨ writtenBack s x := by
    intro x
    rcases hm with h0 | ⟨l0, h1, h2, h0⟩
    · rw [h0]; exact Or.inl rfl
    · by_cases hx : x / 32 = l0.ptag.toNat
      · exact Or.inr ⟨_, l0, h1, h2, hx⟩
      · rw [h0]; exact Or.inl (memGet_memPutBlock_other s.mem l0.ptag l0.words x hx)
  have access : Accessed s (installLine { t with mem := m, cache := c, gva := a } g l) := by
    have he := ht.only
    refine ⟨?_, memory, lines, ?_, ?_, ?_, bytes⟩
    · unfold Touches; rw [he]; rfl
    · rw [he]; exact id
    · rw [he]; exact id
    · rw [he]; rfl
  refine ⟨access, fun hl => ⟨access, ?_⟩⟩
  intro k l1 h1 h2
  by_cases e : k = lineIndex g
  · subst e
    rw [installLine_cache, lineGet_linePut_self] at h1
    cases h1
    rw [hl] at h2; cases h2
  · rw [installLine_cache, lineGet_linePut_other _ _ _ _ e] at h1
    rcases hc with h0 | h0
    · rw [h0] at h1; exact h1
    · rw [h0] at h1; exact (lineGet_lineDrop_other _ _ _ e).symm.trans h1

theorem blockRead_fetched {s t : State} (h : BlockRead s t) (a : GlobalAddr) : Fetched s { t with gva := a } := by
  have ho := h.only
  have hl := h.lines
  refine ⟨⟨?_, ?_, ?_, ?_, ?_, ?_, ?_⟩, ?_⟩
  · unfold Touches; rw [ho]
  · rw [ho]; exact id
  · intro h; have := hl h; rw [ho]; exact this
  all_goals rw [ho]
  · exact id
  · exact id
  · exact fun _ => .inl rfl
  · exact fun _ _ h _ => h

/-- A line is filled: it is in the cache, of the address; if it is not owned, none has become one to write back. -/
theorem fillLine_ends (s : State) (g : GlobalAddr) (pte : Word) (own : Bool) (slot : Nat) :
    Ends (fun l t => Accessed s t ∧ (own = false → Fetched s t) ∧ t.pteva = s.pteva ∧ cacheProbe t g = some l)
      (Fetched s) (fillLine s g pte own slot) := by
  unfold fillLine
  refine (busReadLine_ends s _ g own slot).then (fun t ht => blockRead_fetched ht t.gva) ?_
  rintro f t ⟨ht, hf⟩
  refine (evict_ends t g).then (fun u hu => ?_) ?_
  · obtain ⟨a, rfl⟩ := hu
    exact blockRead_fetched ht a
  rintro _ u ⟨m, c, a, rfl, hm, hc⟩
  have em : t.mem = s.mem := by rw [ht.only]
  have ec : t.cache = s.cache := by rw [ht.only]
  rw [em, ec] at hm
  rw [ec] at hc
  obtain ⟨h1, h2⟩ := install_evicted (a := a) (l := filledLine g pte own f) ht hm hc rfl
    (fun h x hx => by obtain ⟨rfl, hw⟩ := hf h x hx; exact ⟨rfl, hw⟩)
  refine ⟨h1, fun ho => h2 ?_, ?_, ?_⟩
  · subst ho; rfl
  · rw [installLine_pteva]; rw [ht.only]
  · exact cacheProbe_installLine_self _ _ _ rfl

/-! ### Translation -/

theorem low2_append {n : Nat} (x : BitVec n) : (x ++ 0#2).extractLsb' 0 2 = 0#2 := by
  ext i hi
  simp only [BitVec.getElem_extractLsb', BitVec.getLsbD_append]
  have : i = 0 ∨ i = 1 := by omega
  rcases this with rfl | rfl <;> simp

/-- State VAref changes GVA and PTEVA only, and leaves the low bits of PTEVA 0. -/
theorem vaRef_fetched (s : State) (va : Word) : Fetched s (vaRef s va) where
  access := ⟨rfl, id, id, fun _ => low2_append _, id, rfl, fun _ => .inl rfl⟩
  still := fun _ _ h _ => h

theorem pteRefLatch_fetched (s : State) : Fetched s (pteRefLatch s) where
  access := ⟨rfl, id, id, id, fun _ => low2_append _, rfl, fun _ => .inl rfl⟩
  still := fun _ _ h _ => h

theorem walkSecond_ends (s : State) (va : Word) (slot : Nat) :
    Ends (fun _ t => t = s) (fun t => t = s) (walkSecond s va slot) := by
  unfold walkSecond
  split
  · exact rfl
  · exact busRead_ends _ _ _

/-- The first-level entry: the walk may have filled a line. -/
theorem walkFirst_ends (s : State) (va : Word) (kind : AccessKind) (slot : Nat) :
    Ends (fun _ t => Fetched s t) (Fetched s) (walkFirst s va kind slot) := by
  unfold walkFirst
  dsimp only
  split
  · exact pteRefLatch_fetched s
  · refine (walkSecond_ends _ va slot).then (fun t ht => ht ▸ pteRefLatch_fetched s) ?_
    rintro pte2 t rfl
    split
    · refine ((fillLine_ends _ _ pte2 false (slot + 1)).mono (D' := fun _ t => Fetched s t) ?_ ?_).map _
      · exact fun l t h => (pteRefLatch_fetched s).trans (h.2.1 rfl)
      · exact fun t h => (pteRefLatch_fetched s).trans h
    · exact pteRefLatch_fetched s

/-- A hit that goes on goes to the line or to a physical word, and changes nothing. -/
theorem locateHit_ends (s : State) (g : GlobalAddr) (va : Word) (l : Line) (kind : AccessKind) :
    Ends (fun r t => t = s ∧ ∀ g1 l1, r = .cached g1 l1 → g1 = g ∧ l1 = l) (fun t => t = s)
      (locateHit s g va l kind) := by
  unfold locateHit
  split
  · exact rfl
  · refine ⟨rfl, fun g1 l1 e => ?_⟩
    split at e <;> cases e
    exact ⟨rfl, rfl⟩

/-- Where a located access goes: a line in the cache at the address, or a physical word. -/
theorem locate_ends (s : State) (va : Word) (kind : AccessKind) (slot : Nat) :
    Ends (fun r t => Accessed s t ∧ ∀ g l, r = .cached g l → g = globalAddr s va ∧ cacheProbe t g = some l)
      (Accessed s) (locate s va kind slot) := by
  unfold locate
  dsimp only
  split
  · rename_i l hl
    refine (locateHit_ends (vaRef s va) _ va l kind).mono ?_ (fun t h => h ▸ (vaRef_fetched s va).access)
    rintro r t ⟨rfl, hr⟩
    refine ⟨(vaRef_fetched s va).access, fun g l1 e => ?_⟩
    obtain ⟨rfl, rfl⟩ := hr g l1 e
    exact ⟨rfl, hl⟩
  · refine (walkFirst_ends (vaRef s va) va kind slot).then (fun t h => ((vaRef_fetched s va).trans h).access) ?_
    rintro pte t ht
    have hst := (vaRef_fetched s va).trans ht
    split
    · exact hst.access
    · split
      · exact ⟨hst.access, fun g l e => by cases e⟩
      · refine (fillLine_ends _ _ pte _ _).then (fun u h => (hst.trans h).access) ?_
        rintro l u ⟨hu, -, -, hc⟩
        exact ⟨hst.then hu, fun g l1 e => by cases e; exact ⟨rfl, hc⟩⟩

/-! ### Data accesses -/

/-- A change of one line at a cached address, its ownership gained: no other line and no memory changes. -/
theorem install_installed (s : State) (g : GlobalAddr) (l l1 : Line) (hl : cacheProbe s g = some l)
    (hv : l1.vtag = l.vtag) : Installed s (installLine (gainOwnership s g l) g l1) := by
  have ht : l1.vtag = lineTag g := hv.trans (cacheProbe_some hl).2
  unfold gainOwnership
  split
  · rename_i ho
    exact ⟨rfl, fun h => coherent_put h ht (fun x hx => by rw [coherent_not_owned h hl (by rw [ho]; decide)] at hx; cases hx)⟩
  · exact ⟨rfl, fun h => coherent_put (coherent_dropRemote h _) ht (fun x hx => absurd rfl (lineGet_lineDrop_some h.remote hx).1)⟩

@[simp] theorem ownLine_vtag (l : Line) (kind : AccessKind) : (ownLine l kind).vtag = l.vtag := by
  unfold ownLine; split <;> rfl

theorem readState_installed (s : State) (g : GlobalAddr) (l : Line) (kind : AccessKind)
    (hl : cacheProbe s g = some l) : Installed s (readState s g l kind) := by
  unfold readState
  split
  · exact install_installed s g l _ hl (ownLine_vtag l kind)
  · exact .refl s

theorem readWord_ends (s : State) (virt : Bool) (a : Word) (kind : AccessKind) (slot : Nat) :
    Ends (fun _ t => Accessed s t) (Accessed s) (readWord s virt a kind slot) := by
  unfold readWord
  split
  · refine (locate_ends s a kind slot).then (fun t h => h) ?_
    rintro r t ⟨ht, hp⟩
    cases r with
    | cached g l => exact ht.then (readState_installed t g l kind (hp g l rfl).2)
    | uncached pa => exact (busRead_ends t pa _).mono (fun v u h => h ▸ ht) (fun u h => h ▸ ht)
  · exact (busRead_ends s a _).mono (fun v t h => h ▸ .refl s) (fun t h => h ▸ .refl s)

theorem readDouble_ends (s : State) (virt : Bool) (a : Word) (kind : AccessKind) (slot : Nat) :
    Ends (fun _ t => Accessed s t) (Accessed s) (readDouble s virt a kind slot) := by
  unfold readDouble
  split
  · refine (locate_ends s a kind slot).then (fun t h => h) ?_
    rintro r t ⟨ht, hp⟩
    cases r with
    | cached g l => exact ht.then (readState_installed t g l kind (hp g l rfl).2)
    | uncached pa => trivial
  · trivial

theorem writeLine_ends (s : State) (g : GlobalAddr) (l : Line) (kind : AccessKind) (change : Line → Line)
    (hl : cacheProbe s g = some l) (hv : ∀ l1, (change l1).vtag = l1.vtag) :
    Ends (fun _ t => Installed s t) (fun t => t = s) (writeLine s g l kind change) := by
  unfold writeLine
  split
  · exact install_installed s g l _ hl ((hv _).trans (ownLine_vtag l kind))
  · exact rfl

theorem writeDouble_ends (s : State) (virt : Bool) (a : Word) (d : DWord) (slot : Nat) :
    Ends (fun _ t => Accessed s t) (Accessed s) (writeDouble s virt a d slot) := by
  unfold writeDouble
  split
  · refine (locate_ends s a .write slot).then (fun t h => h) ?_
    rintro r t ⟨ht, hp⟩
    cases r with
    | cached g l => exact (writeLine_ends t g l .write _ (hp g l rfl).2 (by exact fun _ => rfl)).mono (fun _ u h => ht.then h) (fun u h => h ▸ ht)
    | uncached pa => trivial
  · trivial

theorem testAndSetWord_ends (s : State) (virt : Bool) (a : Word) (slot : Nat) :
    Ends (fun _ t => Accessed s t) (Accessed s) (testAndSetWord s virt a slot) := by
  unfold testAndSetWord
  split
  · refine (locate_ends s a .testSet slot).then (fun t h => h) ?_
    rintro r t ⟨ht, hp⟩
    cases r with
    | cached g l =>
      exact ((writeLine_ends t g l .testSet _ (hp g l rfl).2 (by exact fun _ => rfl)).mono (fun _ u h => ht.then h) (fun u h => h ▸ ht)).map _
    | uncached pa => trivial
  · trivial

/-- What a 4-byte store can change: all that an access can, and a word of memory or a bit of INTREG. -/
structure Wrote (s t : State) : Prop where
  touches : Touches s t
  memory : memWf s.mem = true → memWf t.mem = true
  lines : Coherent s.cache s.remote → Coherent t.cache t.remote
  pteva : s.pteva.extractLsb' 0 2 = 0#2 → t.pteva.extractLsb' 0 2 = 0#2
  rpteva : s.rpteva.extractLsb' 0 2 = 0#2 → t.rpteva.extractLsb' 0 2 = 0#2

theorem Accessed.wrote {s t : State} (h : Accessed s t) : Wrote s t :=
  ⟨h.touches, h.memory, h.lines, h.pteva, h.rpteva⟩

theorem Wrote.after {s t u : State} (h1 : Accessed s t) (h2 : Wrote t u) : Wrote s u :=
  ⟨h1.touches.trans h2.touches, h2.memory ∘ h1.memory, h2.lines ∘ h1.lines, h2.pteva ∘ h1.pteva,
    h2.rpteva ∘ h1.rpteva⟩

theorem busWrite_wrote (s : State) (pa w : Word) : Ends (fun _ t => Wrote s t) (Wrote s) (busWrite s pa w) := by
  refine (busWrite_ends s pa w).mono ?_ (fun t h => h ▸ (Accessed.refl s).wrote)
  rintro _ t (rfl | rfl | rfl)
  · exact (Accessed.refl t).wrote
  · exact ⟨rfl, fun h => memPutWord_wf h pa w, id, id, id⟩
  · exact ⟨rfl, id, id, id, id⟩

theorem writeWord_ends (s : State) (virt : Bool) (a w : Word) (slot : Nat) :
    Ends (fun _ t => Wrote s t) (Wrote s) (writeWord s virt a w slot) := by
  unfold writeWord
  split
  · refine (locate_ends s a .write slot).then (fun t h => h.wrote) ?_
    rintro r t ⟨ht, hp⟩
    cases r with
    | cached g l =>
      exact (writeLine_ends t g l .write _ (hp g l rfl).2 (by exact fun _ => rfl)).mono (fun _ u h => (ht.then h).wrote) (fun u h => h ▸ ht.wrote)
    | uncached pa =>
      exact (busWrite_wrote t pa w).mono (fun _ u h => .after ht h) (fun u h => .after ht h)
  · exact busWrite_wrote s a w

/-! ### Accesses that hit -/

/-- A virtual access to a cached line of a cacheable page that the protection allows finds it at once. -/
theorem locate_hit {s : State} {va : Word} {kind : AccessKind} {slot : Nat} {l : Line}
    (h : cacheProbe s (globalAddr s va) = some l) (hp : permits s l.prot (kindWrites kind) = true)
    (hc : l.cacheable = true) :
    locate s va kind slot = .done (.cached (globalAddr s va) l) (vaRef s va) := by
  have h' : cacheProbe (vaRef s va) (globalAddr s va) = some l := h
  have hp' : permits (vaRef s va) l.prot (kindWrites kind) = true := hp
  unfold locate
  simp only [h', locateHit, hitFault, hp', hc, Bool.not_true, Bool.false_and, if_true, Bool.false_eq_true, if_false]

/-- On a line with the mark of a non-cacheable page it goes to the physical word. -/
theorem locate_uncachedHit {s : State} {va : Word} {kind : AccessKind} {slot : Nat} {l : Line}
    (h : uncachedHit s va l (kindWrites kind) = true) (hd : kindWrites kind = true → l.pageDirty = true) :
    locate s va kind slot = .done (.uncached (lineAddr l va)) (vaRef s va) := by
  simp only [uncachedHit, Bool.and_eq_true, beq_iff_eq, Bool.not_eq_true'] at h
  obtain ⟨⟨⟨⟨-, h1⟩, hp⟩, hc⟩, -⟩ := h
  have h' : cacheProbe (vaRef s va) (globalAddr s va) = some l := h1
  have hp' : permits (vaRef s va) l.prot (kindWrites kind) = true := hp
  have hdd : (kindWrites kind && !l.pageDirty) = false := by
    cases hk : kindWrites kind with
    | false => rfl
    | true => simp [hd hk]
  unfold locate
  simp only [h', locateHit, hitFault, hp', hc, Bool.not_true, Bool.not_false, Bool.true_and, hdd, Bool.false_eq_true,
    if_false]

theorem readWord_hit {s : State} {va : Word} {kind : AccessKind} {slot : Nat} {l : Line}
    (h : cacheProbe s (globalAddr s va) = some l) (hp : permits s l.prot (kindWrites kind) = true)
    (hc : l.cacheable = true) :
    readWord s true va kind slot =
      .done (lineWord l (globalAddr s va)) (readState (vaRef s va) (globalAddr s va) l kind) := by
  simp only [readWord, locate_hit h hp hc, if_true]
  rfl

theorem readDouble_hit {s : State} {va : Word} {kind : AccessKind} {slot : Nat} {l : Line}
    (h : cacheProbe s (globalAddr s va) = some l) (hp : permits s l.prot (kindWrites kind) = true)
    (hc : l.cacheable = true) :
    readDouble s true va kind slot =
      .done (lineDouble l (globalAddr s va)) (readState (vaRef s va) (globalAddr s va) l kind) := by
  simp only [readDouble, locate_hit h hp hc, if_true]
  rfl

/-- What a hit latches. -/
theorem vaRef_latches (s : State) (va : Word) : Latches s (vaRef s va) va where
  gva := rfl
  ptevaHigh := by
    simp only [vaRef]
    ext i hi
    simp only [BitVec.getElem_extractLsb', BitVec.getLsbD_append, BitVec.getLsbD_extractLsb']
    have e : 28 + i - 2 - 26 = i := by omega
    simp [show ¬(28 + i < 2) by omega, show ¬(28 + i - 2 < 26) by omega, e, hi]
  ptevaPage := by
    simp only [vaRef]
    ext i hi
    simp only [BitVec.getElem_extractLsb', BitVec.getLsbD_append, BitVec.getLsbD_extractLsb']
    have e : 2 + i - 2 = i := by omega
    simp [show ¬(2 + i < 2) by omega, e, hi]
  ptevaLow := low2_append _

end Sys2Proof.Laws
end

