-- ==== Sys2Proof/Laws/BusProtocol.lean ====
section
/-! SUPPORT. The watchdog of the bus (spec/80_spurbus.md R440): its period, and what it lets pass. Mastery: who may begin a
transfer, when, and who follows (R435, R436, R454). -/

namespace Sys2Proof.Laws

open Sys2Proof Sys2Proof.Machine

theorem snoopWindow_lt_timeout : snoopWindow < busTimeoutCycles := by unfold busTimeoutCycles; omega

theorem wfiCycles_lt_timeout : Config.wfiCycles < busTimeoutCycles := by unfold busTimeoutCycles; omega

theorem timerFires_eq_false {n : Nat} (h : n < busTimeoutCycles) : timerFires n = false := by
  simp [timerFires, h]

/-- Cycles that bring nothing, short of the period, leave the transfer waiting (R438). -/
theorem runTransfer_idle (ad : Word) (rest : List DataCycle) (n : Nat) (t : Transfer)
    (h : t.waited + n ≤ busTimeoutCycles) :
    runTransfer t (List.replicate n { ack := false, tm1 := false, tm0 := false, ad := ad } ++ rest) =
      runTransfer { t with waited := t.waited + n } rest := by
  induction n generalizing t with
  | zero => rfl
  | succ n ih =>
    rw [List.replicate_succ, List.cons_append, runTransfer]
    have hw : watchdogFires t = false := timerFires_eq_false (by omega)
    simp only [transferCycle, isIntermediate, hw, Bool.false_and, Bool.false_eq_true, if_false]
    rw [ih _ (by simp only; omega)]
    simp only [Nat.add_assoc, Nat.add_comm 1 n]

/-- A write for invalidation ends successfully before the watchdog fires (R440, R452). -/
theorem invalidate_ends (ad : Word) :
    runTransfer (beginTransfer 1) (invalidateCycles ad) = .ended .successful [ad] := by
  have h := wfiCycles_lt_timeout
  rw [invalidateCycles, runTransfer_idle ad _ _ _ (by simp only [beginTransfer]; omega)]
  rfl

/-- An idle cycle carries no transfer and no snooped operation (R442). -/
theorem idleStart_carries_nothing (c : StartCycle) :
    startedTransfer (idleStart c) = none ∧ startedWords (idleStart c) = none ∧ startedSnoop (idleStart c) = .none :=
  ⟨rfl, rfl, rfl⟩

/-- Only the master drives a START cycle, and only with no NuBus transfer in progress (R435). -/
theorem startCycle_some {id : BitVec 4} {spur hold : Bool} {c : StartCycle} {b u : BusState}
    (h : startCycle id spur hold c b = some u) : b.master = some id ∧ b.current = none := by
  have hb : holdsBus id b = true := by
    unfold startCycle at h
    split at h
    · exact of_not_not fun hn => by simp [hn] at h
    · split at h
      · rename_i hm
        exact (Bool.and_eq_true _ _ ▸ hm).1
      · cases h
  simpa [holdsBus] using hb

/-- A new START waits for the end of the transfer in progress (R435). -/
theorem startCycle_busy {b : BusState} {t : Transfer} (h : b.current = some t) (id : BitVec 4) (spur hold : Bool)
    (c : StartCycle) : startCycle id spur hold c b = none := by
  cases e : startCycle id spur hold c b with
  | none => rfl
  | some u => rw [(startCycle_some e).2] at h; cases h

/-- A SpurBoard's transfer waits for the VACK cycle as well (R454). -/
theorem startCycle_waits_for_vack {b : BusState} {c : StartCycle} {x : BusTransfer} (hb : interCacheBusy b = true)
    (hx : startedTransfer c = some x) (id : BitVec 4) (hold : Bool) : startCycle id true hold c b = none := by
  simp [startCycle, hx, mayStart, hb]

/-- The board that has mastery may begin once the ACK has come, a SpurBoard once the VACK has come too (R454). -/
theorem mayStart_iff (id : BitVec 4) (spur : Bool) (b : BusState) :
    mayStart id spur b = true ↔
      b.master = some id ∧ b.current = none ∧ (spur = true → interCacheBusy b = false) := by
  cases spur <;> simp [mayStart, holdsBus, and_assoc]

/-- The master's START begins its transfer, and it keeps mastery (R436). -/
theorem startCycle_begins {id : BitVec 4} {spur : Bool} {b : BusState} {c : StartCycle} {n : Nat}
    (hm : mayStart id spur b = true) (hold : Bool) (hn : startedWords c = some n) :
    startCycle id spur hold c b =
      some { arb := afterStart hold b.arb, master := b.master, current := some (beginTransfer n),
             path := startedPath spur c b } := by
  unfold startCycle
  cases ht : startedTransfer c with
  | none => simp [startedWords, ht] at hn
  | some x => simp [hn, hm]

/-- The idle cycle of a master hands the bus on and begins nothing (R442). -/
theorem startCycle_idle {id : BitVec 4} {b : BusState} (hm : holdsBus id b = true) (spur hold : Bool) (c : StartCycle) :
    startCycle id spur hold (idleStart c) b =
      some (takeOver (pathCycle (startLines c) { b with arb := releaseBus b.arb })) := by
  simp [startCycle, hm, idleStart, startedTransfer, startLines]

/-- After a START cycle of a winner the timer counts the next turn from its beginning (R440). -/
theorem afterStart_waited (hold : Bool) (a : Arbiter) {id : BitVec 4} (h : waveWinner a.wave = some id) :
    (afterStart hold a).waited = 0 := by
  unfold afterStart
  split
  · rfl
  · simp only [releaseBus, h]

/-- A transfer goes on: the same board has mastery (R435). -/
theorem busCycle_goesOn {b : BusState} {c : DataCycle} {t u : Transfer} (v : VCycle) (h : b.current = some t)
    (hc : transferCycle t c = .goesOn u) : busCycle c v b = ({ pathCycle v b with current := some u }, none) := by
  simp [busCycle, h, hc]

/-- The end of a transfer: the winner of arbitration has mastery (R436), and no owner can answer any more (R451). -/
theorem busCycle_ends {b : BusState} {c : DataCycle} {t : Transfer} (v : VCycle) (h : b.current = some t)
    (hc : ∀ u, transferCycle t c ≠ .goesOn u) :
    busCycle c v b = (endTransfer (pathCycle v b), some (transferCycle t c)) := by
  unfold busCycle
  rw [h]
  dsimp only
  cases e : transferCycle t c with
  | goesOn u => exact absurd e (hc u)
  | ended st ws => rfl
  | endedEarly => rfl

/-- Once an owner has answered, only its VACK cycle ends the inter-cache transfer, whatever the NuBus path does
(R451, R454). -/
theorem busCycle_keeps_owner {b : BusState} {ws : List Word} (h : b.path = some (.fromOwner ws)) (c : DataCycle)
    (v : VCycle) : interCacheBusy (busCycle c v b).1 = !v.vack := by
  have hp : interCacheBusy (pathCycle v b) = !v.vack ∧
      interCacheBusy { pathCycle v b with path := (pathCycle v b).path.map closeWindow } = !v.vack := by
    simp only [interCacheBusy, pathCycle, h, Option.map_some, snoopCycle]
    cases v.vack <;> cases v.vtm0 <;> exact ⟨rfl, rfl⟩
  unfold busCycle
  cases b.current with
  | none => exact hp.1
  | some t =>
    dsimp only
    cases transferCycle t c with
    | goesOn u => exact hp.1
    | ended st ws => exact hp.2
    | endedEarly => exact hp.2

/-- A board that does not withdraw at its START has mastery again after the ACK (R446). -/
theorem nextMaster_held (a : Arbiter) {id : BitVec 4} (h : waveWinner a.wave = some id) :
    nextMaster (afterStart true a) = some id := by
  simp [nextMaster, afterStart, h]

end Sys2Proof.Laws
end

