-- ==== Sys2Proof/Laws/Meanings.lean ====
section
/-! SUPPORT. What each operation that several meanings share can answer. -/

namespace Sys2Proof.Laws

open Sys2Proof Sys2Proof.Machine Sys2Proof.Safety

/-- The fault of an access taken as a trap. -/
def FaultTaken {α : Type} (x : Access α) (t : State) : Prop :=
  ∃ c s1, x = .fault c s1 ∧ t = takeTrap (faultTrap c) (faulted c s1)

theorem loadInt_next {d : RegField} {x : Access Tagged} {s t : State} (h : loadInt d x s = .next t) :
    (∃ v s1, x = .done v s1 ∧ t = finishLoad d v s1) ∨ FaultTaken x t := by
  obtain ⟨-, -, h⟩ := loadGuard_next h
  rcases onAccess_next h with ⟨v, s1, h1, h2⟩ | h
  · exact .inl ⟨v, s1, h1, by cases h2; rfl⟩
  · exact .inr h

theorem loadCxr_next {d s1 : RegField} {rc : RC} {kind : AccessKind} {s t : State}
    (h : loadCxr d s1 rc kind s = .next t) :
    t = takeTrap .consOrNil s ∨
      (∃ v u, readTagged s s1 rc kind = .done v u ∧ t = finishLoad d v u) ∨ FaultTaken (readTagged s s1 rc kind) t := by
  obtain ⟨-, -, h⟩ := loadGuard_next h
  rcases onCheckedAccess_next h with h | ⟨v, u, h1, h2⟩ | h
  · exact .inl h
  · exact .inr (.inl ⟨v, u, h1, by cases h2; rfl⟩)
  · exact .inr (.inr h)

theorem loadFpu_next {α : Type} {d : RegField} {x : State → Access α} {conv : State → α → FpReg} {s t : State}
    (h : loadFpu d x conv s = .next t) :
    t = takeTrap .illegalOpcode s ∨
      (∃ v u, x (fpuMemWait s) = .done v u ∧ t = advanceLoad (some (.fpu d)) (writeFpu u d (conv u v))) ∨
      FaultTaken (x (fpuMemWait s)) t := by
  rcases withFpu_next h with h | ⟨-, h⟩
  · exact .inl h
  · split at h
    · cases h
    · split at h
      · cases h
      · split at h
        · cases h
        · split at h
          · cases h
          · rcases onAccess_next h with ⟨v, u, h1, h2⟩ | h
            · exact .inr (.inl ⟨v, u, h1, by cases h2; rfl⟩)
            · exact .inr (.inr h)

theorem storeFpu_next {f : RegField} {x : State → Access Unit} {s t : State} (h : storeFpu f x s = .next t) :
    t = takeTrap .illegalOpcode s ∨ (∃ u, x (fpuMemWait s) = .done () u ∧ t = advance u) ∨
      FaultTaken (x (fpuMemWait s)) t := by
  rcases withFpu_next h with h | ⟨-, h⟩
  · exact .inl h
  · split at h
    · cases h
    · split at h
      · cases h
      · split at h
        · cases h
        · rcases onAccess_next h with ⟨v, u, h1, h2⟩ | h
          · exact .inr (.inl ⟨u, h1, by cases h2; rfl⟩)
          · exact .inr (.inr h)

theorem arithOp_next {d s1 : RegField} {rc : RC} {f : Word → Word → Word} {o : Word → Word → Bool} {s t : State}
    (h : arithOp d s1 rc f o s = .next t) :
    t = takeTrap .integerOverflow s ∨ t = takeTrap .fixnumTag s ∨ t = finishReg d (aluResult s s1 rc f) s := by
  obtain ⟨-, h⟩ := writeGuard_next h
  rcases raiseIf_next h with h | h
  · exact .inl h
  · rcases raiseIf_next h with h | h
    · exact .inr (.inl h)
    · exact .inr (.inr (by cases h; rfl))

theorem logicOp_next {d s1 : RegField} {rc : RC} {f : Word → Word → Word} {s t : State}
    (h : logicOp d s1 rc f s = .next t) :
    t = takeTrap .fixnumTag s ∨ t = finishReg d (aluResult s s1 rc f) s := by
  obtain ⟨-, h⟩ := writeGuard_next h
  rcases raiseIf_next h with h | h
  · exact .inl h
  · exact .inr (by cases h; rfl)

/-- A register operation that checks nothing. -/
theorem writeReg_next {d : RegField} {v : Tagged} {s t : State}
    (h : writeGuard d s (.next (finishReg d v s)) = .next t) : t = finishReg d v s := by
  obtain ⟨-, h⟩ := writeGuard_next h
  cases h; rfl

theorem withCond_next {c : Option Bool} {e : Option TrapType} {s t : State} {k : Bool → Out}
    (h : withCond c e s k = .next t) : (∃ x, t = takeTrap x s) ∨ ∃ b, c = some b ∧ k b = .next t := by
  unfold withCond at h
  cases c with
  | none => cases h
  | some b =>
    cases e with
    | none => exact .inr ⟨b, rfl, h⟩
    | some x =>
      rcases raiseOr_next h with h | h
      · exact .inl ⟨x, h⟩
      · exact .inr ⟨b, rfl, h⟩

theorem callTo_next {a : Word} {k : BitVec 24} {s t : State} (h : callTo a k s = .next t) :
    t = takeTrap .windowOverflow s ∨ t = finishWindow a none (enterWindow { s with kpsw := k }) := by
  obtain ⟨-, h⟩ := slotGuard_next h
  split at h
  · cases h
  · rcases raiseIf_next h with h | h
    · exact .inl h
    · exact .inr (by cases h; rfl)

theorem returnTo_next {s1 : RegField} {rc : RC} {r : Option RetKind} {s t : State}
    (h : returnTo s1 rc r s = .next t) :
    t = takeTrap .windowUnderflow s ∨
      t = finishWindow (alignWord (sumRC s s1 rc)) r { s with cwp := s.cwp - 1#3 } := by
  obtain ⟨-, h⟩ := slotGuard_next h
  rcases raiseIf_next h with h | h
  · exact .inl h
  · exact .inr (by cases h; rfl)

/-- The state in which an instruction takes a pending FPU exception: the FPU is idle and nothing is pending. -/
def exceptionTaken (s : State) : State := { s with fpuRun := none, fpuExcep := false }

theorem fpuStart_next {s t : State} {k : State → Out} (h : fpuStart s k = .next t) :
    t = takeTrap (pendingTrap s) (exceptionTaken s) ∨ k (fpuWait s) = .next t := withPending_next h

theorem fpuOp1_next {d a : RegField} {n : Nat} {fx : Bool} {c : State → FpReg → Option FpResult} {s t : State}
    (h : fpuOp1 d a n fx c s = .next t) :
    t = takeTrap .illegalOpcode s ∨ t = takeTrap (pendingTrap s) (exceptionTaken s) ∨
      ∃ r p, t = advance (fpuLaunch (fpuFinish (setFpuPc (fpuWait s)) d r p none fx) d a a n) := by
  rcases withFpu_next h with h | ⟨-, h⟩
  · exact .inl h
  · rcases fpuStart_next h with h | h
    · exact .inr (.inl h)
    · dsimp only at h
      split at h
      · cases h
      · split at h
        · cases h
        · split at h
          · cases h
          · cases h; exact .inr (.inr ⟨_, _, rfl⟩)

theorem fpuOp2_next {d a b : RegField} {n : Nat} {c : State → FpReg → FpReg → Option FpResult} {s t : State}
    (h : fpuOp2 d a b n c s = .next t) :
    t = takeTrap .illegalOpcode s ∨ t = takeTrap (pendingTrap s) (exceptionTaken s) ∨
      ∃ r p q, t = advance (fpuLaunch (fpuFinish (setFpuPc (fpuWait s)) d r p (some q) false) d a b n) := by
  rcases withFpu_next h with h | ⟨-, h⟩
  · exact .inl h
  · rcases fpuStart_next h with h | h
    · exact .inr (.inl h)
    · dsimp only at h
      split at h
      · cases h
      · split at h
        · cases h
        · split at h
          · cases h
          · cases h; exact .inr (.inr ⟨_, _, _, rfl⟩)

/-- The state after an FP compare, before its branch. -/
def compared (u : State) (p : BitVec 15) (b : Bool) (trapping : Bool) : State :=
  setPending { setFpuPc u with fpsw := p, fpuBrTF := b } trapping .floatingPoint

theorem fpCompare_next {cond a b : RegField} {s t : State} {k : Bool → State → Out}
    (h : fpCompare cond a b s k = .next t) :
    t = takeTrap .illegalOpcode s ∨ t = takeTrap (pendingTrap s) (exceptionTaken s) ∨
      ∃ p c q, k c (compared (fpuWait s) p c q) = .next t := by
  rcases withFpu_next h with h | ⟨-, h⟩
  · exact .inl h
  · rcases fpuStart_next h with h | h
    · exact .inr (.inl h)
    · dsimp only at h
      split at h
      · cases h
      · split at h
        · exact .inr (.inr ⟨_, _, _, h⟩)
        · cases h

/-! ### The accesses of the loads and stores -/

theorem readTagged_ends (s : State) (s1 : RegField) (rc : RC) (kind : AccessKind) :
    Ends (fun _ t => Accessed s t) (Accessed s) (readTagged s s1 rc kind) := (readDouble_ends _ _ _ _ _).map _

theorem readFixnum_ends (s : State) (s1 : RegField) (rc : RC) (kind : AccessKind) :
    Ends (fun _ t => Accessed s t) (Accessed s) (readFixnum s s1 rc kind) := (readWord_ends _ _ _ _ _).map _

theorem readFpuWord_ends (s1 : RegField) (rc : RC) (kind : AccessKind) (s : State) :
    Ends (fun _ t => Accessed s t) (Accessed s) (readFpuWord s1 rc kind s) := readWord_ends _ _ _ _ _

theorem readFpuDouble_ends (s1 : RegField) (rc : RC) (kind : AccessKind) (s : State) :
    Ends (fun _ t => Accessed s t) (Accessed s) (readFpuDouble s1 rc kind s) := readDouble_ends _ _ _ _ _

theorem writeFpuWord_ends (s1 : RegField) (sc : BitVec 14) (w : State → Word) (s : State) :
    Ends (fun _ t => Wrote s t) (Wrote s) (writeFpuWord s1 sc w s) := writeWord_ends _ _ _ _ _

theorem writeFpuDouble_ends (s1 : RegField) (sc : BitVec 14) (w : State → DWord) (s : State) :
    Ends (fun _ t => Accessed s t) (Accessed s) (writeFpuDouble s1 sc w s) := writeDouble_ends _ _ _ _ _

end Sys2Proof.Laws
end

