-- ==== Sys2Proof/Laws/Completions.lean ====
section
/-! SUPPORT. What each way an instruction can end leaves unchanged, in the words of Safety. -/

namespace Sys2Proof.Laws

open Sys2Proof Sys2Proof.Machine Sys2Proof.Safety

/-! ### Ends that write one integer register -/

/-- Everything but one register, the program counters, the pipe and KPSW is kept by a write and the end of an
instruction. -/
theorem finishReg_only (d : RegField) (v : Tagged) (s : State) : OnlyRegs s (finishReg d v s) (destOf s d) where
  regs := fun r hr => (regGet_congr (by simp [finishReg]) (by simp [finishReg]) r).trans (writeReg_keeps s d v r hr)
  system := ⟨⟨by simp [finishReg], by simp [finishReg], by simp [finishReg]⟩,
    ⟨by simp [finishReg], by simp [finishReg]⟩,
    ⟨by simp [finishReg], by simp [finishReg], by simp [finishReg], by simp [finishReg], by simp [finishReg],
      by simp [finishReg], by simp [finishReg], by simp [finishReg], by simp [finishReg]⟩,
    ⟨by simp [finishReg], by simp [finishReg], by simp [finishReg]⟩⟩
  fpu := ⟨by simp [finishReg], by simp [finishReg], by simp [finishReg], by simp [finishReg], by simp [finishReg],
    by simp [finishReg], by simp [finishReg]⟩
  latches := ⟨by simp [finishReg], by simp [finishReg]⟩
  memory := ⟨by simp [finishReg], by simp [finishReg], by simp [finishReg]⟩

theorem finishReg_sequential (d : RegField) (v : Tagged) (s : State) :
    Sequential s (finishReg d v s) Pipe.idle where
  pc := by simp [finishReg]
  nextPC := by simp [finishReg]
  kpsw := by simp [finishReg]
  cwp := by simp [finishReg]
  pipe := by simp [finishReg]

theorem finishReg_dest (d : RegField) (v : Tagged) (s : State) :
    regVal (finishReg d v s) d = if d = 0#5 then zeroTagged else v := by
  rw [← regVal_writeReg_self s d v]
  exact regVal_congr (by simp [finishReg]) (by simp [finishReg]) (by simp [finishReg]) d

/-- An instruction that ends with `finishReg` writes its register and nothing else. -/
theorem writesReg_of {i : Instr} {s : State} {d : RegField} {v : Tagged}
    (h : exec i s = .next (finishReg d v s)) : WritesReg i s d v :=
  ⟨_, h, finishReg_dest d v s, finishReg_only d v s, finishReg_sequential d v s⟩

theorem finishLoad_sequential (d : RegField) (v : Tagged) (s : State) :
    Sequential s (finishLoad d v s) (shadowOf s d) where
  pc := by simp [finishLoad]
  nextPC := by simp [finishLoad]
  kpsw := by simp [finishLoad]
  cwp := by simp [finishLoad]
  pipe := by simp [finishLoad, shadowOf]

theorem finishLoad_only (d : RegField) (v : Tagged) (s : State) : OnlyRegs s (finishLoad d v s) (destOf s d) where
  regs := fun r hr => (regGet_congr (by simp [finishLoad]) (by simp [finishLoad]) r).trans (writeReg_keeps s d v r hr)
  system := ⟨⟨by simp [finishLoad], by simp [finishLoad], by simp [finishLoad]⟩,
    ⟨by simp [finishLoad], by simp [finishLoad]⟩,
    ⟨by simp [finishLoad], by simp [finishLoad], by simp [finishLoad], by simp [finishLoad], by simp [finishLoad],
      by simp [finishLoad], by simp [finishLoad], by simp [finishLoad], by simp [finishLoad]⟩,
    ⟨by simp [finishLoad], by simp [finishLoad], by simp [finishLoad]⟩⟩
  fpu := ⟨by simp [finishLoad], by simp [finishLoad], by simp [finishLoad], by simp [finishLoad],
    by simp [finishLoad], by simp [finishLoad], by simp [finishLoad]⟩
  latches := ⟨by simp [finishLoad], by simp [finishLoad]⟩
  memory := ⟨by simp [finishLoad], by simp [finishLoad], by simp [finishLoad]⟩

theorem finishLoad_dest (d : RegField) (v : Tagged) (s : State) :
    regVal (finishLoad d v s) d = if d = 0#5 then zeroTagged else v := by
  rw [← regVal_writeReg_self s d v]
  exact regVal_congr (by simp [finishLoad]) (by simp [finishLoad]) (by simp [finishLoad]) d

/-- A load that ends with `finishLoad` from the state itself. -/
theorem loadsReg_of {i : Instr} {s : State} {d : RegField} {v : Tagged}
    (h : exec i s = .next (finishLoad d v s)) : LoadsReg i s d v :=
  ⟨_, h, finishLoad_dest d v s, finishLoad_only d v s, finishLoad_sequential d v s⟩

/-! ### The end of an instruction with no result -/

theorem advance_only (s : State) : OnlyRegs s (advance s) [] where
  regs := keepsRegs_nil rfl rfl _
  system := ⟨⟨rfl, rfl, rfl⟩, ⟨rfl, rfl⟩, ⟨rfl, rfl, rfl, rfl, rfl, rfl, rfl, rfl, rfl⟩, ⟨rfl, rfl, rfl⟩⟩
  fpu := ⟨rfl, rfl, rfl, rfl, rfl, rfl, rfl⟩
  latches := ⟨rfl, rfl⟩
  memory := ⟨fun _ => rfl, fun _ => rfl, fun _ => rfl⟩

theorem advance_sequential (s : State) : Sequential s (advance s) Pipe.idle := ⟨rfl, rfl, rfl, rfl, rfl⟩

/-! ### Checks that are met or not -/

theorem raiseIf_passes {c : Bool} {x : TrapType} {s : State} (h : c = false ∨ trapEnabled s x = false) (k : Out) :
    raiseIf c x s k = k := by
  rcases h with h | h
  · simp [h]
  · cases c <;> simp [raiseIf, raiseOr_disabled h]

theorem raiseIf_met {c : Bool} {x : TrapType} {s : State} (h : c = true) (he : trapEnabled s x = true) (k : Out) :
    raiseIf c x s k = .next (takeTrap x s) := by
  simp [h, raiseOr_enabled he]

/-- Exception E is met exactly where one of the tags is not FIXNUM (R25, R200). -/
theorem excE_eq_false (a b : Tagged) :
    excE a b = false ↔ a.taggen.extractLsb' 4 2 = 0#2 ∧ b.taggen.extractLsb' 4 2 = 0#2 := by
  have h : ∀ v : Byte, isFixnum (v.extractLsb' 0 6) = true ↔ v.extractLsb' 4 2 = 0#2 := by decide
  simp only [excE, tagOf, Bool.not_eq_false', Bool.and_eq_true, h]

/-- The range test of ADD and SUB. -/
theorem outOfRange32_eq_false (n : Int) :
    outOfRange32 n = false ↔ -2147483648 ≤ n ∧ n ≤ 2147483647 := by
  simp [outOfRange32]

end Sys2Proof.Laws
end

