-- ==== Sys2Proof/Laws/Exec.lean ====
section
/-! SUPPORT. Said once for all instructions and for the step: what a next state can be. `exec_inst` and `step_inst` are
what a proof about every instruction or every step cites. -/

namespace Sys2Proof.Laws

open Sys2Proof Sys2Proof.Machine Sys2Proof.Safety

/-- The instructions that store one word. -/
def isWordStore : Instr → Bool
  | .st32 _ _ _ => true | .stSgl _ _ _ => true | .stInt _ _ _ => true | _ => false

/-- `u` is where the instruction that started in `s` has got to, before it ends; `b` marks a word store. -/
structure MidInstr (b : Bool) (s u : State) : Prop where
  kpsw : u.kpsw = s.kpsw
  pc : u.pc = s.pc
  nextPC : u.nextPC = s.nextPC
  pipe : u.pipe = s.pipe
  trapPC : u.trapPC = s.trapPC
  trapNextPC : u.trapNextPC = s.trapNextPC
  memory : memWf s.mem = true → memWf u.mem = true
  lines : Coherent s.cache s.remote → Coherent u.cache u.remote
  pteva : s.pteva.extractLsb' 0 2 = 0#2 → u.pteva.extractLsb' 0 2 = 0#2
  rpteva : s.rpteva.extractLsb' 0 2 = 0#2 → u.rpteva.extractLsb' 0 2 = 0#2
  bytes : b = false → ∀ x, memGet u.mem x = memGet s.mem x ∨ writtenBack s x

/-- As `MidInstr`, with no register written: a state in which a trap may be taken (R350). -/
structure TrapReady (b : Bool) (s u : State) : Prop extends MidInstr b s u where
  globals : u.globals = s.globals
  windows : u.windows = s.windows
  cwp : u.cwp = s.cwp
  upsw : u.upsw = s.upsw
  swp : u.swp = s.swp
  insert : u.insert = s.insert
  fregs : u.fregs = s.fregs
  fpsw : u.fpsw = s.fpsw
  fpuPc : u.fpuPc = s.fpuPc

/-- The instruction that started in `s` has ended in `t` without a trap. -/
structure Completed (b : Bool) (s t : State) : Prop where
  memory : memWf s.mem = true → memWf t.mem = true
  lines : Coherent s.cache s.remote → Coherent t.cache t.remote
  pteva : s.pteva.extractLsb' 0 2 = 0#2 → t.pteva.extractLsb' 0 2 = 0#2
  rpteva : s.rpteva.extractLsb' 0 2 = 0#2 → t.rpteva.extractLsb' 0 2 = 0#2
  bytes : b = false → ∀ x, memGet t.mem x = memGet s.mem x ∨ writtenBack s x
  trapPC : t.trapPC = s.trapPC
  trapNextPC : t.trapNextPC = s.trapNextPC
  pc : t.pc = s.nextPC
  nextPC : wordAligned s.pc → wordAligned s.nextPC → wordAligned t.nextPC
  kpsw : kpswMode s = false → (∀ n, n ≠ 4 → n ≠ 5 → n ≠ 12 →
    t.kpsw.getLsbD n = s.kpsw.getLsbD n) ∧ (kpswMode t = true → t.nextPC = 0x1000#32)
  atVector : t.pipe.atVector = false

theorem MidInstr.refl (b) (s : State) : MidInstr b s s := ⟨rfl,rfl,rfl,rfl,rfl,rfl,id,id,id,id,fun _ _ => .inl rfl⟩
theorem TrapReady.refl (b) (s : State) : TrapReady b s s := ⟨.refl b s,rfl,rfl,rfl,rfl,rfl,rfl,rfl,rfl,rfl⟩

theorem aligned_add4 {a : Word} (h : wordAligned a) : wordAligned (a + 4#32) := by
  unfold wordAligned at *
  have h4 : a.toNat % 4 = 0 := by
    have := congrArg BitVec.toNat h
    simpa [BitVec.extractLsb'_toNat] using this
  apply BitVec.eq_of_toNat_eq
  simp [BitVec.extractLsb'_toNat, BitVec.toNat_add]
  omega

theorem aligned_iff {a : Word} : wordAligned a ↔ a.toNat % 4 = 0 := by
  unfold wordAligned
  constructor
  · intro h
    have := congrArg BitVec.toNat h
    simpa [BitVec.extractLsb'_toNat] using this
  · intro h
    apply BitVec.eq_of_toNat_eq
    simpa [BitVec.extractLsb'_toNat] using h

theorem applyRet_bits (k : BitVec 24) (r : Option RetKind) (n : Nat) (h4 : n ≠ 4) (h12 : n ≠ 12) :
    (applyRet k r).getLsbD n = k.getLsbD n := by
  cases r with
  | none => rfl
  | some r => cases r <;> simp [applyRet, setBit_getLsbD, h4, h12]

theorem applyRet_mode (k : BitVec 24) (r : Option RetKind)
  (h : k.getLsbD 4 = false) : (applyRet k r).getLsbD 4 = false := by
  cases r with
  | none => exact h
  | some r => cases r <;> simp only [applyRet, setBit_getLsbD] <;> simpa using h

/-- An end that moves on to `nextPC` completes the instruction. -/
theorem Completed.of {b : Bool} {s u t : State} (hu : MidInstr b s u) (hm : t.mem = u.mem) (hc : t.cache = u.cache)
  (he : t.remote = u.remote)
  (hp : t.pteva = u.pteva)
    (hr : t.rpteva = u.rpteva) (h1 : t.trapPC = u.trapPC) (h2 : t.trapNextPC = u.trapNextPC) (h3 : t.pc = u.nextPC)
    (hk : t.kpsw = applyRet u.kpsw u.pipe.retPend) (hv : t.pipe.atVector = false)
    (hn : wordAligned s.pc → wordAligned s.nextPC → wordAligned t.nextPC) : Completed b s t where
  memory := by rw [hm]; exact hu.memory
  lines := by rw [hc, he]; exact hu.lines
  pteva := by rw [hp]; exact hu.pteva
  rpteva := by rw [hr]; exact hu.rpteva
  bytes := by rw [hm]; exact hu.bytes
  trapPC := h1.trans hu.trapPC
  trapNextPC := h2.trans hu.trapNextPC
  pc := h3.trans hu.nextPC
  nextPC := hn
  kpsw := by
    intro h
    rw [hk, hu.kpsw]
    refine ⟨fun n h4 _ h12 => applyRet_bits _ _ n h4 h12, fun hm => ?_⟩
    have := applyRet_mode s.kpsw u.pipe.retPend h
    unfold kpswMode at hm; rw [hk, hu.kpsw, this] at hm; cases hm
  atVector := hv

theorem MidInstr.advance {b : Bool} {s u : State} (hu : MidInstr b s u) : Completed b s (advance u) :=
  .of hu rfl rfl rfl rfl rfl rfl rfl rfl rfl rfl (fun _ h => by rw [advance_nextPC, hu.nextPC]; exact aligned_add4 h)

theorem MidInstr.advanceLoad {b : Bool} {s u : State} (hu : MidInstr b s u) (x) : Completed b s (advanceLoad x u) :=
  .of hu rfl rfl rfl rfl rfl rfl rfl rfl rfl rfl (fun _ h => by rw [advanceLoad_nextPC, hu.nextPC]; exact aligned_add4 h)

theorem MidInstr.advanceTo {b : Bool} {s u : State} (hu : MidInstr b s u) (x) (hx : wordAligned s.pc →
  wordAligned s.nextPC → wordAligned x) : Completed b s (advanceTo x u) :=
  .of hu rfl rfl rfl rfl rfl rfl rfl rfl rfl rfl hx

theorem touches_mid {b : Bool} {s u : State} (h : Wrote s u) (hb : b = false → ∀ x,
  memGet u.mem x = memGet s.mem x ∨ writtenBack s x) : MidInstr b s u :=
  ⟨h.touches.kpsw, h.touches.pc, h.touches.nextPC, h.touches.pipe,
   h.touches.trapPC, h.touches.trapNextPC, h.memory, h.lines,h.pteva,h.rpteva, hb⟩

theorem touches_pre {b : Bool} {s u : State} (h : Wrote s u) (hb : b = false → ∀ x,
  memGet u.mem x = memGet s.mem x ∨ writtenBack s x) : TrapReady b s u :=
  ⟨touches_mid h hb, h.touches.globals, h.touches.windows, h.touches.cwp, h.touches.upsw,
   h.touches.swp, h.touches.insert, h.touches.fregs, h.touches.fpsw, h.touches.fpuPc⟩

theorem TrapReady.faulted {b : Bool} {s u : State} (h : TrapReady b s u) (c) : TrapReady b s (faulted c u)
  := ⟨⟨h.kpsw,h.pc,h.nextPC,h.pipe,h.trapPC,h.trapNextPC,h.memory,h.lines,h.pteva,h.rpteva,h.bytes⟩,h.globals,
  h.windows,h.cwp,h.upsw,h.swp,h.insert,h.fregs,h.fpsw,h.fpuPc⟩

/-- An update that leaves all this alone. -/
theorem MidInstr.upd {b : Bool} {s u v : State} (h : MidInstr b s u) (h1 : v.kpsw = u.kpsw) (h2 : v.pc = u.pc)
  (h3 : v.nextPC = u.nextPC) (h4 : v.pipe = u.pipe)
   (h5 : v.trapPC = u.trapPC) (h6 : v.trapNextPC = u.trapNextPC) (h7 : v.mem = u.mem) (h8 : v.cache = u.cache) (h11 : v.remote = u.remote)
     (h9 : v.pteva = u.pteva) (h10 : v.rpteva = u.rpteva) : MidInstr b s v :=
  ⟨h1.trans h.kpsw, h2.trans h.pc, h3.trans h.nextPC, h4.trans h.pipe, h5.trans h.trapPC, h6.trans h.trapNextPC,
    h7 ▸ h.memory, h11 ▸ h8 ▸ h.lines, h9 ▸ h.pteva, h10 ▸ h.rpteva, h7 ▸ h.bytes⟩

theorem MidInstr.writeReg {b : Bool} {s u : State} (h : MidInstr b s u) (d v) : MidInstr b s (writeReg u d v)
  := h.upd (by simp) (by simp) (by simp) (by simp) (by simp) (by simp) (by simp) (by simp) (by simp) (by simp) (by simp)
theorem MidInstr.writeFpu {b : Bool} {s u : State} (h : MidInstr b s u) (d v) : MidInstr b s (writeFpu u d v)
  := h.upd (by simp) (by simp) (by simp) (by simp) (by simp) (by simp) (by simp) (by simp) (by simp) (by simp) (by simp)

theorem MidInstr.writeFpuWord32 {b : Bool} {s u : State} (h : MidInstr b s u) (d w) :
  MidInstr b s (writeFpuWord32 u d w)
  := h.upd (by simp) (by simp) (by simp) (by simp) (by simp) (by simp) (by simp) (by simp) (by simp) (by simp) (by simp)

/-- A change that touches none of this: the wait for the FPU, the instruction buffer. -/
structure Unmoved (s u : State) : Prop where
  pre : ∀ b, TrapReady b s u
  cache : u.cache = s.cache
  remote : u.remote = s.remote
  mem : u.mem = s.mem
  pteva : u.pteva = s.pteva
  rpteva : u.rpteva = s.rpteva
theorem TrapReady.trans {b : Bool} {s u v : State} (h : Unmoved s u) (g : TrapReady b u v) : TrapReady b s v where
  kpsw := g.kpsw.trans (h.pre b).kpsw
  pc := g.pc.trans (h.pre b).pc
  nextPC := g.nextPC.trans (h.pre b).nextPC
  pipe := g.pipe.trans (h.pre b).pipe
  trapPC := g.trapPC.trans (h.pre b).trapPC
  trapNextPC := g.trapNextPC.trans (h.pre b).trapNextPC
  memory := by rw [← h.mem]; exact g.memory
  lines := by rw [← h.cache, ← h.remote]; exact g.lines
  pteva := by rw [← h.pteva]; exact g.pteva
  rpteva := by rw [← h.rpteva]; exact g.rpteva
  bytes := by
    intro e x
    have := g.bytes e x
    rw [h.mem] at this
    unfold writtenBack at *
    rw [h.cache] at this
    exact this
  globals := g.globals.trans (h.pre b).globals
  windows := g.windows.trans (h.pre b).windows
  cwp := g.cwp.trans (h.pre b).cwp
  upsw := g.upsw.trans (h.pre b).upsw
  swp := g.swp.trans (h.pre b).swp
  insert := g.insert.trans (h.pre b).insert
  fregs := g.fregs.trans (h.pre b).fregs
  fpsw := g.fpsw.trans (h.pre b).fpsw
  fpuPc := g.fpuPc.trans (h.pre b).fpuPc

theorem eqv_fpuMemWait (s : State) : Unmoved s (fpuMemWait s) :=
  ⟨fun b => ⟨⟨by simp,by simp,by simp,by simp,by simp,by simp,by simp,by simp,by simp,by simp,
    fun _ _ => .inl (by simp)⟩,by simp,by simp,by simp,by simp,by simp,by simp,by simp,by simp,by simp⟩, by simp,
    by simp,by simp,by simp,by simp⟩
theorem eqv_fpuWait (s : State) : Unmoved s (fpuWait s) :=
  ⟨fun b => ⟨⟨by simp,by simp,by simp,by simp,by simp,by simp,by simp,by simp,by simp,by simp,
    fun _ _ => .inl (by simp)⟩,by simp,by simp,by simp,by simp,by simp,by simp,by simp,by simp,by simp⟩, by simp,
    by simp,by simp,by simp,by simp⟩
theorem eqv_exceptionTaken (s : State) : Unmoved s (exceptionTaken s) :=
  ⟨fun b => ⟨⟨rfl,rfl,rfl,rfl,rfl,rfl,id,id,id,id,fun _ _ => .inl rfl⟩,rfl,rfl,rfl,rfl,rfl,rfl,rfl,rfl,rfl⟩, rfl,rfl,
    rfl,rfl,rfl⟩

/-- How an instruction answers `next t`: a trap taken before it has written anything, or completion. -/
def InstrEnd (b : Bool) (s t : State) : Prop := (∃ x u, t = takeTrap x u ∧ TrapReady b s u) ∨ Completed b s t

theorem access_faultTaken {α} {s t : State} {x : Access α} {D} (hx : Ends D (Accessed s) x)
  (h : FaultTaken x t) (b) : InstrEnd b s t := by
  obtain ⟨c, u, h1, h2⟩ := h
  have := hx.fault h1
  exact .inl ⟨_, _, h2, (touches_pre this.wrote (fun _ => this.bytes)).faulted c⟩


theorem Accessed.mid {s u : State} (h : Accessed s u) (b) : MidInstr b s u := touches_mid h.wrote (fun _ => h.bytes)

theorem inst_loadInt {d x s t b} (hx : Ends (fun _ t => Accessed s t) (Accessed s) x)
  (h : loadInt d x s = .next t) : InstrEnd b s t := by
  rcases loadInt_next h with ⟨v, u, h1, rfl⟩ | h
  · exact .inr ((MidInstr.writeReg ((hx.done h1).mid b) d v).advanceLoad _)
  · exact access_faultTaken hx h b
theorem inst_loadCxr {d s1 rc kind s t b} (h : loadCxr d s1 rc kind s = .next t) : InstrEnd b s t := by
  have hx := readTagged_ends s s1 rc kind
  rcases loadCxr_next h with rfl | ⟨v, u, h1, rfl⟩ | h
  · exact .inl ⟨_, _, rfl, .refl b s⟩
  · exact .inr ((MidInstr.writeReg ((hx.done h1).mid b) d v).advanceLoad _)
  · exact access_faultTaken hx h b

theorem MidInstr.transE {b : Bool} {s u v : State} (h : Unmoved s u) (g : MidInstr b u v) : MidInstr b s v where
  kpsw := g.kpsw.trans (h.pre b).kpsw
  pc := g.pc.trans (h.pre b).pc
  nextPC := g.nextPC.trans (h.pre b).nextPC
  pipe := g.pipe.trans (h.pre b).pipe
  trapPC := g.trapPC.trans (h.pre b).trapPC
  trapNextPC := g.trapNextPC.trans (h.pre b).trapNextPC
  memory := by rw [← h.mem]; exact g.memory
  lines := by rw [← h.cache, ← h.remote]; exact g.lines
  pteva := by rw [← h.pteva]; exact g.pteva
  rpteva := by rw [← h.rpteva]; exact g.rpteva
  bytes := by
    intro e x
    have := g.bytes e x
    rw [h.mem] at this
    unfold writtenBack at *
    rw [h.cache] at this
    exact this

theorem inst_loadFpu {α} {d} {x : State → Access α} {conv s t b} (hx : ∀ u,
  Ends (fun _ t => Accessed u t) (Accessed u) (x u)) (h : loadFpu d x conv s = .next t) : InstrEnd b s t := by
  have he := eqv_fpuMemWait s
  rcases loadFpu_next h with rfl | ⟨v, u, h1, rfl⟩ | h
  · exact .inl ⟨_, _, rfl, .refl b s⟩
  · exact .inr ((MidInstr.writeFpu (MidInstr.transE he (((hx _).done h1).mid b)) d _).advanceLoad _)
  · obtain ⟨c, u, h1, h2⟩ := h
    have := (hx _).fault h1
    exact .inl ⟨_, _, h2, (TrapReady.trans he (touches_pre this.wrote (fun _ => this.bytes))).faulted c⟩

theorem inst_storeFpu {f} {x : State → Access Unit} {s t b} (hx : ∀ u, Ends (fun _ t => Wrote u t ∧ (b = false → ∀ x,
  memGet t.mem x = memGet u.mem x ∨ writtenBack u x)) (fun t => Wrote u t ∧ (b = false → ∀ x,
  memGet t.mem x = memGet u.mem x ∨ writtenBack u x)) (x u)) (h : storeFpu f x s = .next t) : InstrEnd b s t := by
  have he := eqv_fpuMemWait s
  rcases storeFpu_next h with rfl | ⟨u, h1, rfl⟩ | h
  · exact .inl ⟨_, _, rfl, .refl b s⟩
  · have := (hx _).done h1
    exact .inr (MidInstr.advance (MidInstr.transE he (touches_mid this.1 this.2)))
  · obtain ⟨c, u, h1, h2⟩ := h
    have := (hx _).fault h1
    exact .inl ⟨_, _, h2, (TrapReady.trans he (touches_pre this.1 this.2)).faulted c⟩

theorem storeW {s1 sc w} (u) : Ends (fun _ t => Wrote u t ∧ (true = false → ∀ x,
  memGet t.mem x = memGet u.mem x ∨ writtenBack u x)) (fun t => Wrote u t ∧ (true = false → ∀ x,
  memGet t.mem x = memGet u.mem x ∨ writtenBack u x)) (writeFpuWord s1 sc w u) :=
  (writeFpuWord_ends s1 sc w u).mono (fun _ _ h => ⟨h, by simp⟩) (fun _ h => ⟨h, by simp⟩)
theorem storeD {s1 sc w} (u) : Ends (fun _ t => Wrote u t ∧ (false = false → ∀ x,
  memGet t.mem x = memGet u.mem x ∨ writtenBack u x)) (fun t => Wrote u t ∧ (false = false → ∀ x,
  memGet t.mem x = memGet u.mem x ∨ writtenBack u x)) (writeFpuDouble s1 sc w u) :=
  (writeFpuDouble_ends s1 sc w u).mono (fun _ _ h => ⟨h.wrote, fun _ => h.bytes⟩) (fun _ h => ⟨h.wrote,
    fun _ => h.bytes⟩)

theorem inst_fin {b s d v} : InstrEnd b s (finishReg d v s)
  := .inr (MidInstr.advance ((MidInstr.refl b s).writeReg d v))
theorem inst_arith {d s1 rc f o s t b} (h : arithOp d s1 rc f o s = .next t) : InstrEnd b s t := by
  rcases arithOp_next h with rfl | rfl | rfl
  · exact .inl ⟨_, _, rfl, .refl b s⟩
  · exact .inl ⟨_, _, rfl, .refl b s⟩
  · exact inst_fin
theorem inst_logic {d s1 rc f s t b} (h : logicOp d s1 rc f s = .next t) : InstrEnd b s t := by
  rcases logicOp_next h with rfl | rfl
  · exact .inl ⟨_, _, rfl, .refl b s⟩
  · exact inst_fin
theorem inst_wr {d v s t b} (h : writeGuard d s (.next (finishReg d v s)) = .next t) : InstrEnd b s t := by
  rw [writeReg_next h]; exact inst_fin

theorem target_aligned (pc : Word) (off : BitVec 9) (h : wordAligned pc) : wordAligned (branchTarget pc off) := by
  rw [aligned_iff] at *
  have h2 : ((off ++ 0#2).signExtend 32).toNat % 4 = 0 := by
    have : ∀ o : BitVec 9, ((o ++ 0#2).signExtend 32).toNat % 4 = 0 := by decide
    exact this off
  unfold branchTarget
  rw [BitVec.toNat_add]
  omega
theorem jump_aligned (x : BitVec 30) : wordAligned (x ++ 0#2) := low2_append x
theorem jumpT_aligned (pc : Word) (x : BitVec 28) : wordAligned (jumpTarget pc x) := low2_append _

theorem done_branchDelayed {b s u} (hu :
  MidInstr b s u) (off c) : Completed b s (branchDelayed (branchTarget u.pc off) c u) := by
  unfold branchDelayed
  split
  · exact hu.advanceTo _ (fun h _ => target_aligned _ _ (hu.pc ▸ h))
  · exact hu.advance
theorem done_branchTrue {b s u} (hu :
  MidInstr b s u) (off c) : Completed b s (branchTrue (branchTarget u.pc off) c u) := by
  have := done_branchDelayed hu off c
  exact ⟨this.memory,this.lines,this.pteva,this.rpteva,this.bytes,this.trapPC,this.trapNextPC,this.pc,this.nextPC,
    this.kpsw,rfl⟩

theorem inst_cond {c e s t b} {k : Bool → Out} (hk : ∀ c t, k c = .next t → InstrEnd b s t)
  (h : withCond c e s k = .next t) : InstrEnd b s t := by
  rcases withCond_next h with ⟨x, rfl⟩ | ⟨c, -, h⟩
  · exact .inl ⟨_, _, rfl, .refl b s⟩
  · exact hk c t h

theorem done_finishCwp {b s u} (hu : MidInstr b s u) : Completed b s (finishCwp u) :=
  .of hu rfl rfl rfl rfl rfl rfl rfl rfl rfl rfl (fun _ h => by rw [finishCwp_nextPC, hu.nextPC]; exact aligned_add4 h)
theorem done_finishWindow {b s u} (hu : MidInstr b s u) (a r)
  (ha : wordAligned a) : Completed b s (finishWindow a r u) :=
  .of hu rfl rfl rfl rfl rfl rfl rfl rfl rfl rfl (fun _ _ => by simpa using ha)

theorem inst_call {a s t b} (ha : wordAligned a) (h : callTo a s.kpsw s = .next t) : InstrEnd b s t := by
  rcases callTo_next h with rfl | rfl
  · exact .inl ⟨_, _, rfl, .refl b s⟩
  · refine .inr (done_finishWindow ((MidInstr.refl b s).upd ?_ ?_ ?_ ?_ ?_ ?_ ?_ ?_ ?_ ?_ ?_) _ _ ha) <;> simp
theorem inst_ret {s1 rc r s t b} (h : returnTo s1 rc r s = .next t) : InstrEnd b s t := by
  rcases returnTo_next h with rfl | rfl
  · exact .inl ⟨_, _, rfl, .refl b s⟩
  · refine .inr (done_finishWindow ((MidInstr.refl b s).upd ?_ ?_ ?_ ?_ ?_ ?_ ?_ ?_ ?_ ?_ ?_) _ _ (alignWord_aligned _)) <;> rfl

theorem inst_callKernel {s t b} (h : execCallKernel s = .next t) : InstrEnd b s t := by
  rcases callTo_next h with rfl | rfl
  · exact .inl ⟨_, _, rfl, .refl b s⟩
  · right
    have hk : ∀ n, n ≠ 4 → n ≠ 5 → (kernelKpsw s.kpsw).getLsbD n = s.kpsw.getLsbD n := by
      intro n h4 h5; simp [kernelKpsw, setBit_getLsbD, h4, h5]
    refine ⟨by simp, by simp, by simp, by simp, fun _ _ => .inl (by simp), by simp, by simp, by simp,
      fun _ _ => by simp [wordAligned, kernelEntry], ?_, by simp; rfl⟩
    intro hm
    refine ⟨?_, by simp [kernelEntry]⟩
    intro n h4 h5 h12
    simp only [finishWindow_kpsw, enterWindow_kpsw]
    rw [applyRet_bits _ _ _ h4 h12, hk n h4 h5]

theorem pre_exceptionTaken {b s} : TrapReady b s (exceptionTaken s) := (eqv_exceptionTaken s).pre b
theorem inst_op1 {d a n fx c s t b} (h : fpuOp1 d a n fx c s = .next t) : InstrEnd b s t := by
  rcases fpuOp1_next h with rfl | rfl | ⟨r, p, rfl⟩
  · exact .inl ⟨_, _, rfl, .refl b s⟩
  · exact .inl ⟨_, _, rfl, pre_exceptionTaken⟩
  · refine .inr (MidInstr.advance ((((eqv_fpuWait s).pre b).toMidInstr).upd ?_ ?_ ?_ ?_ ?_ ?_ ?_ ?_ ?_ ?_ ?_)) <;> simp
theorem inst_op2 {d a a' n c s t b} (h : fpuOp2 d a a' n c s = .next t) : InstrEnd b s t := by
  rcases fpuOp2_next h with rfl | rfl | ⟨r, p, q, rfl⟩
  · exact .inl ⟨_, _, rfl, .refl b s⟩
  · exact .inl ⟨_, _, rfl, pre_exceptionTaken⟩
  · refine .inr (MidInstr.advance ((((eqv_fpuWait s).pre b).toMidInstr).upd ?_ ?_ ?_ ?_ ?_ ?_ ?_ ?_ ?_ ?_ ?_)) <;> simp
theorem inst_fpCompare {cond a a' s t b} {k : Bool → State → Out} (hk : ∀ c u t, MidInstr b s u → k c u = .next t →
  Completed b s t) (h : fpCompare cond a a' s k = .next t) : InstrEnd b s t := by
  rcases fpCompare_next h with rfl | rfl | ⟨p, c, q, h⟩
  · exact .inl ⟨_, _, rfl, .refl b s⟩
  · exact .inl ⟨_, _, rfl, pre_exceptionTaken⟩
  · refine .inr (hk _ _ _ ((((eqv_fpuWait s).pre b).toMidInstr).upd ?_ ?_ ?_ ?_ ?_ ?_ ?_ ?_ ?_ ?_ ?_) h) <;> simp [compared]

theorem inst_stCache {s2 s1 sc s t b} (h : execStCache s2 s1 sc s = .next t) : InstrEnd b s t := by
  obtain ⟨-, h⟩ := storeGuard_next h
  cases h
  refine .inr (MidInstr.advance ?_)
  unfold ccWrite
  split <;> first | exact (MidInstr.refl b s) | (try split) <;> exact ⟨rfl,rfl,rfl,rfl,rfl,rfl,id,id,id,id,
    fun _ _ => .inl rfl⟩ | skip
  · refine ⟨rfl,rfl,rfl,rfl,rfl,rfl,id,id,fun _ => ?_,id,fun _ _ => .inl rfl⟩
    ext i hi
    have : i = 0 ∨ i = 1 := by omega
    rcases this with rfl | rfl <;> simp
  · refine ⟨rfl,rfl,rfl,rfl,rfl,rfl,id,id,id,fun _ => ?_,fun _ _ => .inl rfl⟩
    ext i hi
    have : i = 0 ∨ i = 1 := by omega
    rcases this with rfl | rfl <;> simp

theorem inst_wrSpecial {n s1 rc s t b} (h : execWrSpecial n s1 rc s = .next t) : InstrEnd b s t := by
  unfold execWrSpecial at h
  dsimp only at h
  split at h
  · cases h; exact .inr (MidInstr.advance ((MidInstr.refl b s).upd rfl rfl rfl rfl rfl rfl rfl rfl rfl rfl rfl))
  · split at h
    · cases h
    · cases h; exact .inr (done_finishCwp ((MidInstr.refl b s).upd rfl rfl rfl rfl rfl rfl rfl rfl rfl rfl rfl))
  · cases h; exact .inr (MidInstr.advance ((MidInstr.refl b s).upd rfl rfl rfl rfl rfl rfl rfl rfl rfl rfl rfl))
  · cases h
  · cases h; exact .inr (MidInstr.advance ((MidInstr.refl b s).upd rfl rfl rfl rfl rfl rfl rfl rfl rfl rfl rfl))
  · cases h
  · cases h

theorem inst_wrKpsw {s1 rc s t b} (h : execWrKpsw s1 rc s = .next t) : InstrEnd b s t := by
  unfold execWrKpsw at h
  split at h
  · rename_i hm
    cases h
    refine .inr ⟨id,id,id,id,fun _ _ => .inl rfl,rfl,rfl,rfl,fun _ h => aligned_add4 h, fun h => ?_, rfl⟩
    rw [hm] at h; cases h
  · rcases raiseOr_next h with rfl | h
    · exact .inl ⟨_, _, rfl, .refl b s⟩
    · cases h; exact .inr (MidInstr.advance (.refl b s))

theorem exec_inst {i : Instr} {s t : State} (h : exec i s = .next t) : InstrEnd (isWordStore i) s t := by
  cases i with
  | ld40 d s1 rc => exact inst_loadInt (readTagged_ends _ _ _ _) h
  | ld40Ro d s1 rc => exact inst_loadInt (readTagged_ends _ _ _ _) h
  | cxr d s1 rc => exact inst_loadCxr h
  | cxrRo d s1 rc => exact inst_loadCxr h
  | ld32 d s1 rc => exact inst_loadInt (readFixnum_ends _ _ _ _) h
  | ld32Ro d s1 rc => exact inst_loadInt (readFixnum_ends _ _ _ _) h
  | ld32Ra d s1 rc => exact inst_loadInt (readFixnum_ends _ _ _ _) h
  | testAndSet d s1 rc =>
    obtain ⟨-, -, h⟩ := loadGuard_next h
    have hx := testAndSetWord_ends s (kpswVaDfetch s) (alignWord (sumRC s s1 rc)) slotBusData
    rcases onAccess_next h with ⟨v, u, h1, h2⟩ | h
    · cases h2
      have := (((hx.done h1).mid (isWordStore (.testAndSet d s1 rc))).writeReg d (fixnum v)).advanceLoad (intTarget u d)
      exact .inr ⟨this.memory,this.lines,this.pteva,this.rpteva,this.bytes,this.trapPC,this.trapNextPC,this.pc,
        this.nextPC,this.kpsw,rfl⟩
    · exact access_faultTaken hx h _
  | ldCache d s1 rc =>
    obtain ⟨-, -, h⟩ := loadGuard_next h
    cases h
    exact .inr (((MidInstr.refl _ s).writeReg _ _).advanceLoad _)
  | fromFpu d s2 =>
    rcases withFpu_next h with rfl | ⟨-, h⟩
    · exact .inl ⟨_, _, rfl, .refl _ s⟩
    · split at h
      · cases h
      · split at h
        · cases h
        · cases h; exact .inr ((MidInstr.writeReg ((eqv_fpuWait s).pre _).toMidInstr _ _).advanceLoad _)
  | ldSgl d s1 rc => exact inst_loadFpu (readFpuWord_ends _ _ _) h
  | ldSglRo d s1 rc => exact inst_loadFpu (readFpuWord_ends _ _ _) h
  | ldDbl d s1 rc => exact inst_loadFpu (readFpuDouble_ends _ _ _) h
  | ldDblRo d s1 rc => exact inst_loadFpu (readFpuDouble_ends _ _ _) h
  | ldExt1 d s1 rc => exact inst_loadFpu (readFpuDouble_ends _ _ _) h
  | ldExt1Ro d s1 rc => exact inst_loadFpu (readFpuDouble_ends _ _ _) h
  | ldExt2 d s1 rc => exact inst_loadFpu (readFpuDouble_ends _ _ _) h
  | ldExt2Ro d s1 rc => exact inst_loadFpu (readFpuDouble_ends _ _ _) h
  | ldInt d s1 rc => exact inst_loadFpu (readFpuWord_ends _ _ _) h
  | ldIntRo d s1 rc => exact inst_loadFpu (readFpuWord_ends _ _ _) h
  | st40 s2 s1 sc =>
    obtain ⟨-, h⟩ := storeGuard_next h
    have hx := writeDouble_ends s (kpswVaDfetch s) (alignDouble (eaStore s s1 sc)) (taggedImage s (storedReg s s2)) slotBusData
    rcases onCheckedAccess_next h with rfl | ⟨v, u, h1, h2⟩ | h
    · exact .inl ⟨_, _, rfl, .refl _ s⟩
    · cases h2; exact .inr (MidInstr.advance ((hx.done h1).mid _))
    · exact access_faultTaken hx h _
  | st32 s2 s1 sc =>
    obtain ⟨-, h⟩ := storeGuard_next h
    have hx := writeWord_ends s (kpswVaDfetch s) (alignWord (eaStore s s1 sc)) (storedReg s s2).data slotBusData
    rcases onAccess_next h with ⟨v, u, h1, h2⟩ | ⟨c, u, h1, h2⟩
    · cases h2; exact .inr (MidInstr.advance (touches_mid (hx.done h1) (by simp [isWordStore])))
    · exact .inl ⟨_, _, h2, (touches_pre (hx.fault h1) (by simp [isWordStore])).faulted c⟩
  | stCache s2 s1 sc => exact inst_stCache h
  | toFpu s2 d =>
    rcases withFpu_next h with rfl | ⟨-, h⟩
    · exact .inl ⟨_, _, rfl, .refl _ s⟩
    · split at h
      · cases h
      · split at h
        · cases h
        · cases h; exact .inr ((MidInstr.writeFpuWord32 ((eqv_fpuWait s).pre _).toMidInstr _ _).advanceLoad _)
  | stSgl s2 s1 sc => exact inst_storeFpu storeW h
  | stDbl s2 s1 sc => exact inst_storeFpu storeD h
  | stExt1 s2 s1 sc => exact inst_storeFpu storeD h
  | stExt2 s2 s1 sc => exact inst_storeFpu storeD h
  | stInt s2 s1 sc => exact inst_storeFpu storeW h
  | addNt d s1 rc => exact inst_wr h
  | add d s1 rc => exact inst_arith h
  | sub d s1 rc => exact inst_arith h
  | and d s1 rc => exact inst_logic h
  | or d s1 rc => exact inst_logic h
  | xor d s1 rc => exact inst_logic h
  | sll d s1 rc => exact inst_logic h
  | sra d s1 rc => exact inst_logic h
  | srl d s1 rc => exact inst_logic h
  | rdTag d s1 => exact inst_wr h
  | extract d s1 rc => exact inst_wr h
  | wrTag d s1 rc => exact inst_wr h
  | insert d s1 rc => exact inst_wr h
  | rdSpecial d s1 => exact inst_wr h
  | rdInsert d => exact inst_wr h
  | rdKpsw d => exact inst_wr h
  | wrSpecial n s1 rc => exact inst_wrSpecial h
  | wrInsert rc => cases h; exact .inr (MidInstr.advance ((MidInstr.refl _ s).upd rfl rfl rfl rfl rfl rfl rfl rfl rfl rfl rfl))
  | wrKpsw s1 rc => exact inst_wrKpsw h
  | sync =>
    have h : execSync s = .next t := h
    unfold execSync at h
    rcases fpuStart_next h with rfl | h
    · exact .inl ⟨_, _, rfl, pre_exceptionTaken⟩
    · have e : t = advance (fpuWait s) := by injection h with h; exact h.symm
      rw [e]; exact .inr (MidInstr.advance ((eqv_fpuWait s).pre _).toMidInstr)
  | invalidateIb =>
    cases h
    exact .inr (.of (MidInstr.refl _ s) (by simp) (by simp) (by simp) (by simp) (by simp) (by simp) (by simp)
      (by simp) (by simp) rfl (fun _ h => by simpa using aligned_add4 h))
  | cmpBrDelayed cond s1 cc off => exact inst_cond (fun c t h => by cases h; exact .inr (done_branchDelayed (.refl _ s) off c)) h
  | tagCmpBrDelayed cond s1 tc off => exact inst_cond (fun c t h => by cases h; exact .inr (done_branchDelayed (.refl _ s) off c)) h
  | fpCmpBrDelayed cond s1 s2 off =>
    have h : execFpCmpBrDelayed cond s1 s2 off s = .next t := h
    unfold execFpCmpBrDelayed at h
    exact inst_fpCompare (fun c u t hu h => by cases h; exact done_branchDelayed hu off c) h
  | cmpBrTrue cond s1 cc off => exact inst_cond (fun c t h => by cases h; exact .inr (done_branchTrue (.refl _ s) off c)) h
  | tagCmpBrTrue cond s1 tc off => exact inst_cond (fun c t h => by cases h; exact .inr (done_branchTrue (.refl _ s) off c)) h
  | fpCmpBrTrue cond s1 s2 off =>
    have h : execFpCmpBrTrue cond s1 s2 off s = .next t := h
    unfold execFpCmpBrTrue at h
    exact inst_fpCompare (fun c u t hu h => by cases h; exact done_branchTrue hu off c) h
  | cmpTrap cond s1 cc off =>
    exact inst_cond (fun c t h => by
      rcases raiseIf_next h with rfl | h
      · exact .inl ⟨_, _, rfl, .refl _ s⟩
      · cases h; exact .inr (MidInstr.advance (.refl _ s))) h
  | tagCmpTrap cond s1 tc off =>
    exact inst_cond (fun c t h => by
      rcases raiseIf_next h with rfl | h
      · exact .inl ⟨_, _, rfl, .refl _ s⟩
      · cases h; exact .inr (MidInstr.advance (.refl _ s))) h
  | jumpReg s1 rc => cases h; exact .inr (MidInstr.advanceTo (.refl _ s) _ (fun _ _ => alignWord_aligned _))
  | callKernel => exact inst_callKernel h
  | ret s1 rc => exact inst_ret h
  | retTrap s1 rc => exact inst_ret h
  | retKernel s1 rc => exact inst_ret h
  | fadd d s1 s2 =>
    have h : execFadd d s1 s2 s = .next t := h
    unfold execFadd at h
    exact inst_op2 h
  | fsub d s1 s2 =>
    have h : execFsub d s1 s2 s = .next t := h
    unfold execFsub at h
    exact inst_op2 h
  | fmul d s1 s2 =>
    have h : execFmul d s1 s2 s = .next t := h
    unfold execFmul at h
    exact inst_op2 h
  | fdiv d s1 s2 =>
    have h : execFdiv d s1 s2 s = .next t := h
    unfold execFdiv at h
    exact inst_op2 h
  | fmov d s1 =>
    have h : execFmov d s1 s = .next t := h
    unfold execFmov at h
    exact inst_op1 h
  | fabs d s1 =>
    have h : execFabs d s1 s = .next t := h
    unfold execFabs at h
    exact inst_op1 h
  | fneg d s1 =>
    have h : execFneg d s1 s = .next t := h
    unfold execFneg at h
    exact inst_op1 h
  | float d s1 =>
    have h : execFloat d s1 s = .next t := h
    unfold execFloat at h
    exact inst_op1 h
  | fix d s1 =>
    have h : execFix d s1 s = .next t := h
    unfold execFix at h
    exact inst_op1 h
  | cvts d s1 =>
    have h : execCvts d s1 s = .next t := h
    unfold execCvts at h
    exact inst_op1 h
  | cvtd d s1 =>
    have h : execCvtd d s1 s = .next t := h
    unfold execCvtd at h
    exact inst_op1 h
  | jump addr => cases h; exact .inr (MidInstr.advanceTo (.refl _ s) _ (fun _ _ => jumpT_aligned _ _))
  | call addr => exact inst_call (jumpT_aligned _ _) h

/-! ### The fetch and the step -/

theorem prefetch_none (s : State) : Unmoved s { s with prefetch := none } :=
  ⟨fun b => ⟨⟨rfl,rfl,rfl,rfl,rfl,rfl,id,id,id,id,fun _ _ => .inl rfl⟩,rfl,rfl,rfl,rfl,rfl,rfl,rfl,rfl,rfl⟩, rfl,rfl,
    rfl,rfl,rfl⟩

theorem pre_upd {b s u v} (h : TrapReady b s u) (e : Unmoved u v) : TrapReady b s v := by
  have g := e.pre b
  exact ⟨h.toMidInstr.upd g.kpsw g.pc g.nextPC g.pipe g.trapPC g.trapNextPC e.mem e.cache e.remote e.pteva e.rpteva,
    g.globals.trans h.globals, g.windows.trans h.windows,
    g.cwp.trans h.cwp, g.upsw.trans h.upsw, g.swp.trans h.swp, g.insert.trans h.insert, g.fregs.trans h.fregs,
      g.fpsw.trans h.fpsw, g.fpuPc.trans h.fpuPc⟩

theorem eqv_ibFill (s : State) (a w) (p) : Unmoved s { ibFill s a w with prefetch := p } :=
  ⟨fun b => ⟨⟨rfl,rfl,rfl,rfl,rfl,rfl,id,id,id,id,fun _ _ => .inl rfl⟩,rfl,rfl,rfl,rfl,rfl,rfl,rfl,rfl,rfl⟩, rfl,rfl,
    rfl,rfl,rfl⟩
theorem eqv_ibFill' (s : State) (a w) : Unmoved s (ibFill s a w) :=
  ⟨fun b => ⟨⟨rfl,rfl,rfl,rfl,rfl,rfl,id,id,id,id,fun _ _ => .inl rfl⟩,rfl,rfl,rfl,rfl,rfl,rfl,rfl,rfl,rfl⟩, rfl,rfl,
    rfl,rfl,rfl⟩

theorem fetchMem_ends (s : State) : Ends (fun _ t => Accessed s t) (Accessed s) (fetchMem s)
  := readWord_ends _ _ _ _ _

theorem accessed_pre {s u : State} (h : Accessed s u) (b) : TrapReady b s u := touches_pre h.wrote (fun _ => h.bytes)

theorem fetchMiss_ends (s : State) : Ends (fun _ t => TrapReady false s t) (TrapReady false s) (fetchMiss s) := by
  unfold fetchMiss
  refine (fetchMem_ends _).then (fun t h => TrapReady.trans (prefetch_none s) (accessed_pre h _)) ?_
  intro w t h
  have h := TrapReady.trans (prefetch_none s) (accessed_pre h false)
  dsimp only
  split
  · exact pre_upd h (eqv_ibFill _ _ _ _)
  · exact pre_upd h (eqv_ibFill' _ _ _)

theorem fetch_ends (s : State) : Ends (fun _ t => TrapReady false s t) (TrapReady false s) (fetch s) := by
  unfold fetch
  split
  · split
    · exact TrapReady.refl _ s
    · split
      · exact TrapReady.refl _ s
      · exact fetchMiss_ends s
  · exact (fetchMem_ends s).mono (fun _ t h => accessed_pre h _) (fun t h => accessed_pre h _)

theorem invariant_trapReady {b s u} (hi : Invariant s) (h : TrapReady b s u) : Invariant u :=
  ⟨h.memory hi.memory, h.lines hi.lines, h.pc ▸ hi.pc, h.nextPC ▸ hi.nextPC, h.trapPC ▸ hi.trapPC,
    h.trapNextPC ▸ hi.trapNextPC, h.pteva hi.pteva, h.rpteva hi.rpteva⟩

theorem vector_aligned (x : TrapType) : wordAligned (trapVector x) ∧ wordAligned (trapVector x + 4#32) := by
  rw [aligned_iff, aligned_iff]; cases x <;> decide

theorem invariant_takeTrap {s} (hi : Invariant s) (x) : Invariant (takeTrap x s) :=
  ⟨by simpa using hi.memory, by simpa using hi.lines, by simpa using (vector_aligned x).1,
    by simpa using (vector_aligned x).2, by simpa using hi.pc, by simpa using hi.nextPC, by simpa using hi.pteva,
    by simpa using hi.rpteva⟩

theorem invariant_instrEnd {b s t} (hi : Invariant s) (h : InstrEnd b s t) : Invariant t := by
  rcases h with ⟨x, u, rfl, h⟩ | h
  · exact invariant_takeTrap (invariant_trapReady hi h) x
  · exact ⟨h.memory hi.memory, h.lines hi.lines, h.pc ▸ hi.nextPC, h.nextPC hi.pc hi.nextPC, h.trapPC ▸ hi.trapPC,
    h.trapNextPC ▸ hi.trapNextPC, h.pteva hi.pteva, h.rpteva hi.rpteva⟩

theorem stepWord_inst {w s t} (h : stepWord w s = .next t) : ∃ b, InstrEnd b s t := by
  unfold stepWord at h
  split at h
  · cases h; exact ⟨false, .inl ⟨_, _, rfl, .refl _ s⟩⟩
  · split at h
    · exact ⟨_, exec_inst h⟩
    · rw [raiseIllegal_next h]; exact ⟨false, .inl ⟨_, _, rfl, .refl _ s⟩⟩
    · cases h

/-- What the end of a step leaves alone (R13). -/
structure Ticked (s t : State) : Prop where
  mem : t.mem = s.mem
  cache : t.cache = s.cache
  remote : t.remote = s.remote
  pc : t.pc = s.pc
  nextPC : t.nextPC = s.nextPC
  trapPC : t.trapPC = s.trapPC
  trapNextPC : t.trapNextPC = s.trapNextPC
  kpsw : t.kpsw = s.kpsw
  pteva : s.pteva.extractLsb' 0 2 = 0#2 → t.pteva.extractLsb' 0 2 = 0#2
  rpteva : t.rpteva = s.rpteva

theorem tick_eq (s : State) : Ticked s (tick s) := by
  have h : Ticked s (prefetchStep s) := by
    unfold prefetchStep
    split
    · exact ⟨rfl,rfl,rfl,rfl,rfl,rfl,rfl,rfl,id,rfl⟩
    · split
      · dsimp only
        split
        · split
          · exact ⟨rfl,rfl,rfl,rfl,rfl,rfl,rfl,rfl,fun _ => low2_append _,rfl⟩
          · exact ⟨rfl,rfl,rfl,rfl,rfl,rfl,rfl,rfl,fun _ => low2_append _,rfl⟩
        · exact ⟨rfl,rfl,rfl,rfl,rfl,rfl,rfl,rfl,fun _ => low2_append _,rfl⟩
      · exact ⟨rfl,rfl,rfl,rfl,rfl,rfl,rfl,rfl,id,rfl⟩
  unfold tick recordView countEvents fpuTick
  split <;> exact ⟨h.mem,h.cache,h.remote,h.pc,h.nextPC,h.trapPC,h.trapNextPC,h.kpsw,h.pteva,h.rpteva⟩

theorem step_inst {s t : State} (h : step s = .next t) : ∃ t0, Ticked t0 t ∧ ∃ u, TrapReady false s u ∧ ((∃ b,
  InstrEnd b u t0) ) := by
  unfold step at h
  have key : ∀ o : Out, onTick o = .next t → ∃ t0, o = .next t0 ∧ t = tick t0 := by
    intro o ho
    cases o with
    | next t0 => exact ⟨t0, rfl, by cases ho; rfl⟩
    | fault f => cases ho
    | refused r => cases ho
  obtain ⟨t0, h', rfl⟩ := key _ h
  clear h
  have h := h'
  refine ⟨t0, tick_eq t0, ?_⟩
  split at h
  · unfold squashStep at h
    have he := fetch_ends s
    cases hf : fetch s with
    | done w u =>
      rw [hf] at h; dsimp only at h
      split at h
      · cases h
      · cases h; exact ⟨u, he.done hf, false, .inr (MidInstr.advance (.refl _ u))⟩
    | fault c u => rw [hf] at h; cases h; exact ⟨u, he.fault hf, false, .inr (MidInstr.advance (.refl _ u))⟩
    | stuck f => rw [hf] at h; cases h
    | refused r => rw [hf] at h; cases h
  · unfold stepFetched at h
    have he := fetch_ends s
    rcases onAccess_next h with ⟨w, u, h1, h2⟩ | ⟨c, u, h1, rfl⟩
    · exact ⟨u, he.done h1, stepWord_inst h2⟩
    · exact ⟨u, he.fault h1, false, .inl ⟨_, _, rfl, (TrapReady.refl _ u).faulted c⟩⟩

end Sys2Proof.Laws
end

