-- ==== Sys2Proof/Laws/Misses.lean ====
section
/-! SUPPORT. What a virtual access that misses does, in the words of Safety: the walk, the line filled from RAM, the line
displaced. -/

namespace Sys2Proof.Laws

open Sys2Proof Sys2Proof.Machine Sys2Proof.Safety

/-- The counter of a block transfer is in the low bits of GVA. -/
theorem countBlock_gva (s : State) : (countBlock s).gva.extractLsb' 5 33 = s.gva.extractLsb' 5 33 := by
  simp only [countBlock]
  generalize freeVal s slotGva 3 = q
  ext i hi
  simp only [BitVec.getElem_extractLsb', BitVec.getLsbD_append, BitVec.getLsbD_extractLsb']
  have : 5 + i - 2 - 3 = i := by omega
  simp [show ¬(5 + i < 2) by omega, show ¬(5 + i - 2 < 3) by omega, this, hi]

/-- A block of the page is the block of the physical address. -/
theorem blockOn_globalAddr (pte : Word) (s : State) (a : Word) :
    blockOn (ptePpn pte) (globalAddr s a) = (pageAddr pte a).extractLsb' 5 27 := by
  unfold blockOn globalAddr pageAddr
  generalize (s.gsn[(a.extractLsb' 30 2).toNat]'(a.extractLsb' 30 2).isLt) = q
  generalize ptePpn pte = p
  ext i hi
  simp only [BitVec.getElem_append, BitVec.getElem_extractLsb', BitVec.getLsbD_append, BitVec.getLsbD_extractLsb']
  by_cases h : i < 7
  · simp [h, show 5 + i < 30 by omega, show 5 + i < 12 by omega]
  · simp [h, show ¬(5 + i < 12) by omega, show 5 + i - 12 = i - 7 by omega, ← BitVec.getLsbD_eq_getElem]

/-- A line that leaves for RAM leaves: only memory, lines and GVA's counter differ. -/
theorem evict_ram (s : State) (g : GlobalAddr) (hm : memWf s.mem = true)
    (hd : ∀ l, displaces s g l → responder s (l.ptag ++ 0#5) = .board .ram) :
    ∃ m c a, evict s g = .done () { s with mem := m, cache := c, gva := a } ∧
      a.extractLsb' 5 33 = s.gva.extractLsb' 5 33 ∧
      (∀ j, j ≠ lineIndex g → lineGet c j = lineGet s.cache j) ∧
      (∀ x, (∀ l, displaces s g l → x / 32 ≠ l.ptag.toNat) → memGet m x = memGet s.mem x) ∧
      (∀ l, displaces s g l → ∀ k : Fin 8, memWord m (l.ptag ++ BitVec.ofNat 3 k ++ 0#2) = l.words[k]) := by
  unfold evict
  cases h : lineGet s.cache (lineIndex g) with
  | none =>
    refine ⟨s.mem, s.cache, s.gva, rfl, rfl, fun _ _ => rfl, fun _ _ => rfl, fun l hl => ?_⟩
    rw [displaces, h] at hl
    cases hl.1
  | some l =>
    have only : ∀ l1, displaces s g l1 → l1 = l := fun l1 hl => by have := hl.1; rw [h] at this; cases this; rfl
    have others : ∀ j, j ≠ lineIndex g → lineGet (lineDrop s.cache (lineIndex g)) j = lineGet s.cache j :=
      fun j hj => lineGet_lineDrop_other _ _ _ hj
    dsimp only
    unfold leaveCache dropLine
    by_cases e : mustWriteBack l = true
    · have hdl : displaces s g l := ⟨h, e⟩
      have hr : responder (countBlock s) (blockWordAddr l.ptag 0) = .board .ram := by
        rw [← hd l hdl, blockWordAddr_zero]; rfl
      rw [if_pos e]
      simp only [busWriteLine, hr, boardWrite, accessThen]
      refine ⟨memPutBlock s.mem l.ptag l.words, lineDrop s.cache (lineIndex g), (countBlock s).gva, rfl, countBlock_gva s, others,
        fun x hx => memGet_memPutBlock_other _ _ _ _ (hx l hdl), fun l1 hl k => ?_⟩
      rw [only l1 hl]
      exact memWord_memPutBlock hm _ _ k
    · rw [if_neg e]
      exact ⟨s.mem, lineDrop s.cache (lineIndex g), s.gva, rfl, rfl, others, fun _ _ => rfl, fun l1 hl => absurd (only l1 hl ▸ hl.2) e⟩

/-- The line that a fill from RAM installs. -/
def ramLine (s1 : State) (g : GlobalAddr) (pte : Word) (own : Bool) : Line :=
  filledLine g pte own { words := memBlock s1.mem (blockOn (ptePpn pte) g), dirty := false }

/-- A fill from RAM: the line is in the cache, only memory, lines and GVA's counter differ. -/
theorem fillLine_ram {s s1 : State} {a pte : Word} (own : Bool) (slot : Nat) (hm : memWf s1.mem = true)
    (h : FillsFromRam s1 (globalAddr s a) pte (pageAddr pte a)) :
    ∃ t, fillLine s1 (globalAddr s a) pte own slot = .done (ramLine s1 (globalAddr s a) pte own) t ∧
      t = { s1 with mem := t.mem, cache := t.cache, gva := t.gva } ∧
      t.gva.extractLsb' 5 33 = s1.gva.extractLsb' 5 33 ∧ Filled s1 t (globalAddr s a) ∧
      cacheProbe t (globalAddr s a) = some (ramLine s1 (globalAddr s a) pte own) := by
  have hr : responder (countBlock s1) (blockWordAddr (blockOn (ptePpn pte) (globalAddr s a)) 0) = .board .ram := by
    rw [← h.ram, blockOn_globalAddr, blockWordAddr_zero]; rfl
  unfold fillLine busReadLine
  rw [h.notOwned]
  simp only [memoryBlock, hr, boardRead, accessThen]
  obtain ⟨m, c, q, he, h1, h2, h3, h4⟩ := evict_ram (countBlock s1) (globalAddr s a) hm h.displaced
  rw [he]
  exact ⟨_, rfl, rfl, h1.trans (countBlock_gva s1),
    ⟨fun j hj => (lineGet_linePut_other _ _ _ _ hj).trans (h2 j hj), rfl, h3, h4⟩,
    cacheProbe_installLine_self _ _ _ rfl⟩

/-- A filled line is held as Safety says. -/
theorem holdsLine_ram {s s1 t : State} {a pte : Word} {own : Bool}
    (h : cacheProbe t (globalAddr s a) = some (ramLine s1 (globalAddr s a) pte own)) :
    HoldsLine t (globalAddr s a) pte (pageAddr pte a) own false (blockWord s1.mem (pageAddr pte a)) :=
  ⟨_, h, blockOn_globalAddr pte s a, rfl, rfl, rfl, rfl, rfl, fun k => by
    simp [ramLine, filledLine, memBlock, blockOn_globalAddr pte s a, blockWord, blockWordAddr]⟩

/-- The word that an aligned address selects in the line filled for it is the word of RAM. -/
theorem lineWord_ram (s s1 : State) {a : Word} (ha : wordAligned a) (pte : Word) (own : Bool) :
    lineWord (ramLine s1 (globalAddr s a) pte own) (globalAddr s a) = memWord s1.mem (pageAddr pte a) := by
  have e : blockWordAddr (blockOn (ptePpn pte) (globalAddr s a)) ((globalAddr s a).extractLsb' 2 3).toNat =
      pageAddr pte a := by
    have h0 : ∀ i < 2, a.getLsbD i = false := fun i hi => by
      have := congrArg (fun v => BitVec.getLsbD v i) ha
      simpa [BitVec.getLsbD_extractLsb', hi] using this
    rw [blockOn_globalAddr]
    unfold blockWordAddr pageAddr globalAddr
    generalize (s.gsn[(a.extractLsb' 30 2).toNat]'(a.extractLsb' 30 2).isLt) = q
    generalize ptePpn pte = p
    rw [BitVec.ofNat_toNat]
    ext i hi
    simp only [BitVec.getElem_append, BitVec.getElem_extractLsb', BitVec.getLsbD_append, BitVec.getLsbD_extractLsb',
      BitVec.getElem_setWidth]
    by_cases h2 : i < 2
    · simp [h2, show i < 12 by omega, h0 i h2]
    · by_cases h5 : i - 2 < 3
      · simp [h2, h5, show i < 12 by omega, show 2 + (i - 2) = i by omega, show i < 30 by omega]
      · by_cases h12 : i < 12 <;>
          simp [h2, h5, h12, show 5 + (i - 2 - 3) = i by omega, ← BitVec.getLsbD_eq_getElem]
  unfold lineWord ramLine filledLine memBlock
  simp only [Vector.getElem_ofFn]
  rw [e]

/-- GVA but for the counter of a block transfer. -/
def SameGva (s t : State) : Prop := t.gva.extractLsb' 5 33 = s.gva.extractLsb' 5 33

theorem busReadLine_gva (s : State) (block : BitVec 27) (g : GlobalAddr) (own : Bool) (slot : Nat) :
    Ends (fun _ t => SameGva s t) (SameGva s) (busReadLine s block g own slot) := by
  unfold busReadLine
  split
  · rename_i r _
    have h : SameGva s (ownerSupplied (countBlock s) g r own) := by
      unfold ownerSupplied
      split <;> exact countBlock_gva s
    unfold ownerBlock
    cases r.status with
    | dirty => exact h
    | clean => exact h
    | unspecifiedError => exact countBlock_gva s
  · exact (memoryBlock_ends _ block slot).mono (fun _ t h => h ▸ countBlock_gva s) (fun t h => h ▸ countBlock_gva s)

theorem evict_gva (s : State) (g : GlobalAddr) : Ends (fun _ t => SameGva s t) (SameGva s) (evict s g) := by
  unfold evict
  split
  · exact rfl
  · unfold leaveCache
    split
    · refine Ends.then (D := fun _ t => SameGva s t) ?_ (fun _ h => h) (fun _ _ h => h)
      unfold busWriteLine
      dsimp only
      cases responder (countBlock s) (blockWordAddr _ 0) with
      | ownInterrupts =>
        exact (unstoredWrite_ends _).mono (fun _ t h => h ▸ countBlock_gva s) (fun t h => h ▸ countBlock_gva s)
      | nobody => exact countBlock_gva s
      | board k =>
        refine (boardWrite_ends k _ _).mono (fun _ t h => ?_) (fun t h => h ▸ countBlock_gva s)
        rcases h with rfl | rfl <;> exact countBlock_gva s
    · exact rfl

/-- The walk changes GVA in its counter only. -/
theorem walkFirst_gva (s : State) (va : Word) (kind : AccessKind) (slot : Nat) :
    Ends (fun _ t => SameGva s t) (SameGva s) (walkFirst s va kind slot) := by
  unfold walkFirst
  dsimp only
  split
  · exact rfl
  · refine (walkSecond_ends _ va slot).then (fun t ht => ht ▸ rfl) ?_
    rintro pte2 t rfl
    split
    · refine Ends.map _ ?_
      unfold fillLine
      refine (busReadLine_gva _ _ _ _ _).then (fun t h => h) (fun f t h => ?_)
      exact (evict_gva t _).then (fun u hu => hu.trans h) (fun _ u hu => hu.trans h)
    · exact rfl

/-- A miss whose walk gives an entry that lets it go on: one word, or a line filled. -/
theorem locate_miss {s s1 : State} {a pte : Word} {kind : AccessKind} (h : Misses s s1 a kind pte) :
    locate s a kind slotBusData = if pteNc pte then .done (.uncached (pageAddr pte a)) s1
      else accessMap (fun l => .cached (globalAddr s a) l)
        (fillLine s1 (globalAddr s a) pte (kindOwns kind) (slotBusData + 2)) := by
  have hm : cacheProbe (vaRef s a) (globalAddr s a) = none := h.miss
  unfold locate
  simp only [hm, h.walk, accessThen, h.checks, pageAddr]

end Sys2Proof.Laws
end

