-- ==== Sys2Proof/Laws/Outside.lean ====
section
/-! SUPPORT. What the events between two steps can change. -/

namespace Sys2Proof.Laws

open Sys2Proof Sys2Proof.Machine Sys2Proof.Safety

theorem memPutBytes_wf {m : List Host.Cell} (hm : memWf m = true) (a : Nat) (bs : List Byte) :
    memWf (memPutBytes m a bs) = true := by
  induction bs generalizing a with
  | nil => exact hm
  | cons b bs ih => exact memPut_wf (ih (a + 1)) _ b

/-- A bus master's write changes memory and INTREG only, and memory stays canonical. -/
theorem masterWrite_only (a : Word) (bs : List Byte) (s : State) :
    masterWrite a bs s = { s with mem := (masterWrite a bs s).mem, intreg := (masterWrite a bs s).intreg } ∧
      (memWf s.mem = true → memWf (masterWrite a bs s).mem = true) := by
  have hd : deliverInterrupt (transferLines a bs.length) s =
      { s with intreg := (deliverInterrupt (transferLines a bs.length) s).intreg } := by
    unfold deliverInterrupt; split <;> rfl
  unfold masterWrite
  split
  · rw [hd]
    unfold storeFromBus
    split <;> first | exact ⟨rfl, id⟩ | exact ⟨rfl, fun h => memPutBytes_wf h _ _⟩
  · exact ⟨rfl, id⟩

/-- A line dropped, or put back as it was but for its state: nothing else of this cache. -/
theorem snoopLine_cache (op : SnoopOp) (g : GlobalAddr) (s : State) :
    (snoopLine op g s).cache = s.cache ∨ (snoopLine op g s).cache = lineDrop s.cache (lineIndex g) ∨
      ∃ l l1, cacheProbe s g = some l ∧ (snoopResult op l).1 = some l1 ∧
        (snoopLine op g s).cache = linePut s.cache (lineIndex g) l1 := by
  unfold snoopLine
  split
  · exact .inl rfl
  · rename_i l hl
    split
    · exact .inr (.inr ⟨l, _, hl, ‹_›, rfl⟩)
    · exact .inr (.inl rfl)

/-- What a snooped operation leaves of a line: the same words, tag and, unless it was owned, state. -/
theorem snoopResult_kept {op : SnoopOp} {l l1 : Line} (h : (snoopResult op l).1 = some l1) :
    l1.vtag = l.vtag ∧ l1.words = l.words ∧ (l.state = .unowned → l1.state = .unowned) := by
  unfold snoopResult at h
  cases op with
  | none => cases h; exact ⟨rfl, rfl, id⟩
  | writeForInvalidation => cases h
  | readForOwnership => cases h
  | readShared =>
    cases hs : l.state <;> rw [hs] at h <;> cases h
    · exact ⟨rfl, rfl, fun _ => hs⟩
    · exact ⟨rfl, rfl, fun e => by cases e⟩
    · exact ⟨rfl, rfl, fun e => by cases e⟩

/-- A snooped operation changes one line of this cache at most, and leaves every line with one owner. -/
theorem snoopLine_only (op : SnoopOp) (g : GlobalAddr) (s : State) :
    snoopLine op g s = { s with cache := (snoopLine op g s).cache } ∧
      (Coherent s.cache s.remote → Coherent (snoopLine op g s).cache s.remote) := by
  refine ⟨?_, fun h => ?_⟩
  · unfold snoopLine; split <;> [rfl; (split <;> rfl)]
  · rcases snoopLine_cache op g s with e | e | ⟨l, l1, hl, hr, e⟩ <;> rw [e]
    · exact h
    · exact coherent_drop h _
    · obtain ⟨hv, hw, hu⟩ := snoopResult_kept hr
      obtain ⟨h1, h2⟩ := cacheProbe_some hl
      refine coherent_put h (hv.trans h2) (fun x hx => ?_)
      obtain ⟨h3, h4⟩ := h.owner g l x h1 h2 hx
      exact ⟨hu h3, hw.trans h4⟩

/-- No copy of the line is left here once another cache has its ownership. -/
theorem snoopLine_dropped (g : GlobalAddr) (s : State) (h : cacheWf s.cache = true) :
    cacheProbe (snoopLine .writeForInvalidation g s) g = none := by
  unfold snoopLine
  split
  · assumption
  · simp only [snoopResult, dropLine, cacheProbe, lineGet_lineDrop_self h]

/-- Another cache gains ownership: it is the one owner, with its words, and no copy is left here (R109, R112). -/
theorem ownedElsewhere_owner (s : State) (g : GlobalAddr) (r : RemoteLine) (h : Coherent s.cache s.remote) :
    lineGet (ownedElsewhere s g r).remote (lineNumber g) = some r ∧ cacheProbe (ownedElsewhere s g r) g = none :=
  ⟨lineGet_linePut_self _ _ _, snoopLine_dropped g s h.cache⟩

theorem ownedElsewhere_only (s : State) (g : GlobalAddr) (r : RemoteLine) :
    ownedElsewhere s g r =
        { s with cache := (ownedElsewhere s g r).cache, remote := (ownedElsewhere s g r).remote } ∧
      (Coherent s.cache s.remote → Coherent (ownedElsewhere s g r).cache (ownedElsewhere s g r).remote) := by
  have hs := snoopLine_only .writeForInvalidation g s
  refine ⟨by unfold ownedElsewhere; rw [hs.1], fun h => ?_⟩
  have hg := (ownedElsewhere_owner s g r h).2
  refine coherent_putRemote (hs.2 h) (fun l hl ht => ?_)
  have : cacheProbe (ownedElsewhere s g r) g = some l := by
    unfold cacheProbe ownedElsewhere
    simp [hl, ht]
  rw [this] at hg; cases hg

theorem sharedElsewhere_only (s : State) (g : GlobalAddr) :
    sharedElsewhere s g = { s with remote := (sharedElsewhere s g).remote } ∧
      (Coherent s.cache s.remote → Coherent s.cache (sharedElsewhere s g).remote) := by
  unfold sharedElsewhere
  split
  · rename_i r hr
    exact ⟨rfl, fun h => coherent_putRemote h (fun l hl ht => h.owner g l r hl ht hr)⟩
  · exact ⟨rfl, id⟩

/-- A bus operation of another cache changes lines only, and each has one owner after it. -/
theorem snooped_only (op : SnoopOp) (g : GlobalAddr) (block : BitVec 27) (s : State) :
    snooped op g block s = { s with cache := (snooped op g block s).cache, remote := (snooped op g block s).remote } ∧
      (Coherent s.cache s.remote → Coherent (snooped op g block s).cache (snooped op g block s).remote) := by
  cases op with
  | none => exact ⟨rfl, id⟩
  | readForOwnership => exact ownedElsewhere_only s g _
  | writeForInvalidation => exact ownedElsewhere_only s g _
  | readShared =>
    have h1 := snoopLine_only .readShared g s
    have h2 := sharedElsewhere_only (snoopLine .readShared g s) g
    have hc : (snooped .readShared g block s).cache = (snoopLine .readShared g s).cache := by
      show (sharedElsewhere _ g).cache = _
      rw [h2.1]
    refine ⟨?_, fun h => ?_⟩
    · rw [hc]
      exact h2.1.trans (congrArg (fun v : State => { v with remote := (snooped .readShared g block s).remote }) h1.1)
    · rw [hc]
      exact h2.2 (by rw [h1.1]; exact h1.2 h)

/-- A write-back of another cache leaves memory canonical, and the line it wrote in it, if RAM is there (R112, R113). -/
theorem writtenBackElsewhere_wf (s : State) (r : RemoteLine) (h : memWf s.mem = true) :
    memWf (writtenBackElsewhere s r) = true := by
  unfold writtenBackElsewhere
  split
  · exact h
  · split
    · exact memPutBlock_wf h _ _
    all_goals exact h

theorem replacedElsewhere_only (g : GlobalAddr) (s : State) :
    replacedElsewhere g s =
        { s with mem := (replacedElsewhere g s).mem, remote := (replacedElsewhere g s).remote } ∧
      (memWf s.mem = true → memWf (replacedElsewhere g s).mem = true) ∧
      (Coherent s.cache s.remote → Coherent s.cache (replacedElsewhere g s).remote) := by
  unfold replacedElsewhere
  split
  · exact ⟨rfl, writtenBackElsewhere_wf s _, fun h => coherent_dropRemote h _⟩
  · exact ⟨rfl, id, id⟩

/-- A line that another cache replaces is in memory: no write to it is lost (R109, R112). -/
theorem replacedElsewhere_words {g : GlobalAddr} {s : State} {r : RemoteLine} (hm : memWf s.mem = true)
    (hr : lineGet s.remote (lineNumber g) = some r) (hram : responder s (blockWordAddr r.ptag 0) = .board .ram)
    (hc : r.status = .clean → memBlock s.mem r.ptag = r.words) (k : Fin 8) :
    memWord (replacedElsewhere g s).mem (blockWordAddr r.ptag k) = r.words[k] := by
  unfold replacedElsewhere
  simp only [hr, writtenBackElsewhere, hram]
  split
  · rw [← hc ‹_›]; simp [memBlock]
  · exact memWord_memPutBlock hm _ _ k

/-- The bits of KPSW after a reset that R67 gives a value. -/
theorem resetKpsw_bits (s : State) (n : Nat) (hn : resetKpswMask.getLsbD n = true) :
    (resetKpsw s).getLsbD n = decide (n = 4) := by
  have key : ∀ k : Fin 24, resetKpswMask.getLsbD k.val = true →
      ((0x10#24).getLsbD k.val) = decide (k.val = 4) := by decide
  by_cases h : n < 24
  · simp only [resetKpsw, BitVec.getLsbD_or, BitVec.getLsbD_and, BitVec.getLsbD_not, hn, h]
    simpa using key ⟨n, h⟩ hn
  · rw [BitVec.getLsbD_of_ge _ _ (by omega)] at hn
    cases hn

end Sys2Proof.Laws
end

