-- ==== Sys2Proof/Laws/PerInstr.lean ====
section
/-! SUPPORT. Facts said of every instruction as syntax, one lemma per constructor. -/

namespace Sys2Proof.Laws

open Sys2Proof

/-- The high bits of an appended word. -/
theorem extract_append_high {a b : Nat} (x : BitVec a) (y : BitVec b) (k n : Nat) (h : b ≤ k) :
    (x ++ y).extractLsb' k n = x.extractLsb' (k - b) n := by
  ext i hi
  rw [BitVec.getElem_extractLsb', BitVec.getElem_extractLsb', BitVec.getLsbD_append, if_neg (by omega)]
  congr 1
  omega

theorem extract_all {a : Nat} (x : BitVec a) : x.extractLsb' 0 a = x := by
  ext i hi
  simp

theorem opOf_opBits : ∀ o : Op, opOf (opBits o) = some o := by intro o; cases o <;> decide

theorem fieldOp_encRRR (o : Op) (d s1 s2 : RegField) :
    fieldOp (encRRR o d s1 s2) = opBits o := by
  unfold fieldOp encRRR
  exact (extract_append_high (b := 9) _ _ 25 7 (by decide)).trans
    ((extract_append_high (b := 5) _ _ 16 7 (by decide)).trans
    ((extract_append_high (b := 1) _ _ 11 7 (by decide)).trans
    ((extract_append_high (b := 5) _ _ 10 7 (by decide)).trans
    ((extract_append_high (b := 5) _ _ 5 7 (by decide)).trans (extract_all _)))))

theorem fieldOp_encRRI (o : Op) (d s1 : RegField) (v : BitVec 14) :
    fieldOp (encRRI o d s1 v) = opBits o := by
  unfold fieldOp encRRI
  exact (extract_append_high (b := 14) _ _ 25 7 (by decide)).trans
    ((extract_append_high (b := 1) _ _ 11 7 (by decide)).trans
    ((extract_append_high (b := 5) _ _ 10 7 (by decide)).trans
    ((extract_append_high (b := 5) _ _ 5 7 (by decide)).trans (extract_all _))))

theorem fieldOp_encRC (o : Op) (d s1 : RegField) (rc : RC) : fieldOp (encRC o d s1 rc) = opBits o := by
  cases rc
  · exact fieldOp_encRRR _ _ _ _
  · exact fieldOp_encRRI _ _ _ _

theorem fieldOp_encStore (o : Op) (hi s1 s2 : RegField) (lo : BitVec 9) :
    fieldOp (encStore o hi s1 s2 lo) = opBits o := by
  unfold fieldOp encStore
  exact (extract_append_high (b := 9) _ _ 25 7 (by decide)).trans
    ((extract_append_high (b := 5) _ _ 16 7 (by decide)).trans
    ((extract_append_high (b := 1) _ _ 11 7 (by decide)).trans
    ((extract_append_high (b := 5) _ _ 10 7 (by decide)).trans
    ((extract_append_high (b := 5) _ _ 5 7 (by decide)).trans (extract_all _)))))

theorem fieldOp_encSC (o : Op) (s2 s1 : RegField) (sc : BitVec 14) : fieldOp (encSC o s2 s1 sc) = opBits o :=
  fieldOp_encStore _ _ _ _ _

theorem fieldOp_encCmpRR (o : Op) (cond s1 s2 : RegField) (off : BitVec 9) :
    fieldOp (encCmpRR o cond s1 s2 off) = opBits o := by
  unfold fieldOp encCmpRR
  exact (extract_append_high (b := 9) _ _ 25 7 (by decide)).trans
    ((extract_append_high (b := 5) _ _ 16 7 (by decide)).trans
    ((extract_append_high (b := 1) _ _ 11 7 (by decide)).trans
    ((extract_append_high (b := 5) _ _ 10 7 (by decide)).trans
    ((extract_append_high (b := 5) _ _ 5 7 (by decide)).trans (extract_all _)))))

theorem fieldOp_encCC (o : Op) (cond s1 : RegField) (off : BitVec 9) (cc : CC) :
    fieldOp (encCC o cond s1 off cc) = opBits o := by
  cases cc with
  | reg s2 => exact fieldOp_encCmpRR _ _ _ _ _
  | imm v =>
    unfold fieldOp encCC
    exact (extract_append_high (b := 9) _ _ 25 7 (by decide)).trans
      ((extract_append_high (b := 5) _ _ 16 7 (by decide)).trans
      ((extract_append_high (b := 1) _ _ 11 7 (by decide)).trans
      ((extract_append_high (b := 5) _ _ 10 7 (by decide)).trans
      ((extract_append_high (b := 5) _ _ 5 7 (by decide)).trans (extract_all _)))))

theorem fieldOp_encTC (o : Op) (cond s1 : RegField) (tc : BitVec 6) (off : BitVec 9) :
    fieldOp (encTC o cond s1 tc off) = opBits o := by
  unfold fieldOp encTC
  exact (extract_append_high (b := 9) _ _ 25 7 (by decide)).trans
    ((extract_append_high (b := 6) _ _ 16 7 (by decide)).trans
    ((extract_append_high (b := 5) _ _ 10 7 (by decide)).trans
    ((extract_append_high (b := 5) _ _ 5 7 (by decide)).trans (extract_all _))))

theorem high_encJump (op : BitVec 4) (addr : BitVec 28) : (encJump op addr).extractLsb' 28 4 = op := by
  unfold encJump
  exact (extract_append_high (b := 28) _ _ 28 4 (by decide)).trans (extract_all _)

/-- The opcode of an encoded instruction is an assigned one (R122, R133). -/
def EncodingKnown.Statement (i : Instr) : Prop :=
  (encode i).extractLsb' 28 4 = 0xC#4 ∨ (encode i).extractLsb' 28 4 = 0xE#4 ∨
    ∃ o, opOf (fieldOp (encode i)) = some o

theorem encodingKnown_of {i : Instr} {o : Op} (h : fieldOp (encode i) = opBits o) : EncodingKnown.Statement i :=
  .inr (.inr ⟨o, by rw [h, opOf_opBits]⟩)

theorem EncodingKnown.ld40 (d s1 : RegField) (rc : RC) : EncodingKnown.Statement (.ld40 d s1 rc) :=
  encodingKnown_of (fieldOp_encRC _ _ _ _)
theorem EncodingKnown.ld40Ro (d s1 : RegField) (rc : RC) : EncodingKnown.Statement (.ld40Ro d s1 rc) :=
  encodingKnown_of (fieldOp_encRC _ _ _ _)
theorem EncodingKnown.cxr (d s1 : RegField) (rc : RC) : EncodingKnown.Statement (.cxr d s1 rc) :=
  encodingKnown_of (fieldOp_encRC _ _ _ _)
theorem EncodingKnown.cxrRo (d s1 : RegField) (rc : RC) : EncodingKnown.Statement (.cxrRo d s1 rc) :=
  encodingKnown_of (fieldOp_encRC _ _ _ _)
theorem EncodingKnown.ld32 (d s1 : RegField) (rc : RC) : EncodingKnown.Statement (.ld32 d s1 rc) :=
  encodingKnown_of (fieldOp_encRC _ _ _ _)
theorem EncodingKnown.ld32Ro (d s1 : RegField) (rc : RC) : EncodingKnown.Statement (.ld32Ro d s1 rc) :=
  encodingKnown_of (fieldOp_encRC _ _ _ _)
theorem EncodingKnown.ld32Ra (d s1 : RegField) (rc : RC) : EncodingKnown.Statement (.ld32Ra d s1 rc) :=
  encodingKnown_of (fieldOp_encRC _ _ _ _)
theorem EncodingKnown.testAndSet (d s1 : RegField) (rc : RC) : EncodingKnown.Statement (.testAndSet d s1 rc) :=
  encodingKnown_of (fieldOp_encRC _ _ _ _)
theorem EncodingKnown.ldCache (d s1 : RegField) (rc : RC) : EncodingKnown.Statement (.ldCache d s1 rc) :=
  encodingKnown_of (fieldOp_encRC _ _ _ _)
theorem EncodingKnown.fromFpu (d s2 : RegField) : EncodingKnown.Statement (.fromFpu d s2) :=
  encodingKnown_of (fieldOp_encRRR _ _ _ _)
theorem EncodingKnown.ldSgl (d s1 : RegField) (rc : RC) : EncodingKnown.Statement (.ldSgl d s1 rc) :=
  encodingKnown_of (fieldOp_encRC _ _ _ _)
theorem EncodingKnown.ldSglRo (d s1 : RegField) (rc : RC) : EncodingKnown.Statement (.ldSglRo d s1 rc) :=
  encodingKnown_of (fieldOp_encRC _ _ _ _)
theorem EncodingKnown.ldDbl (d s1 : RegField) (rc : RC) : EncodingKnown.Statement (.ldDbl d s1 rc) :=
  encodingKnown_of (fieldOp_encRC _ _ _ _)
theorem EncodingKnown.ldDblRo (d s1 : RegField) (rc : RC) : EncodingKnown.Statement (.ldDblRo d s1 rc) :=
  encodingKnown_of (fieldOp_encRC _ _ _ _)
theorem EncodingKnown.ldExt1 (d s1 : RegField) (rc : RC) : EncodingKnown.Statement (.ldExt1 d s1 rc) :=
  encodingKnown_of (fieldOp_encRC _ _ _ _)
theorem EncodingKnown.ldExt1Ro (d s1 : RegField) (rc : RC) : EncodingKnown.Statement (.ldExt1Ro d s1 rc) :=
  encodingKnown_of (fieldOp_encRC _ _ _ _)
theorem EncodingKnown.ldExt2 (d s1 : RegField) (rc : RC) : EncodingKnown.Statement (.ldExt2 d s1 rc) :=
  encodingKnown_of (fieldOp_encRC _ _ _ _)
theorem EncodingKnown.ldExt2Ro (d s1 : RegField) (rc : RC) : EncodingKnown.Statement (.ldExt2Ro d s1 rc) :=
  encodingKnown_of (fieldOp_encRC _ _ _ _)
theorem EncodingKnown.ldInt (d s1 : RegField) (rc : RC) : EncodingKnown.Statement (.ldInt d s1 rc) :=
  encodingKnown_of (fieldOp_encRC _ _ _ _)
theorem EncodingKnown.ldIntRo (d s1 : RegField) (rc : RC) : EncodingKnown.Statement (.ldIntRo d s1 rc) :=
  encodingKnown_of (fieldOp_encRC _ _ _ _)
theorem EncodingKnown.st40 (s2 s1 : RegField) (sc : BitVec 14) : EncodingKnown.Statement (.st40 s2 s1 sc) :=
  encodingKnown_of (fieldOp_encSC _ _ _ _)
theorem EncodingKnown.st32 (s2 s1 : RegField) (sc : BitVec 14) : EncodingKnown.Statement (.st32 s2 s1 sc) :=
  encodingKnown_of (fieldOp_encSC _ _ _ _)
theorem EncodingKnown.stCache (s2 s1 : RegField) (sc : BitVec 14) : EncodingKnown.Statement (.stCache s2 s1 sc) :=
  encodingKnown_of (fieldOp_encSC _ _ _ _)
theorem EncodingKnown.toFpu (s2 d : RegField) : EncodingKnown.Statement (.toFpu s2 d) :=
  encodingKnown_of (fieldOp_encStore _ _ _ _ _)
theorem EncodingKnown.stSgl (s2 s1 : RegField) (sc : BitVec 14) : EncodingKnown.Statement (.stSgl s2 s1 sc) :=
  encodingKnown_of (fieldOp_encSC _ _ _ _)
theorem EncodingKnown.stDbl (s2 s1 : RegField) (sc : BitVec 14) : EncodingKnown.Statement (.stDbl s2 s1 sc) :=
  encodingKnown_of (fieldOp_encSC _ _ _ _)
theorem EncodingKnown.stExt1 (s2 s1 : RegField) (sc : BitVec 14) : EncodingKnown.Statement (.stExt1 s2 s1 sc) :=
  encodingKnown_of (fieldOp_encSC _ _ _ _)
theorem EncodingKnown.stExt2 (s2 s1 : RegField) (sc : BitVec 14) : EncodingKnown.Statement (.stExt2 s2 s1 sc) :=
  encodingKnown_of (fieldOp_encSC _ _ _ _)
theorem EncodingKnown.stInt (s2 s1 : RegField) (sc : BitVec 14) : EncodingKnown.Statement (.stInt s2 s1 sc) :=
  encodingKnown_of (fieldOp_encSC _ _ _ _)
theorem EncodingKnown.addNt (d s1 : RegField) (rc : RC) : EncodingKnown.Statement (.addNt d s1 rc) :=
  encodingKnown_of (fieldOp_encRC _ _ _ _)
theorem EncodingKnown.add (d s1 : RegField) (rc : RC) : EncodingKnown.Statement (.add d s1 rc) :=
  encodingKnown_of (fieldOp_encRC _ _ _ _)
theorem EncodingKnown.sub (d s1 : RegField) (rc : RC) : EncodingKnown.Statement (.sub d s1 rc) :=
  encodingKnown_of (fieldOp_encRC _ _ _ _)
theorem EncodingKnown.and (d s1 : RegField) (rc : RC) : EncodingKnown.Statement (.and d s1 rc) :=
  encodingKnown_of (fieldOp_encRC _ _ _ _)
theorem EncodingKnown.or (d s1 : RegField) (rc : RC) : EncodingKnown.Statement (.or d s1 rc) :=
  encodingKnown_of (fieldOp_encRC _ _ _ _)
theorem EncodingKnown.xor (d s1 : RegField) (rc : RC) : EncodingKnown.Statement (.xor d s1 rc) :=
  encodingKnown_of (fieldOp_encRC _ _ _ _)
theorem EncodingKnown.sll (d s1 : RegField) (rc : RC) : EncodingKnown.Statement (.sll d s1 rc) :=
  encodingKnown_of (fieldOp_encRC _ _ _ _)
theorem EncodingKnown.sra (d s1 : RegField) (rc : RC) : EncodingKnown.Statement (.sra d s1 rc) :=
  encodingKnown_of (fieldOp_encRC _ _ _ _)
theorem EncodingKnown.srl (d s1 : RegField) (rc : RC) : EncodingKnown.Statement (.srl d s1 rc) :=
  encodingKnown_of (fieldOp_encRC _ _ _ _)
theorem EncodingKnown.rdTag (d s1 : RegField) : EncodingKnown.Statement (.rdTag d s1) :=
  encodingKnown_of (fieldOp_encRRR _ _ _ _)
theorem EncodingKnown.extract (d s1 : RegField) (rc : RC) : EncodingKnown.Statement (.extract d s1 rc) :=
  encodingKnown_of (fieldOp_encRC _ _ _ _)
theorem EncodingKnown.wrTag (d s1 : RegField) (rc : RC) : EncodingKnown.Statement (.wrTag d s1 rc) :=
  encodingKnown_of (fieldOp_encRC _ _ _ _)
theorem EncodingKnown.insert (d s1 : RegField) (rc : RC) : EncodingKnown.Statement (.insert d s1 rc) :=
  encodingKnown_of (fieldOp_encRC _ _ _ _)
theorem EncodingKnown.rdSpecial (d s1 : RegField) : EncodingKnown.Statement (.rdSpecial d s1) :=
  encodingKnown_of (fieldOp_encRRR _ _ _ _)
theorem EncodingKnown.rdInsert (d : RegField) : EncodingKnown.Statement (.rdInsert d) :=
  encodingKnown_of (fieldOp_encRRR _ _ _ _)
theorem EncodingKnown.rdKpsw (d : RegField) : EncodingKnown.Statement (.rdKpsw d) :=
  encodingKnown_of (fieldOp_encRRR _ _ _ _)
theorem EncodingKnown.wrSpecial (n s1 : RegField) (rc : RC) : EncodingKnown.Statement (.wrSpecial n s1 rc) :=
  encodingKnown_of (fieldOp_encRC _ _ _ _)
theorem EncodingKnown.wrInsert (rc : RC) : EncodingKnown.Statement (.wrInsert rc) :=
  encodingKnown_of (fieldOp_encRC _ _ _ _)
theorem EncodingKnown.wrKpsw (s1 : RegField) (rc : RC) : EncodingKnown.Statement (.wrKpsw s1 rc) :=
  encodingKnown_of (fieldOp_encRC _ _ _ _)
theorem EncodingKnown.sync : EncodingKnown.Statement (.sync) :=
  encodingKnown_of (fieldOp_encRRR _ _ _ _)
theorem EncodingKnown.invalidateIb : EncodingKnown.Statement (.invalidateIb) :=
  encodingKnown_of (fieldOp_encRRR _ _ _ _)
theorem EncodingKnown.cmpBrDelayed (cond s1 : RegField) (cc : CC) (off : BitVec 9) : EncodingKnown.Statement (.cmpBrDelayed cond s1 cc off) :=
  encodingKnown_of (fieldOp_encCC _ _ _ _ _)
theorem EncodingKnown.tagCmpBrDelayed (cond s1 : RegField) (tc : BitVec 6) (off : BitVec 9) : EncodingKnown.Statement (.tagCmpBrDelayed cond s1 tc off) :=
  encodingKnown_of (fieldOp_encTC _ _ _ _ _)
theorem EncodingKnown.fpCmpBrDelayed (cond s1 s2 : RegField) (off : BitVec 9) : EncodingKnown.Statement (.fpCmpBrDelayed cond s1 s2 off) :=
  encodingKnown_of (fieldOp_encCmpRR _ _ _ _ _)
theorem EncodingKnown.cmpBrTrue (cond s1 : RegField) (cc : CC) (off : BitVec 9) : EncodingKnown.Statement (.cmpBrTrue cond s1 cc off) :=
  encodingKnown_of (fieldOp_encCC _ _ _ _ _)
theorem EncodingKnown.tagCmpBrTrue (cond s1 : RegField) (tc : BitVec 6) (off : BitVec 9) : EncodingKnown.Statement (.tagCmpBrTrue cond s1 tc off) :=
  encodingKnown_of (fieldOp_encTC _ _ _ _ _)
theorem EncodingKnown.fpCmpBrTrue (cond s1 s2 : RegField) (off : BitVec 9) : EncodingKnown.Statement (.fpCmpBrTrue cond s1 s2 off) :=
  encodingKnown_of (fieldOp_encCmpRR _ _ _ _ _)
theorem EncodingKnown.cmpTrap (cond s1 : RegField) (cc : CC) (off : BitVec 9) : EncodingKnown.Statement (.cmpTrap cond s1 cc off) :=
  encodingKnown_of (fieldOp_encCC _ _ _ _ _)
theorem EncodingKnown.tagCmpTrap (cond s1 : RegField) (tc : BitVec 6) (off : BitVec 9) : EncodingKnown.Statement (.tagCmpTrap cond s1 tc off) :=
  encodingKnown_of (fieldOp_encTC _ _ _ _ _)
theorem EncodingKnown.jumpReg (s1 : RegField) (rc : RC) : EncodingKnown.Statement (.jumpReg s1 rc) :=
  encodingKnown_of (fieldOp_encRC _ _ _ _)
theorem EncodingKnown.callKernel : EncodingKnown.Statement (.callKernel) :=
  encodingKnown_of (fieldOp_encRRR _ _ _ _)
theorem EncodingKnown.ret (s1 : RegField) (rc : RC) : EncodingKnown.Statement (.ret s1 rc) :=
  encodingKnown_of (fieldOp_encRC _ _ _ _)
theorem EncodingKnown.retTrap (s1 : RegField) (rc : RC) : EncodingKnown.Statement (.retTrap s1 rc) :=
  encodingKnown_of (fieldOp_encRC _ _ _ _)
theorem EncodingKnown.retKernel (s1 : RegField) (rc : RC) : EncodingKnown.Statement (.retKernel s1 rc) :=
  encodingKnown_of (fieldOp_encRC _ _ _ _)
theorem EncodingKnown.fadd (d s1 s2 : RegField) : EncodingKnown.Statement (.fadd d s1 s2) :=
  encodingKnown_of (fieldOp_encRRR _ _ _ _)
theorem EncodingKnown.fsub (d s1 s2 : RegField) : EncodingKnown.Statement (.fsub d s1 s2) :=
  encodingKnown_of (fieldOp_encRRR _ _ _ _)
theorem EncodingKnown.fmul (d s1 s2 : RegField) : EncodingKnown.Statement (.fmul d s1 s2) :=
  encodingKnown_of (fieldOp_encRRR _ _ _ _)
theorem EncodingKnown.fdiv (d s1 s2 : RegField) : EncodingKnown.Statement (.fdiv d s1 s2) :=
  encodingKnown_of (fieldOp_encRRR _ _ _ _)
theorem EncodingKnown.fmov (d s1 : RegField) : EncodingKnown.Statement (.fmov d s1) :=
  encodingKnown_of (fieldOp_encRRR _ _ _ _)
theorem EncodingKnown.fabs (d s1 : RegField) : EncodingKnown.Statement (.fabs d s1) :=
  encodingKnown_of (fieldOp_encRRR _ _ _ _)
theorem EncodingKnown.fneg (d s1 : RegField) : EncodingKnown.Statement (.fneg d s1) :=
  encodingKnown_of (fieldOp_encRRR _ _ _ _)
theorem EncodingKnown.float (d s1 : RegField) : EncodingKnown.Statement (.float d s1) :=
  encodingKnown_of (fieldOp_encRRR _ _ _ _)
theorem EncodingKnown.fix (d s1 : RegField) : EncodingKnown.Statement (.fix d s1) :=
  encodingKnown_of (fieldOp_encRRR _ _ _ _)
theorem EncodingKnown.cvts (d s1 : RegField) : EncodingKnown.Statement (.cvts d s1) :=
  encodingKnown_of (fieldOp_encRRR _ _ _ _)
theorem EncodingKnown.cvtd (d s1 : RegField) : EncodingKnown.Statement (.cvtd d s1) :=
  encodingKnown_of (fieldOp_encRRR _ _ _ _)
theorem EncodingKnown.jump (addr : BitVec 28) : EncodingKnown.Statement (.jump addr) :=
  .inl (high_encJump _ _)
theorem EncodingKnown.call (addr : BitVec 28) : EncodingKnown.Statement (.call addr) :=
  .inr (.inl (high_encJump _ _))

end Sys2Proof.Laws
end

