-- ==== Sys2Proof/Tests/Slice0.lean ====
section
/-! SUPPORT. Tests: decoding of a word of every opcode row, ill-formed terms, one step of every instruction on values
taken from the spec (spec/95_test_vectors.md and the examples of the rules), and the witnesses of the statements. -/

namespace Sys2Proof.Tests

open Sys2Proof Sys2Proof.Machine Sys2Proof.Safety

/-! ### Decoding (the words are the examples of the rules of each instruction) -/

theorem test_decode_ld40 : decodeTableWord 32 0x03054008 = some (.ld40 16 10 (.imm 8)) := by decide
theorem test_decode_ld40Ro : decodeTableWord 32 0x05051600 = some (.ld40Ro 16 10 (.reg 11)) := by decide
theorem test_decode_cxr : decodeTableWord 32 0x07184000 = some (.cxr 17 16 (.imm 0)) := by decide
theorem test_decode_cxrRo : decodeTableWord 32 0x09184008 = some (.cxrRo 17 16 (.imm 8)) := by decide
theorem test_decode_ld32 : decodeTableWord 32 0x0B057FFC = some (.ld32 16 10 (.imm 0x3FFC)) := by decide
theorem test_decode_ld32Ro : decodeTableWord 32 0x0D008400 = some (.ld32Ro 16 1 (.reg 2)) := by decide
theorem test_decode_ld32Ra : decodeTableWord 32 0x0F00C000 = some (.ld32Ra 16 1 (.imm 0)) := by decide
theorem test_decode_testAndSet : decodeTableWord 32 0x1100C000 = some (.testAndSet 16 1 (.imm 0)) := by decide
theorem test_decode_ldCache : decodeTableWord 32 0x13004030 = some (.ldCache 16 0 (.imm 0x030)) := by decide
theorem test_decode_fromFpu : decodeTableWord 32 0x15000800 = some (.fromFpu 16 4) := by decide
theorem test_decode_ldSgl : decodeTableWord 32 0x16154000 = some (.ldSgl 1 10 (.imm 0)) := by decide
theorem test_decode_ldSglRo : decodeTableWord 32 0x18154004 = some (.ldSglRo 1 10 (.imm 4)) := by decide
theorem test_decode_ldDbl : decodeTableWord 32 0x1A254008 = some (.ldDbl 2 10 (.imm 8)) := by decide
theorem test_decode_ldDblRo : decodeTableWord 32 0x1C251600 = some (.ldDblRo 2 10 (.reg 11)) := by decide
theorem test_decode_ldExt1 : decodeTableWord 32 0x1E354000 = some (.ldExt1 3 10 (.imm 0)) := by decide
theorem test_decode_ldExt1Ro : decodeTableWord 32 0x20354000 = some (.ldExt1Ro 3 10 (.imm 0)) := by decide
theorem test_decode_ldExt2 : decodeTableWord 32 0x22354008 = some (.ldExt2 3 10 (.imm 8)) := by decide
theorem test_decode_ldExt2Ro : decodeTableWord 32 0x24354008 = some (.ldExt2Ro 3 10 (.imm 8)) := by decide
theorem test_decode_ldInt : decodeTableWord 32 0x26154000 = some (.ldInt 1 10 (.imm 0)) := by decide
theorem test_decode_ldIntRo : decodeTableWord 32 0x2815400C = some (.ldIntRo 1 10 (.imm 12)) := by decide
theorem test_decode_st40 : decodeTableWord 32 0x30056008 = some (.st40 16 10 8) := by decide
theorem test_decode_st32 : decodeTableWord 32 0x32156204 = some (.st32 17 10 0x204) := by decide
theorem test_decode_stCache : decodeTableWord 32 0x34006030 = some (.stCache 16 0 0x030) := by decide
theorem test_decode_toFpu : decodeTableWord 32 0x36106000 = some (.toFpu 16 1) := by decide
theorem test_decode_stSgl : decodeTableWord 32 0x38054200 = some (.stSgl 1 10 0) := by decide
theorem test_decode_stDbl : decodeTableWord 32 0x3A054408 = some (.stDbl 2 10 8) := by decide
theorem test_decode_stExt1 : decodeTableWord 32 0x3C054610 = some (.stExt1 3 10 16) := by decide
theorem test_decode_stExt2 : decodeTableWord 32 0x3E054618 = some (.stExt2 3 10 24) := by decide
theorem test_decode_stInt : decodeTableWord 32 0x40054800 = some (.stInt 4 10 0) := by decide
theorem test_decode_addNt : decodeTableWord 32 0x51054004 = some (.addNt 16 10 (.imm 4)) := by decide
theorem test_decode_add : decodeTableWord 32 0x5308A400 = some (.add 16 17 (.reg 18)) := by decide
theorem test_decode_sub : decodeTableWord 32 0x5508A400 = some (.sub 16 17 (.reg 18)) := by decide
theorem test_decode_and : decodeTableWord 32 0x5708C0FF = some (.and 16 17 (.imm 0xFF)) := by decide
theorem test_decode_or : decodeTableWord 32 0x5908A400 = some (.or 16 17 (.reg 18)) := by decide
theorem test_decode_xor : decodeTableWord 32 0x5B08FFFF = some (.xor 16 17 (.imm 0x3FFF)) := by decide
theorem test_decode_sll : decodeTableWord 32 0x5D08C002 = some (.sll 16 17 (.imm 2)) := by decide
theorem test_decode_sra : decodeTableWord 32 0x5F08C001 = some (.sra 16 17 (.imm 1)) := by decide
theorem test_decode_srl : decodeTableWord 32 0x6108C001 = some (.srl 16 17 (.imm 1)) := by decide
theorem test_decode_rdTag : decodeTableWord 32 0x63088000 = some (.rdTag 16 17) := by decide
theorem test_decode_extract : decodeTableWord 32 0x6508C002 = some (.extract 16 17 (.imm 2)) := by decide
theorem test_decode_wrTag : decodeTableWord 32 0x67084026 = some (.wrTag 16 16 (.imm 0x26)) := by decide
theorem test_decode_insert : decodeTableWord 32 0x6908C041 = some (.insert 16 17 (.imm 0x41)) := by decide
theorem test_decode_rdSpecial : decodeTableWord 32 0x71020000 = some (.rdSpecial 16 4) := by decide
theorem test_decode_rdInsert : decodeTableWord 32 0x73000000 = some (.rdInsert 16) := by decide
theorem test_decode_rdKpsw : decodeTableWord 32 0x75000000 = some (.rdKpsw 16) := by decide
theorem test_decode_wrSpecial : decodeTableWord 32 0x76104038 = some (.wrSpecial 1 0 (.imm 0x38)) := by decide
theorem test_decode_wrInsert : decodeTableWord 32 0x78001400 = some (.wrInsert (.reg 10)) := by decide
theorem test_decode_wrKpsw : decodeTableWord 32 0x7A084000 = some (.wrKpsw 16 (.imm 0)) := by decide
theorem test_decode_sync : decodeTableWord 32 0x7C000000 = some (.sync) := by decide
theorem test_decode_invalidateIb : decodeTableWord 32 0x7E000000 = some (.invalidateIb) := by decide
theorem test_decode_cmpBrDelayed : decodeTableWord 32 0x80082204 = some (.cmpBrDelayed 0 16 (.reg 17) 4) := by decide
theorem test_decode_tagCmpBrDelayed : decodeTableWord 32 0x82C84C03 = some (.tagCmpBrDelayed 12 16 0x26 3) := by decide
theorem test_decode_fpCmpBrDelayed : decodeTableWord 32 0x84408402 = some (.fpCmpBrDelayed 4 1 2 2) := by decide
theorem test_decode_cmpBrTrue : decodeTableWord 32 0x861841FD = some (.cmpBrTrue 1 16 (.imm 0) 0x1FD) := by decide
theorem test_decode_tagCmpBrTrue : decodeTableWord 32 0x88D84C02 = some (.tagCmpBrTrue 13 16 0x26 2) := by decide
theorem test_decode_fpCmpBrTrue : decodeTableWord 32 0x8A218802 = some (.fpCmpBrTrue 2 3 4 2) := by decide
theorem test_decode_cmpTrap : decodeTableWord 32 0x8CA00007 = some (.cmpTrap 10 0 (.reg 0) 7) := by decide
theorem test_decode_tagCmpTrap : decodeTableWord 32 0x8EC87E05 = some (.tagCmpTrap 12 16 0x3F 5) := by decide
theorem test_decode_jumpReg : decodeTableWord 32 0x9000C000 = some (.jumpReg 1 (.imm 0)) := by decide
theorem test_decode_callKernel : decodeTableWord 32 0x92000000 = some (.callKernel) := by decide
theorem test_decode_ret : decodeTableWord 32 0x94054008 = some (.ret 10 (.imm 8)) := by decide
theorem test_decode_retTrap : decodeTableWord 32 0x96054000 = some (.retTrap 10 (.imm 0)) := by decide
theorem test_decode_retKernel : decodeTableWord 32 0x98054008 = some (.retKernel 10 (.imm 8)) := by decide
theorem test_decode_fadd : decodeTableWord 32 0xA0308400 = some (.fadd 3 1 2) := by decide
theorem test_decode_fsub : decodeTableWord 32 0xA2308400 = some (.fsub 3 1 2) := by decide
theorem test_decode_fmul : decodeTableWord 32 0xA4308400 = some (.fmul 3 1 2) := by decide
theorem test_decode_fdiv : decodeTableWord 32 0xA6308400 = some (.fdiv 3 1 2) := by decide
theorem test_decode_fmov : decodeTableWord 32 0xA8208000 = some (.fmov 2 1) := by decide
theorem test_decode_fabs : decodeTableWord 32 0xAA208000 = some (.fabs 2 1) := by decide
theorem test_decode_fneg : decodeTableWord 32 0xAC208000 = some (.fneg 2 1) := by decide
theorem test_decode_float : decodeTableWord 32 0xAE108000 = some (.float 1 1) := by decide
theorem test_decode_fix : decodeTableWord 32 0xB0418000 = some (.fix 4 3) := by decide
theorem test_decode_cvts : decodeTableWord 32 0xB2518000 = some (.cvts 5 3) := by decide
theorem test_decode_cvtd : decodeTableWord 32 0xB4518000 = some (.cvtd 5 3) := by decide
theorem test_decode_jump : decodeTableWord 32 0xC0000808 = some (.jump 0x808) := by decide
theorem test_decode_call : decodeTableWord 32 0xE0000C00 = some (.call 0xC00) := by decide

theorem test_decode_immediate_bits : decodeTableWord 32 0x33F563FC = some (.st32 17 10 0x3FFC) := by decide
theorem test_decode_illegal : decodeTableWord 32 0x00000000 = none := by decide
theorem test_decode_store_bit14 : decode 0x30052008#32 = .error .reservedBit14 := by rfl
theorem test_decode_float_bit14 : decode 0xA030C400#32 = .error .reservedBit14 := by rfl

/-! ### Well-formedness: each check refuses an ill-formed term -/

theorem test_ill_formed_fromFpu : Instr.wellFormed (.fromFpu 16 16) = false := by decide
theorem test_ill_formed_toFpu : Instr.wellFormed (.toFpu 16 16) = false := by decide
theorem test_ill_formed_ldSgl : Instr.wellFormed (.ldSgl 15 10 (.imm 0)) = false := by decide
theorem test_ill_formed_ldSglRo : Instr.wellFormed (.ldSglRo 15 10 (.imm 0)) = false := by decide
theorem test_ill_formed_ldDbl : Instr.wellFormed (.ldDbl 15 10 (.imm 0)) = false := by decide
theorem test_ill_formed_ldDblRo : Instr.wellFormed (.ldDblRo 15 10 (.imm 0)) = false := by decide
theorem test_ill_formed_ldExt1 : Instr.wellFormed (.ldExt1 15 10 (.imm 0)) = false := by decide
theorem test_ill_formed_ldExt1Ro : Instr.wellFormed (.ldExt1Ro 15 10 (.imm 0)) = false := by decide
theorem test_ill_formed_ldExt2 : Instr.wellFormed (.ldExt2 15 10 (.imm 0)) = false := by decide
theorem test_ill_formed_ldExt2Ro : Instr.wellFormed (.ldExt2Ro 15 10 (.imm 0)) = false := by decide
theorem test_ill_formed_ldInt : Instr.wellFormed (.ldInt 15 10 (.imm 0)) = false := by decide
theorem test_ill_formed_ldIntRo : Instr.wellFormed (.ldIntRo 15 10 (.imm 0)) = false := by decide
theorem test_ill_formed_stSgl : Instr.wellFormed (.stSgl 15 10 0) = false := by decide
theorem test_ill_formed_stDbl : Instr.wellFormed (.stDbl 15 10 0) = false := by decide
theorem test_ill_formed_stExt1 : Instr.wellFormed (.stExt1 15 10 0) = false := by decide
theorem test_ill_formed_stExt2 : Instr.wellFormed (.stExt2 15 10 0) = false := by decide
theorem test_ill_formed_stInt : Instr.wellFormed (.stInt 15 10 0) = false := by decide
theorem test_ill_formed_wrSpecial : Instr.wellFormed (.wrSpecial 4 1 (.imm 0)) = false := by decide
theorem test_ill_formed_cmpBrDelayed : Instr.wellFormed (.cmpBrDelayed 0x10 1 (.imm 0) 0) = false := by decide
theorem test_ill_formed_tagCmpBrDelayed : Instr.wellFormed (.tagCmpBrDelayed 0 1 0 0) = false := by decide
theorem test_ill_formed_fpCmpBrDelayed : Instr.wellFormed (.fpCmpBrDelayed 1 1 15 0) = false := by decide
theorem test_ill_formed_cmpBrTrue : Instr.wellFormed (.cmpBrTrue 0x1D 1 (.imm 0) 0) = false := by decide
theorem test_ill_formed_tagCmpBrTrue : Instr.wellFormed (.tagCmpBrTrue 0x0E 1 0 0) = false := by decide
theorem test_ill_formed_fpCmpBrTrue : Instr.wellFormed (.fpCmpBrTrue 1 15 1 0) = false := by decide
theorem test_ill_formed_cmpTrap : Instr.wellFormed (.cmpTrap 0x12 1 (.imm 0) 0) = false := by decide
theorem test_ill_formed_tagCmpTrap : Instr.wellFormed (.tagCmpTrap 0x1E 1 0 0) = false := by decide
theorem test_ill_formed_fadd : Instr.wellFormed (.fadd 1 2 15) = false := by decide
theorem test_ill_formed_fsub : Instr.wellFormed (.fsub 1 2 15) = false := by decide
theorem test_ill_formed_fmul : Instr.wellFormed (.fmul 1 2 15) = false := by decide
theorem test_ill_formed_fdiv : Instr.wellFormed (.fdiv 1 2 15) = false := by decide
theorem test_ill_formed_fmov : Instr.wellFormed (.fmov 15 1) = false := by decide
theorem test_ill_formed_fabs : Instr.wellFormed (.fabs 15 1) = false := by decide
theorem test_ill_formed_fneg : Instr.wellFormed (.fneg 15 1) = false := by decide
theorem test_ill_formed_float : Instr.wellFormed (.float 15 1) = false := by decide
theorem test_ill_formed_fix : Instr.wellFormed (.fix 15 1) = false := by decide
theorem test_ill_formed_cvts : Instr.wellFormed (.cvts 15 1) = false := by decide
theorem test_ill_formed_cvtd : Instr.wellFormed (.cvtd 15 1) = false := by decide

/-! ### One step of each instruction (spec/95_test_vectors.md part 2) -/

/-- Registers of the current window set. -/
def withRegs (l : List (RegField × Tagged)) (s : State) : State := l.foldl (fun t p => writeReg t p.1 p.2) s

/-- Words of memory set. -/
def withMem (l : List (Word × Word)) (s : State) : State :=
  { s with mem := l.foldl (fun m p => memPutWord m p.1 p.2) s.mem }

/-- FPU registers set. -/
def withFregs (l : List (RegField × FpReg)) (s : State) : State := l.foldl (fun t p => writeFpu t p.1 p.2) s

/-- A normalized FPU value. -/
def fpNorm (sign : Bool) (e : Int) (m : BitVec 64) : FpReg :=
  { sign := sign, exp := BitVec.ofInt 17 (e - 1), type := typeNorm, rtag := rtagExact, frac := m, image := false }

/-- A zero of the FPU. -/
def fpZero (sign : Bool) : FpReg := { zeroFpReg with sign := sign }

/-- A line of eight words, readable and writable, at physical block 0x40. -/
def someLine (g : GlobalAddr) : Line :=
  { vtag := lineTag g, ptag := 0x40#27, state := .unowned, pageDirty := true, blockDirty := false, prot := 2#2,
    cacheable := true, words := #v[0xDEADBEEF#32, 0x11#32, 0x4000#32, 0xAABBCC26#32, 0#32, 0xC0040000#32, 0x3FC00000#32, 0x77#32] }

/-- Reset with the CPU traps of UPSW on, traps enabled, virtual data accesses, and the line of address 0x2000 in the
cache. -/
def virt : State :=
  { State.reset with upsw := 0x38#6, kpsw := 0x1F14#24, cache := [(lineIndex 0x2000#38, someLine 0x2000#38)] }

/-- Reset with the CPU traps of UPSW on and traps enabled, physical. -/
def phys : State := { State.reset with upsw := 0x38#6, kpsw := 0x1F10#24 }

/-- The state after one step that runs the word. -/
def ran (w : Nat) (s : State) : Option State :=
  match step (s.withFetchWord 32 w) with
  | .next t => some t
  | .fault _ => none
  | .refused _ => none

/-- What is seen of that state. -/
def seen {α : Type} (f : State → α) (w : Nat) (s : State) : Option α := (ran w s).map f

/-- A register after the step. -/
def reg (i : RegField) (w : Nat) (s : State) : Option Tagged := seen (fun t => regVal t i) w s

/-- The cached word of an address. -/
def cachedWord (a : GlobalAddr) (s : State) : Option Word := (cacheProbe s a).map (fun l => lineWord l a)

def fix (w : Word) : Tagged := { taggen := 0#8, data := w }
def tagged (w : Word) (t : BitVec 8) : Tagged := { taggen := t, data := w }

theorem test_ld40 : reg 16 0x03054008 (withRegs [(10, fix 0x2004#32)] virt) = some (tagged 0x4000#32 0x26#8) := by decide
theorem test_ld40Ro_owns :
    seen (fun t => (cacheProbe t 0x2000#38).map Line.state) 0x05051600
      (withRegs [(10, fix 0x2000#32), (11, fix 8#32)] virt) = some (some .ownedPrivate) := by decide
theorem test_cxr : reg 17 0x07184000 (withRegs [(16, tagged 0x2008#32 0x26#8)] virt) =
    some (tagged 0x4000#32 0x26#8) := by decide
theorem test_cxr_trap : seen State.pc 0x07184000 (withRegs [(16, fix 0x2008#32)] virt) = some 0x10A0#32 := by decide
theorem test_cxrRo : reg 17 0x09184008 (withRegs [(16, tagged 0x2000#32 0x27#8)] virt) =
    some (tagged 0x4000#32 0x26#8) := by decide
theorem test_ld32 : reg 16 0x0B057FFF (withMem [(0x2000#32, 0xDEADBEEF#32)] (withRegs [(10, fix 0x2004#32)] phys)) =
    some (fix 0xDEADBEEF#32) := by decide
theorem test_ld32_shadow :
    seen (fun t => t.pipe.loadShadow == some (.int (physReg 0#3 16))) 0x0B057FFF
      (withRegs [(10, fix 0x2004#32)] phys) = some true := by decide
theorem test_ld32Ro : reg 16 0x0D008400 (withRegs [(1, fix 0x2000#32), (2, fix 6#32)] virt) =
    some (fix 0x11#32) := by decide
theorem test_ld32Ra : reg 16 0x0F00C000 (withMem [(0x30#32, 9#32)] (withRegs [(1, fix 0x33#32)] phys)) =
    some (fix 9#32) := by decide
theorem test_testAndSet : seen (fun t => (regVal t 16, cachedWord 0x2010#38 t)) 0x1100C000
    (withRegs [(1, fix 0x2010#32)] virt) = some (fix 0#32, some 1#32) := by decide
theorem test_ldCache_byte :
    ccRead { phys with gsn := #v[0x2A#8, 0#8, 0#8, 0#8] } (ccDecode 0x030#32) = (0x2A#8, 8) := by decide
theorem test_ldCache : seen State.pc 0x13004030 phys = some 4#32 := by decide
theorem test_fromFpu : reg 16 0x15000800 (withFregs [(4, { zeroFpReg with frac := 0x2A00000000#64 })] phys) =
    some (fix 0x2A#32) := by decide
theorem test_fromFpu_psw : reg 19 0x15301E00 { phys with fpsw := 0x2421#15 } = some (fix 0x2421#32) := by decide
theorem test_ldSgl : seen (fun t => classify (fpuGet t 1)) 0x16157FFC
    (withMem [(0x2000#32, 0x3FC00000#32)] (withRegs [(10, fix 0x2004#32)] phys)) =
    some (some (.norm false 0 0xC000000000000000#64)) := by decide
theorem test_ldSgl_denorm : seen (fun t => classify (fpuGet t 1)) 0x16157FFC
    (withMem [(0x2000#32, 1#32)] (withRegs [(10, fix 0x2004#32)] phys)) =
    some (some (.denorm false 0x0000010000000000#64)) := by decide
theorem test_ldSglRo : seen (fun t => classify (fpuGet t 1)) 0x18154004
    (withMem [(0x2000#32, 0xFF800000#32)] (withRegs [(10, fix 0x1FFC#32)] phys)) =
    some (some (.inf true)) := by decide
theorem test_ldDbl : seen (fun t => classify (fpuGet t 2)) 0x1A254008 (withRegs [(10, fix 0x2008#32)] virt) =
    some (some (.norm true 1 0xA000000000000000#64)) := by decide
theorem test_ldDblRo : seen (fun t => classify (fpuGet t 2)) 0x1C251600
    (withRegs [(10, fix 0x2010#32), (11, fix 0#32)] virt) = some (some (.norm true 1 0xA000000000000000#64)) := by
  decide
theorem test_ldExt1 : seen (fun t => fpuGet t 3) 0x1E354000 (withRegs [(10, fix 0x2010#32)] virt) =
    some { sign := true, exp := 0x10010#17, type := 0#3, rtag := 0#2, frac := 0#64, image := false } := by decide
theorem test_ldExt1Ro : seen (fun t => (fpuGet t 3).frac) 0x20354000
    (withFregs [(3, fpNorm false 0 0x8000000000000001#64)] (withRegs [(10, fix 0x2010#32)] virt)) =
    some 0x8000000000000001#64 := by decide
theorem test_ldExt2 : seen (fun t => fpuGet t 3) 0x22354008
    (withFregs [(3, fpNorm true 0 0#64)] (withRegs [(10, fix 0x2010#32)] virt)) =
    some (fpNorm true 0 0x773FC00000#64) := by decide
theorem test_ldExt2Ro : seen (fun t => (fpuGet t 3).frac) 0x24354008 (withRegs [(10, fix 0x2000#32)] virt) =
    some 0xAABBCC2600004000#64 := by decide
theorem test_ldInt : seen (fun t => (fpuGet t 1).frac) 0x26157FFC
    (withMem [(0x2000#32, 0xFFFFFFFE#32)] (withRegs [(10, fix 0x2004#32)] phys)) =
    some 0xFFFFFFFE00000000#64 := by decide
theorem test_ldIntRo : seen (fun t => (fpuGet t 1).frac) 0x2815400C
    (withMem [(0x200C#32, 5#32)] (withRegs [(10, fix 0x2000#32)] phys)) = some 0x500000000#64 := by decide
theorem test_st40 : seen State.pc
    0x30056008 (withRegs [(16, tagged 0x5000#32 0x66#8), (10, tagged 0x2000#32 0xA6#8)] virt) = some 4#32 := by decide
theorem test_st40_trap : seen State.pc 0x30056008
    (withRegs [(16, tagged 0x5000#32 0x66#8), (10, tagged 0x2000#32 0x26#8)] virt) = some 0x10E0#32 := by decide
theorem test_st32_bytes : seen (fun t => [memGet t.mem 0x2204, memGet t.mem 0x2205, memGet t.mem 0x2206,
    memGet t.mem 0x2207]) 0x32156204 (withRegs [(10, fix 0x2003#32), (17, fix 0x11223344#32)] phys) =
    some [0x44#8, 0x33#8, 0x22#8, 0x11#8] := by decide
theorem test_st32_negative : seen (fun t => memWord t.mem 0x2004#32) 0x33F563FC
    (withRegs [(10, fix 0x2008#32), (17, fix 7#32)] phys) = some 7#32 := by decide
theorem test_stCache_gsn : seen (fun t => t.gsn[0]) 0x34006030 (withRegs [(16, fix 0x12A#32)] phys) =
    some 0x2A#8 := by decide
theorem test_stCache_intclr : seen State.intreg 0x34506000 (withRegs [(16, fix 5#32)] { phys with intreg := 0xF#32 }) =
    some 0xA#32 := by decide
theorem test_toFpu : seen (fun t => (fpuGet t 1).frac) 0x36106000 (withRegs [(16, tagged 7#32 0x26#8)] phys) =
    some 0x0000000700000000#64 := by decide
theorem test_toFpu_psw : seen (fun t => (t.fpsw, t.pipe.loadShadow == some (.fpu 15))) 0x36F06800
    (withRegs [(20, fix 0xFFFF8001#32)] phys) = some (1#15, true) := by decide
theorem test_stSgl : seen (fun t => memWord t.mem 0x2000#32) 0x38054A00
    (withFregs [(5, fpNorm false (-2) 0xAAAAAB0000000000#64)] (withRegs [(10, fix 0x2000#32)] phys)) =
    some 0x3EAAAAAB#32 := by decide
theorem test_stDbl : seen (fun t => (cachedWord 0x2008#38 t, cachedWord 0x200C#38 t)) 0x3A054A08
    (withFregs [(5, fpNorm false (-2) 0xAAAAAAAAAAAAA800#64)] (withRegs [(10, fix 0x2000#32)] virt)) =
    some (some 0x55555555#32, some 0x3FD55555#32) := by decide
theorem test_stExt1 : seen State.pc 0x3C054610
    (withFregs [(3, fpNorm false 5 0xA800000000000000#64)] (withRegs [(10, fix 0x2000#32)] virt)) =
    some 4#32 := by decide
theorem test_stExt2 : seen (fun t => (cachedWord 0x2018#38 t, cachedWord 0x201C#38 t)) 0x3E054618
    (withFregs [(3, fpNorm false 5 0xA800000000000000#64)] (withRegs [(10, fix 0x2000#32)] virt)) =
    some (some 0#32, some 0xA8000000#32) := by decide
theorem test_stInt : seen (fun t => memWord t.mem 0x2000#32) 0x40054800
    (withFregs [(4, { zeroFpReg with frac := 0x2A00000000#64 })] (withRegs [(10, fix 0x2000#32)] phys)) =
    some 0x2A#32 := by decide
theorem test_addNt : reg 16 0x51054004 (withRegs [(10, tagged 0xFFFFFFFE#32 0xA6#8)] phys) =
    some (tagged 2#32 0xA6#8) := by decide
theorem test_add_tag : reg 16 0x5308C001 (withRegs [(17, tagged 5#32 0x4F#8)] phys) = some (tagged 6#32 0x4F#8) := by decide
theorem test_add_priority : seen State.pc 0x5308C001 (withRegs [(17, tagged 0x7FFFFFFF#32 0x26#8)] phys) =
    some 0x1090#32 := by decide
theorem test_sub : reg 16 0x5508A400 (withRegs [(17, fix 3#32), (18, fix 5#32)] phys) = some (fix 0xFFFFFFFE#32) := by decide
theorem test_sub_overflow : seen State.pc 0x5508FFFF (withRegs [(17, fix 0x7FFFFFFF#32)] phys) = some 0x1090#32 := by decide
theorem test_and : reg 16 0x5708C0FF (withRegs [(17, fix 0x12345678#32)] phys) = some (fix 0x78#32) := by decide
theorem test_and_trap : seen State.pc 0x5708C0FF (withRegs [(17, tagged 0x1234#32 0x26#8)] phys) =
    some 0x10B0#32 := by decide
theorem test_or : reg 16 0x5908A400 (withRegs [(17, fix 0xF0#32), (18, fix 0x0F#32)] phys) = some (fix 0xFF#32) := by decide
theorem test_xor : reg 16 0x5B08FFFF (withRegs [(17, fix 0xFFFF#32)] phys) = some (fix 0xFFFF0000#32) := by decide
theorem test_sll : reg 16 0x5D08C007 (withRegs [(17, fix 1#32)] phys) = some (fix 8#32) := by decide
theorem test_sra : reg 16 0x5F08C001 (withRegs [(17, fix 0x80000002#32)] phys) = some (fix 0xC0000001#32) := by decide
theorem test_sra_even : reg 16 0x5F08C002 (withRegs [(17, fix 0x80000002#32)] phys) = some (fix 0x80000002#32) := by decide
theorem test_srl : reg 16 0x6108C001 (withRegs [(17, fix 0x80000002#32)] phys) = some (fix 0x40000001#32) := by decide
theorem test_rdTag : reg 16 0x63088000 (withRegs [(17, tagged 0x3000#32 0xA6#8)] phys) = some (fix 0xA6#32) := by decide
theorem test_extract : reg 16 0x6508C007 (withRegs [(17, fix 0x44332211#32)] phys) = some (fix 0x44#32) := by decide
theorem test_wrTag : reg 16 0x67082400 (withRegs [(16, fix 0x3000#32), (18, fix 0x1E6#32)] phys) =
    some (tagged 0x3000#32 0xE6#8) := by decide
theorem test_insert : reg 16 0x6908C041 (withRegs [(17, fix 0x44332211#32)] { phys with insert := 3#2 }) =
    some (fix 0x41332211#32) := by decide
theorem test_rdSpecial_cwp : reg 16 0x71010000 { phys with cwp := 3#3 } = some (fix 0x180#32) := by decide
theorem test_rdSpecial_writePc :
    reg 16 0x71030000 { phys with trapNextPC := 0x2004#32, pipe := { Pipe.idle with atVector := true } } =
    some (fix 0x2004#32) := by decide
theorem test_rdInsert : reg 16 0x73000000 { phys with insert := 2#2 } = some (fix 2#32) := by decide
theorem test_rdKpsw : reg 16 0x75000000 { phys with kpsw := 0x031F00#24 } = some (fix 0x031F00#32) := by decide
theorem test_wrSpecial_upsw : seen State.upsw 0x761041FF { phys with upsw := 0#6 } = some 0x3F#6 := by decide
theorem test_wrSpecial_cwp : seen State.cwp 0x7620C000 (withRegs [(1, fix 0x100#32)] phys) = some 2#3 := by decide
theorem test_wrInsert : seen State.insert 0x78001400 (withRegs [(10, fix 0x2003#32)] phys) = some 3#2 := by decide
theorem test_wrKpsw : seen State.kpsw 0x7A084000 (withRegs [(16, fix 0x1F1F#32)] phys) = some 0x1F1F#24 := by decide
theorem test_wrKpsw_user : seen (fun t => (t.pc, t.kpsw)) 0x7A084000
    (withRegs [(16, fix 0x1F1F#32)] { phys with kpsw := 0x1F00#24 }) = some (0x1080#32, 0x0F10#24) := by decide
theorem test_sync : seen State.pc 0x7C000000 { phys with pc := 0x100#32, nextPC := 0x104#32 } = some 0x104#32 := by decide
theorem test_sync_pending : seen (fun t => (t.pc, t.trapPC, t.fpuExcep)) 0x7C000000
    { phys with pc := 0x100#32, nextPC := 0x104#32, fpuExcep := true } = some (0x1040#32, 0x100#32, false) := by decide
theorem test_invalidateIb : seen (fun t => (t.ib[0].valid, t.ib[15].valid)) 0x7E000000
    { phys with ib := Vector.replicate 16 { emptyIbBlock with valid := 0xFF#8 } } = some (0#8, 0#8) := by decide
theorem test_cmpBrDelayed : seen (fun t => (t.pc, t.nextPC)) 0x80082204
    (withRegs [(16, fix 7#32), (17, fix 7#32)] { phys with pc := 0x2000#32, nextPC := 0x2004#32 }) =
    some (0x2004#32, 0x2010#32) := by decide
theorem test_cmpBrDelayed_eql : seen State.pc 0x81E82204
    (withRegs [(16, tagged 0x5000#32 0x38#8), (17, tagged 0x6000#32 0x38#8)] phys) = some 0x10D0#32 := by decide
theorem test_tagCmpBrDelayed : seen State.nextPC 0x82C84C03 (withRegs [(16, tagged 9#32 0x66#8)] phys) = some 12#32 := by decide
theorem test_tagCmpBrDelayed_endp : seen State.pc 0x83C84E03 (withRegs [(16, fix 9#32)] phys) = some 0x10A0#32 := by decide
theorem test_fpCmpBrDelayed : seen State.nextPC 0x84408402
    (withFregs [(1, fpNorm false 0 0x8000000000000000#64), (2, fpNorm false 1 0x8000000000000000#64)] phys) =
    some 8#32 := by decide
theorem test_cmpBrTrue : seen (fun t => (t.pc, t.nextPC, t.pipe.squash)) 0x861841FD
    (withRegs [(16, fix 3#32)] { phys with pc := 0x2010#32, nextPC := 0x2014#32 }) =
    some (0x2014#32, 0x2004#32, false) := by decide
theorem test_cmpBrTrue_not : seen (fun t => (t.pc, t.nextPC, t.pipe.squash)) 0x861841FD
    { phys with pc := 0x2010#32, nextPC := 0x2014#32 } = some (0x2014#32, 0x2018#32, true) := by decide
theorem test_tagCmpBrTrue : seen (fun t => (t.nextPC, t.pipe.squash)) 0x88D84C02 phys = some (8#32, false) := by decide
theorem test_fpCmpBrTrue : seen State.nextPC 0x8A218802 (withFregs [(3, fpZero false), (4, fpZero true)] phys) =
    some 8#32 := by decide
theorem test_cmpTrap : seen State.pc 0x8CA00007 phys = some 0x10F0#32 := by decide
theorem test_cmpTrap_tag_first : seen State.pc 0x8C287E00 (withRegs [(16, tagged 40#32 0x26#8)] phys) =
    some 0x10C0#32 := by decide
theorem test_tagCmpTrap : seen State.pc 0x8EC87E05 (withRegs [(16, tagged 1#32 0x3F#8)] phys) = some 0x10F0#32 := by decide
theorem test_jumpReg : seen (fun t => (t.pc, t.nextPC)) 0x9000C000 (withRegs [(1, tagged 0x3006#32 0x26#8)] phys) =
    some (4#32, 0x3004#32) := by decide
theorem test_callKernel : seen (fun t => (t.cwp, t.kpsw, t.nextPC, regGet t (physReg 2#3 10#5))) 0x92000000
    { phys with pc := 0x40000100#32, nextPC := 0x40000104#32, cwp := 1#3, kpsw := 0x1F20#24 } =
    some (2#3, 0x1F10#24, 0x1000#32, fix 0x40000100#32) := by decide
theorem test_ret : seen (fun t => (t.cwp, t.nextPC)) 0x94054006
    (withRegs [(10, fix 0x2001#32)] { phys with cwp := 3#3 }) = some (2#3, 0x2004#32) := by decide
theorem test_ret_underflow : seen State.pc 0x94054008 phys = some 0x1060#32 := by decide
theorem test_retTrap : seen (fun t => (t.kpsw.getLsbD 12, t.pipe.retPend)) 0x96054000
    { phys with cwp := 3#3, kpsw := 0x0F10#24 } = some (false, some .trap) := by decide
theorem test_retKernel : seen (fun t => (t.cwp, t.nextPC, t.pipe.retPend)) 0x98054008
    (withRegs [(10, fix 0x40000100#32)] { phys with cwp := 2#3 }) = some (1#3, 0x40000108#32, some .kernel) := by decide
theorem test_fadd : seen (fun t => classify (fpuGet t 3)) 0xA0308400
    (withFregs [(1, fpNorm false 0 0xC000000000000000#64), (2, fpNorm true 1 0xA000000000000000#64)] phys) =
    some (some (.norm true 0 0x8000000000000000#64)) := by decide
theorem test_fadd_inf : seen (fun t => (classify (fpuGet t 3), t.fpsw.getLsbD 8)) 0xA0308400
    (withFregs [(1, { zeroFpReg with type := typeInf }), (2, { zeroFpReg with type := typeInf, sign := true })] phys) =
    some (some (.qnan false canonicalNaN), true) := by decide
theorem test_fsub : seen (fun t => classify (fpuGet t 3)) 0xA2308400
    (withFregs [(1, fpNorm false 0 0xC000000000000000#64), (2, fpNorm true 1 0xA000000000000000#64)] phys) =
    some (some (.norm false 2 0x8000000000000000#64)) := by decide
theorem test_fmul : seen (fun t => (classify (fpuGet t 3), t.fpsw)) 0xA4308400
    (withFregs [(1, fpNorm false 2 0xC000000000000000#64), (2, fpNorm false 2 0xE000000000000000#64)] phys) =
    some (some (.norm false 5 0xA800000000000000#64), 0x2400#15) := by decide
theorem test_fdiv : seen (fun t => (classify (fpuGet t 3), t.fpsw.extractLsb' 5 4)) 0xA6308400
    (withFregs [(1, fpNorm false 0 0x8000000000000000#64), (2, fpNorm false 1 0xC000000000000000#64)] phys) =
    some (some (.norm false (-2) 0xAAAAAAAAAAAAAAAB#64), 1#4) := by decide
theorem test_fdiv_zero : seen (fun t => (classify (fpuGet t 3), t.fpsw.extractLsb' 5 4)) 0xA6308400
    (withFregs [(1, fpNorm false 0 0x8000000000000000#64), (2, fpZero true)] phys) =
    some (some (.inf true), 8#4) := by decide
theorem test_fmov : seen (fun t => fpuGet t 2) 0xA8208000 (withFregs [(1, fpNorm true 3 5#64)] phys) =
    some (fpNorm true 3 5#64) := by decide
theorem test_fabs : seen (fun t => classify (fpuGet t 2)) 0xAA208000
    (withFregs [(1, fpNorm true 1 0xA000000000000000#64)] phys) =
    some (some (.norm false 1 0xA000000000000000#64)) := by decide
theorem test_fneg : seen (fun t => classify (fpuGet t 2)) 0xAC208000 phys = some (some (.zero true)) := by decide
theorem test_float : seen (fun t => classify (fpuGet t 1)) 0xAE108000
    (withFregs [(1, { zeroFpReg with frac := 0x8000000000000000#64 })] phys) =
    some (some (.norm true 31 0x8000000000000000#64)) := by decide
theorem test_fix : seen (fun t => ((fpuGet t 4).frac, t.fpsw.extractLsb' 5 4)) 0xB0418000
    (withFregs [(3, fpNorm true 1 0xA000000000000000#64)] { phys with fpsw := 3#15 }) =
    some (0xFFFFFFFD00000000#64, 1#4) := by decide
theorem test_fix_lowest : seen (fun t => ((fpuGet t 4).frac, t.fpsw.extractLsb' 5 4)) 0xB0418000
    (withFregs [(3, fpNorm true 31 0x8000000000000000#64)] phys) = some (0x8000000000000000#64, 0#4) := by decide
theorem test_cvts : seen (fun t => (classify (fpuGet t 5), t.fpsw.extractLsb' 5 4)) 0xB2518000
    (withFregs [(3, fpNorm false (-2) 0xAAAAAAAAAAAAAAAB#64)] phys) =
    some (some (.norm false (-2) 0xAAAAAB0000000000#64), 1#4) := by decide
theorem test_cvts_overflow : seen (fun t => (classify (fpuGet t 5), t.fpsw.extractLsb' 5 4)) 0xB2518000
    (withFregs [(3, fpNorm false 128 0x8000000000000000#64)] phys) =
    some (some (.norm false 128 0x8000000000000000#64), 4#4) := by decide
theorem test_cvtd : seen (fun t => classify (fpuGet t 5)) 0xB4518000
    (withFregs [(3, fpNorm false (-2) 0xAAAAAAAAAAAAAAAB#64)] phys) =
    some (some (.norm false (-2) 0xAAAAAAAAAAAAA800#64)) := by decide
theorem test_jump : seen (fun t => (t.pc, t.nextPC)) 0xC0000800
    { phys with pc := 0x40001010#32, nextPC := 0x40001014#32 } = some (0x40001014#32, 0x40002000#32) := by decide
theorem test_call : seen (fun t => (t.cwp, t.nextPC, regGet t (physReg 3#3 10#5))) 0xE0000C00
    { phys with cwp := 2#3, pc := 0x2000#32, nextPC := 0x2004#32 } = some (3#3, 0x3000#32, fix 0x2000#32) := by decide
theorem test_call_overflow : seen (fun t => (t.cwp, t.pc)) 0xE0000C00 { phys with cwp := 6#3 } =
    some (7#3, 0x1050#32) := by decide

/-! ### Traps, interrupts, translation (spec/95_test_vectors.md 2.9, 2.10) -/

theorem test_trap_entry : seen (fun t => (t.kpsw, t.cwp, regGet t (physReg 3#3 10#5), t.trapNextPC)) 0x5308C001
    (withRegs [(17, fix 0x7FFFFFFF#32)]
      { phys with kpsw := 0x001F04#24, cwp := 2#3, pc := 0x2000#32, nextPC := 0x2004#32 }) =
    some (0x000F14#24, 3#3, fix 0x2000#32, 0x2004#32) := by decide
theorem test_error_fault_kpsw : entryKpsw .errorFault 0x001F1C#24 = 0x000F30#24 := by decide
theorem test_interrupt_request : (deliverInterrupt 0xF500000C#32
    { phys with board := { Board.atReset with slot := 5#4 } }).intreg = 8#32 := by decide
theorem test_interrupt_taken :
    (match step { phys with intreg := 8#32, intmask := 8#32 } with
      | .next t => some (t.pc, t.trapPC)
      | .fault _ => none
      | .refused _ => none) = some (0x1030#32, 0#32) := by decide

/-- The registers and page tables of spec/95_test_vectors.md 2.10. -/
def walkState (pte2 pte1 : Word) : State :=
  withMem [(0x00100800#32, pte2), (0x00200048#32, pte1), (0x00345344#32, 0x12345678#32)]
    (withRegs [(1, fix 0x40012345#32)]
      { virt with
        cache := []
        gsn := #v[0#8, 0x2A#8, 0#8, 0#8]
        pteva := 0x0C1#10 ++ 0#28
        rpteva := 0x304C1#20 ++ 0#18
        rptm := #v[0#20, 0x00100#20, 0#20, 0#20] })

theorem test_walk : seen (fun t => (regVal t 16, t.pteva, t.rpteva)) 0x0D00C000
    (walkState 0x00200001#32 0x00345007#32) =
    some (fix 0x12345678#32, 0x0C12A00048#38, 0x0C1304A800#38) := by decide
theorem test_walk_latch : (vaRef (walkState 0#32 0#32) 0x40012344#32).gva = 0x0A80012344#38 := by decide
theorem test_walk_absent_page : seen State.pc 0x0D00C000 (walkState 0x00200001#32 0x00345006#32) =
    some 0x1020#32 := by decide
theorem test_walk_read_anyway : reg 16 0x0F00C000 (walkState 0x00200001#32 0x00345006#32) =
    some (fix 0x12345678#32) := by decide
theorem test_walk_absent_table : seen State.pc 0x0F00C000 (walkState 0x00200000#32 0x00345007#32) =
    some 0x1020#32 := by decide
theorem test_walk_marks_table_line :
    seen (fun t => (cacheProbe t t.pteva).map Line.cacheable) 0x0D00C000 (walkState 0x00200009#32 0x00345007#32) =
    some (some false) := by decide
theorem test_walk_dirty_trap : seen (fun t => (t.pc, t.faultInfo)) 0x3200E200
    (walkState 0x00200001#32 0x00345003#32) = some (0x1020#32, some .dirtyTrap) := by decide
theorem test_walk_from_owner :
    seen (fun t => (regVal t 16, (cacheProbe t t.pteva).map Line.blockDirty,
      (lineGet t.remote (lineNumber t.pteva)).map RemoteLine.state)) 0x0D00C000
      { walkState 0x00200001#32 0#32 with
        remote := [(lineNumber 0x0C12A00048#38,
          { state := .ownedPrivate, ptag := 0x0010002#27, status := .dirty,
            words := Vector.replicate 8 0x00345007#32 })] } =
    some (fix 0x12345678#32, some true, some .ownedShared) := by decide
theorem test_sync_overflow_disabled : seen (fun t => (t.pc, t.fpuExcep)) 0x7C000000
    { phys with upsw := 0x28#6, fpuExcep := true, fpuExcKind := .integerOverflow } = some (4#32, true) := by decide
theorem test_fix_overflow_delivers : seen (fun t => (fpuGet t 4).image) 0xB0418000
    (withFregs [(3, fpNorm false 31 0x8000000000000000#64), (4, fpZero true)] { phys with fpsw := 4#15, upsw := 0x28#6 }) =
    some true := by decide
theorem test_fix_overflow_kind : seen (fun t => (t.fpuExcep, t.fpuExcKind)) 0xB0418000
    (withFregs [(3, fpNorm false 31 0x8000000000000000#64)] { phys with fpsw := 4#15 }) =
    some (true, .integerOverflow) := by decide

/-! ### Devices, other bus masters, reset -/

/-- RAM below 0xF0000000 and device registers in slot space 1. -/
def platform (s : State) : State :=
  { s with
    board := { Board.atReset with
      map := [{ firstPage := 0, pages := 0xF0000, kind := .ram },
        { firstPage := 0xF1000, pages := 0x1000, kind := .device }] } }

theorem test_ld32_device : seen State.pc 0x0B057FFC (platform (withRegs [(10, fix 0xF1000004#32)] phys)) =
    some 4#32 := by decide
theorem test_st32_device : seen (fun t => (t.pc, t.mem)) 0x32156204
    (platform (withRegs [(10, fix 0xF1000000#32), (17, fix 1#32)] phys)) =
    some (4#32, (phys.withFetchWord 32 0x32156204).mem) := by decide
theorem test_masterWrite : memWord (masterWrite 0x2001#32 [0xAB#8] phys).mem 0x2000#32 = 0xAB00#32 := by decide
theorem test_masterWrite_unaligned : (masterWrite 0x2001#32 [1#8, 2#8] phys).mem = [] := by decide
theorem test_masterWrite_interrupt : (masterWrite 0xF000003C#32 [1#8] phys).intreg = 0x8000#32 := by decide
theorem test_masterRead : masterRead 0x2002#32 2 (withMem [(0x2000#32, 0x11223344#32)] phys) =
    some [0x22#8, 0x11#8] := by decide
theorem test_past_word : pastWord phys (fetchView (withMem [(0x100#32, 7#32)] phys)) 0x100#32 = some 7#32 := by decide
theorem test_systemReset_memory :
    (let s := withMem [(0x100#32, 7#32)] { virt with intmask := 1#32 }
     ((systemReset s).mem, (systemReset s).cache.length, (systemReset s).intmask)) =
    ((withMem [(0x100#32, 7#32)] virt).mem, 0, 0#32) := by decide
theorem test_systemReset_zeros :
    (let s := systemReset { virt with cwp := 3#3, intreg := 5#32 }
     (s.upsw, s.cwp, s.intreg)) = (0#6, 0#3, 0#32) := by decide

/-! ### The protocol of the bus (spec/80_spurbus.md R439, R445, R446, R451) -/

theorem test_wave_order :
    (let a := requestBus [5#4, 10#4] resetArbiter
     let b := releaseBus (requestBus [15#4] a)
     let c := requestBus [15#4] (releaseBus b)
     (nextMaster a, nextMaster b, nextMaster c, releaseBus c)) =
    (some 10#4, some 5#4, some 15#4, { wave := [], parked := some 15#4, waited := 0 }) := by decide
theorem test_no_mastery :
    (startCycle 5#4 true false (wordStart true 0x100#32 0#33 false) resetBus,
     startCycle 5#4 true false (wordStart true 0x100#32 0#33 false) (contend [5#4, 10#4] resetBus)) = (none, none) := by decide
/-- The bus while board 10 writes a word, board 5 the next. -/
def tenWrites : BusState :=
  { resetBus with
    arb := { wave := [5#4], parked := none, waited := 0 }, master := some 10#4, current := some (beginTransfer 1) }
/-- A cycle in which the inter-cache path brings nothing. -/
def quietPath : VCycle := { vack := false, vtm0 := false, vtm1 := false, vad := 0#33 }
theorem test_start_cycle :
    startCycle 10#4 true false (wordStart true 0x100#32 0#33 false) (contend [5#4, 10#4] resetBus) = some tenWrites ∧
    startCycle 5#4 true false (wordStart true 0#32 0#33 false) tenWrites = none := by decide
theorem test_ack_hands_over :
    (busCycle { ack := true, tm1 := true, tm0 := true, ad := 0#32 } quietPath (contend [15#4] tenWrites)).1 =
    { tenWrites with master := some 5#4, current := none } := by decide
theorem test_idle_cycle :
    startCycle 10#4 true true (idleStart (wordStart true 0x100#32 0#33 false)) (contend [5#4, 10#4] resetBus) =
    some { tenWrites with master := some 5#4, current := none } := by decide
theorem test_held_bus :
    (startCycle 5#4 true true (wordStart false 0x100#32 0#33 false)
      { resetBus with arb := { wave := [5#4], parked := none, waited := 7 }, master := some 5#4 }).map
      (busCycle { ack := true, tm1 := true, tm0 := true, ad := 9#32 } quietPath) =
    some ({ resetBus with arb := { wave := [5#4], parked := none, waited := 0 }, master := some 5#4 },
      some (.ended .successful [9#32])) := by decide
/-- The bus after the ACK of a snooping read, its owner still sending; board 5 is to go on. -/
def ownerSends : BusState :=
  (busCycle { ack := true, tm1 := true, tm0 := true, ad := 0#32 } { quietPath with vtm0 := true }
    { tenWrites with path := some (.window 7) }).1
theorem test_spurBoard_waits_for_vack :
    ownerSends.path = some (.fromOwner []) ∧
    (startCycle 5#4 true false (wordStart true 0x100#32 0#33 false) ownerSends).isSome = false ∧
    (startCycle 5#4 false false (wordStart true 0x100#32 0#33 false) ownerSends).isSome = true ∧
    (startCycle 5#4 true false (wordStart true 0x100#32 0#33 false)
      (busCycle { ack := false, tm1 := false, tm0 := false, ad := 0#32 } { quietPath with vack := true, vtm0 := true }
        { ownerSends with arb := { wave := [], parked := some 5#4, waited := 0 } }).1).isSome = true := by decide
theorem test_vack_beside_a_start :
    (startCycle 5#4 false false { wordStart true 0x100#32 7#33 false with vtm0 := true, vack := true } ownerSends).map
      BusState.path = some (some (.supplied .clean [7#32])) := by decide
theorem test_snooping_read_opens_path :
    (startCycle 10#4 true false (snoopReadStart 8#27 0x100#38 false) (contend [5#4, 10#4] resetBus)).map BusState.path =
    some (some (.window 0)) := by decide
theorem test_block_read :
    runTransfer (beginTransfer 2)
      [{ ack := false, tm1 := false, tm0 := true, ad := 1#32 }, { ack := true, tm1 := true, tm0 := true, ad := 2#32 }] =
    .ended .successful [1#32, 2#32] := by rfl
theorem test_early_ack :
    runTransfer (beginTransfer 8) [{ ack := true, tm1 := true, tm0 := true, ad := 1#32 }] = .endedEarly := by rfl
theorem test_owner_supplies :
    runSnoop (.window 0)
      ({ vack := false, vtm0 := true, vtm1 := false, vad := 0#33 } :: ownerCycles 0#1 [1#32, 2#32, 3#32] .dirty) =
    .supplied .dirty [1#32, 2#32, 3#32] := by rfl
theorem test_owner_over_memory :
    lineReadEnd (.ended .unspecifiedError []) (.supplied .clean [1#32]) = .data [1#32] false := by rfl

/-! One owner of a line (R109, R112) and the flush (R115) -/

theorem test_owner_elsewhere :
    (let t := outsideEffect (.owns 0x100#33 0x40#27 (Vector.replicate 8 7#32) .clean)
      { virt with cache := [(lineIndex 0x2000#38, { someLine 0x2000#38 with state := .ownedPrivate, blockDirty := true })] }
     (t.cache, t.remote.map (fun p => (p.1, p.2.status)))) = ([], [(0x100, .dirty)]) := by decide
theorem test_replaced_elsewhere :
    (let t := outsideEffect (.disowns 0x100#33) (outsideEffect (.owns 0x100#33 0x40#27 (Vector.replicate 8 7#32) .clean) virt)
     (t.remote, memWord t.mem 0x81C#32)) = ([], 7#32) := by decide
theorem test_snoop_takes_line :
    (let t := outsideEffect (.snoop .readForOwnership 0x2004#38 0x41#27) virt
     (t.cache, t.remote.map (fun p => (p.1, p.2.ptag, p.2.words[0])))) = ([], [(0x100, 0x40#27, 0xDEADBEEF#32)]) := by decide
theorem test_flush_unowned_dirty :
    (match flushLine 0x2004#38
        { virt with cache := [(lineIndex 0x2000#38, { someLine 0x2000#38 with blockDirty := true })] } with
     | .done _ t => (t.cache, memWord t.mem 0x81C#32)
     | .fault _ _ => ([], 0#32)
     | .stuck _ => ([], 0#32)
     | .refused _ => ([], 0#32)) = ([], 0x77#32) := by decide
theorem test_fromFpu_shadow : seen (fun t => t.pc) 0x15301E00
    { phys with fpsw := 0x2421#15, pipe := { Pipe.idle with loadShadow := some (.fpu 15) } } = some 4#32 := by decide

/-! ### Witnesses: states and operands that meet the hypotheses of the statements, clause by clause -/

/-- An outcome that is a next state of which `p` holds. -/
def nextWith (o : Out) (p : State → Bool) : Bool :=
  match o with
  | .next t => p t
  | .fault _ => false
  | .refused _ => false

theorem of_nextWith {o : Out} {p : State → Bool} (h : nextWith o p = true) : ∃ t, o = .next t ∧ p t = true := by
  cases o with
  | next t => exact ⟨t, rfl, h⟩
  | fault f => cases h
  | refused r => cases h

/-- Traps on in user mode. -/
def user : State := { phys with kpsw := 0x1F00#24 }

/-- Kernel mode with all faults and traps off, physical. -/
def quiet : State := { phys with kpsw := 0x10#24 }

/-- `virt` with a pointer register to the cached line. -/
def pointing (v : Tagged) : State := withRegs [(10, v)] virt

/-- The data address 0x2000 or what `a` is, in the line of `virt`. -/
def line0 : Line := someLine 0x2000#38

/-- A readable state whose cached page is clean, or whose protection is `p`. -/
def withLine (l : Line) (s : State) : State := { s with cache := [(lineIndex 0x2000#38, l)] }

/-- Device registers in slot space 1, and a pointer into it. -/
def atDevice (a : Word) : State :=
  withRegs [(10, fix a)]
    { phys with board := { Board.atReset with map := [{ firstPage := 0xF1000, pages := 0x1000, kind := .device }] } }

theorem witness_IllegalOpcodes : decode 0xFFFFFFFF#32 = .error .illegalOpcode ∧
    interruptReady phys = false ∧ kpswAllEn phys = true := ⟨by rfl, by decide, by decide⟩

theorem witness_StepRunsDecoded :
    (let s := withMem [(0#32, 0x51054004#32)] phys
     s.pipe.squash = false ∧ interruptReady s = false ∧ kpswIbEn s = false ∧ kpswVaIfetch s = false ∧
       responder s s.pc = .board .ram ∧ fetch s = .done 0x51054004#32 s ∧
       decode (memWord s.mem s.pc) = .ok (.addNt 16 10 (.imm 4))) :=
  ⟨by decide, by decide, by decide, by decide, by decide, by rfl, by rfl⟩

theorem witness_StepRunsDecoded_last_ram :
    (let s := withMem [(0xEFFFFFFC#32, 0x51054004#32)] { phys with pc := 0xEFFFFFFC#32 }
     responder s s.pc = .board .ram ∧ decode (memWord s.mem s.pc) = .ok (.addNt 16 10 (.imm 4))) :=
  ⟨by decide, by rfl⟩

theorem witness_TickFrame : State.reset.prefetch = none := rfl

theorem witness_SquashedSlotIsSkipped :
    (let s := withMem [(0#32, 0x51054004#32)] { phys with pipe := { Pipe.idle with squash := true } }
     s.pipe.squash = true ∧ fetch s = .done 0x51054004#32 s ∧ prohibitedInSlot 0x51054004#32 = false) :=
  ⟨by decide, by rfl, by decide⟩

theorem witness_SquashedSlotIsSkipped_fault :
    (let s := { phys with pc := 0xF1000000#32, pipe := { Pipe.idle with squash := true } }
     s.pipe.squash = true ∧ fetch s = .fault .busFault s) := ⟨by decide, by rfl⟩

theorem witness_Interrupts : (0xF00FFFFF#32).extractLsb' 28 4 = 0xF#4 ∧
    (0xF00FFFFF#32).extractLsb' 24 4 = State.reset.board.slot ∧ (0xF00FFFFF#32).extractLsb' 20 4 = 0#4 ∧ 31 < 32 := by
  decide

theorem witness_Interrupts_taken :
    (let s := { phys with intreg := 0x80000000#32, intmask := 0xFFFFFFFF#32 }
     s.pipe.squash = false ∧ fetch s = .done 0#32 s ∧ s.intreg &&& s.intmask ≠ 0#32 ∧ kpswIntEn s = true ∧
       kpswAllEn s = true) := ⟨by decide, by rfl, by decide, by decide, by decide⟩

theorem witness_Interrupts_own :
    (let s := withRegs [(10, fix 0xF000003F#32)] phys
     let a : Word := 0xF000003C#32
     a = alignWord (eaStore s 10 0#14) ∧ s.pipe.afterTas = false ∧ kpswVaDfetch s = false ∧
       a.extractLsb' 28 4 = 0xF#4 ∧ a.extractLsb' 24 4 = s.board.slot ∧ a.extractLsb' 20 4 = 0#4) := by decide

/-- A line that another cache shares as its owner, and the copy of it here. -/
def shared : State :=
  { virt with remote := [(lineNumber 0x2000#38,
      { state := .ownedShared, ptag := 0x40#27, status := .dirty, words := (someLine 0x2000#38).words })] }

theorem shared_coherent : Coherent shared.cache shared.remote where
  cache := by decide
  remote := by decide
  owner g l x hl _ hx := by
    simp only [shared, virt, lineGet] at hl hx
    split at hl <;> cases hl
    split at hx <;> cases hx
    exact ⟨rfl, rfl⟩

theorem witness_InvKept : Invariant (withMem [(0#32, 0x51054004#32)] shared) ∧
    ∃ t, step (withMem [(0#32, 0x51054004#32)] shared) = .next t := by
  refine ⟨⟨by decide, shared_coherent, by rfl, by rfl, by rfl, by rfl, by decide, by decide⟩, ?_⟩
  obtain ⟨t, h, -⟩ := of_nextWith (o := step (withMem [(0#32, 0x51054004#32)] shared)) (p := fun _ => true) (by decide)
  exact ⟨t, h⟩

theorem witness_ResetStateAndInv : ∃ s : State, s.mem ≠ [] ∧ s.cache ≠ [] ∧ s.board.slot ≠ 0#4 :=
  ⟨withMem [(0#32, 1#32)] { virt with board := { Board.atReset with slot := 5#4 } }, by decide, by decide, by decide⟩

theorem witness_KernelEntryAtKnownPlace_trap :
    kpswMode user = false ∧ ∃ t, step user = .next t ∧ kpswMode t = true :=
  ⟨by decide, of_nextWith (p := fun t => kpswMode t) (by decide)⟩

theorem witness_KernelEntryAtKnownPlace_call :
    (let s := withMem [(0#32, 0x92000000#32)] { user with cwp := 1#3 }
     kpswMode s = false ∧ ∃ t, step s = .next t ∧ kpswMode t = true) :=
  ⟨by decide, of_nextWith (p := fun t => kpswMode t) (by decide)⟩

theorem witness_UserModeKeepsKpsw : kpswMode user = false ∧ ∃ t, step user = .next t := by
  obtain ⟨t, h, -⟩ := of_nextWith (o := step user) (p := fun _ => true) (by decide)
  exact ⟨by decide, t, h⟩

theorem witness_TrapsArePrecise :
    ∃ t, exec (.cmpTrap 10 0 (.reg 0) 7) phys = .next t ∧ t.pipe.atVector = true :=
  of_nextWith (p := fun t => t.pipe.atVector) (by decide)

theorem witness_MemoryChangesByWriteBack :
    (∀ a b c, Instr.ld32 16 10 (.imm 0) ≠ .st32 a b c) ∧ (∀ a b c, Instr.ld32 16 10 (.imm 0) ≠ .stSgl a b c) ∧
    (∀ a b c, Instr.ld32 16 10 (.imm 0) ≠ .stInt a b c) ∧ ∃ t, exec (.ld32 16 10 (.imm 0)) phys = .next t := by
  obtain ⟨t, h, -⟩ := of_nextWith (o := exec (.ld32 16 10 (.imm 0)) phys) (p := fun _ => true) (by decide)
  exact ⟨fun _ _ _ => Instr.noConfusion, fun _ _ _ => Instr.noConfusion, fun _ _ _ => Instr.noConfusion, t, h⟩

theorem witness_OperandForms : readable phys 31 = true ∧
    readable { phys with pipe := { Pipe.idle with windowShadow := true } } 9 = true ∧ (9#5).toNat < 10 ∧
    phys.pipe.loadShadow = none ∧ phys.pipe.loadShadow ≠ some (.fpu 14) ∧ (14#5 : RegField).toNat < 15 ∧
    branchTarget 0x2000#32 0x1FD#9 = 0x1FF4#32 ∧ alignDouble 0xFFFFFFFF#32 = 0xFFFFFFF8#32 ∧
    globalAddr { phys with gsn := #v[0#8, 0#8, 0#8, 0x2A#8] } 0xFFFFFFFF#32 = 0x0ABFFFFFFF#38 := by decide

theorem witness_WindowsOverlap : (9#5).toNat < 10 ∧ 16 ≤ (25#5).toNat ∧ (25#5).toNat ≤ 25 ∧ 10 ≤ (25#5).toNat ∧
    physReg 7#3 25#5 = physReg 7#3 25#5 ∧ 16 ≤ (16#5).toNat ∧ physReg 0#3 16#5 = physReg 0#3 16#5 := by decide

/-- The walk for `a` gives `pte`, the access goes on, and `p` holds of the state then. -/
def missesWith (s : State) (a : Word) (kind : AccessKind) (pte : Word) (p : State → Bool) : Bool :=
  kpswVaDfetch s && (cacheProbe s (globalAddr s a)).isNone &&
    match walkFirst (vaRef s a) a kind slotBusData with
    | .done e s1 => e == pte && (pteFault s1 pte kind).isNone && memWf s1.mem && p s1
    | .fault _ _ => false
    | .stuck _ => false
    | .refused _ => false

theorem of_missesWith {s : State} {a : Word} {kind : AccessKind} {pte : Word} {p : State → Bool}
    (h : missesWith s a kind pte p = true) : ∃ s1, Misses s s1 a kind pte ∧ p s1 = true := by
  unfold missesWith at h
  cases e : walkFirst (vaRef s a) a kind slotBusData with
  | done v s1 =>
    rw [e] at h
    simp only [Bool.and_eq_true, beq_iff_eq, Option.isNone_iff_eq_none] at h
    obtain ⟨⟨h1, h2⟩, ⟨⟨h3, h4⟩, h5⟩, h6⟩ := h
    exact ⟨s1, ⟨h1, h2, by rw [e, h3], h4, h5⟩, h6⟩
  | fault c t => rw [e] at h; simp at h
  | stuck f => rw [e] at h; simp at h
  | refused r => rw [e] at h; simp at h

/-- What `FillsFromRam` asks, with the displaced line, which is there. -/
def fillsWith (g : GlobalAddr) (pte p : Word) (s1 : State) : Bool :=
  !pteNc pte && (lineGet s1.remote (lineNumber g)).isNone &&
    responder s1 (p.extractLsb' 5 27 ++ 0#5) == .board .ram &&
    match lineGet s1.cache (lineIndex g) with
    | some l => responder s1 (l.ptag ++ 0#5) == .board .ram && mustWriteBack l
    | none => false

theorem of_fillsWith {g : GlobalAddr} {pte p : Word} {s1 : State} (h : fillsWith g pte p s1 = true) :
    FillsFromRam s1 g pte p ∧ ∃ l, displaces s1 g l := by
  unfold fillsWith at h
  cases e : lineGet s1.cache (lineIndex g) with
  | none => rw [e] at h; simp at h
  | some l =>
    rw [e] at h
    simp only [Bool.and_eq_true, Bool.not_eq_true', beq_iff_eq, Option.isNone_iff_eq_none] at h
    obtain ⟨⟨⟨h1, h2⟩, h3⟩, h4, h5⟩ := h
    refine ⟨⟨h1, h2, h3, fun l1 hl => ?_⟩, l, e, h5⟩
    have := hl.1
    rw [e] at this
    cases this
    exact h4

/-- The walk of spec/95_test_vectors.md 2.10, for which a dirty line of another page must leave the cache. -/
def crowded (pte1 : Word) : State :=
  { walkState 0x00200001#32 pte1 with
    cache := [(lineIndex 0x0A80012344#38, { someLine 0x0A00012344#38 with blockDirty := true, state := .ownedPrivate })] }

theorem witness_LoadWord_miss :
    (let s := crowded 0x00345007#32
     writable s 16 = true ∧ s.pipe.afterTas = false ∧ alignWord (sumRC s 1 (.imm 1#14)) = 0x40012344#32 ∧
       ∀ kind ∈ [AccessKind.read, .readOwn, .readAnyway], ∃ s1, Misses s s1 0x40012344#32 kind 0x00345007#32 ∧
         FillsFromRam s1 (globalAddr s 0x40012344#32) 0x00345007#32 (pageAddr 0x00345007#32 0x40012344#32) ∧
         ∃ l, displaces s1 (globalAddr s 0x40012344#32) l) := by
  refine ⟨by decide, by decide, by decide, fun kind hk => ?_⟩
  have h : ∀ kind ∈ [AccessKind.read, .readOwn, .readAnyway],
      missesWith (crowded 0x00345007#32) 0x40012344#32 kind 0x00345007#32
        (fillsWith 0x0A80012344#38 0x00345007#32 0x00345344#32) = true := by decide
  obtain ⟨s1, h1, h2⟩ := of_missesWith (h kind hk)
  exact ⟨s1, h1, of_fillsWith h2⟩

theorem witness_LoadWord_uncached : ∀ kind ∈ [AccessKind.read, .readOwn, .readAnyway],
    ∃ s1, Misses (walkState 0x00200001#32 0x0034500F#32) s1 0x40012344#32 kind 0x0034500F#32 ∧
      (pteNc 0x0034500F#32 && responder s1 (pageAddr 0x0034500F#32 0x40012344#32) == .board .ram) = true := by
  have h : ∀ kind ∈ [AccessKind.read, .readOwn, .readAnyway],
      missesWith (walkState 0x00200001#32 0x0034500F#32) 0x40012344#32 kind 0x0034500F#32
        (fun s1 => pteNc 0x0034500F#32 && responder s1 (pageAddr 0x0034500F#32 0x40012344#32) == .board .ram) = true := by
    decide
  exact fun kind hk => of_missesWith (h kind hk)

theorem witness_LoadWord :
    (let s := withRegs [(10, fix 0xEFFFFFFC#32)] phys
     writable s 16 = true ∧ s.pipe.afterTas = false ∧ physicalRam s (alignWord (sumRC s 10 (.imm 3#14))) = true) ∧
    (let s := pointing (fix 0x201F#32)
     writable s 0 = true ∧ s.pipe.afterTas = false ∧
       cacheHit s (alignWord (sumRC s 10 (.imm 0#14))) line0 false = true) ∧
    (let s := atDevice 0xF1FFFFFF#32
     writable s 16 = true ∧ s.pipe.afterTas = false ∧ kpswVaDfetch s = false ∧
       responder s (alignWord (sumRC s 10 (.imm 0#14))) = .board .device) := by decide

theorem witness_LoadTaggedCached :
    (let s := pointing (tagged 0x201F#32 0x26#8)
     writable s 16 = true ∧ s.pipe.afterTas = false ∧
       cacheHit s (alignDouble (sumRC s 10 (.imm 0#14))) line0 false = true ∧ tagOf (src1 s 10) = 0x26#6) ∧
    (let s := { pointing (fix 0x2000#32) with upsw := 0#6 }
     cacheHit s (alignDouble (sumRC s 10 (.imm 0#14))) line0 false = true ∧ upswTagEn s = false) := by decide

theorem witness_LoadWord_uncachedHit :
    (let l := { line0 with cacheable := false }
     let s := withLine l (pointing (fix 0x201F#32))
     writable s 16 = true ∧ s.pipe.afterTas = false ∧
       uncachedHit s (alignWord (sumRC s 10 (.imm 0#14))) l false = true ∧
       uncachedHit s (alignDouble (sumRC s 10 (.imm 0#14))) l false = true) := by decide

theorem witness_LoadTaggedCached_cxr_miss :
    (let s := { crowded 0x00345007#32 with upsw := 0#6 }
     alignDouble (sumRC s 1 (.imm 0#14)) = 0x40012340#32 ∧ upswTagEn s = false ∧ writable s 16 = true ∧
       ∃ s1, Misses s s1 0x40012340#32 .read 0x00345007#32 ∧
         FillsFromRam s1 0x0A80012340#38 0x00345007#32 0x00345340#32 ∧ ∃ l, displaces s1 0x0A80012340#38 l) := by
  refine ⟨by decide, by decide, by decide, ?_⟩
  obtain ⟨s1, m1, f1⟩ := of_missesWith (s := { crowded 0x00345007#32 with upsw := 0#6 }) (a := 0x40012340#32)
    (kind := .read) (pte := 0x00345007#32) (p := fillsWith 0x0A80012340#38 0x00345007#32 0x00345340#32) (by decide)
  exact ⟨s1, m1, of_fillsWith f1⟩

theorem witness_LoadTaggedCached_miss :
    alignDouble (sumRC (crowded 0x00345007#32) 1 (.imm 0#14)) = 0x40012340#32 ∧
    ∀ kind ∈ [AccessKind.read, .readOwn],
      (∃ s1, Misses (crowded 0x00345007#32) s1 0x40012340#32 kind 0x00345007#32 ∧
        FillsFromRam s1 0x0A80012340#38 0x00345007#32 0x00345340#32 ∧ ∃ l, displaces s1 0x0A80012340#38 l) ∧
      ∃ s1, Misses (walkState 0x00200001#32 0x0034500F#32) s1 0x40012340#32 kind 0x0034500F#32 ∧
        pteNc 0x0034500F#32 = true := by
  refine ⟨by decide, fun kind hk => ?_⟩
  have h1 : ∀ kind ∈ [AccessKind.read, .readOwn],
      missesWith (crowded 0x00345007#32) 0x40012340#32 kind 0x00345007#32
        (fillsWith 0x0A80012340#38 0x00345007#32 0x00345340#32) = true := by decide
  have h2 : ∀ kind ∈ [AccessKind.read, .readOwn],
      missesWith (walkState 0x00200001#32 0x0034500F#32) 0x40012340#32 kind 0x0034500F#32
        (fun _ => pteNc 0x0034500F#32) = true := by decide
  obtain ⟨s1, m1, f1⟩ := of_missesWith (h1 kind hk)
  exact ⟨⟨s1, m1, of_fillsWith f1⟩, of_missesWith (h2 kind hk)⟩

theorem witness_AccessTagTraps :
    (let s := pointing (tagged 0x2000#32 0x28#8)
     writable s 16 = true ∧ s.pipe.afterTas = false ∧
       cacheHit s (alignDouble (sumRC s 10 (.imm 0#14))) line0 false = true ∧ tagOf (src1 s 10) ≠ 0x26#6 ∧
       tagOf (src1 s 10) ≠ 0x27#6 ∧ upswTagEn s = true ∧ kpswAllEn s = true) ∧
    (let s := withRegs [(16, tagged 1#32 0xC0#8)] (pointing (tagged 0x2018#32 0x80#8))
     s.pipe.afterTas = false ∧ cacheHit s (alignDouble (eaStore s 10 0#14)) line0 true = true ∧
       line0.pageDirty = true ∧ (genOf (src1 s 10)).toNat < (genOf (storedReg s 16)).toNat ∧ upswTagEn s = true ∧
       kpswAllEn s = true) := by decide

theorem witness_TestAndSetCached :
    (let s := pointing (fix 0x201C#32)
     writable s 16 = true ∧ s.pipe.afterTas = false ∧
       cacheHit s (alignWord (sumRC s 10 (.imm 0#14))) line0 true = true ∧ line0.pageDirty = true) := by decide

theorem witness_LoadController : writable phys 16 = true ∧ phys.pipe.afterTas = false ∧ (16#5 : RegField) ≠ 0#5 ∧
    ccDecode (sumRC phys 0 (.imm 0x1A0#14)) = .rptm 3#2 2 ∧ 2 * 8 + 3 < 20 ∧
    ccDecode (sumRC phys 0 (.imm 0x1B0#14)) = .gsn 3#2 ∧
    ccDecode (sumRC phys 0 (.imm 0x440#14)) = .pteva 4 ∧ ccDecode (sumRC phys 0 (.imm 0x640#14)) = .rpteva 4 ∧
    4 * 8 + 5 < 38 ∧ ccDecode (sumRC phys 0 (.imm 0x830#14)) = .intmask 3 ∧
    ccDecode (sumRC phys 0 (.imm 0xC30#14)) = .intreg 3 ∧
    ccDecode 0xFFFFF04F#32 = .unlisted ∧ ccDecode 0xFFFFF1AF#32 = .rptm 3#2 2 := by decide

theorem witness_FromFpu : fpuReady phys = true ∧ isFpuField 15 = true ∧ isFpuField 14 = true ∧
    writable phys 16 = true ∧ phys.pipe.loadShadow ≠ some (.fpu 15) ∧
    (let s := { phys with pipe := { Pipe.idle with loadShadow := some (.fpu 15) } }
     fpuReady s = true ∧ isFpuField 15 = true ∧ writable s 16 = true) := by decide

theorem witness_FpuLoads :
    (let s := withRegs [(10, fix 0xEFFFFFFC#32)] phys
     fpuReady s = true ∧ isFpuDataField 14 = true ∧ fpuShadowed s 14 = false ∧ fpuFree s 14 = true ∧
       s.pipe.afterTas = false ∧ physicalRam s (alignWord (sumRC s 10 (.imm 3#14))) = true) ∧
    (let s := pointing (fix 0x201F#32)
     fpuReady s = true ∧ isFpuDataField 0 = true ∧ fpuShadowed s 0 = false ∧ fpuFree s 0 = true ∧
       s.pipe.afterTas = false ∧ cacheHit s (alignWord (sumRC s 10 (.imm 0#14))) line0 false = true ∧
       cacheHit s (alignDouble (sumRC s 10 (.imm 0#14))) line0 false = true) := by decide

theorem witness_StoreWord :
    (let s := withRegs [(10, fix 0xEFFFFFFF#32)] phys
     memWf s.mem = true ∧ s.pipe.afterTas = false ∧ physicalRam s (alignWord (eaStore s 10 0#14)) = true ∧
       fpuReady s = true ∧ isFpuDataField 14 = true ∧ fpuSettled s 14 = true) ∧
    (let s := pointing (fix 0x201F#32)
     s.pipe.afterTas = false ∧ cacheHit s (alignWord (eaStore s 10 0#14)) line0 true = true ∧
       line0.pageDirty = true ∧ fpuReady s = true ∧ isFpuDataField 0 = true ∧ fpuSettled s 0 = true) ∧
    (let s := atDevice 0xF1000000#32
     s.pipe.afterTas = false ∧ kpswVaDfetch s = false ∧
       responder s (alignWord (eaStore s 10 0#14)) = .board .device) := by decide

theorem witness_StoreWord_miss :
    (∃ s1, Misses (crowded 0x00345007#32) s1 0x40012344#32 .write 0x00345007#32 ∧
      FillsFromRam s1 0x0A80012344#38 0x00345007#32 0x00345344#32 ∧ ∃ l, displaces s1 0x0A80012344#38 l) ∧
    (∃ s1, Misses (walkState 0x00200001#32 0x0034500F#32) s1 0x40012344#32 .write 0x0034500F#32 ∧
      (pteNc 0x0034500F#32 && responder s1 (pageAddr 0x0034500F#32 0x40012344#32) == .board .ram) = true) ∧
    alignWord (eaStore (crowded 0x00345007#32) 1 1#14) = 0x40012344#32 ∧ pteDirty 0x00345007#32 = true ∧
    pageAddr 0x00345007#32 0x40012344#32 = 0x00345344#32 ∧
    globalAddr (crowded 0x00345007#32) 0x40012344#32 = 0x0A80012344#38 := by
  obtain ⟨s1, m1, f1⟩ := of_missesWith (s := crowded 0x00345007#32) (a := 0x40012344#32) (kind := .write)
    (pte := 0x00345007#32) (p := fillsWith 0x0A80012344#38 0x00345007#32 0x00345344#32) (by decide)
  exact ⟨⟨s1, m1, of_fillsWith f1⟩, of_missesWith (by decide), by decide, by decide, by decide, by decide⟩

theorem witness_StoreWord_uncachedHit :
    (let l := { line0 with cacheable := false }
     let s := withLine l (pointing (fix 0x201F#32))
     memWf s.mem = true ∧ s.pipe.afterTas = false ∧ l.pageDirty = true ∧
       uncachedHit s (alignWord (eaStore s 10 0#14)) l true = true) := by decide

theorem witness_StoreDoubleCached :
    (let s := withRegs [(16, tagged 1#32 0x80#8)] (pointing (tagged 0x201F#32 0x80#8))
     s.pipe.afterTas = false ∧ cacheHit s (alignDouble (eaStore s 10 0#14)) line0 true = true ∧
       line0.pageDirty = true ∧ (genOf (storedReg s 16)).toNat ≤ (genOf (src1 s 10)).toNat ∧ fpuReady s = true ∧
       isFpuDataField 14 = true ∧ fpuSettled s 14 = true) := by decide

theorem witness_StoreController : phys.pipe.afterTas = false ∧
    ccDecode (eaStore phys 0 0x440#14) = .pteva (37 / 8) ∧ ccDecode (eaStore phys 0 0x640#14) = .rpteva (37 / 8) ∧
    ccDecode (eaStore phys 0 0x400#14) = .pteva (2 / 8) ∧
    ccDecode (eaStore phys 0 0x1A0#14) = .rptm 3#2 (19 / 8) ∧ ccDecode (eaStore phys 0 0x1B0#14) = .gsn 3#2 ∧
    ccDecode (eaStore phys 0 0x830#14) = .intmask (31 / 8) ∧ ccDecode (eaStore phys 0 0xA30#14) = .intclr (31 / 8) ∧
    ccDecode (eaStore phys 0 0xC30#14) = .intreg (31 / 8) ∧ ccDecode (eaStore phys 0 0x450#14) = .unlisted ∧
    phys.pteva.extractLsb' 0 2 = 0#2 ∧ phys.rpteva.extractLsb' 0 2 = 0#2 := by decide

theorem witness_ToFpu : fpuReady phys = true ∧ isFpuField 15 = true ∧ fpuShadowed phys 15 = false ∧
    isFpuField 14 = true ∧ fpuShadowed phys 14 = false ∧ (14#5 : RegField) ≠ 15#5 ∧
    fpuReady { phys with pipe := { Pipe.idle with loadShadow := some (.fpu 15) } } = true := by decide

theorem witness_AddNoTraps : writable phys 0 = true ∧ writable phys 31 = true := by decide

theorem witness_AddSub :
    (let s := withRegs [(17, fix 0x7FFFFFFE#32)] phys
     writable s 16 = true ∧ (src1 s 17).taggen.extractLsb' 4 2 = 0#2 ∧ (rcVal s (.imm 1#14)).taggen.extractLsb' 4 2 = 0#2 ∧
       (src1 s 17).data.toInt + (rcVal s (.imm 1#14)).data.toInt ≤ 2147483647 ∧
       -2147483648 ≤ (src1 s 17).data.toInt + (rcVal s (.imm 1#14)).data.toInt ∧
       (src1 s 17).data.toInt - (rcVal s (.imm 1#14)).data.toInt ≤ 2147483647 ∧
       -2147483648 ≤ (src1 s 17).data.toInt - (rcVal s (.imm 1#14)).data.toInt) := by decide

theorem witness_ArithmeticTraps :
    (let s := withRegs [(17, fix 0x7FFFFFFF#32), (18, fix 0x80000000#32)] phys
     writable s 16 = true ∧ kpswAllEn s = true ∧ upswOvfEn s = true ∧
       2147483647 < (src1 s 17).data.toInt + (rcVal s (.imm 1#14)).data.toInt ∧
       (src1 s 18).data.toInt - (rcVal s (.imm 1#14)).data.toInt < -2147483648) ∧
    (let s := withRegs [(17, tagged 0x7FFFFFFE#32 0x10#8)] phys
     writable s 16 = true ∧ kpswAllEn s = true ∧ upswTagEn s = true ∧ (src1 s 17).taggen.extractLsb' 4 2 ≠ 0#2 ∧
       (src1 s 17).data.toInt + (rcVal s (.imm 1#14)).data.toInt ≤ 2147483647 ∧
       -2147483648 ≤ (src1 s 17).data.toInt + (rcVal s (.imm 1#14)).data.toInt) ∧
    (let s := { withRegs [(17, tagged 0x7FFFFFFF#32 0x26#8)] phys with upsw := 0x20#6 }
     writable s 16 = true ∧ kpswAllEn s = true ∧ upswTagEn s = true ∧ upswOvfEn s = false ∧
       (src1 s 17).taggen.extractLsb' 4 2 ≠ 0#2 ∧
       2147483647 < (src1 s 17).data.toInt + (rcVal s (.imm 1#14)).data.toInt) := by decide

theorem witness_LogicAndShift : writable phys 16 = true ∧ (src1 phys 17).taggen.extractLsb' 4 2 = 0#2 ∧
    (rcVal phys (.imm 3#14)).taggen.extractLsb' 4 2 = 0#2 := by decide

theorem witness_TagAndByteOps : writable phys 16 = true := by decide

theorem witness_ReadSpecial :
    (let s := { phys with pipe := { Pipe.idle with atVector := true } }
     writable s 16 = true ∧ s.pipe.atVector = true ∧ s.pipe.cwpShadow = false) := by decide

theorem witness_WriteSpecial : phys.pipe.slotOfTrue = false := rfl

theorem witness_WriteKpsw : (kpswMode phys = true ∧ phys.pipe.retPend = none) ∧
    (kpswMode user = false ∧ kpswAllEn user = true) ∧
    kpswMode { user with kpsw := 0#24 } = false ∧ kpswAllEn { user with kpsw := 0#24 } = false := by decide

theorem witness_SyncAndInvalidate : noFpuTrap phys = true ∧
    (let s := { phys with fpuExcep := true }
     s.fpuExcep = true ∧ upswFpuEn s = true ∧ kpswAllEn s = true ∧ s.fpuExcKind = .floatingPoint) ∧
    (let s := { phys with fpuExcep := true, fpuExcKind := .integerOverflow }
     s.fpuExcep = true ∧ upswFpuEn s = true ∧ kpswAllEn s = true ∧ s.fpuExcKind = .integerOverflow ∧
       upswOvfEn s = true) ∧
    (let s := { phys with upsw := 0x28#6, fpuExcep := true, fpuExcKind := .integerOverflow }
     s.fpuExcep = true ∧ upswFpuEn s = true ∧ kpswAllEn s = true ∧ s.fpuExcKind = .integerOverflow ∧
       upswOvfEn s = false) ∧
    upswFpuEn { phys with upsw := 0#6 } = false ∧ kpswAllEn State.reset = false ∧ phys.fpuExcep = false ∧
    kpswIbEn phys = false := by decide

theorem witness_SyncAndInvalidate_ready :
    (let t := { phys with kpsw := 0x1F12#24, pipe := { Pipe.idle with ready := some 5#32 } }
     t.pipe.ready = some 5#32 ∧ fetch t = .done 5#32 t) := ⟨by decide, by rfl⟩

theorem witness_Conditions :
    (let a := tagged 5#32 0x78#8
     let b := tagged 6#32 0xB8#8
     dataCond 0x0C#5 a b = some true ∧ dataCond 0x0E#5 a b = some false ∧ dataCond 0x1E#5 a b = some false ∧
       dataExc 0x1E#5 a b = some .eqlTag ∧ dataExc 0x1F#5 a b = some .eqlTag ∧ dataExc 0x0F#5 a b = none ∧
       dataExc 0x09#5 a b = some .fixnumOrChar ∧ dataExc 0x0A#5 a b = none) ∧
    dataExc 0x1E#5 (tagged 5#32 0x37#8) (tagged 6#32 0x37#8) = none ∧
    dataExc 0x1E#5 (tagged 5#32 0x3F#8) (tagged 6#32 0x3F#8) = some .eqlTag ∧
    16 ≤ (0x10#5).toNat ∧ (0x1D#5).toNat ≤ 0x1D ∧ dataCond 0x10#5 zeroTagged zeroTagged = none ∧
    tagCond 0x1C#5 0x26#6 0x26#6 = some true ∧ tagCond 0x1E#5 0#6 0#6 = none ∧
    tagExc 0x1D#5 (tagged 0#32 0x25#8) = some .consOrNil ∧ tagExc 0x1D#5 (tagged 0#32 0xE6#8) = none := by decide

theorem witness_CompareBranch : dataCond 0x09#5 (src1 phys 1) (ccVal phys (.imm 31#5)) = some true ∧
    dataExc 0x09#5 (src1 phys 1) (ccVal phys (.imm 31#5)) = none ∧
    dataCond 0x1F#5 (src1 phys 1) (ccVal phys (.imm 0#5)) = some false ∧
    dataExc 0x1F#5 (src1 phys 1) (ccVal phys (.imm 0#5)) = none ∧
    tagCond 0x0D#5 (tagOf (src1 phys 1)) 0#6 = some false ∧ tagExc 0x0D#5 (src1 phys 1) = none := by decide

theorem witness_CompareTraps :
    (dataCond 0x0A#5 (src1 phys 1) (ccVal phys (.imm 0#5)) = some true ∧
      dataExc 0x0A#5 (src1 phys 1) (ccVal phys (.imm 0#5)) = none ∧
      tagCond 0x0C#5 (tagOf (src1 phys 1)) 0#6 = some true ∧ tagExc 0x0C#5 (src1 phys 1) = none) ∧
    (let s := withRegs [(16, tagged 1#32 0x38#8), (17, tagged 2#32 0x38#8)] phys
     upswTagEn s = true ∧ kpswAllEn s = true ∧
       dataExc 0x1E#5 (src1 s 16) (ccVal s (.reg 17)) = some .eqlTag ∧
       dataExc 0x00#5 (src1 s 16) (ccVal s (.reg 17)) = some .fixnumOrChar ∧
       tagExc 0x1C#5 (src1 s 16) = some .consOrNil) ∧
    (let s := withRegs [(16, tagged 1#32 0x38#8), (17, tagged 2#32 0x38#8)] { phys with kpsw := 0x0F10#24 }
     upswTagEn s = true ∧ kpswAllEn s = false ∧ dataExc 0x1E#5 (src1 s 16) (ccVal s (.reg 17)) = some .eqlTag ∧
       dataCond 0x1E#5 (src1 s 16) (ccVal s (.reg 17)) = some false ∧
       tagCond 0x1C#5 (tagOf (src1 s 16)) 0#6 = some false ∧ tagExc 0x1C#5 (src1 s 16) = some .consOrNil) := by decide

theorem witness_FpCompareBranch : fpuReady phys = true ∧ noFpuTrap phys = true ∧ isFpuDataField 0 = true ∧
    isFpuDataField 14 = true ∧ classify (readFpu phys slotFp1 0) = some (.zero false) ∧
    classify (readFpu phys slotFp2 14) = some (.zero false) ∧ FpVal.zero false ≠ .unknown ∧
    isDenorm (.zero false) = false ∧ isDenorm (.denorm false 1#64) = true ∧ FpVal.denorm false 1#64 ≠ .unknown := by
  decide

theorem witness_RelationIsOrder : FpVal.zero true ≠ .unknown ∧ FpVal.qnan true 0#64 ≠ .unknown := by decide

theorem witness_RelationIsOrder_value : ∃ x : ℚ,
    x = (if true then -1 else 1) * (((1#64 : BitVec 64).toNat : ℕ) : ℚ) * (2 : ℚ) ^ ((63 : ℤ) - 63) ∧ x < 0 := by
  refine ⟨_, rfl, ?_⟩
  norm_num

theorem witness_Calls :
    (let s := { phys with cwp := 1#3 }
     s.pipe.slotOfTrue = false ∧ s.pipe.loadShadow ≠ some (.int (physReg (s.cwp + 1#3) 10#5)) ∧
       windowOverflow s = false ∧ s.pipe.retPend = none) := by decide

theorem witness_Returns :
    (let s := { phys with cwp := 1#3 }
     s.pipe.slotOfTrue = false ∧ windowUnderflow s = false) := by decide

theorem witness_WindowTraps :
    (let s := { phys with cwp := 6#3 }
     s.pipe.slotOfTrue = false ∧ s.pipe.loadShadow ≠ some (.int (physReg (s.cwp + 1#3) 10#5)) ∧ kpswWinEn s = true ∧
       kpswAllEn s = true ∧ windowOverflow s = true ∧ s.board.windowTests = .ofSwp) ∧
    windowUnderflow phys = true := by decide

theorem witness_FpArithmetic : fpuOpReady phys 14 = true ∧ isFpuDataField 0 = true ∧ isFpuDataField 14 = true ∧
    classify (readFpu phys slotFp1 0) = some (.zero false) ∧
    classify (readFpu phys slotFp2 14) = some (.zero false) ∧
    (∀ v ∈ [FpVal.zero false, .inf true, .norm true (-65535) 0x8000000000000000#64, .qnan false 0#64, .snan false 0#64],
      v ≠ .unknown ∧ isDenorm v = false) ∧
    isDenorm (.denorm true 1#64) = true ∧ isSNaN (.snan false 0#64) = true ∧ isQNaN (.qnan false 0#64) = true ∧
    (0x8000000000000000#64).getLsbD 63 = true ∧ (-65535 : Int) ≤ 65536 := by decide

theorem witness_FpUnary : fpuOpReady phys 14 = true ∧ isFpuDataField 0 = true ∧
    (readFpu phys slotFp1 0).image = false ∧ (readFpu phys slotFp1 0).frac.extractLsb' 0 32 = 0#32 ∧
    classify (readFpu phys slotFp1 0) = some (.zero false) := by decide

theorem witness_RoundingIsCorrect : ∃ (r : Rounded) (x v ulp : ℚ), 0 < 1 ∧ 0 < 3 ∧ 2 ≤ 2 ∧
    r = roundMag true 1 3 0 2 0#2 ∧ x = ((1 : ℕ) : ℚ) / ((3 : ℕ) : ℚ) * (2 : ℚ) ^ (0 : ℤ) ∧
    ulp = (2 : ℚ) ^ (r.exp - ((2 : ℕ) : ℤ) + 1) ∧ v = (r.sig : ℚ) * ulp :=
  ⟨_, _, _, _, by decide, by decide, by decide, rfl, rfl, rfl, rfl⟩

theorem witness_ResultIsRoundedExactValue : ∃ x y : ℚ, (1#64 : BitVec 64) ≠ 0#64 ∧
    x = (if false then -1 else 1) * (((1#64 : BitVec 64).toNat : ℕ) : ℚ) * (2 : ℚ) ^ ((63 : ℤ) - 63) ∧
    y = (if true then -1 else 1) * (((1#64 : BitVec 64).toNat : ℕ) : ℚ) * (2 : ℚ) ^ ((63 : ℤ) - 63) ∧ x + y = 0 := by
  refine ⟨_, _, by decide, rfl, rfl, ?_⟩
  norm_num

theorem witness_ResultIsRoundedExactValue_nonzero : ∃ x y : ℚ,
    x = (if false then -1 else 1) * (((1#64 : BitVec 64).toNat : ℕ) : ℚ) * (2 : ℚ) ^ ((63 : ℤ) - 63) ∧
    y = (if false then -1 else 1) * (((1#64 : BitVec 64).toNat : ℕ) : ℚ) * (2 : ℚ) ^ ((63 : ℤ) - 63) ∧ x + y ≠ 0 := by
  refine ⟨_, _, rfl, rfl, ?_⟩
  norm_num

theorem witness_ResultIsRoundedExactValue_range :
    (let r := roundMag true 1 3 0 fmtSingle.prec (phys.fpsw.extractLsb' 0 2)
     0 < 1 ∧ 0 < 3 ∧ 2 ≤ fmtSingle.prec ∧ fmtExtended.prec ≤ 64 ∧ -65535 ≤ r.exp ∧ r.exp ≤ 65536) := by decide

theorem witness_IntegerConversion : (0x80000000#32 : Word) ≠ 0#32 ∧
    classify (intToFp phys 0x80000000#32) = some (.norm true 31 0x8000000000000000#64) := by decide

theorem witness_IntegerConversion_round :
    (fixResult phys (.norm true 31 0x8000000000000000#64)).reg.frac = 0x8000000000000000#64 ∧
    (fixResult phys (.norm false 31 0x8000000000000000#64)).flags.overflow = true ∧
    (fixResult { phys with fpsw := 1#15 } (.norm true 1 0xA000000000000000#64)).reg.frac = 0xFFFFFFFE00000000#64 ∧
    (fixResult phys (.norm true 1 0xA000000000000000#64)).flags.inexact = true := by decide

theorem witness_FpuTraps :
    (let s := { phys with fpuExcep := true }
     fpuReady s = true ∧ s.fpuExcep = true ∧ upswFpuEn s = true ∧ kpswAllEn s = true ∧
       s.fpuExcKind = .floatingPoint) ∧
    (let s := { phys with fpuExcep := true, fpuExcKind := .integerOverflow }
     fpuReady s = true ∧ s.fpuExcep = true ∧ upswFpuEn s = true ∧ kpswAllEn s = true ∧
       s.fpuExcKind = .integerOverflow ∧ upswOvfEn s = true) ∧
    (let s := { phys with upsw := 0x3C#6 }
     upswFpuIllegal s = true ∧ kpswAllEn s = true) ∧
    (let s := { phys with board := { Board.atReset with fpuPresent := false } }
     s.board.fpuPresent = false ∧ kpswAllEn s = true) := by decide

theorem witness_TrapEntry : phys.fpuExcep = false ∧ noFpuTrap { phys with fpuExcep := true } = false ∧
    (let s := { phys with fpuExcep := true, fpuExcKind := .integerOverflow }
     noFpuTrap s = false ∧ s.fpuExcKind = .integerOverflow) := by decide

theorem witness_FaultTraps :
    (kpswAllEn phys && (if FaultCause.busFault = .busFault then kpswErrEn phys else kpswFltEn phys)) = true ∧
    (kpswAllEn quiet && (if FaultCause.dirtyTrap = .busFault then kpswErrEn quiet else kpswFltEn quiet)) = false := by
  decide

theorem witness_AccessFaults :
    (let s := withLine { line0 with prot := 0#2 } { pointing (fix 0x2000#32) with kpsw := 0x1F04#24 }
     kpswAllEn s = true ∧ kpswFltEn s = true ∧ s.pipe.afterTas = false ∧ kpswVaDfetch s = true ∧
       writable s 16 = true ∧
       cacheProbe s (globalAddr s (alignWord (sumRC s 10 (.imm 0#14)))) = some { line0 with prot := 0#2 } ∧
       permits s 0#2 false = false) ∧
    (let s := withLine { line0 with pageDirty := false } (pointing (fix 0x2000#32))
     kpswAllEn s = true ∧ kpswFltEn s = true ∧ s.pipe.afterTas = false ∧ kpswVaDfetch s = true ∧
       cacheProbe s (globalAddr s (alignWord (eaStore s 10 0#14))) = some { line0 with pageDirty := false } ∧
       permits s line0.prot true = true) ∧
    (let s := withRegs [(10, fix 0xF1000000#32)] phys
     kpswAllEn s = true ∧ kpswErrEn s = true ∧ s.pipe.afterTas = false ∧ kpswVaDfetch s = false ∧
       writable s 16 = true ∧ responder s (alignWord (sumRC s 10 (.imm 0#14))) = .nobody ∧
       responder s (alignWord (eaStore s 10 0#14)) = .nobody) := by decide

/-- A line of page table entries that another cache owns. -/
def owner (st : VackStatus) : RemoteLine :=
  { state := .ownedPrivate, ptag := 0x0010002#27, status := st, words := Vector.replicate 8 0x00345007#32 }

/-- That line at the page table entries of the walk of spec/95_test_vectors.md 2.10. -/
def withOwner (st : VackStatus) (s : State) : State :=
  { s with remote := [(lineNumber 0x0C12A00048#38, owner st)] }

theorem witness_TableWalk :
    (let s := vaRef (walkState 0x00200001#32 0x00345007#32) 0x40012344#32
     cacheProbe s s.pteva = none ∧ s.pteva.extractLsb' 0 2 = 0#2 ∧ cacheProbe s (pteRefLatch s).rpteva = none ∧
       lineGet s.cache (lineIndex s.pteva) = none ∧
       responder s ((s.rptm[1]) ++ s.pteva.extractLsb' 12 10 ++ 0#2) = .board .ram ∧
       memWord s.mem ((s.rptm[1]) ++ s.pteva.extractLsb' 12 10 ++ 0#2) = 0x00200001#32 ∧
       ptePresent 0x00200001#32 = true ∧ lineGet s.remote (lineNumber s.pteva) = none ∧
       responder s ((ptePpn 0x00200001#32 ++ s.pteva.extractLsb' 0 12).extractLsb' 5 27 ++ 0#5) =
         .board .ram) ∧
    (let s := vaRef (walkState 0x00200000#32 0x00345007#32) 0x40012344#32
     memWord s.mem ((s.rptm[1]) ++ s.pteva.extractLsb' 12 10 ++ 0#2) = 0x00200000#32 ∧
       ptePresent 0x00200000#32 = false) ∧
    (let s := vaRef (withOwner .clean (walkState 0x00200001#32 0x00345007#32)) 0x40012344#32
     lineGet s.remote (lineNumber s.pteva) = some (owner .clean) ∧ VackStatus.clean ≠ .unspecifiedError) ∧
    (let s := vaRef (withOwner .unspecifiedError (walkState 0x00200001#32 0x00345007#32)) 0x40012344#32
     lineGet s.remote (lineNumber s.pteva) = some (owner .unspecifiedError)) := by decide

theorem witness_TableWalk_checks :
    ptePresent 0#32 = false ∧ AccessKind.read ≠ .readAnyway ∧
    ptePresent 0x3#32 = true ∧ permits user (pteProt 0x3#32) (kindWrites .read) = false ∧
    permits phys (pteProt 0x21#32) (kindWrites .write) = true ∧ pteRef 0x21#32 = false ∧
    permits phys (pteProt 0x2B#32) (kindWrites .write) = true ∧ pteRef 0x2B#32 = true ∧ pteNc 0x2B#32 = true ∧
    kindWrites .write = true ∧ pteDirty 0x2B#32 = false ∧ pteDirty 0x2F#32 = true ∧ kindWrites .read = false := by
  decide

theorem witness_StopsByName :
    (fpuReady phys = true ∧ isFpuDataField 15 = false) ∧ isDataCond 0x1D#5 = false ∧ isTagCond 0x1E#5 = false ∧
    (let s := { phys with pipe := { Pipe.idle with loadShadow := some (.int (physReg 0#3 31#5)) } }
     (31#5 : RegField) ≠ 0#5 ∧ s.pipe.loadShadow = some (.int (physReg s.cwp 31#5))) ∧
    (let s := { phys with pipe := { Pipe.idle with slotOfTrue := true } }
     s.pipe.slotOfTrue = true) ∧
    (let s := { phys with pipe := { Pipe.idle with afterTas := true } }
     s.pipe.afterTas = true ∧ writable s 16 = true) := by decide

end Sys2Proof.Tests
end

/-! Proofs of the family spec/10_state.md: register zero and the windows, the end of a step, the invariant, reset. -/

namespace Sys2Proof.Proofs.NodeState

open Sys2Proof Sys2Proof.Machine Sys2Proof.Safety Sys2Proof.Laws

/-! ### Registers (R22, R23) -/

/-- R0 is never under a shadow (R171, R288). -/
@[simp] theorem regShadowed_zero (s : State) : regShadowed s 0#5 = false := rfl

@[simp] theorem regVal_zero (s : State) : regVal s 0#5 = zeroTagged := rfl

@[simp] theorem readReg_zero (s : State) (slot : Nat) : readReg s slot 0#5 = zeroTagged := by
  simp [readReg]

@[simp] theorem writeReg_zero (s : State) (v : Tagged) : writeReg s 0#5 v = s := rfl

/-- Settles O14: R0 is never shadowed, and the model tests for it in reads and writes. -/
theorem registerZero : Obligations.RegisterZero :=
  fun s slot v => ⟨readReg_zero s slot, writeReg_zero s v⟩

theorem physReg_global (w : BitVec 3) {i : RegField} (h : i.toNat < 10) : physReg w i = .global i := by
  simp [physReg, h]

theorem physReg_window (w : BitVec 3) {i : RegField} (h : 10 ≤ i.toNat) : physReg w i = .window (winIndex w i) := by
  simp [physReg, show ¬ i.toNat < 10 by omega]

/-- Window `w` begins at entry `16 * w` of the ring of 128, with R10. -/
theorem winIndex_toNat (w : BitVec 3) {i : RegField} (h : 10 ≤ i.toNat) :
    (winIndex w i).toNat = (16 * w.toNat + (i.toNat - 10)) % 128 := by
  have hi := i.isLt
  have start : (w ++ 0#4).toNat = 16 * w.toNat := by
    rw [BitVec.toNat_append, Nat.shiftLeft_eq]
    simp [Nat.mul_comm]
  simp only [winIndex, BitVec.toNat_add, BitVec.toNat_sub, BitVec.toNat_setWidth, BitVec.toNat_ofNat, start]
  omega

/-- Two fields of a window's own 22 registers, in whatever windows, name one register exactly where their places in the
ring agree. -/
theorem physReg_window_eq_iff (w v : BitVec 3) {i j : RegField} (hi : 10 ≤ i.toNat) (hj : 10 ≤ j.toNat) :
    physReg w i = physReg v j ↔
      (16 * w.toNat + (i.toNat - 10)) % 128 = (16 * v.toNat + (j.toNat - 10)) % 128 := by
  rw [physReg_window w hi, physReg_window v hj, PhysReg.window.injEq, ← BitVec.toNat_inj, winIndex_toNat w hi,
    winIndex_toNat v hj]

/-- R26 to R31 are R10 to R15 of the next window, which after window 7 is window 0. -/
theorem physReg_outputs (w : BitVec 3) (k : Fin 6) :
    physReg w (BitVec.ofNat 5 (26 + k)) = physReg (w + 1#3) (BitVec.ofNat 5 (10 + k)) := by
  have hk := k.isLt
  have hout : (BitVec.ofNat 5 (26 + k)).toNat = 26 + k := by simp; omega
  have hin : (BitVec.ofNat 5 (10 + k)).toNat = 10 + k := by simp; omega
  rw [physReg_window_eq_iff w _ (by omega) (by omega), hout, hin, BitVec.toNat_add]
  simp only [BitVec.toNat_ofNat]
  omega

theorem physReg_injective (w : BitVec 3) {i j : RegField} (h : physReg w i = physReg w j) : i = j := by
  rcases Nat.lt_or_ge i.toNat 10 with hi | hi <;> rcases Nat.lt_or_ge j.toNat 10 with hj | hj
  · rw [physReg_global w hi, physReg_global w hj] at h
    exact PhysReg.global.inj h
  · rw [physReg_global w hi, physReg_window w hj] at h
    cases h
  · rw [physReg_window w hi, physReg_global w hj] at h
    cases h
  · rw [physReg_window_eq_iff w w hi hj] at h
    have := i.isLt
    have := j.isLt
    exact BitVec.eq_of_toNat_eq (by omega)

/-- The locals R16 to R25 are in no other window: the neighbours share only the first and the last six. -/
theorem physReg_local {w v : BitVec 3} {i j : RegField} (hlo : 16 ≤ i.toNat) (hhi : i.toNat ≤ 25)
    (hj : 10 ≤ j.toNat) (h : physReg w i = physReg v j) : w = v ∧ i = j := by
  rw [physReg_window_eq_iff w v (by omega) hj] at h
  have := w.isLt
  have := v.isLt
  have := j.isLt
  exact ⟨BitVec.eq_of_toNat_eq (by omega), BitVec.eq_of_toNat_eq (by omega)⟩

/-- Settles O16, by where each field of a window lies in the ring of 128 registers. -/
theorem windowsOverlap : Obligations.WindowsOverlap :=
  ⟨physReg_outputs, fun w _ _ => physReg_injective w,
    fun w v _ h => (physReg_global w h).trans (physReg_global v h).symm,
    fun _ _ _ _ => physReg_local⟩

/-! ### The end of a step (R61, R62, R309) -/

/-- A prefetch touches the buffer, its own position and the latches of a virtual access. -/
theorem prefetchStep_only (s : State) :
    prefetchStep s = { s with ib := (prefetchStep s).ib, prefetch := (prefetchStep s).prefetch,
                              gva := (prefetchStep s).gva, pteva := (prefetchStep s).pteva } := by
  unfold prefetchStep
  split
  · rfl
  · split
    · dsimp only
      split
      · split <;> rfl
      · rfl
    · rfl

theorem prefetchStep_of_none {s : State} (h : s.prefetch = none) : prefetchStep s = s := by
  simp only [prefetchStep, h]

theorem fpuTick_only (s : State) : fpuTick s = { s with fpuRun := (fpuTick s).fpuRun } := by
  unfold fpuTick
  split <;> rfl

theorem fpuTick_of_idle {s : State} (h : s.fpuRun = none) : fpuTick s = s := by
  simp only [fpuTick, h]

/-- All that the end of a step can change. -/
theorem tick_only (s : State) :
    tick s = { s with ib := (tick s).ib, prefetch := (tick s).prefetch, gva := (tick s).gva, pteva := (tick s).pteva,
                      fpuRun := (tick s).fpuRun, counter0 := (tick s).counter0, counter1 := (tick s).counter1,
                      past := fetchView (tick s) :: s.past } := by
  have h : fpuTick (prefetchStep s) =
      { s with ib := (prefetchStep s).ib, prefetch := (prefetchStep s).prefetch, gva := (prefetchStep s).gva,
               pteva := (prefetchStep s).pteva, fpuRun := (fpuTick (prefetchStep s)).fpuRun } :=
    (fpuTick_only _).trans
      (congrArg (fun t : State => { t with fpuRun := (fpuTick (prefetchStep s)).fpuRun }) (prefetchStep_only s))
  unfold tick
  rw [h]
  rfl

theorem tick_fpuRun_of_idle {s : State} (h : s.fpuRun = none) : (tick s).fpuRun = none := by
  have idle : (prefetchStep s).fpuRun = none := (congrArg State.fpuRun (prefetchStep_only s)).trans h
  exact (congrArg State.fpuRun (fpuTick_of_idle idle)).trans idle

/-- With no prefetch under way only the FPU, the counters and the views move. -/
theorem tick_of_no_prefetch {s : State} (h : s.prefetch = none) :
    KeepsLatches s (tick s) ∧ (tick s).ib = s.ib ∧ (tick s).prefetch = none := by
  have e : tick s = recordView (countEvents { s with fpuRun := (fpuTick s).fpuRun }) := by
    rw [← fpuTick_only, tick, prefetchStep_of_none h]
  rw [e]
  exact ⟨⟨rfl, rfl⟩, rfl, h⟩

/-- Settles O5: every field named is one that `tick_only` leaves alone. -/
theorem tickFrame : Obligations.TickFrame := by
  intro s
  have kept {α : Type} (f : State → α) := congrArg f (tick_only s)
  refine ⟨keepsRegs_nil (kept State.globals) (kept State.windows) [],
    ⟨kept State.upsw, kept State.swp, kept State.insert⟩, ⟨kept State.trapPC, kept State.trapNextPC⟩,
    ⟨fun a => kept (fun t => memGet t.mem a), fun k => kept (fun t => lineGet t.cache k),
      fun k => kept (fun t => lineGet t.remote k)⟩,
    kept State.pc, kept State.nextPC, kept State.kpsw, kept State.cwp, kept State.pipe, kept State.fregs,
    kept State.fpsw, kept State.fpuPc, kept State.fpuExcep, kept State.gsn, kept State.rptm, kept State.rpteva,
    kept State.intreg, kept State.intmask, kept State.fpuExcKind, kept State.fpuBrTF, kept State.board,
    kept State.faultInfo, kept State.past, tick_fpuRun_of_idle, tick_of_no_prefetch⟩

/-! ### The invariant: what reset, a step and an event make of it -/

/-- Empty caches are coherent. -/
theorem coherent_nil : Coherent [] [] where
  cache := rfl
  remote := rfl
  owner := fun _ _ _ h => nomatch h

theorem invariant_reset : Invariant State.reset where
  memory := reset_memory
  lines := coherent_nil
  pc := rfl
  nextPC := rfl
  trapPC := rfl
  trapNextPC := rfl
  pteva := rfl
  rpteva := rfl

/-- The registers of which R67 says nothing are any value; the addresses among them are still word addresses. -/
theorem invariant_systemReset {s : State} (h : memWf s.mem = true) : Invariant (systemReset s) where
  memory := h
  lines := coherent_nil
  pc := low2_append _
  nextPC := aligned_add4 (low2_append _)
  trapPC := low2_append _
  trapNextPC := low2_append _
  pteva := low2_append _
  rpteva := low2_append _

/-- An event that reaches only memory, the lines and INTREG leaves the addresses and the latches as they are. -/
theorem invariant_of_only {s t : State} (hi : Invariant s)
    (only : t = { s with mem := t.mem, cache := t.cache, remote := t.remote, intreg := t.intreg })
    (memory : memWf t.mem = true) (lines : Coherent t.cache t.remote) : Invariant t := by
  rw [only]
  exact ⟨memory, lines, hi.pc, hi.nextPC, hi.trapPC, hi.trapNextPC, hi.pteva, hi.rpteva⟩

theorem invariant_masterWrite {s : State} (hi : Invariant s) (a : Word) (bs : List Byte) :
    Invariant (masterWrite a bs s) := by
  obtain ⟨only, memory⟩ := masterWrite_only a bs s
  refine invariant_of_only hi (by rw [only]) (memory hi.memory) ?_
  rw [only]
  exact hi.lines

theorem invariant_snooped {s : State} (hi : Invariant s) (op : SnoopOp) (g : GlobalAddr) (block : BitVec 27) :
    Invariant (snooped op g block s) := by
  obtain ⟨only, lines⟩ := snooped_only op g block s
  refine invariant_of_only hi (by rw [only]) ?_ (lines hi.lines)
  rw [only]
  exact hi.memory

theorem invariant_ownedElsewhere {s : State} (hi : Invariant s) (g : GlobalAddr) (r : RemoteLine) :
    Invariant (ownedElsewhere s g r) := by
  obtain ⟨only, lines⟩ := ownedElsewhere_only s g r
  refine invariant_of_only hi (by rw [only]) ?_ (lines hi.lines)
  rw [only]
  exact hi.memory

theorem invariant_replacedElsewhere {s : State} (hi : Invariant s) (g : GlobalAddr) :
    Invariant (replacedElsewhere g s) := by
  obtain ⟨only, memory, lines⟩ := replacedElsewhere_only g s
  refine invariant_of_only hi (by rw [only]) (memory hi.memory) ?_
  rw [only]
  exact lines hi.lines

theorem invariant_outsideEffect {s : State} (hi : Invariant s) (e : OutsideEvent) :
    Invariant (outsideEffect e s) := by
  cases e with
  | write a bs => exact invariant_masterWrite hi a bs
  | snoop op g block => exact invariant_snooped hi op g block
  | owns n block ws st => exact invariant_ownedElsewhere hi _ _
  | disowns n => exact invariant_replacedElsewhere hi _
  | systemReset => exact invariant_systemReset hi.memory
  | busReset => exact hi

/-- The views of the past are no part of the invariant. -/
theorem invariant_recordView {s : State} (hi : Invariant s) : Invariant (recordView s) :=
  ⟨hi.memory, hi.lines, hi.pc, hi.nextPC, hi.trapPC, hi.trapNextPC, hi.pteva, hi.rpteva⟩

theorem invariant_ticked {s t : State} (hi : Invariant s) (h : Ticked s t) : Invariant t where
  memory := h.mem ▸ hi.memory
  lines := h.cache ▸ h.remote ▸ hi.lines
  pc := h.pc ▸ hi.pc
  nextPC := h.nextPC ▸ hi.nextPC
  trapPC := h.trapPC ▸ hi.trapPC
  trapNextPC := h.trapNextPC ▸ hi.trapNextPC
  pteva := h.pteva hi.pteva
  rpteva := h.rpteva ▸ hi.rpteva

/-- A step is the fetch, the instruction or its trap, and the end of the step: each keeps the invariant. -/
theorem invariant_step {s t : State} (hi : Invariant s) (h : step s = .next t) : Invariant t := by
  obtain ⟨t0, ticked, u, fetched, b, ended⟩ := step_inst h
  have afterFetch : Invariant u := invariant_trapReady hi fetched
  have afterInstr : Invariant t0 := invariant_instrEnd afterFetch ended
  exact invariant_ticked afterInstr ticked

/-- Settles O9: a step in its three parts, an event by its kind. -/
theorem invKept : Obligations.InvKept :=
  ⟨fun _ _ => invariant_step, fun e _ hi => invariant_recordView (invariant_outsideEffect hi e)⟩

/-! ### Reset (R67, R390, D10) -/

theorem afterReset_reset : AfterReset State.reset where
  kernel := rfl
  physical := ⟨rfl, rfl⟩
  trapsOff := ⟨rfl, rfl, rfl, rfl, rfl⟩
  bufferOff := ⟨rfl, rfl⟩
  buffer := by decide
  fpuIdle := ⟨rfl, rfl⟩
  cache := rfl
  interrupts := ⟨rfl, rfl⟩
  upsw := rfl
  cwp := rfl
  pipe := rfl
  nextPC := rfl

/-- A bit of KPSW that R67 gives a value is 1 after a System Reset exactly if it is `mode`. -/
theorem systemReset_kpsw_bit (s : State) (n : Nat) (hn : resetKpswMask.getLsbD n = true) :
    (systemReset s).kpsw.getLsbD n = decide (n = 4) := resetKpsw_bits s n hn

theorem afterReset_systemReset (s : State) : AfterReset (systemReset s) where
  kernel := systemReset_kpsw_bit s 4 rfl
  physical := ⟨systemReset_kpsw_bit s 3 rfl, systemReset_kpsw_bit s 2 rfl⟩
  trapsOff := ⟨systemReset_kpsw_bit s 12 rfl, systemReset_kpsw_bit s 11 rfl, systemReset_kpsw_bit s 10 rfl,
    systemReset_kpsw_bit s 9 rfl, systemReset_kpsw_bit s 8 rfl⟩
  bufferOff := ⟨systemReset_kpsw_bit s 1 rfl, systemReset_kpsw_bit s 0 rfl⟩
  buffer := fun k => by simp [systemReset, resetViews, restartViews, resetIbBlock]
  fpuIdle := ⟨rfl, rfl⟩
  cache := rfl
  interrupts := ⟨rfl, rfl⟩
  upsw := rfl
  cwp := rfl
  pipe := rfl
  nextPC := rfl

/-- Settles O8: the reset state evaluates, and a System Reset fixes the bits of KPSW that R67 names. -/
theorem resetStateAndInv : Obligations.ResetStateAndInv :=
  ⟨afterReset_reset, rfl, invariant_reset, fun s => ⟨afterReset_systemReset s, rfl, rfl, rfl, rfl⟩⟩

end Sys2Proof.Proofs.NodeState

/-! Proofs of the family spec/20_memory.md: write-backs, faults of an access, the table walk, the registers of the cache
controller. -/

namespace Sys2Proof.Proofs.MemoryManagement

open Sys2Proof Sys2Proof.Machine Sys2Proof.Safety Sys2Proof.Laws

/-! ### Memory between instructions (R112, R180) -/

theorem isWordStore_eq_false {i : Instr} (h32 : ∀ a b c, i ≠ .st32 a b c) (hSgl : ∀ a b c, i ≠ .stSgl a b c)
    (hInt : ∀ a b c, i ≠ .stInt a b c) : isWordStore i = false := by
  cases i with
  | st32 a b c => exact absurd rfl (h32 a b c)
  | stSgl a b c => exact absurd rfl (hSgl a b c)
  | stInt a b c => exact absurd rfl (hInt a b c)
  | _ => rfl

/-- Whether it traps or completes, an instruction with no word store of its own reaches memory by write-backs only. -/
theorem instrEnd_bytes {s t : State} (h : InstrEnd false s t) (x : Nat) :
    memGet t.mem x = memGet s.mem x ∨ writtenBack s x := by
  rcases h with ⟨tt, u, rfl, ready⟩ | completed
  · rw [takeTrap_mem]
    exact ready.bytes rfl x
  · exact completed.bytes rfl x

/-- Settles O13: `exec_inst` says what a next state of any instruction can be. -/
theorem memoryChangesByWriteBack : Obligations.MemoryChangesByWriteBack := by
  intro i s t h32 hSgl hInt h
  have ended := exec_inst h
  rw [isWordStore_eq_false h32 hSgl hInt] at ended
  exact instrEnd_bytes ended

/-! ### Faults as traps (R104, R344, R348) -/

theorem raiseFault_eq (c : FaultCause) (s : State) :
    raiseFault c s = if trapEnabled (faulted c s) (faultTrap c) then .next (takeTrap (faultTrap c) (faulted c s))
      else .fault (.disabledFault c) := rfl

theorem faultTrap_eq (c : FaultCause) :
    faultTrap c = if c = .busFault then .errorFault else .normalFault := by
  cases c <;> rfl

theorem trapEnabled_faulted (c : FaultCause) (s : State) (tt : TrapType) :
    trapEnabled (faulted c s) tt = trapEnabled s tt := by
  cases tt <;> rfl

theorem trapEnabled_faultTrap (c : FaultCause) (s : State) :
    trapEnabled s (faultTrap c) = (kpswAllEn s && if c = .busFault then kpswErrEn s else kpswFltEn s) := by
  cases c <;> rfl

theorem raiseFault_enabled {c : FaultCause} {s : State} (on : trapEnabled s (faultTrap c) = true) :
    raiseFault c s = .next (takeTrap (faultTrap c) (faulted c s)) := by
  rw [raiseFault_eq, trapEnabled_faulted, if_pos on]

theorem raiseFault_disabled {c : FaultCause} {s : State} (off : ¬ trapEnabled s (faultTrap c) = true) :
    raiseFault c s = .fault (.disabledFault c) := by
  rw [raiseFault_eq, trapEnabled_faulted, if_neg off]

/-- The trap of an instruction that started in `s`, taken where its access has got to: an access touches nothing that
the trap saves. -/
theorem takesTrap_of_touches {s u : State} (h : Touches s u) (c : FaultCause) (tt : TrapType) :
    TakesTrap s (takeTrap tt (faulted c u)) tt := by
  have hk : (faulted c u).kpsw = s.kpsw := h.kpsw
  have hcwp : (faulted c u).cwp = s.cwp := h.cwp
  have hpc : (faulted c u).pc = s.pc := h.pc
  have bit (n : Nat) : (takeTrap tt (faulted c u)).kpsw.getLsbD n = _ :=
    (congrArg (fun k => BitVec.getLsbD k n) ((takeTrap_kpsw _ _).trans (congrArg (entryKpsw tt) hk))).trans
      (entryKpsw_getLsbD tt s.kpsw n)
  exact {
    pc := takeTrap_pc _ _
    nextPC := takeTrap_nextPC _ _
    trapPC := (takeTrap_trapPC _ _).trans hpc
    trapNextPC := (takeTrap_trapNextPC _ _).trans h.nextPC
    cwp := by rw [takeTrap_cwp, hcwp]
    r10 := by rw [← hcwp, ← hpc]; exact takeTrap_r10 _ _
    regs := fun r hr => by
      rw [← hcwp] at hr
      exact (takeTrap_regs _ _ r hr).trans (regGet_congr h.globals h.windows r)
    allEn := bit 12
    mode := bit 4
    prevMode := bit 5
    physical := fun ht => by subst ht; exact ⟨bit 3, bit 2⟩
    otherBits := fun n h4 h5 h12 he => by
      rw [bit, if_neg h4, if_neg h12, if_neg h5, if_neg]
      exact fun ⟨ht, hn⟩ => hn.elim (he ht).1 (he ht).2
    status := ⟨(takeTrap_upsw _ _).trans h.upsw, (takeTrap_swp _ _).trans h.swp,
      (takeTrap_insert _ _).trans h.insert⟩
    pipe := takeTrap_pipe _ _
    prefetch := takeTrap_prefetch _ _
    ib := (takeTrap_ib _ _).trans h.ib }

/-- What taking the trap of a fault shows, where the access has left memory and the lines alone. -/
theorem faultTaken_frame {s u : State} (h : Touches s u) (hm : u.mem = s.mem) (hc : u.cache = s.cache)
    (hr : u.remote = s.remote) (c : FaultCause) :
    TakesTrap s (takeTrap (faultTrap c) (faulted c u)) (faultTrap c) ∧
      (takeTrap (faultTrap c) (faulted c u)).faultInfo = some c ∧
      KeepsMemory s (takeTrap (faultTrap c) (faulted c u)) :=
  ⟨takesTrap_of_touches h c _, takeTrap_faultInfo _ _,
    fun a => by rw [takeTrap_mem]; exact congrArg (memGet · a) hm,
    fun k => by rw [takeTrap_cache]; exact congrArg (lineGet · k) hc,
    fun k => by rw [takeTrap_remote]; exact congrArg (lineGet · k) hr⟩

/-- Settles O56: the enables decide, and the trap is taken in the state with the cause recorded. -/
theorem faultTraps : Obligations.FaultTraps := by
  intro c s
  rw [← trapEnabled_faultTrap, ← faultTrap_eq]
  split
  next on =>
    obtain ⟨trap, cause, memory⟩ := faultTaken_frame (.refl s) rfl rfl rfl c
    exact ⟨_, raiseFault_enabled on, trap, cause, memory, takeTrap_fregs _ _⟩
  next off => exact raiseFault_disabled off

/-! ### Accesses that fault (R85, R99, R101, R455) -/

/-- A virtual access to `va` that hits a line and is not allowed: the fault's trap, and the latches. -/
theorem raiseFault_vaRef {c : FaultCause} {s : State} {va : Word}
    (on : trapEnabled s (faultTrap c) = true) :
    ∃ t, raiseFault c (vaRef s va) = .next t ∧ TakesTrap s t (faultTrap c) ∧ t.faultInfo = some c ∧
      KeepsMemory s t ∧ Latches s t va := by
  have on' : trapEnabled (vaRef s va) (faultTrap c) = true := by
    rw [trapEnabled_faultTrap] at on ⊢
    exact on
  have latched := vaRef_latches s va
  obtain ⟨trap, cause, memory⟩ := faultTaken_frame (vaRef_fetched s va).access.touches rfl rfl rfl c
  refine ⟨_, raiseFault_enabled on', trap, cause, memory, (takeTrap_gva _ _).trans latched.gva, ?_, ?_, ?_⟩
  all_goals rw [takeTrap_pteva]
  · exact latched.ptevaHigh
  · exact latched.ptevaPage
  · exact latched.ptevaLow

/-- A physical access that faults: the trap, with nothing latched. -/
theorem raiseFault_physical {c : FaultCause} {s : State}
    (on : trapEnabled s (faultTrap c) = true) :
    ∃ t, raiseFault c s = .next t ∧ TakesTrap s t (faultTrap c) ∧ t.faultInfo = some c ∧ KeepsMemory s t :=
  ⟨_, raiseFault_enabled on, faultTaken_frame (.refl s) rfl rfl rfl c⟩

theorem locate_hitFault {s : State} {va : Word} {kind : AccessKind} {slot : Nat} {l : Line} {c : FaultCause}
    (hit : cacheProbe s (globalAddr s va) = some l) (hf : hitFault s l kind = some c) :
    locate s va kind slot = .fault c (vaRef s va) := by
  have hit' : cacheProbe (vaRef s va) (globalAddr s va) = some l := hit
  have hf' : hitFault (vaRef s va) l kind = some c := hf
  simp only [locate, hit', locateHit, hf']

theorem hitFault_protection {s : State} {l : Line} {kind : AccessKind}
    (h : permits s l.prot (kindWrites kind) = false) : hitFault s l kind = some .accessViolation := by
  simp [hitFault, h]

theorem hitFault_cleanUncached {s : State} {l : Line} (hp : permits s l.prot true = true)
    (hd : l.pageDirty = false) (hc : l.cacheable = false) : hitFault s l .write = some .dirtyTrap := by
  simp [hitFault, kindWrites, hp, hd, hc]

theorem readWord_violation {s : State} {va : Word} {kind : AccessKind} {slot : Nat} {l : Line}
    (hit : cacheProbe s (globalAddr s va) = some l) (h : permits s l.prot (kindWrites kind) = false) :
    readWord s true va kind slot = .fault .accessViolation (vaRef s va) := by
  simp only [readWord, locate_hitFault hit (hitFault_protection h), accessThen, if_true]

/-- A line of a clean page takes the dirty trap when the store reaches it; one with the mark of a non-cacheable page,
before that. -/
theorem writeWord_clean {s : State} {va w : Word} {slot : Nat} {l : Line}
    (hit : cacheProbe s (globalAddr s va) = some l) (hp : permits s l.prot true = true) (hd : l.pageDirty = false) :
    writeWord s true va w slot = .fault .dirtyTrap (vaRef s va) := by
  cases hc : l.cacheable with
  | true =>
    simp only [writeWord, locate_hit (kind := .write) hit hp hc, accessThen, writeLine, hd, if_true,
      Bool.false_eq_true, if_false]
  | false => simp only [writeWord, locate_hitFault hit (hitFault_cleanUncached hp hd hc), accessThen, if_true]

theorem busRead_nobody {s : State} {pa : Word} (h : responder s pa = .nobody) (slot : Nat) :
    busRead s pa slot = .fault .busFault s := by
  simp only [busRead, h]

theorem busWrite_nobody {s : State} {pa : Word} (h : responder s pa = .nobody) (w : Word) :
    busWrite s pa w = .fault .busFault s := by
  simp only [busWrite, h]

theorem exec_ld32_fault {s u : State} {d s1 : RegField} {rc : RC} {c : FaultCause} (hw : writable s d = true)
    (ht : s.pipe.afterTas = false)
    (h : readWord s (kpswVaDfetch s) (alignWord (sumRC s s1 rc)) .read slotBusData = .fault c u) :
    exec (.ld32 d s1 rc) s = raiseFault c u := by
  show loadGuard d s _ = _
  rw [loadGuard_of hw ht]
  simp only [readFixnum, h, accessMap, accessThen, onAccess]

theorem exec_st32_fault {s u : State} {s2 s1 : RegField} {sc : BitVec 14} {c : FaultCause}
    (ht : s.pipe.afterTas = false)
    (h : writeWord s (kpswVaDfetch s) (alignWord (eaStore s s1 sc)) (storedReg s s2).data slotBusData = .fault c u) :
    exec (.st32 s2 s1 sc) s = raiseFault c u := by
  show storeGuard s _ = _
  simp only [storeGuard, ht, h, onAccess, Bool.false_eq_true, if_false]

/-- Settles O57: the access comes to a fault in a state with only the latches changed, and its trap is taken there. -/
theorem accessFaults : Obligations.AccessFaults := by
  refine ⟨fun s d s1 rc sc l allEn fltEn ht virt => ⟨fun hw hit hp => ?_, fun hit hp hd => ?_⟩,
    fun s d s1 rc sc allEn errEn ht phys => ⟨fun hw hr => ?_, fun hr => ?_⟩⟩
  · rw [exec_ld32_fault hw ht (by rw [virt]; exact readWord_violation hit hp)]
    exact raiseFault_vaRef (c := .accessViolation) (by rw [trapEnabled_faultTrap, allEn]; exact fltEn)
  · rw [exec_st32_fault ht (by rw [virt]; exact writeWord_clean hit hp hd)]
    exact raiseFault_vaRef (c := .dirtyTrap) (by rw [trapEnabled_faultTrap, allEn]; exact fltEn)
  · rw [exec_ld32_fault hw ht (by rw [phys]; exact busRead_nobody hr _)]
    exact raiseFault_physical (c := .busFault) (by rw [trapEnabled_faultTrap, allEn]; exact errEn)
  · rw [exec_st32_fault ht (by rw [phys]; exact busWrite_nobody hr _)]
    exact raiseFault_physical (c := .busFault) (by rw [trapEnabled_faultTrap, allEn]; exact errEn)

/-! ### The table walk (R93, R96, R97, R451) -/

/-- RPTEVA after state PTEref: bits 17 to 2 are bits 27 to 12 of PTEVA. -/
theorem pteRefLatch_rpteva (s : State) :
    (pteRefLatch s).rpteva.extractLsb' 2 16 = s.pteva.extractLsb' 12 16 ∧
      (pteRefLatch s).rpteva.extractLsb' 0 2 = 0#2 :=
  ⟨(extract_append_high _ (0#2) 2 16 (Nat.le_refl 2)).trans (BitVec.extractLsb'_append_eq_right), low2_append _⟩

/-- The offset of the second-level entry in its page. -/
theorem pteRefLatch_rpteva_offset (s : State) :
    (pteRefLatch s).rpteva.extractLsb' 0 12 = s.pteva.extractLsb' 12 10 ++ 0#2 := by
  refine BitVec.eq_of_getLsbD_eq fun i hi => ?_
  simp only [pteRefLatch, BitVec.getLsbD_append, BitVec.getLsbD_extractLsb', Nat.zero_add]
  by_cases h : i < 2
  · simp [h]
  · simp [h, hi, show i - 2 < 16 by omega, show i - 2 < 10 by omega]

theorem busRead_ram {s : State} {pa : Word} (h : responder s pa = .board .ram) (slot : Nat) :
    busRead s pa slot = .done (memWord s.mem pa) s := by
  simp only [busRead, h, boardRead]

/-- The second-level entry from RAM, by the root map. -/
theorem walkSecond_ram {s : State} {va pa2 : Word} (hmiss : cacheProbe s s.rpteva = none)
    (hpa : pa2 = (s.rptm[(va.extractLsb' 30 2).toNat]'(va.extractLsb' 30 2).isLt) ++ s.rpteva.extractLsb' 0 12)
    (hram : responder s pa2 = .board .ram) (slot : Nat) :
    walkSecond s va slot = .done (memWord s.mem pa2) s := by
  simp only [walkSecond, hmiss, walkRoot, ← hpa, busRead_ram hram]

/-- A line filled where no line is displaced. -/
theorem fillLine_of_empty {s t : State} {g : GlobalAddr} {pte : Word} {own : Bool} {slot : Nat} {f : FilledBlock}
    (hread : busReadLine s (blockOn (ptePpn pte) g) g own slot = .done f t)
    (hempty : lineGet t.cache (lineIndex g) = none) :
    fillLine s g pte own slot = .done (filledLine g pte own f) (installLine t g (filledLine g pte own f)) := by
  simp only [fillLine, hread, accessThen, evict, hempty]

theorem fillLine_of_fault {s t : State} {g : GlobalAddr} {pte : Word} {own : Bool} {slot : Nat} {c : FaultCause}
    (hread : busReadLine s (blockOn (ptePpn pte) g) g own slot = .fault c t) :
    fillLine s g pte own slot = .fault c t := by
  simp only [fillLine, hread, accessThen]

theorem busReadLine_ram {s : State} {block : BitVec 27} {g : GlobalAddr}
    (hfree : lineGet s.remote (lineNumber g) = none) (hram : responder s (block ++ 0#5) = .board .ram) (own : Bool)
    (slot : Nat) :
    busReadLine s block g own slot = .done { words := memBlock s.mem block, dirty := false } (countBlock s) := by
  have hram' : responder (countBlock s) (blockWordAddr block 0) = .board .ram := by
    rw [blockWordAddr_zero]
    exact hram
  simp only [busReadLine, hfree, memoryBlock, hram', boardRead, countBlock_mem]

theorem busReadLine_ownerError {s : State} {g : GlobalAddr} {r : RemoteLine}
    (howned : lineGet s.remote (lineNumber g) = some r) (he : r.status = .unspecifiedError) (block : BitVec 27)
    (own : Bool) (slot : Nat) : busReadLine s block g own slot = .fault .busFault (countBlock s) := by
  simp only [busReadLine, howned, ownerBlock, he]

theorem busReadLine_owner {s : State} {g : GlobalAddr} {r : RemoteLine}
    (howned : lineGet s.remote (lineNumber g) = some r) (he : r.status ≠ .unspecifiedError) (block : BitVec 27)
    (own : Bool) (slot : Nat) :
    ∃ d, busReadLine s block g own slot =
      .done { words := r.words, dirty := d } (ownerSupplied (countBlock s) g r own) := by
  simp only [busReadLine, howned, ownerBlock]
  cases hs : r.status with
  | dirty => exact ⟨true, rfl⟩
  | clean => exact ⟨false, rfl⟩
  | unspecifiedError => exact absurd hs he

/-- An owner that supplies a line changes its own copy only. -/
theorem ownerSupplied_only (s : State) (g : GlobalAddr) (r : RemoteLine) (own : Bool) :
    ownerSupplied s g r own = { s with remote := (ownerSupplied s g r own).remote } := by
  cases own <;> rfl

/-- The physical address of an entry is that of its word in its block. -/
theorem blockWordAddr_blockOn {g : GlobalAddr} (hg : g.extractLsb' 0 2 = 0#2) (ppn : BitVec 20) :
    blockWordAddr (blockOn ppn g) (g.extractLsb' 2 3).toNat = ppn ++ g.extractLsb' 0 12 := by
  have low : ∀ i < 2, g.getLsbD i = false := fun i hi => by
    have := congrArg (fun v => BitVec.getLsbD v i) hg
    simpa [BitVec.getLsbD_extractLsb', hi] using this
  unfold blockWordAddr blockOn
  rw [BitVec.ofNat_toNat]
  ext i hi
  simp only [BitVec.getElem_append, BitVec.getElem_extractLsb', BitVec.getElem_setWidth, BitVec.getLsbD_extractLsb']
  by_cases h2 : i < 2
  · simp [h2, show i < 12 by omega, low i h2]
  · by_cases h5 : i - 2 < 3
    · simp [h2, h5, show i < 12 by omega, show 2 + (i - 2) = i by omega]
    · by_cases h12 : i < 12
      · simp [h2, h5, h12, show i - 2 - 3 < 7 by omega, show 5 + (i - 2 - 3) = i by omega]
      · simp [h2, h5, h12, show ¬ i - 2 - 3 < 7 by omega, show i - 2 - 3 - 7 = i - 12 by omega]

theorem block_of_page (ppn : BitVec 20) (g : GlobalAddr) :
    (ppn ++ g.extractLsb' 0 12).extractLsb' 5 27 = blockOn ppn g := by
  unfold blockOn
  refine BitVec.eq_of_getLsbD_eq fun i hi => ?_
  simp only [BitVec.getLsbD_append, BitVec.getLsbD_extractLsb', Nat.zero_add]
  by_cases h : i < 7
  · simp [h, hi, show 5 + i < 12 by omega]
  · simp [h, hi, show ¬(5 + i < 12) by omega, show 5 + i - 12 = i - 7 by omega]

theorem lineWord_filled_memBlock {g : GlobalAddr} (hg : g.extractLsb' 0 2 = 0#2) (m : List Host.Cell) (pte : Word)
    (own dirty : Bool) :
    lineWord (filledLine g pte own { words := memBlock m (blockOn (ptePpn pte) g), dirty := dirty }) g =
      memWord m (ptePpn pte ++ g.extractLsb' 0 12) := by
  simp only [lineWord, filledLine, memBlock, Vector.getElem_ofFn, blockWordAddr_blockOn hg]

/-- A walk that finds neither entry in the cache: the second-level entry decides. -/
theorem walkFirst_miss {s : State} {va pte2 : Word} {kind : AccessKind} {slot : Nat}
    (hmiss : cacheProbe s s.pteva = none)
    (hsecond : walkSecond (pteRefLatch s) va slot = .done pte2 (pteRefLatch s)) :
    walkFirst s va kind slot =
      if ptePresent pte2 then
        accessMap (fun l => lineWord l s.pteva) (fillLine (pteRefLatch s) s.pteva pte2 false (slot + 1))
      else .fault (pageFault kind) (pteRefLatch s) := by
  have hmiss' : cacheProbe (pteRefLatch s) s.pteva = none := hmiss
  simp only [walkFirst, hmiss', hsecond, accessThen, pteRefLatch_pteva]

/-- The walk finds no first-level entry in the cache and an empty place for its line, and gets `pte2` as the
second-level entry with no line filled. -/
structure WalkMisses (s : State) (va pte2 : Word) (slot : Nat) : Prop where
  first : cacheProbe s s.pteva = none
  second : walkSecond (pteRefLatch s) va slot = .done pte2 (pteRefLatch s)
  empty : lineGet s.cache (lineIndex s.pteva) = none

section Walk

variable {s : State} {va pte2 : Word} {slot : Nat} (kind : AccessKind)

theorem WalkMisses.absent (h : WalkMisses s va pte2 slot) (hp : ptePresent pte2 = false) :
    walkFirst s va kind slot = .fault (pageFault kind) (pteRefLatch s) := by
  simp only [walkFirst_miss h.first h.second, hp, Bool.false_eq_true, if_false]

theorem WalkMisses.present (h : WalkMisses s va pte2 slot) (hp : ptePresent pte2 = true) :
    walkFirst s va kind slot =
      accessMap (fun l => lineWord l s.pteva) (fillLine (pteRefLatch s) s.pteva pte2 false (slot + 1)) := by
  simp only [walkFirst_miss h.first h.second, hp, if_true]

theorem WalkMisses.fromMemory (h : WalkMisses s va pte2 slot) (hp : ptePresent pte2 = true)
    (hlow : s.pteva.extractLsb' 0 2 = 0#2) (hfree : lineGet s.remote (lineNumber s.pteva) = none)
    (hram : responder s ((ptePpn pte2 ++ s.pteva.extractLsb' 0 12).extractLsb' 5 27 ++ 0#5) = .board .ram) :
    ∃ t, walkFirst s va kind slot = .done (memWord s.mem (ptePpn pte2 ++ s.pteva.extractLsb' 0 12)) t ∧
      t.mem = s.mem ∧ t.rpteva = (pteRefLatch s).rpteva := by
  rw [block_of_page] at hram
  have hread := busReadLine_ram (s := pteRefLatch s) hfree hram false (slot + 1)
  rw [h.present kind hp, fillLine_of_empty hread h.empty, ← lineWord_filled_memBlock hlow s.mem pte2 false false]
  exact ⟨_, rfl, rfl, rfl⟩

theorem WalkMisses.ownerError (h : WalkMisses s va pte2 slot) (hp : ptePresent pte2 = true) {r : RemoteLine}
    (howned : lineGet s.remote (lineNumber s.pteva) = some r) (he : r.status = .unspecifiedError) :
    ∃ t, walkFirst s va kind slot = .fault .busFault t := by
  have hread := busReadLine_ownerError (s := pteRefLatch s) howned he (blockOn (ptePpn pte2) s.pteva) false (slot + 1)
  rw [h.present kind hp, fillLine_of_fault hread]
  exact ⟨_, rfl⟩

theorem WalkMisses.fromOwner (h : WalkMisses s va pte2 slot) (hp : ptePresent pte2 = true) {r : RemoteLine}
    (howned : lineGet s.remote (lineNumber s.pteva) = some r) (he : r.status ≠ .unspecifiedError) :
    ∃ t, t.mem = s.mem ∧ walkFirst s va kind slot =
      .done (r.words[(s.pteva.extractLsb' 2 3).toNat]'(s.pteva.extractLsb' 2 3).isLt) t := by
  obtain ⟨d, hread⟩ :=
    busReadLine_owner (s := pteRefLatch s) howned he (blockOn (ptePpn pte2) s.pteva) false (slot + 1)
  have hempty : lineGet (ownerSupplied (countBlock (pteRefLatch s)) s.pteva r false).cache (lineIndex s.pteva) =
      none := by
    rw [ownerSupplied_only]
    exact h.empty
  rw [h.present kind hp, fillLine_of_empty hread hempty]
  refine ⟨_, ?_, rfl⟩
  rw [installLine_mem, ownerSupplied_only]
  rfl

end Walk

/-! ### The checks on an entry (R97 to R102) -/

theorem pageUsable_eq_true {pte : Word} {kind : AccessKind} :
    pageUsable pte kind = true ↔ ptePresent pte = true ∨ kind = .readAnyway := by
  simp [pageUsable]

theorem pteFault_absent {s : State} {pte : Word} {kind : AccessKind} (hp : ptePresent pte = false)
    (hk : kind ≠ .readAnyway) : pteFault s pte kind = some (pageFault kind) := by
  simp [pteFault, pageUsable, hp, hk]

section Checks

variable {s : State} {pte : Word} {kind : AccessKind} (usable : pageUsable pte kind = true)
include usable

theorem pteFault_violation (h : permits s (pteProt pte) (kindWrites kind) = false) :
    pteFault s pte kind = some .accessViolation := by
  simp [pteFault, usable, h]

theorem pteFault_reference (h : permits s (pteProt pte) (kindWrites kind) = true) (hr : pteRef pte = false) :
    pteFault s pte kind = some .referenceTrap := by
  simp [pteFault, usable, h, hr]

theorem pteFault_allowed (h : permits s (pteProt pte) (kindWrites kind) = true) (hr : pteRef pte = true) :
    pteFault s pte kind =
      if pteNc pte = true ∧ kindWrites kind = true ∧ pteDirty pte = false then some .dirtyTrap else none := by
  simp [pteFault, usable, h, hr, and_assoc]

end Checks

/-- Settles O58: the walk by where the first-level entry comes from, and the checks one by one. -/
theorem tableWalk : Obligations.TableWalk := by
  refine ⟨?_, fun s pte kind => ⟨pteFault_absent, fun usable => ?_⟩⟩
  · intro s va kind slot pa2 pte2 pa1 hfirst hlow hsecond hempty hpa2 hram hpte2
    have hoffset : pa2 = (s.rptm[(va.extractLsb' 30 2).toNat]'(va.extractLsb' 30 2).isLt) ++
        (pteRefLatch s).rpteva.extractLsb' 0 12 := by
      rw [hpa2, pteRefLatch_rpteva_offset]
      exact BitVec.append_assoc
    have walks : WalkMisses s va pte2 slot :=
      ⟨hfirst, hpte2 ▸ walkSecond_ram (s := pteRefLatch s) hsecond hoffset hram slot, hempty⟩
    refine ⟨fun hp => ⟨_, walks.absent kind hp⟩, fun hp hpa1 => ⟨fun hfree hram1 => ?_, fun r howned =>
      ⟨walks.ownerError kind hp howned, walks.fromOwner kind hp howned⟩⟩⟩
    subst hpa1
    obtain ⟨t, hwalk, hmem, hrpteva⟩ := walks.fromMemory kind hp hlow hfree hram1
    exact ⟨t, hwalk, hmem, hrpteva ▸ pteRefLatch_rpteva s⟩
  · have usable := pageUsable_eq_true.2 usable
    exact ⟨pteFault_violation usable, fun h => ⟨pteFault_reference usable h, pteFault_allowed usable h⟩⟩

/-! ### The registers of the cache controller (R105, R106, R159) -/

/-- The fields of a register address: type, number and byte. -/
theorem registerAddr_fields (hi : BitVec 20) (type : BitVec 3) (n : BitVec 2) (b : BitVec 3) (lo : BitVec 4) :
    (hi ++ type ++ n ++ b ++ lo).extractLsb' 9 3 = type ∧ (hi ++ type ++ n ++ b ++ lo).extractLsb' 7 2 = n ∧
      (hi ++ type ++ n ++ b ++ lo).extractLsb' 4 3 = b := by
  refine ⟨?_, ?_, ?_⟩
  · rw [BitVec.extractLsb'_append_eq_of_le (by decide), BitVec.extractLsb'_append_eq_of_le (by decide),
      BitVec.extractLsb'_append_eq_of_le (by decide)]
    exact BitVec.extractLsb'_append_eq_right
  · rw [BitVec.extractLsb'_append_eq_of_le (by decide), BitVec.extractLsb'_append_eq_of_le (by decide)]
    exact BitVec.extractLsb'_append_eq_right
  · rw [BitVec.extractLsb'_append_eq_of_le (by decide)]
    exact BitVec.extractLsb'_append_eq_right

section AddressMap

variable (hi : BitVec 20) (n : BitVec 2) {b : BitVec 3} (lo : BitVec 4)

theorem ccDecode_rptm (hb : b.toNat ≤ 2) : ccDecode (hi ++ 0#3 ++ n ++ b ++ lo) = .rptm n b.toNat := by
  obtain ⟨htype, hno, hbyte⟩ := registerAddr_fields hi 0#3 n b lo
  simp [ccDecode, htype, hno, hbyte, hb]

theorem ccDecode_gsn : ccDecode (hi ++ 0#3 ++ n ++ 3#3 ++ lo) = .gsn n := by
  obtain ⟨htype, hno, hbyte⟩ := registerAddr_fields hi 0#3 n 3#3 lo
  simp [ccDecode, htype, hno, hbyte]

theorem ccDecode_pteva (hb : b.toNat ≤ 4) : ccDecode (hi ++ 2#3 ++ 0#2 ++ b ++ lo) = .pteva b.toNat := by
  obtain ⟨htype, hno, hbyte⟩ := registerAddr_fields hi 2#3 0#2 b lo
  simp [ccDecode, htype, hno, hbyte, hb]

theorem ccDecode_rpteva (hb : b.toNat ≤ 4) : ccDecode (hi ++ 3#3 ++ 0#2 ++ b ++ lo) = .rpteva b.toNat := by
  obtain ⟨htype, hno, hbyte⟩ := registerAddr_fields hi 3#3 0#2 b lo
  simp [ccDecode, htype, hno, hbyte, hb]

theorem ccDecode_intmask (hb : b.toNat ≤ 3) : ccDecode (hi ++ 4#3 ++ 0#2 ++ b ++ lo) = .intmask b.toNat := by
  obtain ⟨htype, hno, hbyte⟩ := registerAddr_fields hi 4#3 0#2 b lo
  simp [ccDecode, htype, hno, hbyte, hb]

theorem ccDecode_intclr (hb : b.toNat ≤ 3) : ccDecode (hi ++ 5#3 ++ 0#2 ++ b ++ lo) = .intclr b.toNat := by
  obtain ⟨htype, hno, hbyte⟩ := registerAddr_fields hi 5#3 0#2 b lo
  simp [ccDecode, htype, hno, hbyte, hb]

theorem ccDecode_intreg (hb : b.toNat ≤ 3) : ccDecode (hi ++ 6#3 ++ 0#2 ++ b ++ lo) = .intreg b.toNat := by
  obtain ⟨htype, hno, hbyte⟩ := registerAddr_fields hi 6#3 0#2 b lo
  simp [ccDecode, htype, hno, hbyte, hb]

end AddressMap

theorem byteAt_getLsbD {w k : Nat} (v : BitVec w) (b : Nat) (hk : k < 8) :
    (byteAt v b).getLsbD k = v.getLsbD (b * 8 + k) := by
  simp [byteAt, hk, Nat.mul_comm]

theorem lowBits_getLsbD {n k : Nat} (v x : Byte) (hk : k < 8) (hn : k < n) :
    (lowBits n v x).getLsbD k = v.getLsbD k := by
  have mask : (BitVec.ofNat 8 (2 ^ n - 1)).getLsbD k = true := by
    simp [BitVec.getLsbD_ofNat, Nat.testBit_two_pow_sub_one, hk, hn]
  simp only [lowBits, BitVec.getLsbD_or, BitVec.getLsbD_and, BitVec.getLsbD_not, mask, Bool.and_true, Bool.not_true,
    Bool.and_false, Bool.or_false]

/-- A bit that LD_CACHE reads: that of the register's byte, where the register has one there. -/
theorem ccReadLines_getLsbD {s : State} {ea : Word} {c : CcByte} (hc : c = ccDecode ea) {k : Nat} (hk : k < 8)
    (hn : k < (ccRead s c).2) : (ccReadLines s ea).data.getLsbD k = (ccRead s c).1.getLsbD k := by
  subst hc
  simp only [ccReadLines, BitVec.getLsbD_append, if_pos hk]
  exact lowBits_getLsbD _ _ hk hn

theorem exec_ldCache {s : State} {d s1 : RegField} {rc : RC} (hw : writable s d = true)
    (ht : s.pipe.afterTas = false) :
    exec (.ldCache d s1 rc) s = .next (finishLoad d (ccReadLines s (sumRC s s1 rc)) s) :=
  loadGuard_of hw ht _

/-- Settles O21: the map by its rows, and a register's bits by the byte that `ccRead` gives. -/
theorem loadController : Obligations.LoadController := by
  refine ⟨fun hi n b lo => ⟨ccDecode_rptm hi n lo, ccDecode_gsn hi n lo,
    fun hb => ⟨ccDecode_pteva hi lo hb, ccDecode_rpteva hi lo hb⟩,
    fun hb => ⟨ccDecode_intmask hi lo hb, ccDecode_intclr hi lo hb, ccDecode_intreg hi lo hb⟩⟩, ?_⟩
  intro s d s1 rc c hw ht hc
  refine ⟨_, exec_ldCache hw ht, finishLoad_only d _ s, finishLoad_sequential d _ s, fun hd k hk => ?_⟩
  rw [finishLoad_dest, if_neg hd]
  have read := ccReadLines_getLsbD (s := s) hc hk
  refine ⟨?_, ?_, ?_, ?_, ?_, ?_⟩
  · rintro n b rfl hbit
    exact (read (by simp only [ccRead]; split <;> omega)).trans (byteAt_getLsbD _ b hk)
  · rintro n rfl
    exact read hk
  · rintro b rfl hbit
    exact (read (by simp only [ccRead]; split <;> omega)).trans (byteAt_getLsbD _ b hk)
  · rintro b rfl hbit
    exact (read (by simp only [ccRead]; split <;> omega)).trans (byteAt_getLsbD _ b hk)
  · rintro b rfl
    exact (read hk).trans (byteAt_getLsbD _ b hk)
  · rintro b rfl
    exact (read hk).trans (byteAt_getLsbD _ b hk)

end Sys2Proof.Proofs.MemoryManagement

/-! Proofs of the family spec/30_encoding.md: the fields of each format, the encodings decoded, the unassigned opcodes,
the operand forms. -/

namespace Sys2Proof.Proofs.Encoding

open Sys2Proof Sys2Proof.Machine Sys2Proof.Safety Sys2Proof.Laws

/-! ### The fields of each format (R121, R122, R126 to R129) -/

/-- The formats with a register in bits 13 to 9: bit 14 is clear in RRR and compare RR, set in store and compare RI. -/
def sixFields (o : Op) (d s1 : RegField) (sel : BitVec 1) (s2 : RegField) (lo : BitVec 9) : Word :=
  opBits o ++ d ++ s1 ++ sel ++ s2 ++ lo

section SixFields
variable (o : Op) (d s1 : RegField) (sel : BitVec 1) (s2 : RegField) (lo : BitVec 9)

theorem encRRR_eq : encRRR o d s1 s2 = sixFields o d s1 0#1 s2 0#9 := rfl
theorem encCmpRR_eq : encCmpRR o d s1 s2 lo = sixFields o d s1 0#1 s2 lo := rfl
theorem encStore_eq : encStore o d s1 s2 lo = sixFields o d s1 1#1 s2 lo := rfl

@[simp] theorem fieldD_sixFields : fieldD (sixFields o d s1 sel s2 lo) = d := by
  simp only [fieldD, sixFields, BitVec.extractLsb'_append_eq_ite]; simp

@[simp] theorem fieldS1_sixFields : fieldS1 (sixFields o d s1 sel s2 lo) = s1 := by
  simp only [fieldS1, sixFields, BitVec.extractLsb'_append_eq_ite]; simp

@[simp] theorem fieldSel_sixFields : fieldSel (sixFields o d s1 sel s2 lo) = sel.getLsbD 0 := by
  simp only [fieldSel, sixFields, BitVec.getLsbD_append]; simp

@[simp] theorem fieldS2_sixFields : fieldS2 (sixFields o d s1 sel s2 lo) = s2 := by
  simp only [fieldS2, sixFields, BitVec.extractLsb'_append_eq_ite]; simp

@[simp] theorem fieldOff_sixFields : fieldOff (sixFields o d s1 sel s2 lo) = lo := by
  simp only [fieldOff, sixFields, BitVec.extractLsb'_append_eq_ite]; simp

end SixFields

section Immediate
variable (o : Op) (d s1 : RegField) (v : BitVec 14)

@[simp] theorem fieldD_encRRI : fieldD (encRRI o d s1 v) = d := by
  simp only [fieldD, encRRI, BitVec.extractLsb'_append_eq_ite]; simp

@[simp] theorem fieldS1_encRRI : fieldS1 (encRRI o d s1 v) = s1 := by
  simp only [fieldS1, encRRI, BitVec.extractLsb'_append_eq_ite]; simp

@[simp] theorem fieldSel_encRRI : fieldSel (encRRI o d s1 v) = true := by
  simp only [fieldSel, encRRI, BitVec.getLsbD_append]; simp

@[simp] theorem fieldImm_encRRI : fieldImm (encRRI o d s1 v) = v := by
  simp only [fieldImm, encRRI, BitVec.extractLsb'_append_eq_ite]; simp

end Immediate

section TagConstant
variable (o : Op) (cond s1 : RegField) (tc : BitVec 6) (off : BitVec 9)

@[simp] theorem fieldD_encTC : fieldD (encTC o cond s1 tc off) = cond := by
  simp only [fieldD, encTC, BitVec.extractLsb'_append_eq_ite]; simp

@[simp] theorem fieldS1_encTC : fieldS1 (encTC o cond s1 tc off) = s1 := by
  simp only [fieldS1, encTC, BitVec.extractLsb'_append_eq_ite]; simp

@[simp] theorem fieldTc_encTC : fieldTc (encTC o cond s1 tc off) = tc := by
  simp only [fieldTc, encTC, BitVec.extractLsb'_append_eq_ite]; simp

@[simp] theorem fieldOff_encTC : fieldOff (encTC o cond s1 tc off) = off := by
  simp only [fieldOff, encTC, BitVec.extractLsb'_append_eq_ite]; simp

end TagConstant

section Operands
variable (o : Op) (d s1 : RegField)

@[simp] theorem fieldD_encRC (rc : RC) : fieldD (encRC o d s1 rc) = d := by
  cases rc <;> simp [encRC, encRRR_eq]

@[simp] theorem fieldS1_encRC (rc : RC) : fieldS1 (encRC o d s1 rc) = s1 := by
  cases rc <;> simp [encRC, encRRR_eq]

@[simp] theorem fieldRC_encRC (rc : RC) : fieldRC (encRC o d s1 rc) = rc := by
  cases rc <;> simp [fieldRC, encRC, encRRR_eq]

/-- A compare operand of either kind stands in bits 13 to 9 (R128). -/
theorem encCC_eq (off : BitVec 9) (cc : CC) :
    ∃ sel s2, encCC o d s1 off cc = sixFields o d s1 sel s2 off ∧
      (if sel.getLsbD 0 then .imm s2 else .reg s2) = cc := by
  cases cc with
  | reg s2 => exact ⟨0#1, s2, rfl, rfl⟩
  | imm v => exact ⟨1#1, v, rfl, rfl⟩

/-- The two halves of a store constant, put together again (R127). -/
theorem fieldSC_encSC (s2 : RegField) (sc : BitVec 14) : fieldSC (encSC o s2 s1 sc) = sc := by
  simp only [fieldSC, encSC, encStore_eq, fieldD_sixFields, fieldOff_sixFields]
  exact BitVec.extractLsb'_append_extractLsb' (w := 5)

end Operands

/-! ### Decoding (R133, R134, R136) -/

/-- No row of the map has the four high bits of JUMP or CALL (R122). -/
theorem opBits_high (o : Op) : (opBits o).extractLsb' 3 4 ≠ 0xC#4 ∧ (opBits o).extractLsb' 3 4 ≠ 0xE#4 := by
  cases o <;> decide

theorem high_eq_fieldOp (w : Word) : w.extractLsb' 28 4 = (fieldOp w).extractLsb' 3 4 := by
  ext i hi
  simp only [fieldOp, BitVec.getElem_extractLsb', BitVec.getLsbD_extractLsb']
  rw [decide_eq_true (by omega), Bool.true_and, ← Nat.add_assoc]

theorem decode_of_fieldOp {w : Word} {o : Op} (h : fieldOp w = opBits o) : decode w = decodeOp o w := by
  obtain ⟨notJump, notCall⟩ := opBits_high o
  rw [← h, ← high_eq_fieldOp] at notJump notCall
  simp only [decode, if_neg notJump, if_neg notCall, h, opOf_opBits]

theorem decode_encJump (addr : BitVec 28) :
    decode (encJump 0xC#4 addr) = .ok (.jump addr) ∧ decode (encJump 0xE#4 addr) = .ok (.call addr) := by
  have low (op : BitVec 4) : (encJump op addr).extractLsb' 0 28 = addr := BitVec.extractLsb'_append_eq_right
  simp [decode, high_encJump, low]

/-! Decoding an encoding of one format. The hypothesis `row` is all that is left to see of an opcode: what its row of
`decodeOp` makes of the fields. -/

section Formats
variable {o : Op} {d s1 s2 : RegField} {off : BitVec 9} {i : Instr}

theorem decode_encRC {rc : RC}
    (row : ∀ w, fieldD w = d → fieldS1 w = s1 → fieldRC w = rc → decodeOp o w = .ok i) :
    decode (encRC o d s1 rc) = .ok i :=
  (decode_of_fieldOp (fieldOp_encRC ..)).trans (row _ (fieldD_encRC ..) (fieldS1_encRC ..) (fieldRC_encRC ..))

theorem decode_encCmpRR
    (row : ∀ w, fieldSel w = false → fieldD w = d → fieldS1 w = s1 → fieldS2 w = s2 → fieldOff w = off →
      decodeOp o w = .ok i) :
    decode (encCmpRR o d s1 s2 off) = .ok i :=
  (decode_of_fieldOp (fieldOp_encCmpRR ..)).trans (row _ (fieldSel_sixFields ..) (fieldD_sixFields ..)
    (fieldS1_sixFields ..) (fieldS2_sixFields ..) (fieldOff_sixFields ..))

theorem decode_encRRR
    (row : ∀ w, fieldSel w = false → fieldD w = d → fieldS1 w = s1 → fieldS2 w = s2 → decodeOp o w = .ok i) :
    decode (encRRR o d s1 s2) = .ok i :=
  decode_encCmpRR fun w hsel hd h1 h2 _ => row w hsel hd h1 h2

theorem decode_encStore
    (row : ∀ w, fieldSel w = true → fieldD w = d → fieldS2 w = s2 → decodeOp o w = .ok i) :
    decode (encStore o d s1 s2 off) = .ok i :=
  (decode_of_fieldOp (fieldOp_encStore ..)).trans (row _ (fieldSel_sixFields ..) (fieldD_sixFields ..)
    (fieldS2_sixFields ..))

theorem decode_encSC {sc : BitVec 14}
    (row : ∀ w, fieldSel w = true → fieldS2 w = s2 → fieldS1 w = s1 → fieldSC w = sc → decodeOp o w = .ok i) :
    decode (encSC o s2 s1 sc) = .ok i :=
  (decode_of_fieldOp (fieldOp_encSC ..)).trans (row _ (fieldSel_sixFields ..) (fieldS2_sixFields ..)
    (fieldS1_sixFields ..) (fieldSC_encSC ..))

theorem decode_encCC {cc : CC}
    (row : ∀ w, fieldD w = d → fieldS1 w = s1 → fieldCC w = cc → fieldOff w = off → decodeOp o w = .ok i) :
    decode (encCC o d s1 off cc) = .ok i := by
  rw [decode_of_fieldOp (fieldOp_encCC ..)]
  obtain ⟨sel, s2, word, operand⟩ := encCC_eq o d s1 off cc
  rw [word]
  exact row _ (fieldD_sixFields ..) (fieldS1_sixFields ..) (by simpa [fieldCC] using operand) (fieldOff_sixFields ..)

theorem decode_encTC {tc : BitVec 6}
    (row : ∀ w, fieldD w = d → fieldS1 w = s1 → fieldTc w = tc → fieldOff w = off → decodeOp o w = .ok i) :
    decode (encTC o d s1 tc off) = .ok i :=
  (decode_of_fieldOp (fieldOp_encTC ..)).trans (row _ (fieldD_encTC ..) (fieldS1_encTC ..) (fieldTc_encTC ..)
    (fieldOff_encTC ..))

end Formats

theorem needSet_of {w : Word} (h : fieldSel w = true) (i : Instr) : needSet w i = .ok i := if_pos h

theorem needClear_of {w : Word} (h : fieldSel w = false) (i : Instr) : needClear w i = .ok i := by
  simp [needClear, h]

/-- Settles O1, by the format of each instruction. -/
theorem decodeEncode : Obligations.DecodeEncode := by
  intro i
  cases i with
  | jump addr => exact (decode_encJump addr).1
  | call addr => exact (decode_encJump addr).2
  | ld40 | ld40Ro | cxr | cxrRo | ld32 | ld32Ro | ld32Ra | testAndSet | ldCache | ldSgl | ldSglRo | ldDbl | ldDblRo
  | ldExt1 | ldExt1Ro | ldExt2 | ldExt2Ro | ldInt | ldIntRo | addNt | add | sub | and | or | xor | sll | sra | srl
  | extract | wrTag | insert | wrSpecial => exact decode_encRC fun w => by rintro rfl rfl rfl; rfl
  | wrKpsw | jumpReg | ret | retTrap | retKernel => exact decode_encRC fun w => by rintro - rfl rfl; rfl
  | wrInsert => exact decode_encRC fun w => by rintro - - rfl; rfl
  | st40 | st32 | stCache | stSgl | stDbl | stExt1 | stExt2 | stInt =>
    exact decode_encSC fun w hsel => by rintro rfl rfl rfl; exact needSet_of hsel _
  | toFpu => exact decode_encStore fun w hsel => by rintro rfl rfl; exact needSet_of hsel _
  | cmpBrDelayed | cmpBrTrue | cmpTrap => exact decode_encCC fun w => by rintro rfl rfl rfl rfl; rfl
  | tagCmpBrDelayed | tagCmpBrTrue | tagCmpTrap => exact decode_encTC fun w => by rintro rfl rfl rfl rfl; rfl
  | fpCmpBrDelayed | fpCmpBrTrue =>
    exact decode_encCmpRR fun w hsel => by rintro rfl rfl rfl rfl; exact needClear_of hsel _
  | fadd | fsub | fmul | fdiv => exact decode_encRRR fun w hsel => by rintro rfl rfl rfl; exact needClear_of hsel _
  | fmov | fabs | fneg | float | fix | cvts | cvtd =>
    exact decode_encRRR fun w hsel => by rintro rfl rfl -; exact needClear_of hsel _
  | fromFpu => exact decode_encRRR fun w hsel => by rintro rfl - rfl; exact needClear_of hsel _
  | rdTag | rdSpecial => exact decode_encRRR fun w _ => by rintro rfl rfl -; rfl
  | rdInsert | rdKpsw => exact decode_encRRR fun w _ => by rintro rfl - -; rfl
  | sync | invalidateIb | callKernel => exact decode_encRRR fun _ _ _ _ _ => rfl

/-- A word that is the encoding of an instruction decodes to it. -/
theorem decode_of_encode {w : Word} {i : Instr} (h : encode i = w) : decode w = .ok i := h ▸ decodeEncode i

/-- Settles O2: each word is the encoding of its instruction. -/
theorem decodeSanity : Obligations.DecodeSanity :=
  ⟨decode_of_encode rfl, decode_of_encode rfl, decode_of_encode rfl, decode_of_encode rfl, decode_of_encode rfl,
    decode_of_encode rfl, decode_of_encode rfl, decode_of_encode rfl, decode_of_encode rfl, decode_of_encode rfl,
    decode_of_encode rfl⟩

/-! ### Unassigned opcodes (R133, R134, R346) -/

theorem needSet_ne_illegal (w : Word) (i : Instr) : needSet w i ≠ .error .illegalOpcode := by
  unfold needSet
  split <;> simp

theorem needClear_ne_illegal (w : Word) (i : Instr) : needClear w i ≠ .error .illegalOpcode := by
  unfold needClear
  split <;> simp

/-- A word with an assigned opcode is refused for its bit 14 or not at all. -/
theorem decodeOp_ne_illegal (o : Op) (w : Word) : decodeOp o w ≠ .error .illegalOpcode := by
  cases o with
  | st40 | st32 | stCache | toFpu | stSgl | stDbl | stExt1 | stExt2 | stInt => exact needSet_ne_illegal w _
  | fromFpu | fpCmpBrDelayed | fpCmpBrTrue | fadd | fsub | fmul | fdiv | fmov | fabs | fneg | float | fix | cvts
  | cvtd => exact needClear_ne_illegal w _
  | _ => nofun

theorem decode_illegal_iff (w : Word) :
    decode w = .error .illegalOpcode ↔
      (fieldOp w).extractLsb' 3 4 ≠ 0xC#4 ∧ (fieldOp w).extractLsb' 3 4 ≠ 0xE#4 ∧ opOf (fieldOp w) = none := by
  rw [← high_eq_fieldOp]
  unfold decode
  split
  next jump => simp [jump]
  next notJump =>
    split
    next call => simp [call]
    next notCall =>
      split
      next free => simp [notJump, notCall, free]
      next o row => simp [row, decodeOp_ne_illegal]

/-- The numbers of the seven-bit map that no row has (R133). -/
theorem unassigned_iff : ∀ b : BitVec 7,
    (b.extractLsb' 3 4 ≠ 0xC#4 ∧ b.extractLsb' 3 4 ≠ 0xE#4 ∧ opOf b = none) ↔
      b.toNat ∈ [0x00, 0x15, 0x16, 0x17, 0x21, 0x22, 0x23, 0x24, 0x25, 0x26, 0x27, 0x35, 0x36, 0x37, 0x4D, 0x4E, 0x4F,
        0x5B, 0x5C, 0x5D, 0x5E, 0x5F, 0x68, 0x69, 0x6A, 0x6B, 0x6C, 0x6D, 0x6E, 0x6F, 0x78, 0x79, 0x7A, 0x7B, 0x7C,
        0x7D, 0x7E, 0x7F] := by
  decide

/-- Trap entry neither reads nor writes the record of the last fault. -/
theorem takeTrap_faulted (c : FaultCause) (tt : TrapType) (s : State) :
    takeTrap tt (faulted c s) = faulted c (takeTrap tt s) := rfl

/-- A trap taken in `s` itself: what `takesTrap_of_touches` says of one taken with a fault on record, without that
record. -/
theorem takesTrap_takeTrap (tt : TrapType) (s : State) : TakesTrap s (takeTrap tt s) tt := by
  have recorded := MemoryManagement.takesTrap_of_touches (.refl s) .busFault tt
  rw [takeTrap_faulted] at recorded
  exact { recorded with status := { recorded.status with } }

theorem takesTrapOnly_takeTrap (tt : TrapType) (s : State) : TakesTrapOnly s (takeTrap tt s) tt where
  trap := takesTrap_takeTrap tt s
  memory := ⟨fun _ => by rw [takeTrap_mem], fun _ => by rw [takeTrap_cache], fun _ => by rw [takeTrap_remote]⟩
  fpu := ⟨takeTrap_fregs _ _, takeTrap_fpsw _ _, takeTrap_fpuPc _ _, takeTrap_fpuRun _ _, takeTrap_fpuExcep _ _,
    takeTrap_fpuExcKind _ _, takeTrap_fpuBrTF _ _⟩
  controller := ⟨takeTrap_gsn _ _, takeTrap_rptm _ _, takeTrap_rpteva _ _, takeTrap_intreg _ _, takeTrap_intmask _ _,
    takeTrap_counter0 _ _, takeTrap_counter1 _ _, takeTrap_faultInfo _ _, takeTrap_board _ _⟩
  latches := ⟨takeTrap_gva _ _, takeTrap_pteva _ _⟩

theorem stepWord_illegal {w : Word} {s : State} (illegal : decode w = .error .illegalOpcode)
    (quiet : interruptReady s = false) : stepWord w s = raiseIllegal s := by
  simp [stepWord, quiet, illegal]

/-- The illegal opcode exception has no enable of its own (R344). -/
theorem raiseIllegal_enabled {s : State} (h : kpswAllEn s = true) :
    raiseIllegal s = .next (takeTrap .illegalOpcode s) :=
  raiseOr_enabled (by rw [trapEnabled, h]; rfl) _

/-- Settles O3: a word is illegal where the decoder finds no row, and the trap has no enable but KPSW.all_en. -/
theorem illegalOpcodes : Obligations.IllegalOpcodes :=
  ⟨fun w => (decode_illegal_iff w).trans (unassigned_iff (fieldOp w)), fun _ s illegal quiet traps =>
    ⟨_, (stepWord_illegal illegal quiet).trans (raiseIllegal_enabled traps), takesTrapOnly_takeTrap _ s⟩⟩

/-! ### Operand forms (R126 to R128, R130, R132, R72, R73, R81) -/

/-- A global register is hidden by no window change, and no load has just written it. -/
theorem readable_of_global {s : State} {i : RegField} (hi : i.toNat < 10) (hs : s.pipe.loadShadow = none) :
    readable s i = true := by
  have notLocal : ¬ 10 ≤ i.toNat := by omega
  simp [readable, regShadowed, notLocal, hs]

theorem readFpu_of_unshadowed {s : State} {n : RegField} (h : s.pipe.loadShadow ≠ some (.fpu n)) (slot : Nat) :
    readFpu s slot n = fpuGet s n := by
  simp [readFpu, fpuShadowed, h]

/-- Clearing the low `k` bits rounds down to a multiple of `2 ^ k`. -/
theorem and_highMask {w : Nat} (a : BitVec w) (k : Nat) :
    a &&& BitVec.allOnes w <<< k = BitVec.ofNat w (a.toNat / 2 ^ k * 2 ^ k) := by
  rw [← BitVec.shiftLeft_ushiftRight]
  apply BitVec.eq_of_toNat_eq
  simp [Nat.shiftRight_eq_div_pow, Nat.shiftLeft_eq]

/-- A word offset counts words: its sign extension as a byte offset is four times its value. -/
theorem signExtend_wordOffset (off : BitVec 9) : (off ++ 0#2).signExtend 32 = BitVec.ofInt 32 (4 * off.toInt) :=
  congrArg (BitVec.ofInt 32) BitVec.toInt_append_zero

theorem branchTarget_eq (pc : Word) (off : BitVec 9) :
    branchTarget pc off = BitVec.ofInt 32 ((pc.toNat : Int) + 4 * off.toInt) := by
  rw [branchTarget, signExtend_wordOffset, BitVec.ofInt_add, BitVec.ofInt_natCast, BitVec.ofNat_toNat,
    BitVec.setWidth_eq]

theorem globalAddr_append (s : State) (n : BitVec 2) (o : BitVec 30) :
    globalAddr s (n ++ o) = (s.gsn[n.toNat]'n.isLt) ++ o := by
  have segment : (n ++ o).extractLsb' 30 2 = n := BitVec.extractLsb'_append_eq_left
  have offset : (n ++ o).extractLsb' 0 30 = o := BitVec.extractLsb'_append_eq_right
  simp only [globalAddr, segment, offset]

/-- Settles O15: each form by its own equation. -/
theorem operandForms : Obligations.OperandForms :=
  ⟨fun _ _ h => ⟨readReg_readable h _, readReg_readable h _, readReg_readable h _, readReg_readable h _⟩,
    fun _ _ => rfl, fun _ _ => rfl, fun _ _ _ => rfl, fun _ _ _ => rfl,
    fun _ _ => readable_of_global, fun _ slot _ h => readFpu_of_unshadowed h slot, fun _ _ h => dif_pos h,
    fun a => ⟨and_highMask a 2, and_highMask a 3⟩, branchTarget_eq, globalAddr_append⟩

end Sys2Proof.Proofs.Encoding

/-! Proofs of the family spec/40_loads.md: the loads of integer registers from memory, the cache and after a miss, their
tag traps, TEST_AND_SET, FROM_FPU, the FPU loads, and the operands that are refused. -/

namespace Sys2Proof.Proofs.Loads

open Sys2Proof Sys2Proof.Machine Sys2Proof.Safety Sys2Proof.Laws
open Sys2Proof.Proofs.MemoryManagement Sys2Proof.Proofs.Encoding

/-! ### An instruction on its way

A load waits for the FPU if it must, makes its access, writes its register and ends. `InFlight` says what the wait and
the access have left alone; what the end leaves alone, `finishLoad_only` and its like say. -/

/-- The instruction that started in `s` has got to `u`: of what a program sees it has touched only memory, the lines,
the latches and the FPU operation in progress, which is now `run`. -/
structure InFlight (s u : State) (run : Option FpuRun) : Prop where
  globals : u.globals = s.globals
  windows : u.windows = s.windows
  status : KeepsStatus s u
  trapRegs : KeepsTrapRegs s u
  buffer : KeepsBuffer s u
  controller : KeepsController { s with rpteva := u.rpteva } u
  fpu : FpuKept s u run
  nextPC : u.nextPC = s.nextPC
  kpsw : u.kpsw = s.kpsw
  cwp : u.cwp = s.cwp
  pipe : u.pipe = s.pipe
  free : u.free = s.free

theorem InFlight.refl (s : State) : InFlight s s s.fpuRun :=
  ⟨rfl, rfl, ⟨rfl, rfl, rfl⟩, ⟨rfl, rfl⟩, ⟨rfl, rfl, rfl⟩, ⟨rfl, rfl, rfl, rfl, rfl, rfl, rfl, rfl, rfl⟩,
    ⟨rfl, rfl, rfl, rfl, rfl, rfl, rfl⟩, rfl, rfl, rfl, rfl, rfl⟩

theorem inFlight_fpuWait (s : State) : InFlight s (fpuWait s) none :=
  ⟨rfl, rfl, ⟨rfl, rfl, rfl⟩, ⟨rfl, rfl⟩, ⟨rfl, rfl, rfl⟩, ⟨rfl, rfl, rfl, rfl, rfl, rfl, rfl, rfl, rfl⟩,
    ⟨rfl, rfl, rfl, rfl, rfl, rfl, rfl⟩, rfl, rfl, rfl, rfl, rfl⟩

theorem inFlight_fpuMemWait (s : State) : InFlight s (fpuMemWait s) (runAfterWait s) := by
  unfold fpuMemWait runAfterWait
  split
  · exact .refl s
  · exact inFlight_fpuWait s

/-- An access that stores nothing of its own takes the instruction on. -/
theorem InFlight.access {s u w : State} {run : Option FpuRun} (h : InFlight s u run) (ht : Touches u w)
    (hi : w.intreg = u.intreg) : InFlight s w run where
  globals := ht.globals.trans h.globals
  windows := ht.windows.trans h.windows
  status := ⟨ht.upsw.trans h.status.upsw, ht.swp.trans h.status.swp, ht.insert.trans h.status.insert⟩
  trapRegs := ⟨ht.trapPC.trans h.trapRegs.trapPC, ht.trapNextPC.trans h.trapRegs.trapNextPC⟩
  buffer := ⟨ht.ib.trans h.buffer.ib, ht.prefetch.trans h.buffer.prefetch, ht.past.trans h.buffer.past⟩
  controller := ⟨ht.gsn.trans h.controller.gsn, ht.rptm.trans h.controller.rptm, rfl, hi.trans h.controller.intreg,
    ht.intmask.trans h.controller.intmask, ht.counter0.trans h.controller.counter0,
    ht.counter1.trans h.controller.counter1, ht.faultInfo.trans h.controller.faultInfo,
    ht.board.trans h.controller.board⟩
  fpu := ⟨ht.fregs.trans h.fpu.fregs, ht.fpsw.trans h.fpu.fpsw, ht.fpuPc.trans h.fpu.fpuPc,
    ht.fpuRun.trans h.fpu.fpuRun, ht.fpuExcep.trans h.fpu.fpuExcep, ht.fpuExcKind.trans h.fpu.fpuExcKind,
    ht.fpuBrTF.trans h.fpu.fpuBrTF⟩
  nextPC := ht.nextPC.trans h.nextPC
  kpsw := ht.kpsw.trans h.kpsw
  cwp := ht.cwp.trans h.cwp
  pipe := ht.pipe.trans h.pipe
  free := ht.free.trans h.free

section Ends

variable {s u t : State} {run : Option FpuRun} (h : InFlight s u run)
include h

theorem InFlight.keepsRegs {l : List PhysReg} (k : KeepsRegs u t l) : KeepsRegs s t l :=
  fun r hr => (k r hr).trans (regGet_congr h.globals h.windows r)

theorem InFlight.keepsStatus (k : KeepsStatus u t) : KeepsStatus s t :=
  ⟨k.upsw.trans h.status.upsw, k.swp.trans h.status.swp, k.insert.trans h.status.insert⟩

theorem InFlight.keepsTrapRegs (k : KeepsTrapRegs u t) : KeepsTrapRegs s t :=
  ⟨k.trapPC.trans h.trapRegs.trapPC, k.trapNextPC.trans h.trapRegs.trapNextPC⟩

theorem InFlight.keepsBuffer (k : KeepsBuffer u t) : KeepsBuffer s t :=
  ⟨k.ib.trans h.buffer.ib, k.prefetch.trans h.buffer.prefetch, k.past.trans h.buffer.past⟩

theorem InFlight.keepsController (k : KeepsController u t) : KeepsController { s with rpteva := u.rpteva } t :=
  ⟨k.gsn.trans h.controller.gsn, k.rptm.trans h.controller.rptm, k.rpteva, k.intreg.trans h.controller.intreg,
    k.intmask.trans h.controller.intmask, k.counter0.trans h.controller.counter0,
    k.counter1.trans h.controller.counter1, k.faultInfo.trans h.controller.faultInfo,
    k.board.trans h.controller.board⟩

theorem InFlight.keepsSystem (hr : u.rpteva = s.rpteva) (k : KeepsSystem u t) : KeepsSystem s t := by
  have controller := h.keepsController k.controller
  rw [hr] at controller
  exact ⟨h.keepsStatus k.status, h.keepsTrapRegs k.trapRegs, controller, h.keepsBuffer k.buffer⟩

theorem InFlight.fpuKept (k : KeepsFpu u t) : FpuKept s t run :=
  ⟨k.fregs.trans h.fpu.fregs, k.fpsw.trans h.fpu.fpsw, k.fpuPc.trans h.fpu.fpuPc, k.fpuRun.trans h.fpu.fpuRun,
    k.fpuExcep.trans h.fpu.fpuExcep, k.fpuExcKind.trans h.fpu.fpuExcKind, k.fpuBrTF.trans h.fpu.fpuBrTF⟩

theorem InFlight.sequential {p : Pipe} (k : Sequential u t p) : Sequential s t p :=
  ⟨k.pc.trans h.nextPC, by rw [k.nextPC, h.nextPC], by rw [k.kpsw, h.kpsw, h.pipe], k.cwp.trans h.cwp, k.pipe⟩

theorem InFlight.destOf_eq (d : RegField) : destOf u d = destOf s d := by
  rw [destOf, destOf, h.cwp]

theorem InFlight.shadowOf_eq (d : RegField) : shadowOf u d = shadowOf s d := by
  rw [shadowOf, shadowOf, intTarget, intTarget, h.cwp]

end Ends

/-! ### FROM_FPU (R160, R401) -/

theorem fpuWord_of_unshadowed {s : State} {n : RegField} (h : s.pipe.loadShadow ≠ some (.fpu n)) (slot : Nat) :
    fpuWord s slot n = if n = 15#5 then s.fpsw.setWidth 32 else (fpuGet s n).frac.extractLsb' 32 32 := by
  simp [fpuWord, readFpu_of_unshadowed h, fpuPswNumber, fpuShadowed, h]

theorem destBlocked_of_writable {s : State} {d : RegField} (hw : writable s d = true) : destBlocked s d = false := by
  simpa [writable] using hw

theorem exec_fromFpu {s : State} {d n : RegField} (ready : fpuReady s = true) (field : isFpuField n = true)
    (hw : writable s d = true) :
    exec (.fromFpu d n) s = .next (finishLoad d (fixnum (fpuWord s slotFp1 n)) (fpuWait s)) := by
  show withFpu s _ = _
  simp [withFpu_of ready, field, destBlocked_of_writable hw]

/-- Settles O22: the end of the load in the state that has waited for the FPU. -/
theorem fromFpu : Obligations.FromFpu := by
  intro s d n ready field hw
  have waited := inFlight_fpuWait s
  have only := finishLoad_only d (fixnum (fpuWord s slotFp1 n)) (fpuWait s)
  exact ⟨_, fpuWord s slotFp1 n, exec_fromFpu ready field hw, finishLoad_dest d _ _,
    fun h => fpuWord_of_unshadowed h slotFp1, waited.keepsRegs only.regs, waited.keepsSystem rfl only.system,
    { only.memory with }, { only.latches with }, waited.fpuKept only.fpu,
    waited.sequential (finishLoad_sequential d _ _)⟩

/-! ### Operands that are refused -/

theorem dataCond_of_unassigned {cond : BitVec 5} (h : isDataCond cond = false) (a b : Tagged) :
    dataCond cond a b = none := by
  have range : ∀ c : BitVec 5, isDataCond c = false → 16 ≤ c.toNat ∧ c.toNat ≠ 0x1E ∧ c.toNat ≠ 0x1F := by decide
  obtain ⟨low, notEql, notNeql⟩ := range cond h
  unfold dataCond
  split
  pick_goal 19
  · rfl
  all_goals omega

theorem tagCond_of_unassigned {cond : BitVec 5} (h : isTagCond cond = false) (t tc : BitVec 6) :
    tagCond cond t tc = none := by
  have range : ∀ c : BitVec 5, isTagCond c = false →
      c.toNat ≠ 0x0C ∧ c.toNat ≠ 0x0D ∧ c.toNat ≠ 0x1C ∧ c.toNat ≠ 0x1D := by decide
  obtain ⟨h1, h2, h3, h4⟩ := range cond h
  unfold tagCond
  split
  pick_goal 5
  · rfl
  all_goals omega

/-- A compare with a code of no row is refused whatever follows it. -/
theorem dataCompare_of_unassigned {cond : RegField} (h : isDataCond cond = false) (s1 : RegField) (cc : CC) (s : State)
    (k : Bool → Out) : dataCompare cond s1 cc s k = .refused .unassignedCond := by
  rw [dataCompare, dataCond_of_unassigned h]
  rfl

theorem tagCompare_of_unassigned {cond : RegField} (h : isTagCond cond = false) (s1 : RegField) (tc : BitVec 6)
    (s : State) (k : Bool → Out) : tagCompare cond s1 tc s k = .refused .unassignedCond := by
  rw [tagCompare, tagCond_of_unassigned h]
  rfl

theorem destBlocked_of_loaded {s : State} {d : RegField} (hd : d ≠ 0#5)
    (h : s.pipe.loadShadow = some (.int (physReg s.cwp d))) : destBlocked s d = true := by
  simp [destBlocked, hd, h]

theorem writeGuard_blocked {s : State} {d : RegField} (h : destBlocked s d = true) (k : Out) :
    writeGuard d s k = .refused .shadowedWrite := by
  rw [writeGuard, if_pos h]

theorem loadGuard_blocked {s : State} {d : RegField} (h : destBlocked s d = true) (k : Out) :
    loadGuard d s k = .refused .shadowedWrite := by
  rw [loadGuard, if_pos h]

theorem loadGuard_afterTas {s : State} {d : RegField} (hw : writable s d = true) (ht : s.pipe.afterTas = true)
    (k : Out) : loadGuard d s k = .refused .afterTestAndSet := by
  simp [loadGuard, destBlocked_of_writable hw, ht]

theorem storeGuard_afterTas {s : State} (ht : s.pipe.afterTas = true) (k : Out) :
    storeGuard s k = .refused .afterTestAndSet := by
  rw [storeGuard, if_pos ht]

theorem slotGuard_prohibited {s : State} (h : s.pipe.slotOfTrue = true) (k : Out) :
    slotGuard s k = .refused .prohibitedSlot := by
  rw [slotGuard, if_pos h]

theorem loadFpu_badField {α : Type} {s : State} {d : RegField} (ready : fpuReady s = true)
    (h : isFpuDataField d = false) (x : State → Access α) (conv : State → α → FpReg) :
    loadFpu d x conv s = .refused .fpuRegister := by
  simp [loadFpu, withFpu_of ready, h]

theorem storeFpu_badField {s : State} {f : RegField} (ready : fpuReady s = true) (h : isFpuDataField f = false)
    (x : State → Access Unit) : storeFpu f x s = .refused .fpuRegister := by
  simp [storeFpu, withFpu_of ready, h]

theorem exec_wrSpecial_cwp_inSlot {s : State} (h : s.pipe.slotOfTrue = true) (s1 : RegField) (rc : RC) :
    exec (.wrSpecial 2#5 s1 rc) s = .refused .prohibitedSlot := if_pos h

/-- Settles O60: the guard of each instruction refuses before anything else is reached. -/
theorem stopsByName : Obligations.StopsByName :=
  fun _ _ s1 _ _ rc _ _ _ _ _ =>
    ⟨fun ready bad => ⟨loadFpu_badField ready bad _ _, storeFpu_badField ready bad _⟩,
      fun bad => ⟨dataCompare_of_unassigned bad .., dataCompare_of_unassigned bad ..⟩,
      fun bad => tagCompare_of_unassigned bad ..,
      rfl, rfl,
      fun hd loaded => ⟨writeGuard_blocked (destBlocked_of_loaded hd loaded) _,
        loadGuard_blocked (destBlocked_of_loaded hd loaded) _⟩,
      fun slot => ⟨slotGuard_prohibited slot _, slotGuard_prohibited slot _, exec_wrSpecial_cwp_inSlot slot s1 rc⟩,
      fun tas => ⟨storeGuard_afterTas tas _, fun hw => loadGuard_afterTas hw tas _⟩⟩

/-! ### Loads of an integer register: the access completes, then the register is written (R150, R171) -/

theorem loadInt_done {s u : State} {d : RegField} {x : Access Tagged} {v : Tagged} (hw : writable s d = true)
    (ht : s.pipe.afterTas = false) (hx : x = .done v u) : loadInt d x s = .next (finishLoad d v u) := by
  rw [loadInt, loadGuard_of hw ht, hx]
  rfl

theorem loadInt_refused {s : State} {d : RegField} {x : Access Tagged} {r : Refusal} (hw : writable s d = true)
    (ht : s.pipe.afterTas = false) (hx : x = .refused r) : loadInt d x s = .refused r := by
  rw [loadInt, loadGuard_of hw ht, hx]
  rfl

/-- The tag check of CXR passes or is off (R153, R344). -/
def CxrAllowed (s : State) (s1 : RegField) : Prop :=
  tagOf (src1 s s1) = 0x26#6 ∨ tagOf (src1 s s1) = 0x27#6 ∨ upswTagEn s = false ∨ kpswAllEn s = false

theorem cxrCheck_off {s : State} {s1 : RegField} (h : CxrAllowed s s1) :
    (excC (src1 s s1) && trapEnabled s .consOrNil) = false := by
  rcases h with h | h | h | h <;> simp [excC, tagCons, tagNil, trapEnabled, ownEnable, h]

/-- CXR with its check passed or off is LD_40. -/
theorem loadCxr_eq_loadInt {s : State} {s1 : RegField} (h : CxrAllowed s s1) (d : RegField) (rc : RC)
    (kind : AccessKind) : loadCxr d s1 rc kind s = loadInt d (readTagged s s1 rc kind) s := by
  rw [loadCxr, onCheckedAccess_off (cxrCheck_off h)]
  rfl

/-- `t` ends a load of `v` into `R[d]` whose access has got to `u`. -/
structure LoadEnds (u t : State) (d : RegField) (v : Tagged) (p : Pipe) : Prop where
  dest : regVal t d = if d = 0#5 then zeroTagged else v
  only : OnlyRegs u t (destOf u d)
  next : Sequential u t p
  remote : t.remote = u.remote

theorem finishLoad_ends (d : RegField) (v : Tagged) (u : State) :
    LoadEnds u (finishLoad d v u) d v (shadowOf u d) :=
  ⟨finishLoad_dest d v u, finishLoad_only d v u, finishLoad_sequential d v u, by simp [finishLoad]⟩

/-- The end of TEST_AND_SET: no load or store may follow (R405). -/
def finishTas (d : RegField) (v : Tagged) (u : State) : State :=
  { finishLoad d v u with pipe := { shadowOf u d with afterTas := true } }

theorem finishTas_ends (d : RegField) (v : Tagged) (u : State) :
    LoadEnds u (finishTas d v u) d v { shadowOf u d with afterTas := true } where
  dest := (regVal_congr rfl rfl rfl d).trans (finishLoad_dest d v u)
  only :=
    have only := finishLoad_only d v u
    { regs := fun r hr => (regGet_congr rfl rfl r).trans (only.regs r hr)
      system := ⟨{ only.system.status with }, { only.system.trapRegs with }, { only.system.controller with },
        { only.system.buffer with }⟩
      fpu := { only.fpu with }
      latches := { only.latches with }
      memory := { only.memory with } }
  next := { finishLoad_sequential d v u with pipe := rfl }
  remote := (finishLoad_ends d v u).remote

/-! ### An access that hits (R85, R112) -/

theorem cacheHit_parts {s : State} {a : Word} {l : Line} {write : Bool} (h : cacheHit s a l write = true) :
    kpswVaDfetch s = true ∧ cacheProbe s (globalAddr s a) = some l ∧ permits s l.prot write = true ∧
      l.cacheable = true := by
  simpa [cacheHit, and_assoc] using h

theorem uncachedHit_parts {s : State} {a : Word} {l : Line} {write : Bool} (h : uncachedHit s a l write = true) :
    kpswVaDfetch s = true ∧ cacheProbe s (globalAddr s a) = some l ∧ permits s l.prot write = true ∧
      l.cacheable = false ∧ responder s (lineAddr l a) = .board .ram := by
  simpa [uncachedHit, and_assoc] using h

theorem physicalRam_parts {s : State} {a : Word} (h : physicalRam s a = true) :
    kpswVaDfetch s = false ∧ responder s a = .board .ram := by
  simpa [physicalRam] using h

/-- The access to `a` of an instruction in `s` has hit and got to `u`: the line is `l1`, the address is latched, and
nothing else has changed. -/
structure HitDone (s u : State) (a : Word) (l1 : Line) : Prop where
  touches : Touches s u
  intreg : u.intreg = s.intreg
  rpteva : u.rpteva = s.rpteva
  latches : Latches s u a
  lines : KeepsLinesBut s u (globalAddr s a) l1

theorem remoteAfter_self {s : State} {g : GlobalAddr} {l : Line} (hit : cacheProbe s g = some l) :
    remoteAfter s g l = s.remote := by
  simp [remoteAfter, hit]

theorem remoteAfter_owned {s : State} {g : GlobalAddr} {l l1 : Line} (hit : cacheProbe s g = some l)
    (ho : l1.state = .ownedPrivate) : remoteAfter s g l1 = (gainOwnership s g l).remote := by
  unfold gainOwnership
  split
  next h => simp [remoteAfter, hit, h]
  next h => simp [remoteAfter, hit, ho, h]

theorem hitDone_vaRef {s : State} {a : Word} {l : Line} (hit : cacheProbe s (globalAddr s a) = some l) :
    HitDone s (vaRef s a) a l :=
  ⟨rfl, rfl, rfl, vaRef_latches s a, fun _ => rfl, fun _ _ => rfl, hit, (remoteAfter_self hit).symm⟩

/-- The ownership of the line gained and the line changed (R112, R452). -/
theorem hitDone_owned {s : State} {a : Word} {l l1 : Line} (hit : cacheProbe s (globalAddr s a) = some l)
    (hv : l1.vtag = l.vtag) (ho : l1.state = .ownedPrivate) :
    HitDone s (installLine (gainOwnership (vaRef s a) (globalAddr s a) l) (globalAddr s a) l1) a l1 := by
  have gained : gainOwnership (vaRef s a) (globalAddr s a) l =
      { vaRef s a with remote := (gainOwnership s (globalAddr s a) l).remote } := by
    unfold gainOwnership
    split <;> rfl
  rw [gained]
  exact ⟨rfl, rfl, rfl, { vaRef_latches s a with }, fun _ => rfl, fun _ hj => lineGet_linePut_other _ _ _ _ hj,
    cacheProbe_installLine_self _ _ _ (hv.trans (cacheProbe_some hit).2), (remoteAfter_owned hit ho).symm⟩

/-- A read that hits: the line as it was, or owned private if the read takes the ownership. -/
theorem hitDone_readState {s : State} {a : Word} {l : Line} (hit : cacheProbe s (globalAddr s a) = some l)
    (kind : AccessKind) :
    HitDone s (readState (vaRef s a) (globalAddr s a) l kind) a (ownLine l kind) := by
  unfold readState ownLine
  split
  · exact hitDone_owned hit rfl rfl
  · exact hitDone_vaRef hit

theorem HitDone.inFlight {s u : State} {a : Word} {l1 : Line} (h : HitDone s u a l1) : InFlight s u s.fpuRun :=
  (InFlight.refl s).access h.touches h.intreg

/-- The end of the instruction leaves the latches, memory and the lines as the access has left them. -/
theorem HitDone.kept {s u t : State} {a : Word} {l1 : Line} (h : HitDone s u a l1) (latches : KeepsLatches u t)
    (memory : KeepsMemory u t) (remote : t.remote = u.remote) :
    Latches s t a ∧ KeepsLinesBut s t (globalAddr s a) l1 := by
  have probe : cacheProbe t (globalAddr s a) = cacheProbe u (globalAddr s a) := by
    rw [cacheProbe, cacheProbe, memory.lines]
  refine ⟨⟨latches.gva.trans h.latches.gva, ?_, ?_, ?_⟩, fun x => (memory.bytes x).trans (h.lines.bytes x),
    fun j hj => (memory.lines j).trans (h.lines.lines j hj), probe.trans h.lines.line, remote.trans h.lines.remote⟩
  all_goals rw [latches.pteva]
  · exact h.latches.ptevaHigh
  · exact h.latches.ptevaPage
  · exact h.latches.ptevaLow

/-- A load whose access has hit. -/
theorem HitDone.loadsRegCached {i : Instr} {s u t : State} {d : RegField} {v : Tagged} {p : Pipe} {a : Word}
    {l1 : Line} (h : HitDone s u a l1) (he : exec i s = .next t) (ends : LoadEnds u t d v p) :
    LoadsRegCached i s d v p a l1 := by
  obtain ⟨latches, lines⟩ := h.kept ends.only.latches ends.only.memory ends.remote
  have way := h.inFlight
  have regs := way.keepsRegs ends.only.regs
  rw [way.destOf_eq] at regs
  exact ⟨t, he, ends.dest, regs, way.keepsSystem h.rpteva ends.only.system, way.fpuKept ends.only.fpu, latches, lines,
    way.sequential ends.next⟩

/-- An access in `s` that reads the line it hits, and a load that ends after it. -/
theorem loadsRegCached_of_read {i : Instr} {s : State} {d : RegField} {v : Tagged} {a : Word} {l : Line}
    {kind : AccessKind} (hit : cacheProbe s (globalAddr s a) = some l)
    (he : exec i s = .next (finishLoad d v (readState (vaRef s a) (globalAddr s a) l kind))) :
    LoadsRegCached i s d v (shadowOf s d) a (ownLine l kind) := by
  have reached := hitDone_readState hit kind
  rw [← reached.inFlight.shadowOf_eq d]
  exact reached.loadsRegCached he (finishLoad_ends d v _)

/-- A load that has gone past the cache: only the latches differ from a physical one (R84). -/
theorem loadsRegPast_of {i : Instr} {s : State} {d : RegField} {v : Tagged} {a : Word}
    (he : exec i s = .next (finishLoad d v (vaRef s a))) : LoadsRegPast i s d v a := by
  have ends := finishLoad_ends d v (vaRef s a)
  have only := ends.only
  have latched := vaRef_latches s a
  have way := (InFlight.refl s).access (vaRef_fetched s a).access.touches rfl
  refine ⟨_, he, ends.dest, way.keepsRegs only.regs, way.keepsSystem rfl only.system, way.fpuKept only.fpu,
    ⟨only.latches.gva, ?_, ?_, ?_⟩, { only.memory with }, way.sequential ends.next⟩
  all_goals rw [only.latches.pteva]
  · exact latched.ptevaHigh
  · exact latched.ptevaPage
  · exact latched.ptevaLow

/-! ### Accesses of the loads that do not miss -/

section Accesses

variable {s : State} {s1 : RegField} {rc : RC} {a : Word} {l : Line}

theorem readFixnum_physical (ram : physicalRam s (alignWord (sumRC s s1 rc)) = true) (kind : AccessKind) :
    readFixnum s s1 rc kind = .done (fixnum (memWord s.mem (alignWord (sumRC s s1 rc)))) s := by
  obtain ⟨physical, board⟩ := physicalRam_parts ram
  simp [readFixnum, readWord, physical, busRead_ram board, accessMap, accessThen]

theorem readFixnum_device (physical : kpswVaDfetch s = false)
    (board : responder s (alignWord (sumRC s s1 rc)) = .board .device) (kind : AccessKind) :
    ∃ w, readFixnum s s1 rc kind = .done (fixnum w) s := by
  refine ⟨freeVal s (slotBusData + 3) 32, ?_⟩
  simp [readFixnum, readWord, physical, busRead, board, boardRead, accessMap, accessThen]

theorem readFixnum_hit (ha : a = alignWord (sumRC s s1 rc)) (hit : cacheHit s a l false = true) {kind : AccessKind}
    (read : kindWrites kind = false) :
    readFixnum s s1 rc kind =
      .done (fixnum (lineWord l (globalAddr s a))) (readState (vaRef s a) (globalAddr s a) l kind) := by
  obtain ⟨virt, probe, allowed, cacheable⟩ := cacheHit_parts hit
  rw [readFixnum, ← ha, virt, readWord_hit probe (read ▸ allowed) cacheable]
  rfl

theorem readFixnum_uncachedHit (ha : a = alignWord (sumRC s s1 rc)) (hit : uncachedHit s a l false = true)
    {kind : AccessKind} (read : kindWrites kind = false) :
    readFixnum s s1 rc kind = .done (fixnum (memWord s.mem (lineAddr l a))) (vaRef s a) := by
  obtain ⟨virt, -, -, -, ram⟩ := uncachedHit_parts hit
  have board : responder (vaRef s a) (lineAddr l a) = .board .ram := ram
  have located := locate_uncachedHit (slot := slotBusData) (kind := kind) (read ▸ hit) (by simp [read])
  simp [readFixnum, ← ha, virt, readWord, located, accessThen, accessMap, busRead_ram board]

theorem readTagged_hit (ha : a = alignDouble (sumRC s s1 rc)) (hit : cacheHit s a l false = true) {kind : AccessKind}
    (read : kindWrites kind = false) :
    readTagged s s1 rc kind = .done (taggedOf (lineDouble l (globalAddr s a)))
      (readState (vaRef s a) (globalAddr s a) l kind) := by
  obtain ⟨virt, probe, allowed, cacheable⟩ := cacheHit_parts hit
  rw [readTagged, ← ha, virt, readDouble_hit probe (read ▸ allowed) cacheable]
  rfl

theorem readTagged_uncachedHit (hit : uncachedHit s (alignDouble (sumRC s s1 rc)) l false = true) {kind : AccessKind}
    (read : kindWrites kind = false) : readTagged s s1 rc kind = .refused .notCacheable := by
  obtain ⟨virt, -, -, -, -⟩ := uncachedHit_parts hit
  have located := locate_uncachedHit (slot := slotBusData) (kind := kind) (read ▸ hit) (by simp [read])
  simp [readTagged, virt, readDouble, located, accessThen, accessMap]

theorem testAndSetWord_hit {slot : Nat} (hit : cacheHit s a l true = true) (dirty : l.pageDirty = true) :
    testAndSetWord s true a slot = .done (lineWord l (globalAddr s a))
      (installLine (gainOwnership (vaRef s a) (globalAddr s a) l) (globalAddr s a)
        (lineSetWord (owned l) (globalAddr s a) (lineWord l (globalAddr s a) ||| 1#32))) := by
  obtain ⟨-, probe, allowed, cacheable⟩ := cacheHit_parts hit
  simp only [testAndSetWord, locate_hit (kind := .testSet) probe allowed cacheable, accessThen, writeLine, dirty,
    if_true]
  rfl

theorem writeDouble_hit {slot : Nat} (hit : cacheHit s a l true = true) (dirty : l.pageDirty = true) (d : DWord) :
    ∃ u, writeDouble s true a d slot = .done () u := by
  obtain ⟨-, probe, allowed, cacheable⟩ := cacheHit_parts hit
  simp only [writeDouble, locate_hit (kind := .write) probe allowed cacheable, accessThen, writeLine, dirty, if_true]
  exact ⟨_, rfl⟩

end Accesses

/-- The tagged word of a doubleword: its low word is the data, the low byte of its high word the tag (R151). -/
theorem taggedOf_append (high low : Word) :
    taggedOf (high ++ low) = { taggen := high.extractLsb' 0 8, data := low } := by
  rw [taggedOf, extract_append_high high low 32 8 (Nat.le_refl 32), BitVec.extractLsb'_append_eq_right]

/-! ### TEST_AND_SET (R158) -/

theorem exec_testAndSet {s u : State} {d s1 : RegField} {rc : RC} {old : Word} (hw : writable s d = true)
    (ht : s.pipe.afterTas = false)
    (hx : testAndSetWord s (kpswVaDfetch s) (alignWord (sumRC s s1 rc)) slotBusData = .done old u) :
    exec (.testAndSet d s1 rc) s = .next (finishTas d (fixnum old) u) := by
  show loadGuard d s _ = _
  rw [loadGuard_of hw ht, hx]
  simp only [onAccess, finishTas, (finishLoad_sequential d (fixnum old) u).pipe]

/-- Settles O20: a hit that changes its line, and the end of TEST_AND_SET. -/
theorem testAndSetCached : Obligations.TestAndSetCached := by
  intro s d s1 rc a l hw ht ha hit dirty
  obtain ⟨virt, probe, -, -⟩ := cacheHit_parts hit
  have reached := hitDone_owned (l1 := lineSetWord (owned l) (globalAddr s a) (lineWord l (globalAddr s a) ||| 1#32))
    probe rfl rfl
  have he := exec_testAndSet (d := d) (s1 := s1) (rc := rc) hw ht
    (by rw [← ha, virt]; exact testAndSetWord_hit hit dirty)
  rw [← reached.inFlight.shadowOf_eq d]
  exact reached.loadsRegCached he (finishTas_ends d _ _)

/-! ### The tag traps of CXR and ST_40 (R153, R154, R181) -/

theorem checkedAccess_traps {α : Type} {i : Instr} {s u : State} {c : Bool} {tt : TrapType} {v : α}
    {k : α → State → Out} (he : exec i s = onCheckedAccess c tt s (.done v u) k)
    (on : (c && trapEnabled s tt) = true) : Traps i s tt :=
  ⟨_, he.trans (onCheckedAccess_on on k), takesTrapOnly_takeTrap tt s⟩

theorem cxr_traps {i : Instr} {s : State} {d s1 : RegField} {rc : RC} {l : Line} {kind : AccessKind}
    (he : exec i s = loadCxr d s1 rc kind s) (hw : writable s d = true) (ht : s.pipe.afterTas = false)
    (hit : cacheHit s (alignDouble (sumRC s s1 rc)) l false = true) (read : kindWrites kind = false)
    (on : (excC (src1 s s1) && trapEnabled s .consOrNil) = true) : Traps i s .consOrNil := by
  rw [loadCxr, loadGuard_of hw ht, readTagged_hit rfl hit read] at he
  exact checkedAccess_traps he on

/-- Settles O19: the access would complete, so the check that is met and enabled traps. -/
theorem accessTagTraps : Obligations.AccessTagTraps := by
  refine ⟨fun s d s1 rc l hw ht hit notCons notNil tagEn allEn => ?_,
    fun s s2 s1 sc l ht hit dirty younger tagEn allEn => ?_⟩
  · have on : (excC (src1 s s1) && trapEnabled s .consOrNil) = true := by
      simp [excC, tagCons, tagNil, notCons, notNil, trapEnabled, ownEnable, tagEn, allEn]
    exact ⟨cxr_traps rfl hw ht hit rfl on, cxr_traps rfl hw ht hit rfl on⟩
  · have on : (excA (storedReg s s2) (src1 s s1) && trapEnabled s .generation) = true := by
      simp [excA, younger, trapEnabled, ownEnable, tagEn, allEn]
    obtain ⟨virt, -, -, -⟩ := cacheHit_parts hit
    obtain ⟨u, written⟩ := writeDouble_hit (slot := slotBusData) hit dirty (taggedImage s (storedReg s s2))
    refine checkedAccess_traps (v := ()) (u := u) (k := finishStore) ?_ on
    show storeGuard s _ = _
    rw [storeGuard, ht, virt, written]
    rfl

/-! ### An access that misses (R93, R97, R112) -/

/-- The instruction in `s`, whose access to `a` has missed and has been walked to `s1`, has got to `u`. -/
structure MissReached (s s1 u : State) (a : Word) : Prop where
  way : InFlight s u s.fpuRun
  rpteva : u.rpteva = s1.rpteva
  pteva : u.pteva = s1.pteva
  gva : u.gva.extractLsb' 5 33 = (globalAddr s a).extractLsb' 5 33

theorem missReached_walk {s s1 : State} {a pte : Word} {kind : AccessKind} (h : Misses s s1 a kind pte) :
    MissReached s s1 s1 a := by
  have walked : Accessed s s1 :=
    (vaRef_fetched s a).then ((walkFirst_ends (vaRef s a) a kind slotBusData).done h.walk).access
  exact ⟨(InFlight.refl s).access walked.touches walked.intreg, rfl, rfl,
    (walkFirst_gva (vaRef s a) a kind slotBusData).done h.walk⟩

/-- What is left of a load once its access has come back from a miss. -/
theorem MissReached.missDone {s s1 u t : State} {a : Word} {d : RegField} {v : Tagged} (h : MissReached s s1 u a)
    (ends : LoadEnds u t d v (shadowOf u d)) : MissDone s s1 t a (destOf s d) (shadowOf s d) := by
  obtain ⟨-, only, next, -⟩ := ends
  rw [h.way.destOf_eq] at only
  rw [h.way.shadowOf_eq] at next
  have controller := h.way.keepsController only.system.controller
  rw [h.rpteva] at controller
  exact ⟨h.way.keepsRegs only.regs, h.way.keepsStatus only.system.status, h.way.keepsTrapRegs only.system.trapRegs,
    h.way.keepsBuffer only.system.buffer, h.way.fpuKept only.fpu, controller, only.latches.pteva.trans h.pteva,
    by rw [only.latches.gva, h.gva], h.way.sequential next⟩

/-- A load whose access has missed, of a word that is not cached. -/
theorem loadsUncached_of {i : Instr} {s s1 : State} {d : RegField} {v : Tagged} {a pte : Word} {kind : AccessKind}
    (miss : Misses s s1 a kind pte) (he : exec i s = .next (finishLoad d v s1)) : LoadsUncached i s s1 d v a :=
  have ends := finishLoad_ends d v s1
  ⟨_, he, ends.dest, (missReached_walk miss).missDone ends, ends.only.memory⟩

/-- A missed access has filled its line from RAM and got to `u`. -/
structure FilledFromRam (s s1 u : State) (a pte : Word) (own : Bool) : Prop where
  reached : MissReached s s1 u a
  filled : Filled s1 u (globalAddr s a)
  held : cacheProbe u (globalAddr s a) = some (ramLine s1 (globalAddr s a) pte own)

/-- A line that a read for ownership has brought in is owned already. -/
theorem ownLine_ramLine (s1 : State) (g : GlobalAddr) (pte : Word) (kind : AccessKind) :
    ownLine (ramLine s1 g pte (kindOwns kind)) kind = ramLine s1 g pte (kindOwns kind) := by
  cases kind <;> rfl

theorem gainOwnership_ramLine {s s1 : State} {g : GlobalAddr} {pte : Word} {kind : AccessKind}
    (own : kindOwns kind = true) : gainOwnership s g (ramLine s1 g pte (kindOwns kind)) = s := by
  rw [own]
  exact if_pos rfl

/-- The read that brought the line in changes nothing more of it. -/
theorem FilledFromRam.read {s s1 u : State} {a pte : Word} {kind : AccessKind}
    (h : FilledFromRam s s1 u a pte (kindOwns kind)) :
    FilledFromRam s s1 (readState u (globalAddr s a) (ramLine s1 (globalAddr s a) pte (kindOwns kind)) kind) a pte
      (kindOwns kind) := by
  unfold readState
  split
  next own =>
    rw [gainOwnership_ramLine own, ownLine_ramLine]
    exact ⟨⟨h.reached.way.access rfl rfl, h.reached.rpteva, h.reached.pteva, h.reached.gva⟩,
      ⟨fun j hj => (lineGet_linePut_other _ _ _ _ hj).trans (h.filled.others j hj), h.filled.remote, h.filled.bytes,
        h.filled.writtenBack⟩,
      cacheProbe_installLine_self _ _ _ rfl⟩
  next => exact h

/-- A miss of a cacheable page with RAM behind it goes to the line that it fills. -/
theorem locate_fillsFromRam {s s1 : State} {a pte : Word} {kind : AccessKind} (miss : Misses s s1 a kind pte)
    (ram : FillsFromRam s1 (globalAddr s a) pte (pageAddr pte a)) :
    ∃ u, locate s a kind slotBusData =
        .done (.cached (globalAddr s a) (ramLine s1 (globalAddr s a) pte (kindOwns kind))) u ∧
      FilledFromRam s s1 u a pte (kindOwns kind) := by
  obtain ⟨u, fills, only, gva, filled, held⟩ := fillLine_ram (kindOwns kind) (slotBusData + 2) miss.memory ram
  have walked := missReached_walk miss
  refine ⟨u, ?_, ⟨walked.way.access (by unfold Touches; rw [only]) (by rw [only]), by rw [only], by rw [only],
    gva.trans walked.gva⟩, filled, held⟩
  rw [locate_miss miss, ram.cacheable, fills]
  rfl

theorem locate_nonCacheable {s s1 : State} {a pte : Word} {kind : AccessKind} (miss : Misses s s1 a kind pte)
    (nc : pteNc pte = true) : locate s a kind slotBusData = .done (.uncached (pageAddr pte a)) s1 := by
  rw [locate_miss miss, if_pos nc]

/-- A load that ends after a miss that has filled its line. -/
theorem FilledFromRam.loadsMissed {i : Instr} {s s1 u : State} {d : RegField} {v : Tagged} {a pte : Word} {own : Bool}
    (h : FilledFromRam s s1 u a pte own) (he : exec i s = .next (finishLoad d v u)) :
    LoadsMissed i s s1 d v a pte own := by
  have ends := finishLoad_ends d v u
  have cache : (finishLoad d v u).cache = u.cache := by simp [finishLoad]
  have mem : (finishLoad d v u).mem = u.mem := by simp [finishLoad]
  refine ⟨_, he, ends.dest, h.reached.missDone ends, ⟨?_, ends.remote.trans h.filled.remote, ?_, ?_⟩,
    holdsLine_ram ?_⟩
  · rw [cache]; exact h.filled.others
  · rw [mem]; exact h.filled.bytes
  · rw [mem]; exact h.filled.writtenBack
  · rw [cacheProbe, cache]; exact h.held

/-! ### LD_32, LD_32_RO, LD_32_RA (R155 to R157) -/

section Words

variable {i : Instr} {s s1 : State} {d r : RegField} {rc : RC} {a pte : Word} {l : Line} {kind : AccessKind}
  (he : exec i s = loadInt d (readFixnum s r rc kind) s) (hw : writable s d = true) (ht : s.pipe.afterTas = false)
include he hw ht

theorem wordLoad_physical (ram : physicalRam s (alignWord (sumRC s r rc)) = true) :
    LoadsReg i s d (fixnum (memWord s.mem (alignWord (sumRC s r rc)))) :=
  loadsReg_of (he.trans (loadInt_done hw ht (readFixnum_physical ram kind)))

theorem wordLoad_device (physical : kpswVaDfetch s = false)
    (board : responder s (alignWord (sumRC s r rc)) = .board .device) : ∃ w, LoadsReg i s d (fixnum w) := by
  obtain ⟨w, read⟩ := readFixnum_device physical board kind
  exact ⟨w, loadsReg_of (he.trans (loadInt_done hw ht read))⟩

theorem wordLoad_hit (ha : a = alignWord (sumRC s r rc)) (hit : cacheHit s a l false = true)
    (read : kindWrites kind = false) :
    LoadsRegCached i s d (fixnum (lineWord l (globalAddr s a))) (shadowOf s d) a (ownLine l kind) :=
  loadsRegCached_of_read (cacheHit_parts hit).2.1 (he.trans (loadInt_done hw ht (readFixnum_hit ha hit read)))

theorem wordLoad_past (ha : a = alignWord (sumRC s r rc)) (hit : uncachedHit s a l false = true)
    (read : kindWrites kind = false) : LoadsRegPast i s d (fixnum (memWord s.mem (lineAddr l a))) a :=
  loadsRegPast_of (he.trans (loadInt_done hw ht (readFixnum_uncachedHit ha hit read)))

theorem wordLoad_filled (ha : a = alignWord (sumRC s r rc)) (miss : Misses s s1 a kind pte)
    (ram : FillsFromRam s1 (globalAddr s a) pte (pageAddr pte a)) :
    LoadsMissed i s s1 d (fixnum (memWord s1.mem (pageAddr pte a))) a pte (kindOwns kind) := by
  obtain ⟨u, located, filled⟩ := locate_fillsFromRam miss ram
  have aligned : wordAligned a := ha ▸ alignWord_aligned _
  have read : readFixnum s r rc kind = .done (fixnum (memWord s1.mem (pageAddr pte a)))
      (readState u (globalAddr s a) (ramLine s1 (globalAddr s a) pte (kindOwns kind)) kind) := by
    rw [← lineWord_ram s s1 aligned pte (kindOwns kind)]
    simp [readFixnum, ← ha, miss.translated, readWord, located, accessThen, accessMap]
  exact filled.read.loadsMissed (he.trans (loadInt_done hw ht read))

theorem wordLoad_nonCacheable (ha : a = alignWord (sumRC s r rc)) (miss : Misses s s1 a kind pte)
    (nc : pteNc pte = true) (board : responder s1 (pageAddr pte a) = .board .ram) :
    LoadsUncached i s s1 d (fixnum (memWord s1.mem (pageAddr pte a))) a := by
  have read : readFixnum s r rc kind = .done (fixnum (memWord s1.mem (pageAddr pte a))) s1 := by
    simp [readFixnum, ← ha, miss.translated, readWord, locate_nonCacheable miss nc, accessThen, accessMap,
      busRead_ram board]
  exact loadsUncached_of miss (he.trans (loadInt_done hw ht read))

end Words

/-- Settles O17: each clause by what the access comes to there; the three loads differ in the kind of their access. -/
theorem loadWord : Obligations.LoadWord := by
  refine ⟨fun s d s1 rc hw ht ram => ?_, fun s d s1 rc a l v hw ht ha hit hv => ?_,
    fun s d s1 rc a l v hw ht ha hit hv => ?_, fun s d s1 rc hw ht physical board => ?_,
    fun s s1 d r rc a pte v hw ht ha hv i kind own load miss => ?_⟩
  · exact ⟨wordLoad_physical (kind := .read) rfl hw ht ram, wordLoad_physical (kind := .readOwn) rfl hw ht ram,
      wordLoad_physical (kind := .readAnyway) rfl hw ht ram⟩
  · subst hv
    exact ⟨wordLoad_hit (kind := .read) rfl hw ht ha hit rfl, wordLoad_hit (kind := .readOwn) rfl hw ht ha hit rfl,
      wordLoad_hit (kind := .readAnyway) rfl hw ht ha hit rfl⟩
  · subst hv
    exact ⟨wordLoad_past (kind := .read) rfl hw ht ha hit rfl, wordLoad_past (kind := .readOwn) rfl hw ht ha hit rfl,
      wordLoad_past (kind := .readAnyway) rfl hw ht ha hit rfl⟩
  · exact ⟨wordLoad_device (kind := .read) rfl hw ht physical board,
      wordLoad_device (kind := .readOwn) rfl hw ht physical board,
      wordLoad_device (kind := .readAnyway) rfl hw ht physical board⟩
  · obtain ⟨he, rfl⟩ : exec i s = loadInt d (readFixnum s r rc kind) s ∧ own = kindOwns kind := by
      rcases load with ⟨rfl, rfl, rfl⟩ | ⟨rfl, rfl, rfl⟩ | ⟨rfl, rfl, rfl⟩ <;> exact ⟨rfl, rfl⟩
    subst hv
    exact ⟨wordLoad_filled he hw ht ha miss, wordLoad_nonCacheable he hw ht ha miss⟩

/-! ### LD_40 and CXR (R151 to R154): the doubleword at an 8-aligned address -/

theorem alignDouble_words (a : Word) : wordAligned (alignDouble a) ∧ wordAligned (alignDouble a ||| 4#32) := by
  unfold wordAligned alignDouble
  rw [BitVec.extractLsb'_or, BitVec.extractLsb'_and]
  simp

/-- The high word of a doubleword: bit 2 of its address, in a page as in a segment. -/
theorem append_offset_or_four {m n : Nat} (hi : BitVec m) (a : Word) (hn : 2 < n) :
    hi ++ (a ||| 4#32).extractLsb' 0 n = (hi ++ a.extractLsb' 0 n) ||| 4#(m + n) := by
  have four (k w : Nat) : (4#w).getLsbD k = (decide (k < w) && decide (k = 2)) := by
    rw [BitVec.getLsbD_ofNat, show 4 = 2 ^ 2 from rfl, Nat.testBit_two_pow]
    simp [eq_comm]
  refine BitVec.eq_of_getLsbD_eq fun i h => ?_
  simp only [BitVec.getLsbD_append, BitVec.getLsbD_or, BitVec.getLsbD_extractLsb', four, Nat.zero_add]
  by_cases low : i < n
  · rcases eq_or_ne i 2 with rfl | two
    · simp [hn, h]
    · simp [low, two]
  · simp [low, show i ≠ 2 by omega]

theorem globalAddr_or_four (s : State) (a : Word) : globalAddr s (a ||| 4#32) = globalAddr s a ||| 4#38 := by
  have segment : (a ||| 4#32).extractLsb' 30 2 = a.extractLsb' 30 2 := by
    rw [BitVec.extractLsb'_or]
    simp
  simp only [globalAddr, segment]
  exact append_offset_or_four _ a (by decide)

theorem pageAddr_or_four (pte a : Word) : pageAddr pte (a ||| 4#32) = pageAddr pte a ||| 4#32 :=
  append_offset_or_four _ a (by decide)

/-- Both words of a doubleword are in one line. -/
theorem ramLine_or_four (s1 : State) (g : GlobalAddr) (pte : Word) (own : Bool) :
    ramLine s1 (g ||| 4#38) pte own = ramLine s1 g pte own := by
  have tag : lineTag (g ||| 4#38) = lineTag g := by
    rw [lineTag, BitVec.extractLsb'_or]
    simp [lineTag]
  have block : blockOn (ptePpn pte) (g ||| 4#38) = blockOn (ptePpn pte) g := by
    rw [blockOn, BitVec.extractLsb'_or]
    simp [blockOn]
  simp only [ramLine, filledLine, tag, block]

/-- The doubleword that an 8-aligned address selects in the line filled for it is the doubleword of RAM. -/
theorem lineDouble_ram (s s1 : State) {a x : Word} (ha : a = alignDouble x) (pte : Word) (own : Bool) :
    lineDouble (ramLine s1 (globalAddr s a) pte own) (globalAddr s a) =
      memWord s1.mem (pageAddr pte a ||| 4#32) ++ memWord s1.mem (pageAddr pte a) := by
  obtain ⟨low, high⟩ := alignDouble_words x
  rw [← ha] at low high
  have highWord := lineWord_ram s s1 high pte own
  rw [globalAddr_or_four, ramLine_or_four, pageAddr_or_four] at highWord
  rw [lineDouble, highWord, lineWord_ram s s1 low]

section Doubles

variable {i : Instr} {s s1 : State} {d r : RegField} {rc : RC} {a pte : Word} {l : Line} {kind : AccessKind}
  (he : exec i s = loadInt d (readTagged s r rc kind) s) (hw : writable s d = true) (ht : s.pipe.afterTas = false)
include he hw ht

theorem taggedLoad_hit (ha : a = alignDouble (sumRC s r rc)) (hit : cacheHit s a l false = true)
    (read : kindWrites kind = false) :
    LoadsRegCached i s d (taggedOf (lineDouble l (globalAddr s a))) (shadowOf s d) a (ownLine l kind) :=
  loadsRegCached_of_read (cacheHit_parts hit).2.1 (he.trans (loadInt_done hw ht (readTagged_hit ha hit read)))

theorem taggedLoad_uncachedHit (hit : uncachedHit s (alignDouble (sumRC s r rc)) l false = true)
    (read : kindWrites kind = false) : exec i s = .refused .notCacheable :=
  he.trans (loadInt_refused hw ht (readTagged_uncachedHit hit read))

theorem taggedLoad_filled (ha : a = alignDouble (sumRC s r rc)) (miss : Misses s s1 a kind pte)
    (ram : FillsFromRam s1 (globalAddr s a) pte (pageAddr pte a)) :
    LoadsMissed i s s1 d (taggedOf (memWord s1.mem (pageAddr pte a ||| 4#32) ++ memWord s1.mem (pageAddr pte a))) a pte
      (kindOwns kind) := by
  obtain ⟨u, located, filled⟩ := locate_fillsFromRam miss ram
  have read : readTagged s r rc kind =
      .done (taggedOf (memWord s1.mem (pageAddr pte a ||| 4#32) ++ memWord s1.mem (pageAddr pte a)))
        (readState u (globalAddr s a) (ramLine s1 (globalAddr s a) pte (kindOwns kind)) kind) := by
    rw [← lineDouble_ram s s1 ha pte (kindOwns kind)]
    simp [readTagged, ← ha, miss.translated, readDouble, located, accessThen, accessMap]
  exact filled.read.loadsMissed (he.trans (loadInt_done hw ht read))

theorem taggedLoad_nonCacheable (ha : a = alignDouble (sumRC s r rc)) (miss : Misses s s1 a kind pte)
    (nc : pteNc pte = true) : exec i s = .refused .notCacheable := by
  have read : readTagged s r rc kind = .refused .notCacheable := by
    simp [readTagged, ← ha, miss.translated, readDouble, locate_nonCacheable miss nc, accessThen, accessMap]
  exact he.trans (loadInt_refused hw ht read)

end Doubles

/-- Settles O18: a CXR whose check passes or is off is a tagged load, and those are settled by hit and miss. -/
theorem loadTaggedCached : Obligations.LoadTaggedCached := by
  refine ⟨fun s d s1 rc a l v hw ht ha hit hv => ?_, fun s s1 d r rc a pte v hw ht ha hv i kind own load miss => ?_,
    fun s d s1 rc l hw ht hit => ?_⟩
  · rw [← taggedOf_append] at hv
    subst hv
    exact ⟨taggedLoad_hit (kind := .read) rfl hw ht ha hit rfl, taggedLoad_hit (kind := .readOwn) rfl hw ht ha hit rfl,
      fun allowed => ⟨taggedLoad_hit (kind := .read) (loadCxr_eq_loadInt allowed d rc .read) hw ht ha hit rfl,
        taggedLoad_hit (kind := .readOwn) (loadCxr_eq_loadInt allowed d rc .readOwn) hw ht ha hit rfl⟩⟩
  · obtain ⟨he, rfl⟩ : exec i s = loadInt d (readTagged s r rc kind) s ∧ own = kindOwns kind := by
      rcases load with ⟨rfl, rfl, rfl⟩ | ⟨rfl, rfl, rfl⟩ | ⟨allowed, ⟨rfl, rfl, rfl⟩ | ⟨rfl, rfl, rfl⟩⟩
      · exact ⟨rfl, rfl⟩
      · exact ⟨rfl, rfl⟩
      · exact ⟨loadCxr_eq_loadInt allowed d rc .read, rfl⟩
      · exact ⟨loadCxr_eq_loadInt allowed d rc .readOwn, rfl⟩
    rw [← taggedOf_append] at hv
    subst hv
    exact ⟨taggedLoad_filled he hw ht ha miss, taggedLoad_nonCacheable he hw ht ha miss⟩
  · exact ⟨taggedLoad_uncachedHit (kind := .read) rfl hw ht hit rfl,
      taggedLoad_uncachedHit (kind := .readOwn) rfl hw ht hit rfl⟩

/-! ### The FPU loads (R161 to R170, R172) -/

/-- What an FPU load needs of the FPU and of its destination (R172, R174, R331, R405, R407). -/
structure FpuLoadReady (s : State) (d : RegField) : Prop where
  ready : fpuReady s = true
  field : isFpuDataField d = true
  unshadowed : fpuShadowed s d = false
  free : fpuFree s d = true
  notAfterTas : s.pipe.afterTas = false

/-- The end of an FPU load (R172). -/
def finishFpuLoad (d : RegField) (v : FpReg) (u : State) : State := advanceLoad (some (.fpu d)) (writeFpu u d v)

theorem finishFpuLoad_latches (d : RegField) (v : FpReg) (u : State) : KeepsLatches u (finishFpuLoad d v u) :=
  ⟨by simp [finishFpuLoad], by simp [finishFpuLoad]⟩

theorem finishFpuLoad_memory (d : RegField) (v : FpReg) (u : State) : KeepsMemory u (finishFpuLoad d v u) :=
  ⟨by simp [finishFpuLoad], by simp [finishFpuLoad], by simp [finishFpuLoad]⟩

theorem finishFpuLoad_remote (d : RegField) (v : FpReg) (u : State) : (finishFpuLoad d v u).remote = u.remote := by
  simp [finishFpuLoad]

theorem finishFpuLoad_system (d : RegField) (v : FpReg) (u : State) : KeepsSystem u (finishFpuLoad d v u) := by
  unfold finishFpuLoad
  exact ⟨⟨by simp, by simp, by simp⟩, ⟨by simp, by simp⟩,
    ⟨by simp, by simp, by simp, by simp, by simp, by simp, by simp, by simp, by simp⟩, ⟨by simp, by simp, by simp⟩⟩

theorem finishFpuLoad_sequential (d : RegField) (v : FpReg) (u : State) :
    Sequential u (finishFpuLoad d v u) { Pipe.idle with loadShadow := some (.fpu d) } := by
  unfold finishFpuLoad
  exact ⟨by simp, by simp, by simp, by simp, by simp⟩

theorem finishFpuLoad_regs (d : RegField) (v : FpReg) (u : State) : KeepsRegs u (finishFpuLoad d v u) [] :=
  keepsRegs_nil (by simp [finishFpuLoad]) (by simp [finishFpuLoad]) []

theorem loadFpu_done {α : Type} {s u : State} {d : RegField} (h : FpuLoadReady s d) {x : State → Access α} {w : α}
    (hx : x (fpuMemWait s) = .done w u) (conv : State → α → FpReg) :
    loadFpu d x conv s = .next (finishFpuLoad d (conv u w) u) := by
  have unused : fpuUses (fpuMemWait s) d = false := by simpa [fpuFree] using h.free
  rw [loadFpu, withFpu_of h.ready]
  simp [h.field, h.unshadowed, unused, h.notAfterTas, hx, onAccess, finishFpuLoad]

/-- The end of an FPU load whose access has got to `u`. -/
theorem InFlight.fpuLoaded {s u : State} {d : RegField} (h : InFlight s u (runAfterWait s))
    (hr : u.rpteva = s.rpteva) (field : isFpuDataField d = true) (v : FpReg) :
    FpuLoaded s (finishFpuLoad d v u) d v where
  dest := fpuGet_writeFpu_self u d v field
  others n hn := (fpuGet_writeFpu_other u d n v hn).trans (fpuGet_congr h.fpu.fregs n)
  fpsw := by simp [finishFpuLoad, h.fpu.fpsw]
  fpuPc := by simp [finishFpuLoad, h.fpu.fpuPc]
  fpuExcep := by simp [finishFpuLoad, h.fpu.fpuExcep]
  fpuExcKind := by simp [finishFpuLoad, h.fpu.fpuExcKind]
  fpuBrTF := by simp [finishFpuLoad, h.fpu.fpuBrTF]
  fpuRun := by simp [finishFpuLoad, h.fpu.fpuRun]
  cpu := ⟨h.keepsRegs (finishFpuLoad_regs d v u), h.keepsSystem hr (finishFpuLoad_system d v u)⟩
  next := h.sequential (finishFpuLoad_sequential d v u)

/-- A register made of what was read, of the free values of the instruction and of the register it replaces. -/
def ConvertsTo {α : Type} (conv : State → α → FpReg) (s : State) (w : α) (v : FpReg) : Prop :=
  ∀ t, t.free = s.free → t.fregs = s.fregs → conv t w = v

theorem unknownReg_congr {s t : State} (h : t.free = s.free) : unknownReg t = unknownReg s := by
  simp only [unknownReg, freeFpReg, freeVal, h]

theorem unpackSingle_converts (s : State) (w : Word) : ConvertsTo unpackSingle s w (unpackSingle s w) :=
  fun t h _ => by simp only [unpackSingle, unpackFields, unknownReg_congr h]

theorem unpackDouble_converts (s : State) (w : DWord) : ConvertsTo unpackDouble s w (unpackDouble s w) :=
  fun t h _ => by simp only [unpackDouble, unpackFields, unknownReg_congr h]

theorem intImageReg_converts (s : State) (w : Word) : ConvertsTo intImageReg s w (intImageReg s w) :=
  fun t h _ => by simp only [intImageReg, unknownReg_congr h]

/-- LD_EXT1 keeps F, LD_EXT2 all but F: what they make is made from the register before. -/
theorem fpuGet_converts {α : Type} (f : FpReg → α → FpReg) (s : State) (d : RegField) (w : α) :
    ConvertsTo (fun t w => f (fpuGet t d) w) s w (f (fpuGet s d) w) :=
  fun t _ h => by simp only [fpuGet_congr h]

theorem fpuMemWait_eq (s : State) : fpuMemWait s = { s with fpuRun := runAfterWait s } := by
  unfold fpuMemWait runAfterWait
  split <;> rfl

section FpuLoads

variable {i : Instr} {s : State} {d s1 : RegField} {rc : RC} {a : Word} {l : Line} {kind : AccessKind}

/-- The wait for the FPU changes nothing that an address is computed from. -/
theorem sumRC_fpuMemWait : sumRC (fpuMemWait s) s1 rc = sumRC s s1 rc := by
  rw [fpuMemWait_eq]
  cases rc <;> rfl

theorem globalAddr_fpuMemWait : globalAddr (fpuMemWait s) a = globalAddr s a := by
  rw [fpuMemWait_eq]
  rfl

theorem cacheHit_fpuMemWait {write : Bool} : cacheHit (fpuMemWait s) a l write = cacheHit s a l write := by
  rw [fpuMemWait_eq]
  rfl

theorem physicalRam_fpuMemWait : physicalRam (fpuMemWait s) a = physicalRam s a := by
  rw [fpuMemWait_eq]
  rfl

theorem readFpuWord_physical (ram : physicalRam s (alignWord (sumRC s s1 rc)) = true) :
    readFpuWord s1 rc kind (fpuMemWait s) = .done (memWord s.mem (alignWord (sumRC s s1 rc))) (fpuMemWait s) := by
  obtain ⟨physical, board⟩ := physicalRam_parts (physicalRam_fpuMemWait.trans ram)
  simp [readFpuWord, readWord, sumRC_fpuMemWait, physical, busRead_ram board]

theorem readFpuWord_hit (ha : a = alignWord (sumRC s s1 rc)) (hit : cacheHit s a l false = true)
    (read : kindWrites kind = false) :
    readFpuWord s1 rc kind (fpuMemWait s) = .done (lineWord l (globalAddr s a))
      (readState (vaRef (fpuMemWait s) a) (globalAddr s a) l kind) := by
  obtain ⟨virt, probe, allowed, cacheable⟩ := cacheHit_parts (cacheHit_fpuMemWait.trans hit)
  rw [readFpuWord, sumRC_fpuMemWait, ← ha, virt, readWord_hit probe (read ▸ allowed) cacheable,
    globalAddr_fpuMemWait]

theorem readFpuDouble_hit (ha : a = alignDouble (sumRC s s1 rc)) (hit : cacheHit s a l false = true)
    (read : kindWrites kind = false) :
    readFpuDouble s1 rc kind (fpuMemWait s) =
      .done (lineWord l (globalAddr s a ||| 4#38) ++ lineWord l (globalAddr s a))
        (readState (vaRef (fpuMemWait s) a) (globalAddr s a) l kind) := by
  obtain ⟨virt, probe, allowed, cacheable⟩ := cacheHit_parts (cacheHit_fpuMemWait.trans hit)
  rw [readFpuDouble, sumRC_fpuMemWait, ← ha, virt, readDouble_hit probe (read ▸ allowed) cacheable, lineDouble,
    globalAddr_fpuMemWait]

theorem keepsMemory_of_fpuMemWait {t : State} (h : KeepsMemory (fpuMemWait s) t) : KeepsMemory s t := by
  rw [fpuMemWait_eq] at h
  exact { h with }

theorem keepsLatches_of_fpuMemWait {t : State} (h : KeepsLatches (fpuMemWait s) t) : KeepsLatches s t := by
  rw [fpuMemWait_eq] at h
  exact { h with }

theorem keepsLinesBut_of_fpuMemWait {t : State} {g : GlobalAddr} {l1 : Line}
    (h : KeepsLinesBut (fpuMemWait s) t g l1) : KeepsLinesBut s t g l1 := by
  rw [fpuMemWait_eq] at h
  exact { h with }

theorem latches_of_fpuMemWait {t : State} (h : Latches (fpuMemWait s) t a) : Latches s t a := by
  rw [fpuMemWait_eq] at h
  exact { h with }

variable {α : Type} {x : State → Access α} {conv : State → α → FpReg} {w : α} {v : FpReg}

/-- An FPU load whose access leaves the state as the wait has left it: one from physical RAM. -/
theorem loadsFpu_of (h : FpuLoadReady s d) (he : exec i s = loadFpu d x conv s)
    (hx : x (fpuMemWait s) = .done w (fpuMemWait s)) (hv : ConvertsTo conv s w v) : LoadsFpu i s d v := by
  have way := inFlight_fpuMemWait s
  rw [loadFpu_done h hx, hv _ way.free way.fpu.fregs] at he
  exact ⟨_, he, way.fpuLoaded (fpuMemWait_rpteva s) h.field v, keepsMemory_of_fpuMemWait (finishFpuLoad_memory d v _),
    keepsLatches_of_fpuMemWait (finishFpuLoad_latches d v _)⟩

/-- An FPU load from a line that its access hits. -/
theorem loadsFpuCached_of (h : FpuLoadReady s d) (he : exec i s = loadFpu d x conv s)
    (hit : cacheHit s a l false = true)
    (hx : x (fpuMemWait s) = .done w (readState (vaRef (fpuMemWait s) a) (globalAddr s a) l kind))
    (hv : ConvertsTo conv s w v) : LoadsFpuCached i s d v a (ownLine l kind) := by
  obtain ⟨-, probe, -, -⟩ := cacheHit_parts (cacheHit_fpuMemWait.trans hit)
  have reached := hitDone_readState probe kind
  rw [globalAddr_fpuMemWait] at reached
  have way := (inFlight_fpuMemWait s).access reached.touches reached.intreg
  rw [loadFpu_done h hx, hv _ way.free way.fpu.fregs] at he
  obtain ⟨latches, lines⟩ := reached.kept (finishFpuLoad_latches d v _) (finishFpuLoad_memory d v _)
    (finishFpuLoad_remote d v _)
  rw [globalAddr_fpuMemWait] at lines
  exact ⟨_, he, way.fpuLoaded (reached.rpteva.trans (fpuMemWait_rpteva s)) h.field v, keepsLinesBut_of_fpuMemWait lines,
    latches_of_fpuMemWait latches⟩

end FpuLoads

/-- Settles O23: each load by its access, and by what it makes of the bits that it reads. -/
theorem fpuLoads : Obligations.FpuLoads := by
  refine ⟨fun s d s1 rc w ready field unshadowed free tas ram hw => ?_,
    fun s d s1 rc a l w ready field unshadowed free tas ha hit hw => ?_,
    fun s d s1 rc a l w ready field unshadowed free tas ha hit hw => ?_⟩
  · have h : FpuLoadReady s d := ⟨ready, field, unshadowed, free, tas⟩
    have read (kind : AccessKind) : readFpuWord s1 rc kind (fpuMemWait s) = .done w (fpuMemWait s) :=
      hw ▸ readFpuWord_physical ram
    exact ⟨loadsFpu_of h rfl (read .read) (unpackSingle_converts s w),
      loadsFpu_of h rfl (read .readOwn) (unpackSingle_converts s w),
      loadsFpu_of h rfl (read .read) (intImageReg_converts s w),
      loadsFpu_of h rfl (read .readOwn) (intImageReg_converts s w)⟩
  · have h : FpuLoadReady s d := ⟨ready, field, unshadowed, free, tas⟩
    subst hw
    have read := readFpuWord_hit (kind := .read) ha hit rfl
    have readOwn := readFpuWord_hit (kind := .readOwn) ha hit rfl
    exact ⟨loadsFpuCached_of h rfl hit read (unpackSingle_converts s _),
      loadsFpuCached_of h rfl hit readOwn (unpackSingle_converts s _),
      loadsFpuCached_of h rfl hit read (intImageReg_converts s _),
      loadsFpuCached_of h rfl hit readOwn (intImageReg_converts s _)⟩
  · have h : FpuLoadReady s d := ⟨ready, field, unshadowed, free, tas⟩
    have read := readFpuDouble_hit (kind := .read) ha hit rfl
    have readOwn := readFpuDouble_hit (kind := .readOwn) ha hit rfl
    rw [← hw] at read readOwn
    refine ⟨loadsFpuCached_of h rfl hit read (unpackDouble_converts s w),
      loadsFpuCached_of h rfl hit readOwn (unpackDouble_converts s w), fun x hx => ?_,
      loadsFpuCached_of h rfl hit read (fpuGet_converts (fun y f => { y with frac := f }) s d w),
      loadsFpuCached_of h rfl hit readOwn (fpuGet_converts (fun y f => { y with frac := f }) s d w)⟩
    subst hx
    exact ⟨loadsFpuCached_of h rfl hit read (fpuGet_converts ext1Fields s d w),
      loadsFpuCached_of h rfl hit readOwn (fpuGet_converts ext1Fields s d w)⟩

end Sys2Proof.Proofs.Loads

/-! Proofs of the family spec/41_stores.md: the word stores to RAM, to the cache and after a miss, the doubleword
stores to the cache, ST_CACHE, TO_FPU. -/

namespace Sys2Proof.Proofs.Stores

open Sys2Proof Sys2Proof.Machine Sys2Proof.Safety Sys2Proof.Laws
open Sys2Proof.Proofs.MemoryManagement Sys2Proof.Proofs.Loads

/-! ### The words of a line (R63) -/

theorem lineSetWord_getElem (l : Line) (g : GlobalAddr) (w : Word) (k : Nat) (hk : k < 8) :
    (lineSetWord l g w).words[k] = if k = (g.extractLsb' 2 3).toNat then w else l.words[k] := by
  simp only [lineSetWord, Vector.getElem_set, eq_comm]

theorem lineWord_lineSetWord_self (l : Line) (g : GlobalAddr) (w : Word) : lineWord (lineSetWord l g w) g = w := by
  rw [lineWord, lineSetWord_getElem, if_pos rfl]

theorem lineWord_lineSetWord_other (l : Line) {g h : GlobalAddr} (w : Word)
    (ne : h.extractLsb' 2 3 ≠ g.extractLsb' 2 3) : lineWord (lineSetWord l g w) h = lineWord l h := by
  rw [lineWord, lineSetWord_getElem, if_neg fun e => ne (BitVec.eq_of_toNat_eq e)]
  rfl

/-- An address and the one with bit 2 set name different words where bit 2 is 0. -/
theorem wordIndex_or_four_ne {g : GlobalAddr} (h : g.getLsbD 2 = false) :
    g.extractLsb' 2 3 ≠ (g ||| 4#38).extractLsb' 2 3 := fun e => by
  have bit := congrArg (BitVec.getLsbD · 0) e
  simp only [BitVec.getLsbD_extractLsb', BitVec.getLsbD_or, h] at bit
  exact absurd bit (by decide)

theorem extract_extract {n : Nat} (x : BitVec n) (k len i m : Nat) (h : i + m ≤ len) :
    (x.extractLsb' k len).extractLsb' i m = x.extractLsb' (k + i) m := by
  refine BitVec.eq_of_getLsbD_eq fun j hj => ?_
  simp only [BitVec.getLsbD_extractLsb', hj, show i + j < len by omega, decide_true, Bool.true_and, Nat.add_assoc]

/-- Words of different doublewords are different words. -/
theorem wordIndex_ne_of_double {g h : GlobalAddr} (ne : h.extractLsb' 3 2 ≠ g.extractLsb' 3 2) :
    h.extractLsb' 2 3 ≠ g.extractLsb' 2 3 := fun e => by
  have upper (x : GlobalAddr) : x.extractLsb' 3 2 = (x.extractLsb' 2 3).extractLsb' 1 2 :=
    (extract_extract x 2 3 1 2 (by decide)).symm
  exact ne (by rw [upper, upper, e])

theorem doubleIndex_or_four (g : GlobalAddr) : (g ||| 4#38).extractLsb' 3 2 = g.extractLsb' 3 2 := by
  rw [BitVec.extractLsb'_or]
  simp

/-- The line with a doubleword replaced. -/
def lineSetDouble (l : Line) (g : GlobalAddr) (d : DWord) : Line :=
  lineSetWord (lineSetWord l g (d.extractLsb' 0 32)) (g ||| 4#38) (d.extractLsb' 32 32)

section LineDouble

variable (l : Line) {g : GlobalAddr} (d : DWord)

theorem lineWord_lineSetDouble_low (h : g.getLsbD 2 = false) :
    lineWord (lineSetDouble l g d) g = d.extractLsb' 0 32 :=
  (lineWord_lineSetWord_other _ _ (wordIndex_or_four_ne h)).trans (lineWord_lineSetWord_self l g _)

theorem lineWord_lineSetDouble_high : lineWord (lineSetDouble l g d) (g ||| 4#38) = d.extractLsb' 32 32 :=
  lineWord_lineSetWord_self _ _ _

theorem lineWord_lineSetDouble_other {h : GlobalAddr} (ne : h.extractLsb' 3 2 ≠ g.extractLsb' 3 2) :
    lineWord (lineSetDouble l g d) h = lineWord l h :=
  (lineWord_lineSetWord_other _ _ (wordIndex_ne_of_double (by rwa [doubleIndex_or_four]))).trans
    (lineWord_lineSetWord_other l _ (wordIndex_ne_of_double ne))

end LineDouble

/-- Bit 2 of an address of a doubleword is 0, in its segment as in the process. -/
theorem globalAddr_alignDouble_bit2 (s : State) (a : Word) : (globalAddr s (alignDouble a)).getLsbD 2 = false := by
  simp only [globalAddr, alignDouble, BitVec.getLsbD_append, BitVec.getLsbD_extractLsb', BitVec.getLsbD_and]
  simp

/-! ### Word addresses (R73) -/

/-- The alignment of an address is in its offset in a line or page. -/
theorem append_offset_aligned {m n : Nat} (hi : BitVec m) {a : Word} (ha : wordAligned a) (hn : 2 ≤ n) :
    (hi ++ a.extractLsb' 0 n).extractLsb' 0 2 = 0#2 := by
  rw [BitVec.extractLsb'_append_eq_of_add_le (by omega), BitVec.extractLsb'_extractLsb'_of_le (by omega)]
  exact ha

theorem lineAddr_aligned (l : Line) {a : Word} (ha : wordAligned a) : wordAligned (lineAddr l a) :=
  append_offset_aligned _ ha (by decide)

theorem pageAddr_aligned (pte : Word) {a : Word} (ha : wordAligned a) : wordAligned (pageAddr pte a) :=
  append_offset_aligned _ ha (by decide)

/-! ### A store on its way

A store waits for the FPU if it must, makes its access and ends. `InFlight` says what the wait and the access have left
alone, and the end leaves alone the rest. -/

/-- The state in which a store makes its access: `run` is the FPU operation that goes on. -/
def withRun (s : State) (run : Option FpuRun) : State := { s with fpuRun := run }

theorem fpuMemWait_eq_withRun (s : State) : fpuMemWait s = withRun s (runAfterWait s) := fpuMemWait_eq s

theorem inFlight_withRun (s : State) (run : Option FpuRun) : InFlight s (withRun s run) run :=
  ⟨rfl, rfl, ⟨rfl, rfl, rfl⟩, ⟨rfl, rfl⟩, ⟨rfl, rfl, rfl⟩, ⟨rfl, rfl, rfl, rfl, rfl, rfl, rfl, rfl, rfl⟩,
    ⟨rfl, rfl, rfl, rfl, rfl, rfl, rfl⟩, rfl, rfl, rfl, rfl, rfl⟩

/-- The end of a store whose access has got to `u`. -/
theorem storeFrame_advance {s u : State} {run : Option FpuRun} (h : InFlight s u run) (hr : u.rpteva = s.rpteva) :
    StoreFrame s (advance u) run :=
  have only := advance_only u
  ⟨h.keepsRegs only.regs, h.keepsSystem hr only.system, h.fpuKept only.fpu, h.sequential (advance_sequential u)⟩

/-- What is left of a store once its access has come back from a miss. -/
theorem missDone_advance {s s1 u : State} {a : Word} (h : MissReached s s1 u a) :
    MissDone s s1 (advance u) a [] Pipe.idle := by
  have only := advance_only u
  have controller := h.way.keepsController only.system.controller
  rw [h.rpteva] at controller
  exact ⟨h.way.keepsRegs only.regs, h.way.keepsStatus only.system.status, h.way.keepsTrapRegs only.system.trapRegs,
    h.way.keepsBuffer only.system.buffer, h.way.fpuKept only.fpu, controller, h.pteva, h.gva,
    h.way.sequential (advance_sequential u)⟩

/-- A store that hits: what is latched, the line it has changed, and the frame. -/
theorem storeHit_advance {s u : State} {run : Option FpuRun} {a : Word} {l1 : Line}
    (h : HitDone (withRun s run) u a l1) :
    KeepsLinesBut s (advance u) (globalAddr s a) l1 ∧ StoreFrame s (advance u) run ∧ Latches s (advance u) a := by
  have only := advance_only u
  obtain ⟨latches, lines⟩ := h.kept only.latches only.memory rfl
  exact ⟨{ lines with }, storeFrame_advance ((inFlight_withRun s run).access h.touches h.intreg) h.rpteva,
    { latches with }⟩

/-! ### A word of RAM stored (R70, R455) -/

/-- The word at `p` of memory is `w`. -/
def putWord (s : State) (p w : Word) : State := { s with mem := memPutWord s.mem p w }

theorem busWrite_ram {s : State} {p : Word} (h : responder s p = .board .ram) (w : Word) :
    busWrite s p w = .done () (putWord s p w) := by
  simp only [busWrite, h, boardWrite, putWord]

theorem busWrite_device {s : State} {p : Word} (h : responder s p = .board .device) (w : Word) :
    busWrite s p w = .done () s := by
  simp only [busWrite, h, boardWrite]

theorem putWord_keeps {p : Word} (hp : wordAligned p) (s : State) (w : Word) :
    KeepsMemoryBut s (advance (putWord s p w)) p.toNat 4 :=
  ⟨memGet_memPutWord_other s.mem hp w, fun _ => rfl, fun _ => rfl⟩

theorem putWord_word {s : State} (hm : memWf s.mem = true) {p : Word} (hp : wordAligned p) (w : Word) :
    memWord (advance (putWord s p w)).mem p = w := memWord_memPutWord hm hp w

theorem inFlight_putWord {s u : State} {run : Option FpuRun} (h : InFlight s u run) (p w : Word) :
    InFlight s (putWord u p w) run := h.access rfl rfl

/-! ### The accesses of the stores -/

section Accesses

variable {s s1 : State} {a pte : Word} {l : Line} {slot : Nat}

/-- The line that a store hits, owned, its words changed. -/
def hitWritten (s : State) (a : Word) (l l1 : Line) : State :=
  installLine (gainOwnership (vaRef s a) (globalAddr s a) l) (globalAddr s a) l1

theorem writeWord_hitWritten (hit : cacheHit s a l true = true) (dirty : l.pageDirty = true) (w : Word) :
    writeWord s true a w slot = .done () (hitWritten s a l (lineSetWord (owned l) (globalAddr s a) w)) := by
  obtain ⟨-, probe, allowed, cacheable⟩ := cacheHit_parts hit
  simp only [writeWord, locate_hit (kind := .write) probe allowed cacheable, accessThen, writeLine, dirty, if_true]
  rfl

theorem writeDouble_hitWritten (hit : cacheHit s a l true = true) (dirty : l.pageDirty = true) (d : DWord) :
    writeDouble s true a d slot = .done () (hitWritten s a l (lineSetDouble (owned l) (globalAddr s a) d)) := by
  obtain ⟨-, probe, allowed, cacheable⟩ := cacheHit_parts hit
  simp only [writeDouble, locate_hit (kind := .write) probe allowed cacheable, accessThen, writeLine, dirty, if_true]
  rfl

theorem writeWord_uncachedHit (hit : uncachedHit s a l true = true) (dirty : l.pageDirty = true) (w : Word) :
    writeWord s true a w slot = .done () (putWord (vaRef s a) (lineAddr l a) w) := by
  obtain ⟨-, -, -, -, ram⟩ := uncachedHit_parts hit
  have board : responder (vaRef s a) (lineAddr l a) = .board .ram := ram
  simp only [writeWord, locate_uncachedHit (kind := .write) hit fun _ => dirty, accessThen, busWrite_ram board, if_true]

theorem writeWord_nonCacheable (miss : Misses s s1 a .write pte) (nc : pteNc pte = true)
    (board : responder s1 (pageAddr pte a) = .board .ram) (w : Word) :
    writeWord s true a w slotBusData = .done () (putWord s1 (pageAddr pte a) w) := by
  simp only [writeWord, locate_nonCacheable miss nc, accessThen, busWrite_ram board, if_true]

/-- A line that a miss has brought in and that is changed at once: what has been filled stays filled. -/
theorem filledFromRam_changed {u : State} {own : Bool} (h : FilledFromRam s s1 u a pte own) (l1 : Line) :
    MissReached s s1 (installLine u (globalAddr s a) l1) a ∧
      Filled s1 (installLine u (globalAddr s a) l1) (globalAddr s a) :=
  ⟨⟨h.reached.way.access rfl rfl, h.reached.rpteva, h.reached.pteva, h.reached.gva⟩,
    ⟨fun j hj => (lineGet_linePut_other _ _ _ _ hj).trans (h.filled.others j hj), h.filled.remote, h.filled.bytes,
      h.filled.writtenBack⟩⟩

/-- A word store that misses on a dirty page: the line is filled, owned, and its word changed. -/
theorem writeWord_filled (miss : Misses s s1 a .write pte)
    (ram : FillsFromRam s1 (globalAddr s a) pte (pageAddr pte a)) (dirty : pteDirty pte = true) (w : Word) :
    ∃ u, FilledFromRam s s1 u a pte true ∧ writeWord s true a w slotBusData =
      .done () (installLine u (globalAddr s a)
        (lineSetWord (ramLine s1 (globalAddr s a) pte true) (globalAddr s a) w)) := by
  obtain ⟨u, located, filled⟩ := locate_fillsFromRam miss ram
  have dirtyLine : (ramLine s1 (globalAddr s a) pte (kindOwns .write)).pageDirty = true := dirty
  refine ⟨u, filled, ?_⟩
  simp only [writeWord, located, accessThen, writeLine, dirtyLine, if_true, ownLine_ramLine,
    gainOwnership_ramLine (kind := .write) rfl]
  rfl

end Accesses

/-- The line that a store has filled and changed, word by word. -/
theorem holdsLine_changed {s s1 t : State} {a pte w : Word} {own : Bool}
    (h : cacheProbe t (globalAddr s a) =
      some (lineSetWord (ramLine s1 (globalAddr s a) pte own) (globalAddr s a) w)) :
    HoldsLine t (globalAddr s a) pte (pageAddr pte a) own true (fun k =>
      if k = ((globalAddr s a).extractLsb' 2 3).toNat then w else blockWord s1.mem (pageAddr pte a) k) :=
  ⟨_, h, blockOn_globalAddr pte s a, rfl, rfl, rfl, rfl, rfl, fun k => by
    refine (lineSetWord_getElem _ _ w k k.isLt).trans ?_
    simp [ramLine, filledLine, memBlock, blockOn_globalAddr pte s a, blockWord, blockWordAddr]⟩

/-! ### Word stores: ST_32, ST_SGL, ST_INT (R182, R185, R189) -/

/-- The guards of `i` let it pass, and it stores the word `w` at `a`, `run` the FPU operation that goes on. -/
def IsWordStore (i : Instr) (s : State) (run : Option FpuRun) (a w : Word) : Prop :=
  exec i s = onAccess (writeWord (withRun s run) (kpswVaDfetch s) a w slotBusData) finishStore

theorem storeGuard_of {s : State} (ht : s.pipe.afterTas = false) (k : Out) : storeGuard s k = k := by
  simp [storeGuard, ht]

theorem st32_isWordStore {s : State} (s2 s1 : RegField) (sc : BitVec 14) (ht : s.pipe.afterTas = false) :
    IsWordStore (.st32 s2 s1 sc) s s.fpuRun (alignWord (eaStore s s1 sc)) (storedReg s s2).data :=
  storeGuard_of ht _

/-! The register that an FPU store reads, and the image of it, do not depend on the operation in progress. -/

theorem storedFpu_withRun (s : State) (run : Option FpuRun) (f : RegField) :
    storedFpu (withRun s run) f = readFpu s slotFp1 f := rfl

theorem packSingle_withRun (s : State) (run : Option FpuRun) (x : FpReg) :
    packSingle (withRun s run) x = packSingle s x := rfl

theorem packDouble_withRun (s : State) (run : Option FpuRun) (x : FpReg) :
    packDouble (withRun s run) x = packDouble s x := rfl

theorem ext1Image_withRun (s : State) (run : Option FpuRun) (x : FpReg) :
    ext1Image (withRun s run) x = ext1Image s x := rfl

/-- What an FPU store needs of the FPU and of the register it stores (R174, R185, R331, R405, R407). -/
structure FpuStoreReady (s : State) (f : RegField) : Prop where
  ready : fpuReady s = true
  field : isFpuDataField f = true
  settled : fpuSettled s f = true
  notAfterTas : s.pipe.afterTas = false

/-- An FPU store that its guards let pass makes its access once it has waited for the FPU. -/
theorem storeFpu_of {s : State} {f : RegField} (h : FpuStoreReady s f) (x : State → Access Unit) :
    storeFpu f x s = onAccess (x (withRun s (runAfterWait s))) finishStore := by
  have unwritten : fpuWrites (fpuMemWait s) f = false := by simpa [fpuSettled] using h.settled
  rw [storeFpu, withFpu_of h.ready, ← fpuMemWait_eq_withRun]
  simp [h.field, unwritten, h.notAfterTas]

theorem fpuStore_isWordStore {i : Instr} {s : State} {f s1 : RegField} {sc : BitVec 14} {image : State → Word}
    {w : Word} (h : FpuStoreReady s f) (he : exec i s = storeFpu f (writeFpuWord s1 sc image) s)
    (hw : image (withRun s (runAfterWait s)) = w) :
    IsWordStore i s (runAfterWait s) (alignWord (eaStore s s1 sc)) w :=
  hw ▸ he.trans (storeFpu_of h _)

section WordStores

variable {i : Instr} {s s1 : State} {run : Option FpuRun} {a w pte : Word} {l : Line}

/-- The access completes, and the store ends. -/
theorem IsWordStore.done {u : State} {virt : Bool} (h : IsWordStore i s run a w) (hv : kpswVaDfetch s = virt)
    (hx : writeWord (withRun s run) virt a w slotBusData = .done () u) : exec i s = .next (advance u) := by
  rw [h, hv, hx]
  rfl

theorem IsWordStore.storesWord (h : IsWordStore i s run a w) (ha : wordAligned a) (hm : memWf s.mem = true)
    (ram : physicalRam s a = true) : StoresWord i s a w run := by
  obtain ⟨physical, board⟩ := physicalRam_parts ram
  have written : writeWord (withRun s run) false a w slotBusData = .done () (putWord (withRun s run) a w) :=
    busWrite_ram (s := withRun s run) board w
  exact ⟨_, h.done physical written, putWord_word (s := withRun s run) hm ha w,
    { putWord_keeps ha (withRun s run) w with },
    storeFrame_advance (inFlight_putWord (inFlight_withRun s run) a w) rfl, ⟨rfl, rfl⟩⟩

theorem IsWordStore.storesWordCached (h : IsWordStore i s run a w) (hit : cacheHit s a l true = true)
    (dirty : l.pageDirty = true) : StoresWordCached i s a l w run := by
  obtain ⟨virt, probe, -, -⟩ := cacheHit_parts hit
  have written := writeWord_hitWritten (s := withRun s run) (slot := slotBusData) hit dirty w
  have reached : HitDone (withRun s run) _ a (lineSetWord (owned l) (globalAddr s a) w) := hitDone_owned probe rfl rfl
  exact ⟨_, _, h.done virt written, lineWord_lineSetWord_self _ _ w, fun g => lineWord_lineSetWord_other (owned l) w,
    rfl, rfl, rfl, rfl, rfl, storeHit_advance reached⟩

/-- A hit on a line with the mark of a non-cacheable page goes past the cache (R84, log 11). -/
theorem IsWordStore.storesWordPast (h : IsWordStore i s s.fpuRun a w) (ha : wordAligned a) (hm : memWf s.mem = true)
    (hit : uncachedHit s a l true = true) (dirty : l.pageDirty = true) :
    StoresWordPast i s a (lineAddr l a) w := by
  obtain ⟨virt, -, -, -, -⟩ := uncachedHit_parts hit
  have aligned := lineAddr_aligned l ha
  have written := writeWord_uncachedHit (slot := slotBusData) hit dirty w
  have way := (InFlight.refl s).access (vaRef_fetched s a).access.touches rfl
  exact ⟨_, h.done virt written, putWord_word (s := vaRef s a) hm aligned w,
    { putWord_keeps aligned (vaRef s a) w with },
    storeFrame_advance (inFlight_putWord way _ w) rfl, { vaRef_latches s a with }⟩

theorem IsWordStore.toDevice (h : IsWordStore i s s.fpuRun a w) (physical : kpswVaDfetch s = false)
    (board : responder s a = .board .device) :
    ∃ t, exec i s = .next t ∧ OnlyRegs s t [] ∧ Sequential s t Pipe.idle := by
  have written : writeWord s false a w slotBusData = .done () s := busWrite_device board w
  exact ⟨_, h.done physical written, advance_only s, advance_sequential s⟩

/-- A miss on a dirty page (R93, R112). -/
theorem IsWordStore.missFilled (h : IsWordStore i s s.fpuRun a w) (miss : Misses s s1 a .write pte)
    (ram : FillsFromRam s1 (globalAddr s a) pte (pageAddr pte a)) (dirty : pteDirty pte = true) :
    ∃ t, exec i s = .next t ∧ MissDone s s1 t a [] Pipe.idle ∧ Filled s1 t (globalAddr s a) ∧
      HoldsLine t (globalAddr s a) pte (pageAddr pte a) true true (fun k =>
        if k = ((globalAddr s a).extractLsb' 2 3).toNat then w else blockWord s1.mem (pageAddr pte a) k) := by
  obtain ⟨u, filled, written⟩ := writeWord_filled miss ram dirty w
  obtain ⟨reached, lines⟩ := filledFromRam_changed filled
    (lineSetWord (ramLine s1 (globalAddr s a) pte true) (globalAddr s a) w)
  exact ⟨_, h.done miss.translated written, missDone_advance reached, { lines with },
    holdsLine_changed (cacheProbe_installLine_self u _ _ rfl)⟩

/-- A miss on a non-cacheable page (R84). -/
theorem IsWordStore.missNonCacheable (h : IsWordStore i s s.fpuRun a w) (ha : wordAligned a)
    (miss : Misses s s1 a .write pte) (nc : pteNc pte = true) (board : responder s1 (pageAddr pte a) = .board .ram) :
    ∃ t, exec i s = .next t ∧ MissDone s s1 t a [] Pipe.idle ∧ memWord t.mem (pageAddr pte a) = w ∧
      KeepsMemoryBut s1 t (pageAddr pte a).toNat 4 := by
  have aligned := pageAddr_aligned pte ha
  have written := writeWord_nonCacheable miss nc board w
  have walked := missReached_walk miss
  have reached : MissReached s s1 (putWord s1 (pageAddr pte a) w) a :=
    { walked with way := inFlight_putWord walked.way _ w }
  exact ⟨_, h.done miss.translated written, missDone_advance reached, putWord_word miss.memory aligned w,
    putWord_keeps aligned s1 w⟩

end WordStores

section FpuWordStores

variable {s : State} {f : RegField} (h : FpuStoreReady s f) (s1 : RegField) (sc : BitVec 14)
include h

theorem stSgl_isWordStore :
    IsWordStore (.stSgl f s1 sc) s (runAfterWait s) (alignWord (eaStore s s1 sc))
      (packSingle s (readFpu s slotFp1 f)) :=
  fpuStore_isWordStore h rfl (by rw [packSingle_withRun, storedFpu_withRun])

theorem stInt_isWordStore :
    IsWordStore (.stInt f s1 sc) s (runAfterWait s) (alignWord (eaStore s s1 sc))
      ((readFpu s slotFp1 f).frac.extractLsb' 32 32) :=
  fpuStore_isWordStore h rfl (by rw [storedFpu_withRun])

end FpuWordStores

/-- Settles O25: each clause by what the word's access comes to there; the three stores differ in the word. -/
theorem storeWord : Obligations.StoreWord := by
  refine ⟨fun s s2 s1 sc hm ht ram => ?_, fun s f s1 sc hm ready field settled ht ram => ?_,
    fun s s2 s1 sc l ht hit dirty => ?_, fun s s2 s1 sc a l hm ht ha hit dirty => ?_,
    fun s f s1 sc l ready field settled ht hit dirty => ?_, fun s s2 s1 sc ht physical board => ?_,
    fun s s1 s2 r sc a pte p w g ht ha hg hp hw miss => ?_⟩
  · exact (st32_isWordStore s2 s1 sc ht).storesWord (alignWord_aligned _) hm ram
  · have h : FpuStoreReady s f := ⟨ready, field, settled, ht⟩
    exact ⟨(stSgl_isWordStore h s1 sc).storesWord (alignWord_aligned _) hm ram,
      (stInt_isWordStore h s1 sc).storesWord (alignWord_aligned _) hm ram⟩
  · exact (st32_isWordStore s2 s1 sc ht).storesWordCached hit dirty
  · subst ha
    exact (st32_isWordStore s2 s1 sc ht).storesWordPast (alignWord_aligned _) hm hit dirty
  · have h : FpuStoreReady s f := ⟨ready, field, settled, ht⟩
    exact ⟨(stSgl_isWordStore h s1 sc).storesWordCached hit dirty,
      (stInt_isWordStore h s1 sc).storesWordCached hit dirty⟩
  · exact (st32_isWordStore s2 s1 sc ht).toDevice physical board
  · subst ha hg hp hw
    have store := st32_isWordStore s2 r sc ht
    exact ⟨store.missFilled miss, store.missNonCacheable (alignWord_aligned _) miss⟩

/-! ### Doubleword stores: ST_40, ST_DBL, ST_EXT1, ST_EXT2 (R181, R186 to R188) -/

/-- The guards of `i` let it pass, and it stores the doubleword `d` at `a`, `run` the FPU operation that goes on. -/
def IsDoubleStore (i : Instr) (s : State) (run : Option FpuRun) (a : Word) (d : DWord) : Prop :=
  exec i s = onAccess (writeDouble (withRun s run) (kpswVaDfetch s) a d slotBusData) finishStore

/-- The generation check of ST_40 passes or is off (R181, R344). -/
def St40Allowed (s : State) (s2 s1 : RegField) : Prop :=
  (genOf (storedReg s s2)).toNat ≤ (genOf (src1 s s1)).toNat ∨ upswTagEn s = false ∨ kpswAllEn s = false

theorem st40Check_off {s : State} {s2 s1 : RegField} (h : St40Allowed s s2 s1) :
    (excA (storedReg s s2) (src1 s s1) && trapEnabled s .generation) = false := by
  rcases h with h | h | h <;> simp [excA, trapEnabled, ownEnable, h]

theorem st40_isDoubleStore {s : State} {s2 s1 : RegField} (sc : BitVec 14) (ht : s.pipe.afterTas = false)
    (allowed : St40Allowed s s2 s1) :
    IsDoubleStore (.st40 s2 s1 sc) s s.fpuRun (alignDouble (eaStore s s1 sc)) (taggedImage s (storedReg s s2)) :=
  (storeGuard_of ht _).trans (onCheckedAccess_off (st40Check_off allowed) _ _)

theorem fpuStore_isDoubleStore {i : Instr} {s : State} {f s1 : RegField} {sc : BitVec 14} {image : State → DWord}
    {d : DWord} (h : FpuStoreReady s f) (he : exec i s = storeFpu f (writeFpuDouble s1 sc image) s)
    (hd : image (withRun s (runAfterWait s)) = d) :
    IsDoubleStore i s (runAfterWait s) (alignDouble (eaStore s s1 sc)) d :=
  hd ▸ he.trans (storeFpu_of h _)

section FpuDoubleStores

variable {s : State} {f : RegField} (h : FpuStoreReady s f) (s1 : RegField) (sc : BitVec 14)
include h

theorem stDbl_isDoubleStore :
    IsDoubleStore (.stDbl f s1 sc) s (runAfterWait s) (alignDouble (eaStore s s1 sc))
      (packDouble s (readFpu s slotFp1 f)) :=
  fpuStore_isDoubleStore h rfl (by rw [packDouble_withRun, storedFpu_withRun])

theorem stExt1_isDoubleStore :
    IsDoubleStore (.stExt1 f s1 sc) s (runAfterWait s) (alignDouble (eaStore s s1 sc))
      (ext1Image s (readFpu s slotFp1 f)) :=
  fpuStore_isDoubleStore h rfl (by rw [ext1Image_withRun, storedFpu_withRun])

theorem stExt2_isDoubleStore :
    IsDoubleStore (.stExt2 f s1 sc) s (runAfterWait s) (alignDouble (eaStore s s1 sc)) (readFpu s slotFp1 f).frac :=
  fpuStore_isDoubleStore h rfl (by rw [storedFpu_withRun])

end FpuDoubleStores

/-- The high word is said by a property, since some of its bits are any value (R181, R187). -/
theorem IsDoubleStore.storesDouble {i : Instr} {s : State} {run : Option FpuRun} {a x : Word} {d : DWord} {l : Line}
    {high : Word → Prop} (h : IsDoubleStore i s run a d) (ha : a = alignDouble x) (hit : cacheHit s a l true = true)
    (dirty : l.pageDirty = true) (hh : high (d.extractLsb' 32 32)) :
    StoresDouble i s a l (d.extractLsb' 0 32) high run := by
  obtain ⟨virt, probe, -, -⟩ := cacheHit_parts hit
  have bit2 : (globalAddr s a).getLsbD 2 = false := ha ▸ globalAddr_alignDouble_bit2 s x
  have written := writeDouble_hitWritten (s := withRun s run) (slot := slotBusData) hit dirty d
  have he := h
  rw [IsDoubleStore, virt, written] at he
  have reached : HitDone (withRun s run) _ a (lineSetDouble (owned l) (globalAddr s a) d) := hitDone_owned probe rfl rfl
  rw [← lineWord_lineSetDouble_high (owned l) (g := globalAddr s a)] at hh
  exact ⟨_, _, he, lineWord_lineSetDouble_low _ d bit2, hh, fun g => lineWord_lineSetDouble_other _ d, rfl, rfl, rfl,
    rfl, rfl, storeHit_advance reached⟩

/-! ### The images of the doubleword stores -/

theorem taggedImage_low (s : State) (v : Tagged) : (taggedImage s v).extractLsb' 0 32 = v.data :=
  BitVec.extractLsb'_append_eq_right

theorem taggedImage_high (s : State) (v : Tagged) :
    ((taggedImage s v).extractLsb' 32 32).extractLsb' 0 8 = v.taggen := by
  rw [taggedImage, extract_append_high _ _ _ _ (by decide), extract_all]
  exact BitVec.extractLsb'_append_eq_right

/-- The upper word of an extended1 image. -/
theorem ext1Image_high (s : State) (x : FpReg) :
    ((ext1Image s x).extractLsb' 32 32).getLsbD 31 = x.sign ∧
      ((ext1Image s x).extractLsb' 32 32).extractLsb' 14 17 = x.exp ∧
      ((ext1Image s x).extractLsb' 32 32).extractLsb' 2 3 = x.type ∧
      ((ext1Image s x).extractLsb' 32 32).extractLsb' 0 2 = x.rtag := by
  have upper : (ext1Image s x).extractLsb' 32 32 =
      BitVec.ofBool x.sign ++ x.exp ++ freeVal s slotStore 9 ++ x.type ++ x.rtag := by
    rw [ext1Image, extract_append_high _ _ _ _ (by decide)]
    exact extract_all _
  rw [upper]
  refine ⟨?_, ?_, ?_, BitVec.extractLsb'_append_eq_right⟩
  · simp only [BitVec.getLsbD_append]
    simp
  · rw [extract_append_high _ _ _ _ (by decide), extract_append_high _ _ _ _ (by decide),
      extract_append_high _ _ _ _ (by decide)]
    exact BitVec.extractLsb'_append_eq_right
  · rw [extract_append_high _ _ _ _ (by decide)]
    exact BitVec.extractLsb'_append_eq_right

/-- Settles O27: each store changes its line by its own image, and the defined bits of the images are read off. -/
theorem storeDoubleCached : Obligations.StoreDoubleCached := by
  refine ⟨fun s s2 s1 sc l ht hit dirty allowed => ?_, fun s f s1 sc a l x ready field settled ht ha hit dirty hx => ?_⟩
  · have store := st40_isDoubleStore sc ht allowed
    rw [← taggedImage_low s (storedReg s s2)]
    exact store.storesDouble rfl hit dirty (taggedImage_high s _)
  · have h : FpuStoreReady s f := ⟨ready, field, settled, ht⟩
    subst ha hx
    exact ⟨(stDbl_isDoubleStore h s1 sc).storesDouble rfl hit dirty rfl,
      (stExt2_isDoubleStore h s1 sc).storesDouble rfl hit dirty rfl, _,
      (stExt1_isDoubleStore h s1 sc).storesDouble rfl hit dirty (ext1Image_high s _)⟩

/-! ### ST_CACHE (R183, R105) -/

/-- Byte `b` of a register, moved to its place. -/
theorem byteInPlace_getLsbD {w k : Nat} (x : Byte) (b : Nat) (hk : k < w) :
    (x.setWidth w <<< (8 * b)).getLsbD k = (decide (b = k / 8) && x.getLsbD (k % 8)) := by
  rw [BitVec.getLsbD_shiftLeft, BitVec.getLsbD_setWidth]
  by_cases hb : b = k / 8
  · subst hb
    have offset : k - 8 * (k / 8) = k % 8 := by omega
    simp [hk, offset, show ¬ k < 8 * (k / 8) by omega, show k % 8 < w by omega]
  · rcases (by omega : k < 8 * b ∨ 8 ≤ k - 8 * b) with below | above
    · simp [below, hb]
    · simp [BitVec.getLsbD_of_ge x _ above, hb]

theorem withByte_getLsbD {w k : Nat} (v : BitVec w) (b : Nat) (x : Byte) (hk : k < w) :
    (withByte v b x).getLsbD k = if b = k / 8 then x.getLsbD (k % 8) else v.getLsbD k := by
  have mask : (0xFF#8).getLsbD (k % 8) = true := by
    have all : ∀ j : Fin 8, (0xFF#8).getLsbD j = true := by decide
    exact all ⟨k % 8, Nat.mod_lt _ (by decide)⟩
  simp only [withByte, BitVec.getLsbD_or, BitVec.getLsbD_and, BitVec.getLsbD_not, byteInPlace_getLsbD _ _ hk, hk, mask]
  by_cases hb : b = k / 8 <;> simp [hb]

/-- INTREG after a store of a byte to its own address: a free bit decides whether it is written (R370, log 23). -/
def intregStored (s : State) (x : Byte) (b : Nat) : Word :=
  if (freeVal s slotCc 1).getLsbD 0 then withByte s.intreg b x else s.intreg

theorem ccWrite_intreg (s : State) (x : Byte) (b : Nat) :
    ccWrite s x (.intreg b) = { s with intreg := intregStored s x b } := by
  rw [ccWrite, intregStored]
  split <;> rfl

theorem intregStored_other (s : State) (x : Byte) {b k : Nat} (hk : k < 32) (ne : b ≠ k / 8) :
    (intregStored s x b).getLsbD k = s.intreg.getLsbD k := by
  rw [intregStored]
  split
  · rw [withByte_getLsbD _ _ _ hk, if_neg ne]
  · rfl

/-- A store to the address map changes registers of the map only. -/
theorem ccWrite_only (s : State) (x : Byte) (c : CcByte) :
    ccWrite s x c =
      { s with gsn := (ccWrite s x c).gsn, rptm := (ccWrite s x c).rptm, pteva := (ccWrite s x c).pteva,
               rpteva := (ccWrite s x c).rpteva, intreg := (ccWrite s x c).intreg,
               intmask := (ccWrite s x c).intmask } := by
  cases c with
  | intreg b => rw [ccWrite_intreg]
  | _ => rfl

/-! PTEVA and RPTEVA take a byte but for their two low bits, which are 0 (R57, R58). -/

theorem addressByte_getLsbD (v : GlobalAddr) (b : Nat) (x : Byte) {k : Nat} (hk : 2 ≤ k) (hw : k < 38) :
    (withByte v b x &&& ~~~3#38).getLsbD k = if b = k / 8 then x.getLsbD (k % 8) else v.getLsbD k := by
  have mask : ∀ j : Fin 38, 2 ≤ j.val → (~~~3#38).getLsbD j = true := by decide
  rw [BitVec.getLsbD_and, mask ⟨k, hw⟩ hk, Bool.and_true, withByte_getLsbD _ _ _ hw]

theorem lowBits_cleared (v : GlobalAddr) : (v &&& ~~~3#38).extractLsb' 0 2 = 0#2 := by
  rw [BitVec.extractLsb'_and]
  simp

section RegisterBits

variable (s : State) (x : Byte) (c : CcByte)

theorem ccWrite_gsn (m : BitVec 2) :
    (ccWrite s x c).gsn[m.toNat]'m.isLt = if c = .gsn m then x else s.gsn[m.toNat]'m.isLt := by
  cases c with
  | gsn n => simp [ccWrite, Vector.getElem_set, BitVec.toNat_inj]
  | intreg b => simp [ccWrite_intreg]
  | _ => simp [ccWrite]

theorem ccWrite_rptm (m : BitVec 2) {k : Nat} (hk : k < 20) :
    ((ccWrite s x c).rptm[m.toNat]'m.isLt).getLsbD k =
      if c = .rptm m (k / 8) then x.getLsbD (k % 8) else (s.rptm[m.toNat]'m.isLt).getLsbD k := by
  cases c with
  | rptm n b =>
    by_cases hn : n = m
    · subst hn
      simp [ccWrite, withByte_getLsbD _ _ _ hk]
    · have other : n.toNat ≠ m.toNat := fun e => hn (BitVec.eq_of_toNat_eq e)
      simp [ccWrite, other, hn]
  | intreg b => simp [ccWrite_intreg]
  | _ => simp [ccWrite]

theorem ccWrite_pteva {k : Nat} (hk : 2 ≤ k) (hw : k < 38) :
    (ccWrite s x c).pteva.getLsbD k = if c = .pteva (k / 8) then x.getLsbD (k % 8) else s.pteva.getLsbD k := by
  cases c with
  | pteva b =>
    simp only [CcByte.pteva.injEq]
    exact addressByte_getLsbD s.pteva b x hk hw
  | intreg b => simp [ccWrite_intreg]
  | _ => simp [ccWrite]

theorem ccWrite_rpteva {k : Nat} (hk : 2 ≤ k) (hw : k < 38) :
    (ccWrite s x c).rpteva.getLsbD k = if c = .rpteva (k / 8) then x.getLsbD (k % 8) else s.rpteva.getLsbD k := by
  cases c with
  | rpteva b =>
    simp only [CcByte.rpteva.injEq]
    exact addressByte_getLsbD s.rpteva b x hk hw
  | intreg b => simp [ccWrite_intreg]
  | _ => simp [ccWrite]

theorem ccWrite_pteva_low (h : s.pteva.extractLsb' 0 2 = 0#2) : (ccWrite s x c).pteva.extractLsb' 0 2 = 0#2 := by
  cases c with
  | pteva b => exact lowBits_cleared _
  | intreg b => rwa [ccWrite_intreg]
  | _ => exact h

theorem ccWrite_rpteva_low (h : s.rpteva.extractLsb' 0 2 = 0#2) : (ccWrite s x c).rpteva.extractLsb' 0 2 = 0#2 := by
  cases c with
  | rpteva b => exact lowBits_cleared _
  | intreg b => rwa [ccWrite_intreg]
  | _ => exact h

theorem ccWrite_intmask {k : Nat} (hk : k < 32) :
    (ccWrite s x c).intmask.getLsbD k =
      if c = .intmask (k / 8) then x.getLsbD (k % 8) else s.intmask.getLsbD k := by
  cases c with
  | intmask b => simp [ccWrite, withByte_getLsbD _ _ _ hk]
  | intreg b => simp [ccWrite_intreg]
  | _ => simp [ccWrite]

/-- A byte of INTCLR clears the bits of INTREG that it has set (R370). -/
theorem ccWrite_intreg_bit {k : Nat} (hk : k < 32) (other : c ≠ .intreg (k / 8)) :
    (ccWrite s x c).intreg.getLsbD k =
      (s.intreg.getLsbD k && !(decide (c = .intclr (k / 8)) && x.getLsbD (k % 8))) := by
  cases c with
  | intclr b =>
    simp only [ccWrite, BitVec.getLsbD_and, BitVec.getLsbD_not, byteInPlace_getLsbD _ _ hk, hk, CcByte.intclr.injEq,
      decide_true, Bool.true_and]
  | intreg b =>
    have kept := intregStored_other s x (b := b) hk (fun e => other (e ▸ rfl))
    simp [ccWrite_intreg, kept]
  | _ => simp [ccWrite]

end RegisterBits

theorem exec_stCache {s : State} (s2 s1 : RegField) (sc : BitVec 14) (ht : s.pipe.afterTas = false) :
    exec (.stCache s2 s1 sc) s =
      .next (advance (ccWrite s ((storedReg s s2).data.extractLsb' 0 8) (ccDecode (eaStore s s1 sc)))) :=
  storeGuard_of ht _

/-- Settles O28: the frame of a write to the address map, and each register's bits. -/
theorem storeController : Obligations.StoreController := by
  intro s s2 s1 sc x c ht hx hc
  subst hx hc
  refine ⟨_, exec_stCache s2 s1 sc ht, ?_⟩
  generalize (storedReg s s2).data.extractLsb' 0 8 = x
  generalize ccDecode (eaStore s s1 sc) = c
  refine ⟨?_, ?_, ?_, ?_, ?_, ?_, ?_, ?_, ?_, ?_, ?_, ?_, ccWrite_gsn s x c, fun m _ => ccWrite_rptm s x c m,
    fun _ => ccWrite_pteva s x c, fun _ => ccWrite_rpteva s x c, ccWrite_pteva_low s x c, ccWrite_rpteva_low s x c,
    fun _ => ccWrite_intmask s x c, fun _ => ccWrite_intreg_bit s x c⟩
  all_goals rw [ccWrite_only]
  · exact keepsRegs_nil rfl rfl _
  · exact ⟨rfl, rfl, rfl⟩
  · exact ⟨rfl, rfl⟩
  · exact ⟨rfl, rfl, rfl, rfl, rfl, rfl, rfl⟩
  · exact ⟨rfl, rfl, rfl⟩
  · exact ⟨fun _ => rfl, fun _ => rfl, fun _ => rfl⟩
  · exact ⟨rfl, rfl, rfl, rfl, rfl⟩
  all_goals rfl

/-! ### TO_FPU (R184, R401) -/

/-- The end of a TO_FPU of `w`. -/
def finishToFpu (d : RegField) (w : Word) (s : State) : State :=
  advanceLoad (some (.fpu d)) (writeFpuWord32 (fpuWait s) d w)

theorem exec_toFpu {s : State} {d : RegField} (s2 : RegField) (ready : fpuReady s = true)
    (field : isFpuField d = true) (unshadowed : fpuShadowed s d = false) :
    exec (.toFpu s2 d) s = .next (finishToFpu d (storedReg s s2).data s) := by
  show withFpu s _ = _
  simp [withFpu_of ready, field, unshadowed, finishToFpu]

theorem exec_toFpu_shadowed {s : State} {d : RegField} (s2 : RegField) (ready : fpuReady s = true)
    (field : isFpuField d = true) (shadowed : fpuShadowed s d = true) :
    exec (.toFpu s2 d) s = .refused .shadowedWrite := by
  show withFpu s _ = _
  simp [withFpu_of ready, field, shadowed]

theorem isFpuDataField_of_ne_psw {d : RegField} (field : isFpuField d = true) (hd : d ≠ 15#5) :
    isFpuDataField d = true := by
  have range : ∀ d : RegField, isFpuField d = true → d ≠ 15#5 → isFpuDataField d = true := by decide
  exact range d field hd

theorem writeFpuWord32_psw (s : State) (w : Word) :
    writeFpuWord32 s 15#5 w = { s with fpsw := w.extractLsb' 0 15 } := rfl

theorem writeFpuWord32_data {d : RegField} (hd : d ≠ 15#5) (s : State) (w : Word) :
    writeFpuWord32 s d w = writeFpu s d (intImageReg s w) := if_neg hd

theorem finishToFpu_cpu (d : RegField) (w : Word) (s : State) : KeepsCpu s (finishToFpu d w s) := by
  unfold finishToFpu
  exact ⟨keepsRegs_nil (by simp) (by simp) _, ⟨by simp, by simp, by simp⟩, ⟨by simp, by simp⟩,
    ⟨by simp, by simp, by simp, by simp, by simp, by simp, by simp, by simp, by simp⟩, ⟨by simp, by simp, by simp⟩⟩

theorem finishToFpu_memory (d : RegField) (w : Word) (s : State) : KeepsMemory s (finishToFpu d w s) :=
  ⟨by simp [finishToFpu], by simp [finishToFpu], by simp [finishToFpu]⟩

theorem finishToFpu_latches (d : RegField) (w : Word) (s : State) : KeepsLatches s (finishToFpu d w s) :=
  ⟨by simp [finishToFpu], by simp [finishToFpu]⟩

theorem finishToFpu_sequential (d : RegField) (w : Word) (s : State) :
    Sequential s (finishToFpu d w s) { Pipe.idle with loadShadow := some (.fpu d) } := by
  unfold finishToFpu
  exact ⟨by simp, by simp, by simp, by simp, by simp⟩

theorem finishToFpu_psw (w : Word) (s : State) :
    (finishToFpu 15#5 w s).fpsw = w.extractLsb' 0 15 ∧ (finishToFpu 15#5 w s).fregs = s.fregs := by
  simp [finishToFpu, writeFpuWord32_psw]

theorem finishToFpu_data {d : RegField} (field : isFpuField d = true) (hd : d ≠ 15#5) (w : Word) (s : State) :
    (fpuGet (finishToFpu d w s) d).frac = w ++ 0#32 ∧ (finishToFpu d w s).fpsw = s.fpsw ∧
      ∀ n, n ≠ d → fpuGet (finishToFpu d w s) n = fpuGet s n := by
  unfold finishToFpu
  rw [writeFpuWord32_data hd]
  refine ⟨?_, by simp, fun n hn => ?_⟩
  · exact congrArg FpReg.frac (fpuGet_writeFpu_self (fpuWait s) d _ (isFpuDataField_of_ne_psw field hd))
  · exact fpuGet_writeFpu_other (fpuWait s) d n _ hn

/-- Settles O29: the end of TO_FPU in the state that has waited, and the load shadow that it leaves. -/
theorem toFpu : Obligations.ToFpu := by
  intro s s2 d ready field unshadowed
  generalize hw : (storedReg s s2).data = w
  have he := hw ▸ exec_toFpu s2 ready field unshadowed
  have next := finishToFpu_sequential d w s
  have shadowed (u : State) (pipe : u.pipe = (finishToFpu d w s).pipe) : fpuShadowed u d = true := by
    rw [fpuShadowed, pipe, next.pipe]
    exact beq_self_eq_true _
  exact ⟨_, he, finishToFpu_cpu d w s, finishToFpu_memory d w s, finishToFpu_latches d w s, by simp [finishToFpu],
    by simp [finishToFpu], by simp [finishToFpu], by simp [finishToFpu], by simp [finishToFpu],
    fun psw => psw ▸ finishToFpu_psw w s, fun data => finishToFpu_data field data w s, next,
    fun s3 u ready' pipe => exec_toFpu_shadowed s3 ready' field (shadowed u pipe)⟩

end Sys2Proof.Proofs.Stores

/-! Proofs of the family spec/42_register_ops.md: ADD_NT, ADD and SUB, the traps of arithmetic, the logical operations
and shifts, the tag and byte operations. -/

namespace Sys2Proof.Proofs.RegisterOps

open Sys2Proof Sys2Proof.Machine Sys2Proof.Safety Sys2Proof.Laws
open Sys2Proof.Proofs.Encoding Sys2Proof.Proofs.Stores

/-! ### The checks D and E (R200, R202, R344) -/

theorem trapEnabled_eq_false {s : State} {tt : TrapType} :
    trapEnabled s tt = false ↔ ownEnable s tt = false ∨ kpswAllEn s = false := by
  rw [trapEnabled, Bool.and_eq_false_iff, or_comm]

theorem trapEnabled_of {s : State} {tt : TrapType} (all : kpswAllEn s = true) (own : ownEnable s tt = true) :
    trapEnabled s tt = true := by
  rw [trapEnabled, all, own]
  rfl

theorem excE_passes {s : State} {a b : Tagged}
    (h : a.taggen.extractLsb' 4 2 = 0#2 ∧ b.taggen.extractLsb' 4 2 = 0#2 ∨ upswTagEn s = false ∨
      kpswAllEn s = false) : excE a b = false ∨ trapEnabled s .fixnumTag = false :=
  h.imp (excE_eq_false a b).mpr trapEnabled_eq_false.mpr

theorem excE_eq_true {a b : Tagged} (h : a.taggen.extractLsb' 4 2 ≠ 0#2 ∨ b.taggen.extractLsb' 4 2 ≠ 0#2) :
    excE a b = true := by
  rw [← Bool.not_eq_false, excE_eq_false, not_and_or]
  exact h

theorem outOfRange32_eq_true (n : Int) : outOfRange32 n = true ↔ n < -2147483648 ∨ 2147483647 < n := by
  rw [← Bool.not_eq_false, outOfRange32_eq_false]
  omega

theorem overflow_passes {s : State} {n : Int}
    (h : (-2147483648 ≤ n ∧ n ≤ 2147483647) ∨ upswOvfEn s = false ∨ kpswAllEn s = false) :
    outOfRange32 n = false ∨ trapEnabled s .integerOverflow = false :=
  h.imp (outOfRange32_eq_false n).mpr trapEnabled_eq_false.mpr

/-! ### The ends of a register operation: its result, trap 9, trap 11 -/

section Ends

variable {s : State} {d s1 : RegField} {rc : RC} {f : Word → Word → Word} {o : Word → Word → Bool}

theorem logicOp_completes (hw : writable s d = true)
    (tags : excE (src1 s s1) (rcVal s rc) = false ∨ trapEnabled s .fixnumTag = false) :
    logicOp d s1 rc f s = .next (finishReg d (aluResult s s1 rc f) s) := by
  rw [logicOp, writeGuard_of hw, raiseIf_passes tags]

theorem logicOp_fixnumTag (hw : writable s d = true) (tags : excE (src1 s s1) (rcVal s rc) = true)
    (on : trapEnabled s .fixnumTag = true) : logicOp d s1 rc f s = .next (takeTrap .fixnumTag s) := by
  rw [logicOp, writeGuard_of hw, raiseIf_met tags on]

/-- Past its overflow check, an ADD or SUB is as a logical operation (R343). -/
theorem arithOp_of_inRange
    (range : o (src1 s s1).data (rcVal s rc).data = false ∨ trapEnabled s .integerOverflow = false) :
    arithOp d s1 rc f o s = logicOp d s1 rc f s := by
  rw [arithOp, raiseIf_passes range, logicOp]

theorem arithOp_completes (hw : writable s d = true)
    (range : o (src1 s s1).data (rcVal s rc).data = false ∨ trapEnabled s .integerOverflow = false)
    (tags : excE (src1 s s1) (rcVal s rc) = false ∨ trapEnabled s .fixnumTag = false) :
    arithOp d s1 rc f o s = .next (finishReg d (aluResult s s1 rc f) s) :=
  (arithOp_of_inRange range).trans (logicOp_completes hw tags)

theorem arithOp_fixnumTag (hw : writable s d = true)
    (range : o (src1 s s1).data (rcVal s rc).data = false ∨ trapEnabled s .integerOverflow = false)
    (tags : excE (src1 s s1) (rcVal s rc) = true) (on : trapEnabled s .fixnumTag = true) :
    arithOp d s1 rc f o s = .next (takeTrap .fixnumTag s) :=
  (arithOp_of_inRange range).trans (logicOp_fixnumTag hw tags on)

/-- Overflow comes first: the tags are not looked at (R343). -/
theorem arithOp_integerOverflow (hw : writable s d = true) (overflow : o (src1 s s1).data (rcVal s rc).data = true)
    (on : trapEnabled s .integerOverflow = true) :
    arithOp d s1 rc f o s = .next (takeTrap .integerOverflow s) := by
  rw [arithOp, writeGuard_of hw, raiseIf_met overflow on]

end Ends

/-- An instruction that answers with trap entry from its own state has no other effect (R350). -/
theorem traps_of {i : Instr} {s : State} {tt : TrapType} (h : exec i s = .next (takeTrap tt s)) : Traps i s tt :=
  ⟨_, h, takesTrapOnly_takeTrap tt s⟩

/-! ### ADD_NT, ADD and SUB (R201 to R203) -/

/-- Settles O30: ADD_NT has no check but that of its destination. -/
theorem addNoTraps : Obligations.AddNoTraps :=
  fun _ _ _ _ hw => writesReg_of (writeGuard_of hw _)

/-- Settles O31: neither check of `arithOp` raises its trap. -/
theorem addSub : Obligations.AddSub := by
  intro s d s1 rc a b hw ha hb tags
  subst ha hb
  exact ⟨fun range => writesReg_of (arithOp_completes hw (overflow_passes range) (excE_passes tags)),
    fun range => writesReg_of (arithOp_completes hw (overflow_passes range) (excE_passes tags))⟩

/-- Settles O32: the overflow check of `arithOp` stands before the tag check, which it shares with `logicOp`. -/
theorem arithmeticTraps : Obligations.ArithmeticTraps := by
  refine ⟨fun s d s1 rc a b hw ha hb all => ?_, fun s d s1 rc hw all tagEn tags => ?_⟩
  · subst ha hb
    have inRange {n : Int} (h : (-2147483648 ≤ n ∧ n ≤ 2147483647) ∨ upswOvfEn s = false) :
        outOfRange32 n = false ∨ trapEnabled s .integerOverflow = false := overflow_passes (h.imp_right .inl)
    exact ⟨fun overflow ovfEn =>
        traps_of (arithOp_integerOverflow hw ((outOfRange32_eq_true _).mpr overflow) (trapEnabled_of all ovfEn)),
      fun overflow ovfEn =>
        traps_of (arithOp_integerOverflow hw ((outOfRange32_eq_true _).mpr overflow) (trapEnabled_of all ovfEn)),
      fun tagEn tags =>
        have met := excE_eq_true tags
        have on : trapEnabled s .fixnumTag = true := trapEnabled_of all tagEn
        ⟨fun range => traps_of (arithOp_fixnumTag hw (inRange range) met on),
          fun range => traps_of (arithOp_fixnumTag hw (inRange range) met on)⟩⟩
  · have trap (f : Word → Word → Word) : logicOp d s1 rc f s = .next (takeTrap .fixnumTag s) :=
      logicOp_fixnumTag hw (excE_eq_true tags) (trapEnabled_of all tagEn)
    exact ⟨traps_of (trap _), traps_of (trap _), traps_of (trap _), traps_of (trap _), traps_of (trap _),
      traps_of (trap _)⟩

/-! ### The logical operations and shifts (R204 to R209) -/

/-- The `n` low bits of a word: a shift count, a byte number. -/
theorem lowBits_toNat (c : Word) (n : Nat) : (c.extractLsb' 0 n).toNat = c.toNat % 2 ^ n := by
  rw [BitVec.extractLsb'_toNat, Nat.shiftRight_zero]

theorem sllData_eq (a c : Word) : sllData a c = BitVec.ofNat 32 (a.toNat * 2 ^ (c.toNat % 4)) := by
  rw [sllData, lowBits_toNat]
  exact congrArg (BitVec.ofNat 32) (Nat.shiftLeft_eq _ _)

theorem sraData_eq (a c : Word) : sraData a c = BitVec.ofInt 32 (a.toInt / 2 ^ (c.toNat % 2)) := by
  rw [sraData, lowBits_toNat, BitVec.sshiftRight, Int.shiftRight_eq_div_pow]
  rfl

theorem srlData_eq (a c : Word) : srlData a c = BitVec.ofNat 32 (a.toNat / 2 ^ (c.toNat % 2)) := by
  rw [srlData, lowBits_toNat, Nat.pow_one]
  apply BitVec.eq_of_toNat_eq
  have small : a.toNat / 2 ^ (c.toNat % 2) < 2 ^ 32 := Nat.lt_of_le_of_lt (Nat.div_le_self _ _) a.isLt
  rw [BitVec.toNat_ushiftRight, BitVec.toNat_ofNat, Nat.mod_eq_of_lt small, Nat.shiftRight_eq_div_pow]

/-- Settles O33: the end of `logicOp`, with each shift as arithmetic. -/
theorem logicAndShift : Obligations.LogicAndShift := by
  intro s d s1 rc a b hw ha hb tags
  subst ha hb
  have done (f : Word → Word → Word) : logicOp d s1 rc f s = .next (finishReg d (aluResult s s1 rc f) s) :=
    logicOp_completes hw (excE_passes tags)
  rw [← sllData_eq, ← sraData_eq, ← srlData_eq]
  exact ⟨writesReg_of (done _), writesReg_of (done _), writesReg_of (done _), writesReg_of (done _),
    writesReg_of (done _), writesReg_of (done _)⟩

/-! ### The tag and byte operations (R210 to R213) -/

theorem setWidth_eq_zero_append (x : Byte) : x.setWidth 32 = 0#24 ++ x :=
  BitVec.setWidth_eq_append (by decide)

theorem extractByte_eq (a c : Word) :
    extractByte a c = BitVec.ofNat 32 (a.toNat / 256 ^ (c.toNat % 4) % 256) := by
  rw [extractByte, wordByte, lowBits_toNat]
  apply BitVec.eq_of_toNat_eq
  simp [Nat.shiftRight_eq_div_pow, Nat.pow_mul]

/-- Byte `k` of a word in which byte `b` has been replaced. -/
theorem withByte_extractLsb' {w k : Nat} (v : BitVec w) (b : Nat) (x : Byte) (hk : 8 * k + 8 ≤ w) :
    (withByte v b x).extractLsb' (8 * k) 8 = if k = b then x else v.extractLsb' (8 * k) 8 := by
  apply BitVec.eq_of_getLsbD_eq
  intro j hj
  have byte : (8 * k + j) / 8 = k := by omega
  have bit : (8 * k + j) % 8 = j := by omega
  rw [BitVec.getLsbD_extractLsb', withByte_getLsbD v b x (by omega), byte, bit]
  by_cases hb : k = b
  · simp [hb, hj]
  · simp [hb, Ne.symm hb, hj]

/-- INSERT replaces a byte as a byte of a controller register is replaced. -/
theorem insertByte_eq_withByte (a : Word) (b : Nat) (x : Byte) : insertByte a b x = withByte a b x := rfl

theorem insertByte_extractLsb' (a : Word) (b : Nat) (x : Byte) {k : Nat} (hk : k < 4) :
    (insertByte a b x).extractLsb' (8 * k) 8 = if k = b then x else a.extractLsb' (8 * k) 8 := by
  rw [insertByte_eq_withByte]
  exact withByte_extractLsb' a b x (by omega)

/-- Settles O34: none of the four checks anything but its destination; the bytes of each result. -/
theorem tagAndByteOps : Obligations.TagAndByteOps := by
  intro s d s1 rc a b hw ha hb
  subst ha hb
  rw [← setWidth_eq_zero_append, ← extractByte_eq]
  exact ⟨writesReg_of (writeGuard_of hw _), writesReg_of (writeGuard_of hw _), writesReg_of (writeGuard_of hw _),
    _, writesReg_of (writeGuard_of hw _), fun _ hk => insertByte_extractLsb' _ _ _ hk⟩

end Sys2Proof.Proofs.RegisterOps

/-! Proofs of the family spec/43_special.md: KPSW in user mode, the reads and writes of the special registers, SYNC and
INVALIDATE_IB. -/

namespace Sys2Proof.Proofs.SpecialRegs

open Sys2Proof Sys2Proof.Machine Sys2Proof.Safety Sys2Proof.Laws
open Sys2Proof.Proofs.Encoding Sys2Proof.Proofs.RegisterOps

/-! ### KPSW in user mode (R236, R284, R286, R352, R353) -/

/-- Bit `n` of KPSW stays as it is, or it is a virtual-address bit and is cleared. -/
def KeptOrCleared (k k' : BitVec 24) (n : Nat) : Prop :=
  k'.getLsbD n = k.getLsbD n ∨ (n = 2 ∨ n = 3) ∧ k'.getLsbD n = false

theorem entryKpsw_keptOrCleared (x : TrapType) (k : BitVec 24) {n : Nat} (h4 : n ≠ 4) (h5 : n ≠ 5) (h12 : n ≠ 12) :
    KeptOrCleared k (entryKpsw x k) n := by
  rw [KeptOrCleared, entryKpsw_getLsbD, if_neg h4, if_neg h12, if_neg h5]
  split
  next cleared => exact .inr ⟨cleared.2, rfl⟩
  next => exact .inl rfl

/-- In user mode an instruction ends by a trap or by completing; WR_KPSW, which could write any bit, does not complete
with an effect (R236). -/
theorem instrEnd_kpsw_keptOrCleared {b : Bool} {u t : State} (ended : InstrEnd b u t) (user : kpswMode u = false)
    {n : Nat} (h4 : n ≠ 4) (h5 : n ≠ 5) (h12 : n ≠ 12) : KeptOrCleared u.kpsw t.kpsw n := by
  rcases ended with ⟨x, v, rfl, ready⟩ | completed
  · rw [takeTrap_kpsw, ← ready.kpsw]
    exact entryKpsw_keptOrCleared x v.kpsw h4 h5 h12
  · exact .inl ((completed.kpsw user).1 n h4 h5 h12)

theorem step_kpsw_keptOrCleared {s t : State} (h : step s = .next t) (user : kpswMode s = false) {n : Nat}
    (h4 : n ≠ 4) (h5 : n ≠ 5) (h12 : n ≠ 12) : KeptOrCleared s.kpsw t.kpsw n := by
  obtain ⟨t0, ticked, u, fetched, b, ended⟩ := step_inst h
  have stillUser : kpswMode u = false := (congrArg (BitVec.getLsbD · 4) fetched.kpsw).trans user
  rw [ticked.kpsw, ← fetched.kpsw]
  exact instrEnd_kpsw_keptOrCleared ended stillUser h4 h5 h12

/-- Settles O11: of the bits that trap entry and returns leave alone, a step clears at most the two of virtual
addresses. -/
theorem userModeKeepsKpsw : Obligations.UserModeKeepsKpsw := by
  refine fun s t h user => ⟨fun n h2 h3 h4 h5 h12 => ?_, fun n virt on => ?_⟩
  · rcases step_kpsw_keptOrCleared h user h4 h5 h12 with kept | ⟨virt, -⟩
    · exact kept
    · omega
  · rcases step_kpsw_keptOrCleared h user (n := n) (by omega) (by omega) (by omega) with kept | ⟨-, cleared⟩
    · exact kept ▸ on
    · rw [cleared] at on
      cases on

/-! ### The reads (R231 to R233) -/

/-- CWP stands in bits 9 to 7 of its word (R231). -/
theorem cwpWord_eq (w : BitVec 3) : w.setWidth 32 <<< 7 = 0#22 ++ w ++ 0#7 := by
  revert w
  decide

theorem insertWord_eq (w : BitVec 2) : w.setWidth 32 = 0#30 ++ w := BitVec.setWidth_eq_append (by decide)

theorem kpswWord_eq (w : BitVec 24) : w.setWidth 32 = 0#8 ++ w := BitVec.setWidth_eq_append (by decide)

theorem specialWord_cwp {s : State} (h : s.pipe.cwpShadow = false) : specialWord s 2#5 = 0#22 ++ s.cwp ++ 0#7 := by
  rw [← cwpWord_eq]
  exact if_neg (by simp [h])

theorem specialWord_writePC {s : State} (h : s.pipe.atVector = true) : specialWord s 6#5 = s.trapNextPC :=
  if_pos h

/-- Settles O35: the three reads check nothing but their destination. -/
theorem readSpecial : Obligations.ReadSpecial := by
  intro s d n hw
  refine ⟨⟨specialWord s n, writesReg_of (writeGuard_of hw _), ?_⟩, ?_, ?_⟩
  · exact ⟨fun h => h ▸ rfl, fun h shadow => h ▸ specialWord_cwp shadow, fun h => h ▸ rfl, fun h => h ▸ rfl,
      fun h => h ▸ rfl, fun h vector => h ▸ specialWord_writePC vector⟩
  · rw [← insertWord_eq]
    exact writesReg_of (writeGuard_of hw _)
  · rw [← kpswWord_eq]
    exact writesReg_of (writeGuard_of hw _)

/-! ### WR_SPECIAL and WR_INSERT (R234, R235, R404) -/

/-- Special register `n` takes its field of `x`. -/
def withSpecial (n : RegField) (x : Word) (s : State) : State :=
  { s with
    upsw := if n = 1#5 then x.extractLsb' 0 6 else s.upsw
    cwp := if n = 2#5 then x.extractLsb' 7 3 else s.cwp
    swp := if n = 3#5 then x.extractLsb' 3 29 else s.swp
    fpuPc := if n = 5#5 then x.extractLsb' 2 30 else s.fpuPc }

/-- What a write of special register `n` leaves pending: the window shadow after CWP (R404). -/
def specialPipe (n : RegField) : Pipe :=
  if n = 2#5 then { Pipe.idle with windowShadow := true, cwpShadow := true } else Pipe.idle

/-- The end of a WR_SPECIAL of register `n`. -/
def finishSpecial (n : RegField) (x : Word) (s : State) : State :=
  { advance (withSpecial n x s) with pipe := specialPipe n }

theorem exec_wrSpecial {s : State} {n : RegField} (s1 : RegField) (rc : RC)
    (hn : n = 1#5 ∨ n = 2#5 ∧ s.pipe.slotOfTrue = false ∨ n = 3#5 ∨ n = 5#5) :
    exec (.wrSpecial n s1 rc) s = .next (finishSpecial n (sumRC s s1 rc) s) := by
  rcases hn with rfl | ⟨rfl, slot⟩ | rfl | rfl
  case inr.inl =>
    show (if s.pipe.slotOfTrue then _ else _) = _
    rw [slot]
    rfl
  all_goals rfl

/-- Settles O36: the four writes end alike, each with its own field and pipe. -/
theorem writeSpecial : Obligations.WriteSpecial := by
  intro s n s1 rc x hx hn
  subst hx
  exact ⟨_, exec_wrSpecial s1 rc hn, keepsRegs_nil rfl rfl _, ⟨rfl, rfl⟩,
    ⟨rfl, rfl, rfl, rfl, rfl, rfl, rfl, rfl, rfl⟩, ⟨rfl, rfl, rfl⟩, ⟨rfl, rfl⟩,
    ⟨fun _ => rfl, fun _ => rfl, fun _ => rfl⟩, rfl, rfl, rfl, rfl, rfl, rfl, rfl, rfl, rfl, rfl, rfl, rfl, rfl, rfl,
    rfl⟩

/-- Settles O37: the state with the new INSERT ends as after any instruction with no result. -/
theorem writeInsert : Obligations.WriteInsert := by
  intro s rc
  exact ⟨_, rfl, rfl, rfl, rfl, keepsRegs_nil rfl rfl _, ⟨rfl, rfl⟩, ⟨rfl, rfl, rfl, rfl, rfl, rfl, rfl, rfl, rfl⟩,
    ⟨rfl, rfl, rfl⟩, ⟨rfl, rfl, rfl, rfl, rfl, rfl, rfl⟩, ⟨rfl, rfl⟩, ⟨fun _ => rfl, fun _ => rfl, fun _ => rfl⟩,
    ⟨rfl, rfl, rfl, rfl, rfl⟩⟩

/-! ### WR_KPSW (R236, R344, R347) -/

/-- The end of a WR_KPSW in kernel mode: the prefetch in progress is dropped. -/
def finishKpsw (k : BitVec 24) (s : State) : State := advance { s with kpsw := k, prefetch := none }

theorem exec_wrKpsw_kernel {s : State} (kernel : kpswMode s = true) (s1 : RegField) (rc : RC) :
    exec (.wrKpsw s1 rc) s = .next (finishKpsw ((sumRC s s1 rc).extractLsb' 0 24) s) :=
  if_pos kernel

theorem exec_wrKpsw_user {s : State} (user : kpswMode s = false) (s1 : RegField) (rc : RC) :
    exec (.wrKpsw s1 rc) s = raiseOr .kernelMode s (.next (advance s)) :=
  if_neg (by simp [user])

/-- Without a return that waits, the KPSW written is the KPSW in force. -/
theorem finishKpsw_kpsw {s : State} (h : s.pipe.retPend = none) (k : BitVec 24) : (finishKpsw k s).kpsw = k := by
  show applyRet k s.pipe.retPend = k
  rw [h]
  rfl

/-- Settles O38: by the mode, and in user mode by whether trap 8 is on; it has no enable of its own. -/
theorem writeKpsw : Obligations.WriteKpsw := by
  refine fun s s1 rc => ⟨fun kernel noReturn => ?_, fun user on => ?_, fun user off => ?_⟩
  · exact ⟨_, exec_wrKpsw_kernel kernel s1 rc, finishKpsw_kpsw noReturn _, rfl, rfl, rfl, rfl, keepsRegs_nil rfl rfl _,
      ⟨rfl, rfl, rfl⟩, ⟨rfl, rfl⟩, ⟨rfl, rfl, rfl, rfl, rfl, rfl, rfl, rfl, rfl⟩, ⟨rfl, rfl, rfl, rfl, rfl, rfl, rfl⟩,
      ⟨rfl, rfl⟩, ⟨fun _ => rfl, fun _ => rfl, fun _ => rfl⟩, rfl, rfl, rfl⟩
  · have enabled : trapEnabled s .kernelMode = true := trapEnabled_of on rfl
    exact traps_of ((exec_wrKpsw_user user s1 rc).trans (raiseOr_enabled enabled _))
  · have disabled : trapEnabled s .kernelMode = false := trapEnabled_eq_false.mpr (.inr off)
    exact ⟨_, (exec_wrKpsw_user user s1 rc).trans (raiseOr_disabled disabled _), advance_only s, advance_sequential s⟩

/-! ### SYNC (R237, R330, R319) -/

/-- A pending exception is taken where there is one, the FPU's traps are on, and its own trap type is enabled. -/
theorem noFpuTrap_eq_false {s : State} :
    noFpuTrap s = false ↔
      s.fpuExcep = true ∧ upswFpuEn s = true ∧ kpswAllEn s = true ∧ ownEnable s (pendingTrap s) = true := by
  simp only [noFpuTrap, fpuTrapEnabled, trapEnabled, Bool.not_eq_false', Bool.and_eq_true]
  tauto

theorem pendingTrap_floatingPoint {s : State} (h : s.fpuExcKind = .floatingPoint) : pendingTrap s = .floatingPoint := by
  rw [pendingTrap, h]

theorem pendingTrap_integerOverflow {s : State} (h : s.fpuExcKind = .integerOverflow) :
    pendingTrap s = .integerOverflow := by
  rw [pendingTrap, h]

theorem exec_sync (s : State) : exec .sync s = fpuStart s (fun u => .next (advance u)) := rfl

theorem exec_sync_waits {s : State} (quiet : noFpuTrap s = true) : exec .sync s = .next (advance (fpuWait s)) :=
  (exec_sync s).trans (fpuStart_of quiet _)

/-- SYNC with an exception that is taken: the trap of its kind, from the idle FPU with nothing pending. -/
theorem sync_takesPending {s : State} {tt : TrapType} (kind : pendingTrap s = tt) (taken : noFpuTrap s = false) :
    ∃ t, exec .sync s = .next t ∧ t.fpuExcep = false ∧
      TakesTrapOnly { s with fpuExcep := false, fpuRun := none } t tt := by
  subst kind
  exact ⟨_, (exec_sync s).trans (fpuStart_on taken _), takeTrap_fpuExcep _ _, takesTrapOnly_takeTrap _ _⟩

/-! ### INVALIDATE_IB (R238, R110) -/

theorem fetchedAhead_of_ib_off {s : State} (off : kpswIbEn s = false) : fetchedAhead s = none :=
  if_neg (by simp [off])

theorem ib_on_of_fetchedAhead {s : State} {w : Word} (h : fetchedAhead s = some w) : kpswIbEn s = true := by
  by_contra off
  rw [fetchedAhead_of_ib_off (Bool.eq_false_iff.mpr off)] at h
  cases h

theorem finishInvalidate_valid (s : State) (k : Fin 16) : (finishInvalidate s).ib[k].valid = 0#8 := by
  simp [finishInvalidate, emptyBuffer, clearIb, eachBlock]

/-- A return that waits changes no bit of the instruction buffer (R286, R287). -/
theorem kpswIbEn_finishInvalidate (s : State) : kpswIbEn (finishInvalidate s) = kpswIbEn s := by
  unfold kpswIbEn
  rw [finishInvalidate_kpsw]
  exact applyRet_bits _ _ 1 (by decide) (by decide)

/-- A word held ready is the one fetched. -/
theorem fetch_of_ready {s : State} {w : Word} (on : kpswIbEn s = true) (ready : s.pipe.ready = some w) :
    fetch s = .done w s := by
  simp only [fetch, on, ready, if_true]

theorem finishInvalidate_ready (s : State) : (finishInvalidate s).pipe.ready = fetchedAhead s :=
  congrArg Pipe.ready (finishInvalidate_pipe s)

theorem fetch_finishInvalidate {s : State} {w : Word} (h : (finishInvalidate s).pipe.ready = some w) :
    fetch (finishInvalidate s) = .done w (finishInvalidate s) := by
  have on : kpswIbEn s = true := ib_on_of_fetchedAhead ((finishInvalidate_ready s).symm.trans h)
  exact fetch_of_ready ((kpswIbEn_finishInvalidate s).trans on) h

/-- INVALIDATE_IB moves on, with the word that the buffer has given already. -/
theorem finishInvalidate_sequential (s : State) :
    Sequential s (finishInvalidate s) { Pipe.idle with ready := (finishInvalidate s).pipe.ready } :=
  ⟨finishInvalidate_pc s, finishInvalidate_nextPC s, finishInvalidate_kpsw s, finishInvalidate_cwp s,
    finishInvalidate_pipe s⟩

/-- Settles O39: SYNC by whether `noFpuTrap` holds, INVALIDATE_IB by its end. -/
theorem syncAndInvalidate : Obligations.SyncAndInvalidate := by
  refine fun s => ⟨fun quiet => ?waits, fun pending fpuEn all => ⟨fun kind => ?type4, fun kind ovfEn => ?type9,
    fun kind ovfOff => ?type9Off⟩, fun off => ?off, finishInvalidate s, rfl, finishInvalidate_valid s,
    finishInvalidate_past s, finishInvalidate_prefetch s, ?invalidate⟩
  case waits =>
    exact ⟨_, exec_sync_waits quiet,
      ⟨keepsRegs_nil rfl rfl _, ⟨rfl, rfl, rfl⟩, ⟨rfl, rfl⟩, ⟨rfl, rfl, rfl, rfl, rfl, rfl, rfl, rfl, rfl⟩,
        ⟨rfl, rfl, rfl⟩⟩,
      ⟨fun _ => rfl, fun _ => rfl, fun _ => rfl⟩, ⟨rfl, rfl⟩, ⟨rfl, rfl, rfl, rfl, rfl, rfl, rfl⟩,
      ⟨rfl, rfl, rfl, rfl, rfl⟩⟩
  case type4 =>
    have type4 := pendingTrap_floatingPoint kind
    have own : ownEnable s (pendingTrap s) = true := type4 ▸ fpuEn
    exact sync_takesPending type4 (noFpuTrap_eq_false.mpr ⟨pending, fpuEn, all, own⟩)
  case type9 =>
    have type9 := pendingTrap_integerOverflow kind
    have own : ownEnable s (pendingTrap s) = true := type9 ▸ ovfEn
    exact sync_takesPending type9 (noFpuTrap_eq_false.mpr ⟨pending, fpuEn, all, own⟩)
  case type9Off =>
    have ownOff : ownEnable s (pendingTrap s) = false := pendingTrap_integerOverflow kind ▸ ovfOff
    rw [← Bool.not_eq_false, noFpuTrap_eq_false, ownOff]
    simp
  case off =>
    rw [← Bool.not_eq_false, noFpuTrap_eq_false]
    rcases off with off | off | off <;> simp [off]
  case invalidate =>
    exact ⟨keepsRegs_nil (by simp) (by simp) _, ⟨by simp, by simp, by simp⟩, ⟨by simp, by simp⟩,
      ⟨by simp, by simp, by simp, by simp, by simp, by simp, by simp, by simp, by simp⟩,
      ⟨by simp, by simp, by simp, by simp, by simp, by simp, by simp⟩, ⟨by simp, by simp⟩,
      ⟨by simp, by simp, by simp⟩, finishInvalidate_sequential s,
      fun off => (finishInvalidate_ready s).trans (fetchedAhead_of_ib_off off), fun _ => fetch_finishInvalidate⟩

end Sys2Proof.Proofs.SpecialRegs

/-! Proofs of the family spec/44_compare_branch.md: the cancelled slot, the branches and traps of the compares, the
conditions and their exceptions, the FP compares. -/

namespace Sys2Proof.Proofs.CompareBranches

open Sys2Proof Sys2Proof.Machine Sys2Proof.Safety Sys2Proof.Laws
open Sys2Proof.Proofs.Encoding Sys2Proof.Proofs.Loads Sys2Proof.Proofs.Stores Sys2Proof.Proofs.RegisterOps

/-! ### The cancelled slot (R255, R280, R349) -/

theorem squashStep_done {s s1 : State} {w : Word} (fetched : fetch s = .done w s1) (ok : prohibitedInSlot w = false) :
    squashStep s = .next (advance s1) := by
  rw [squashStep, fetched]
  exact if_neg (by simp [ok])

theorem squashStep_fault {s s1 : State} {c : FaultCause} (fault : fetch s = .fault c s1) :
    squashStep s = .next (advance s1) := by
  rw [squashStep, fault]

theorem step_squashed {s : State} (h : s.pipe.squash = true) : step s = onTick (squashStep s) := by
  rw [step, h]
  rfl

/-- Settles O6: fetched or faulting, a cancelled slot ends with `advance` from the state after its fetch. -/
theorem squashedSlotIsSkipped : Obligations.SquashedSlotIsSkipped := by
  intro s s1 w squashed fetched
  have skips : squashStep s = .next (advance s1) := by
    rcases fetched with ⟨done, ok⟩ | ⟨c, fault⟩
    · exact squashStep_done done ok
    · exact squashStep_fault fault
  exact ⟨advance s1, (step_squashed squashed).trans (congrArg onTick skips), advance_only s1, advance_sequential s1⟩

/-! ### The codes of the three families (R251 to R253, R264) -/

theorem bne_eq_decide {α : Type} [DecidableEq α] (x y : α) : (x != y) = decide (x ≠ y) := by
  rw [decide_not]
  rfl

section Codes
variable (a b : Tagged)

theorem tagged_eq_iff : a = b ↔ a.taggen = b.taggen ∧ a.data = b.data := by
  rw [← Tagged.mk.injEq]

/-- Codes 0E and 0F compare the whole register, which is its tag byte and its data. -/
theorem dataCond_whole :
    dataCond 0x0E#5 a b = some (decide (a = b)) ∧ dataCond 0x0F#5 a b = some (decide (a ≠ b)) := by
  constructor
  · refine congrArg some (Bool.eq_iff_iff.mpr ?_)
    simp [tagged_eq_iff a b]
  · refine congrArg some (Bool.eq_iff_iff.mpr ?_)
    simp [tagged_eq_iff a b, imp_iff_not_or]

/-- Codes 1E and 1F compare the type tag and the data. -/
theorem dataCond_eql :
    dataCond 0x1E#5 a b = some (decide (tagOf a = tagOf b ∧ a.data = b.data)) ∧
    dataCond 0x1F#5 a b = some (decide (tagOf a ≠ tagOf b ∨ a.data ≠ b.data)) := by
  constructor
  · refine congrArg some (Bool.eq_iff_iff.mpr ?_)
    simp
  · refine congrArg some (Bool.eq_iff_iff.mpr ?_)
    simp

theorem dataCond_of_gap {c : BitVec 5} (lo : 0x10 ≤ c.toNat) (hi : c.toNat ≤ 0x1D) : dataCond c a b = none := by
  have gap : ∀ c : BitVec 5, 0x10 ≤ c.toNat → c.toNat ≤ 0x1D → isDataCond c = false := by decide
  exact dataCond_of_unassigned (gap c lo hi) a b

theorem tagCond_of_other {c : BitVec 5} (eq : c ≠ 0x0C#5) (neq : c ≠ 0x0D#5) (endp : c ≠ 0x1C#5) (nendp : c ≠ 0x1D#5)
    (t tc : BitVec 6) : tagCond c t tc = none := by
  have other : ∀ c : BitVec 5, c ≠ 0x0C#5 → c ≠ 0x0D#5 → c ≠ 0x1C#5 → c ≠ 0x1D#5 → isTagCond c = false := by decide
  exact tagCond_of_unassigned (other c eq neq endp nendp) t tc

/-! ### The exceptions they check (R254) -/

theorem isFixnum_tagOf : isFixnum (tagOf a) = true ↔ a.taggen.extractLsb' 4 2 = 0#2 := by
  rw [isFixnum, tagOf, extract_extract _ _ _ _ _ (by decide), beq_iff_eq]

theorem isChar_tagOf : isChar (tagOf a) = true ↔ a.taggen.extractLsb' 4 2 = 1#2 := by
  rw [isChar, tagOf, extract_extract _ _ _ _ _ (by decide), beq_iff_eq]

theorem excG_iff : excG a b = true ↔
    ¬(a.taggen.extractLsb' 4 2 = 0#2 ∧ b.taggen.extractLsb' 4 2 = 0#2) ∧
    ¬(a.taggen.extractLsb' 4 2 = 1#2 ∧ b.taggen.extractLsb' 4 2 = 1#2) := by
  rw [← isFixnum_tagOf, ← isFixnum_tagOf, ← isChar_tagOf, ← isChar_tagOf, ← Bool.and_eq_true, ← Bool.and_eq_true,
    ← not_or, ← Bool.or_eq_true, excG, Bool.not_eq_true', Bool.not_eq_true]

/-- The boxed number types are the last eight of the 64 type tags (R26). -/
theorem isNumberTag_iff (t : BitVec 6) : isNumberTag t = true ↔ 0x38 ≤ t.toNat := by
  revert t
  decide

theorem excJ_iff : excJ a b = true ↔ tagOf a = tagOf b ∧ 0x38 ≤ (tagOf a).toNat ∧ a.data ≠ b.data := by
  simp [excJ, isNumberTag_iff, and_assoc]

theorem excC_iff : excC a = true ↔ tagOf a ≠ 0x26#6 ∧ tagOf a ≠ 0x27#6 := by
  simp [excC, tagCons, tagNil]

end Codes

/-- A data condition raises G with a code up to 09, J with 1E or 1F, and nothing else. -/
theorem dataExc_iff {c : BitVec 5} {a b : Tagged} {x : TrapType} : dataExc c a b = some x ↔
    (c.toNat ≤ 9 ∧ excG a b = true ∧ x = .fixnumOrChar) ∨
    ((c = 0x1E#5 ∨ c = 0x1F#5) ∧ excJ a b = true ∧ x = .eqlTag) := by
  have apart : ∀ c : BitVec 5, c = 0x1E#5 ∨ c = 0x1F#5 → ¬c.toNat ≤ 9 := by decide
  unfold dataExc
  split
  next low =>
    have notEql : ¬(c = 0x1E#5 ∨ c = 0x1F#5) := fun eql => apart c eql low
    simp [low, notEql, eq_comm (a := x)]
  next high =>
    split
    next eql => simp [high, eql, eq_comm (a := x)]
    next other => simp [high, other]

theorem tagExc_iff {c : BitVec 5} {a : Tagged} {x : TrapType} :
    tagExc c a = some x ↔ (c = 0x1C#5 ∨ c = 0x1D#5) ∧ excC a = true ∧ x = .consOrNil := by
  unfold tagExc
  split
  next endp => simp [endp, eq_comm (a := x)]
  next other => simp [other]

theorem dataExc_fixnumOrChar {c : BitVec 5} {a b : Tagged} :
    dataExc c a b = some .fixnumOrChar ↔ c.toNat ≤ 9 ∧ excG a b = true := by
  simp [dataExc_iff]

theorem dataExc_eqlTag {c : BitVec 5} {a b : Tagged} :
    dataExc c a b = some .eqlTag ↔ (c = 0x1E#5 ∨ c = 0x1F#5) ∧ excJ a b = true := by
  simp [dataExc_iff]

theorem tagExc_consOrNil {c : BitVec 5} {a : Tagged} :
    tagExc c a = some .consOrNil ↔ (c = 0x1C#5 ∨ c = 0x1D#5) ∧ excC a = true := by
  simp [tagExc_iff]

theorem dataExc_type {c : BitVec 5} {a b : Tagged} {x : TrapType} (h : dataExc c a b = some x) :
    x = .fixnumOrChar ∨ x = .eqlTag :=
  (dataExc_iff.mp h).imp (fun ⟨_, _, type⟩ => type) (fun ⟨_, _, type⟩ => type)

theorem tagExc_type {c : BitVec 5} {a : Tagged} {x : TrapType} (h : tagExc c a = some x) : x = .consOrNil := by
  obtain ⟨-, -, type⟩ := tagExc_iff.mp h
  exact type

/-- Settles O42: each row of the tables, the codes with no row, and each exception by its iff. -/
theorem conditions : Obligations.Conditions := by
  intro a b
  obtain ⟨whole, notWhole⟩ := dataCond_whole a b
  obtain ⟨eql, neql⟩ := dataCond_eql a b
  refine ⟨rfl, congrArg some (bne_eq_decide _ _), rfl, rfl, rfl, rfl, rfl, rfl, rfl, rfl, rfl, rfl, rfl,
    congrArg some (bne_eq_decide _ _), whole, notWhole, eql, neql, fun c => dataCond_of_gap a b, fun t tc => ?tagCodes,
    fun c => ⟨rfl, rfl, rfl, rfl⟩, fun c => ?eqlTag, fun c x => dataExc_type, fun c x => tagExc_type,
    fun c => ?fixnumOrChar, fun c => ?consOrNil⟩
  case tagCodes =>
    exact ⟨rfl, congrArg some (bne_eq_decide _ _), rfl, congrArg some (bne_eq_decide _ _),
      fun c eq neq endp nendp => tagCond_of_other eq neq endp nendp t tc⟩
  case eqlTag => exact dataExc_eqlTag.trans (and_congr_right fun _ => excJ_iff a b)
  case fixnumOrChar => exact dataExc_fixnumOrChar.trans (and_congr_right fun _ => excG_iff a b)
  case consOrNil => exact tagExc_consOrNil.trans (and_congr_right fun _ => excC_iff a)

/-! ### A condition evaluated (R254, R264, R343, R351) -/

/-- Every exception of a compare has the enable of the tag checks. -/
theorem dataExc_enable {c : BitVec 5} {a b : Tagged} {x : TrapType} (h : dataExc c a b = some x) (s : State) :
    ownEnable s x = upswTagEn s := by
  rcases dataExc_type h with rfl | rfl <;> rfl

theorem tagExc_enable {c : BitVec 5} {a : Tagged} {x : TrapType} (h : tagExc c a = some x) (s : State) :
    ownEnable s x = upswTagEn s := by
  cases tagExc_type h
  rfl

theorem dataCond_of_assigned {c : BitVec 5} (h : isDataCond c = true) (a b : Tagged) :
    ∃ v, dataCond c a b = some v := by
  have range : ∀ c : BitVec 5, isDataCond c = true → c.toNat < 16 ∨ c.toNat = 0x1E ∨ c.toNat = 0x1F := by decide
  have row := range c h
  unfold dataCond
  split
  pick_goal 19
  · simp only [imp_false] at *
    omega
  all_goals exact ⟨_, rfl⟩

/-- A code that checks an exception has a row. -/
theorem dataCond_of_exc {c : BitVec 5} {a b : Tagged} {x : TrapType} (h : dataExc c a b = some x) :
    ∃ v, dataCond c a b = some v := by
  have checked : c.toNat ≤ 9 ∨ c = 0x1E#5 ∨ c = 0x1F#5 :=
    (dataExc_iff.mp h).imp (fun ⟨low, _⟩ => low) (fun ⟨eql, _⟩ => eql)
  have row : ∀ c : BitVec 5, c.toNat ≤ 9 ∨ c = 0x1E#5 ∨ c = 0x1F#5 → isDataCond c = true := by decide
  exact dataCond_of_assigned (row c checked) a b

theorem tagCond_of_exc {c : BitVec 5} {a : Tagged} {x : TrapType} (h : tagExc c a = some x) (tc : BitVec 6) :
    ∃ v, tagCond c (tagOf a) tc = some v := by
  obtain ⟨rfl | rfl, -, -⟩ := tagExc_iff.mp h
  · exact ⟨_, rfl⟩
  · exact ⟨_, rfl⟩

/-- The exception is met and its trap is on: the condition decides nothing. -/
theorem withCond_raises {cond : Option Bool} {exc : Option TrapType} {x : TrapType} {s : State}
    (row : ∃ c, cond = some c) (met : exc = some x) (on : trapEnabled s x = true) (k : Bool → Out) :
    withCond cond exc s k = .next (takeTrap x s) := by
  obtain ⟨c, rfl⟩ := row
  subst met
  exact raiseOr_enabled on _

/-- An exception that is met has its trap off: the condition decides. -/
theorem withCond_passes {cond : Option Bool} {exc : Option TrapType} {s : State} {c : Bool} (holds : cond = some c)
    (off : ∀ x, exc = some x → trapEnabled s x = false) (k : Bool → Out) : withCond cond exc s k = k c := by
  subst holds
  cases exc with
  | none => rfl
  | some x => exact raiseOr_disabled (off x rfl) _

/-- No exception that goes by the enable of the tag checks is raised. -/
def TagChecksPass (s : State) (exc : Option TrapType) : Prop :=
  exc = none ∨ upswTagEn s = false ∨ kpswAllEn s = false

theorem trapEnabled_of_tagChecksPass {s : State} {exc : Option TrapType} {x : TrapType} (pass : TagChecksPass s exc)
    (met : exc = some x) (own : ownEnable s x = upswTagEn s) : trapEnabled s x = false := by
  rcases pass with none | off
  · cases none.symm.trans met
  · exact trapEnabled_eq_false.mpr (own ▸ off)

section Evaluated

variable {s : State} {cond s1 : RegField} {cc : CC} {tc : BitVec 6} {c : Bool} {x : TrapType}

theorem dataCompare_passes (holds : dataCond cond (src1 s s1) (ccVal s cc) = some c)
    (pass : TagChecksPass s (dataExc cond (src1 s s1) (ccVal s cc))) (k : Bool → Out) :
    dataCompare cond s1 cc s k = k c :=
  withCond_passes holds (fun _ met => trapEnabled_of_tagChecksPass pass met (dataExc_enable met s)) k

theorem tagCompare_passes (holds : tagCond cond (tagOf (src1 s s1)) tc = some c)
    (pass : TagChecksPass s (tagExc cond (src1 s s1))) (k : Bool → Out) : tagCompare cond s1 tc s k = k c :=
  withCond_passes holds (fun _ met => trapEnabled_of_tagChecksPass pass met (tagExc_enable met s)) k

theorem dataCompare_raises (met : dataExc cond (src1 s s1) (ccVal s cc) = some x) (tagEn : upswTagEn s = true)
    (all : kpswAllEn s = true) (k : Bool → Out) : dataCompare cond s1 cc s k = .next (takeTrap x s) :=
  withCond_raises (dataCond_of_exc met) met (trapEnabled_of all ((dataExc_enable met s).trans tagEn)) k

theorem tagCompare_raises (met : tagExc cond (src1 s s1) = some x) (tagEn : upswTagEn s = true)
    (all : kpswAllEn s = true) (k : Bool → Out) : tagCompare cond s1 tc s k = .next (takeTrap x s) :=
  withCond_raises (tagCond_of_exc met tc) met (trapEnabled_of all ((tagExc_enable met s).trans tagEn)) k

end Evaluated

/-! ### Branches (R255 to R260, R265) -/

/-- The end of a compare: the slot is next, then `target`. -/
def finishBranch (target : Word) (p : Pipe) (s : State) : State := { advance s with nextPC := target, pipe := p }

theorem branchDelayed_eq (s : State) (off : BitVec 9) (c : Bool) :
    branchDelayed (branchTarget s.pc off) c s = finishBranch (branchedTo s off c) Pipe.idle s := by
  cases c <;> rfl

theorem branchTrue_eq (s : State) (off : BitVec 9) (c : Bool) :
    branchTrue (branchTarget s.pc off) c s = finishBranch (branchedTo s off c) (truePipe c) s := by
  cases c <;> rfl

/-- An instruction that does not branch ends as one whose target is the next in line. -/
theorem advance_eq_finishBranch (s : State) : advance s = finishBranch (s.nextPC + 4#32) Pipe.idle s := rfl

theorem finishBranch_transfers (target : Word) (p : Pipe) (s : State) :
    Transfers s (finishBranch target p s) target p [] where
  pc := rfl
  nextPC := rfl
  pipe := rfl
  regs := (advance_only s).regs
  system := ⟨⟨rfl, rfl, rfl⟩, ⟨rfl, rfl⟩, ⟨rfl, rfl, rfl, rfl, rfl, rfl, rfl, rfl, rfl⟩, ⟨rfl, rfl, rfl⟩⟩
  fpu := { (advance_only s).fpu with }
  latches := { (advance_only s).latches with }
  memory := { (advance_only s).memory with }

theorem branches_of {i : Instr} {s : State} {target : Word} {p : Pipe}
    (h : exec i s = .next (finishBranch target p s)) : Branches i s target p :=
  ⟨_, h, finishBranch_transfers target p s, rfl, rfl⟩

/-- Settles O40: a condition that holds or not, and no exception taken, leaves the branch alone to be seen. -/
theorem compareBranch : Obligations.CompareBranch := by
  refine ⟨fun s cond s1 cc off c holds pass => ⟨branches_of ?_, branches_of ?_⟩,
    fun s cond s1 tc off c holds pass => ⟨branches_of ?_, branches_of ?_⟩⟩
  · exact (dataCompare_passes holds pass _).trans (congrArg Host.Outcome.next (branchDelayed_eq s off c))
  · exact (dataCompare_passes holds pass _).trans (congrArg Host.Outcome.next (branchTrue_eq s off c))
  · exact (tagCompare_passes holds pass _).trans (congrArg Host.Outcome.next (branchDelayed_eq s off c))
  · exact (tagCompare_passes holds pass _).trans (congrArg Host.Outcome.next (branchTrue_eq s off c))

/-! ### CMP_TRAP and TAG_CMP_TRAP (R262, R263) -/

/-- The end of a compare-and-trap: trap 15 has no enable of its own. -/
theorem compareTrap_ends {i : Instr} {s : State} {c : Bool}
    (h : exec i s = raiseIf c .cmpTrap s (.next (advance s))) :
    if c && kpswAllEn s then Traps i s .cmpTrap else Branches i s (s.nextPC + 4#32) Pipe.idle := by
  split
  next taken =>
    obtain ⟨holds, all⟩ := Bool.and_eq_true_iff.mp taken
    exact traps_of (h.trans (raiseIf_met holds (trapEnabled_of all rfl) _))
  next passed =>
    have off : c = false ∨ trapEnabled s .cmpTrap = false :=
      (Bool.and_eq_false_iff.mp (Bool.not_eq_true _ ▸ passed)).imp_right fun off => trapEnabled_eq_false.mpr (.inr off)
    rw [raiseIf_passes off, advance_eq_finishBranch] at h
    exact branches_of h

/-- Settles O41: without an exception the end of a compare-and-trap, with one the trap before any end. -/
theorem compareTraps : Obligations.CompareTraps := by
  refine ⟨fun s cond s1 cc tc off c => ⟨fun holds pass => ?_, fun holds pass => ?_⟩,
    fun s cond s1 cc tc off tt tagEn all => ⟨fun met => ?_, fun met => ?_⟩⟩
  · exact compareTrap_ends (dataCompare_passes holds pass _)
  · exact compareTrap_ends (tagCompare_passes holds pass _)
  · have raises := dataCompare_raises met tagEn all
    exact ⟨traps_of (raises _), traps_of (raises _), traps_of (raises _)⟩
  · have raises := tagCompare_raises (tc := tc) met tagEn all
    exact ⟨traps_of (raises _), traps_of (raises _), traps_of (raises _)⟩

/-! ### The FPU PSW (R50, R308) -/

theorem flagBits_flags (f : FpFlags) :
    (flagBits f).getLsbD 8 = f.operand ∧ (flagBits f).getLsbD 7 = f.overflow ∧ (flagBits f).getLsbD 6 = f.underflow ∧
    (flagBits f).getLsbD 5 = f.inexact := by
  obtain ⟨o, v, u, i⟩ := f
  revert o v u i
  decide

/-- The exception flags lie between the type tags and the control bits. -/
theorem flagBits_outside (f : FpFlags) :
    (flagBits f).extractLsb' 12 3 = 0#3 ∧ (flagBits f).extractLsb' 9 3 = 0#3 ∧ (flagBits f).extractLsb' 0 5 = 0#5 := by
  obtain ⟨o, v, u, i⟩ := f
  revert o v u i
  decide

section Psw
variable (p : BitVec 15) (t1 t2 : BitVec 3) (f : FpFlags)

theorem fpswAfter_getLsbD (n : Nat) : (fpswAfter p t1 (some t2) f).getLsbD n =
    ((t1 ++ t2 ++ p.extractLsb' 0 9).getLsbD n || (flagBits f).getLsbD n) := BitVec.getLsbD_or

theorem fpswAfter_extractLsb' (k m : Nat) : (fpswAfter p t1 (some t2) f).extractLsb' k m =
    (t1 ++ t2 ++ p.extractLsb' 0 9).extractLsb' k m ||| (flagBits f).extractLsb' k m := BitVec.extractLsb'_or

theorem fpswAfter_type1 : (fpswAfter p t1 (some t2) f).extractLsb' 12 3 = t1 := by
  obtain ⟨clear, -, -⟩ := flagBits_outside f
  rw [fpswAfter_extractLsb', clear]
  simp only [BitVec.extractLsb'_append_eq_ite]
  simp

theorem fpswAfter_type2 : (fpswAfter p t1 (some t2) f).extractLsb' 9 3 = t2 := by
  obtain ⟨-, clear, -⟩ := flagBits_outside f
  rw [fpswAfter_extractLsb', clear]
  simp only [BitVec.extractLsb'_append_eq_ite]
  simp

theorem fpswAfter_control : (fpswAfter p t1 (some t2) f).extractLsb' 0 5 = p.extractLsb' 0 5 := by
  obtain ⟨-, -, clear⟩ := flagBits_outside f
  rw [fpswAfter_extractLsb', clear]
  simp only [BitVec.extractLsb'_append_eq_ite]
  simp [extract_extract]

/-- The flags are sticky. -/
theorem fpswAfter_flag {n : Nat} (hn : n < 9) :
    (fpswAfter p t1 (some t2) f).getLsbD n = (p.getLsbD n || (flagBits f).getLsbD n) := by
  rw [fpswAfter_getLsbD]
  simp only [BitVec.getLsbD_append]
  simp [hn]

end Psw

/-- The state after an FP compare, before its branch, field by field (R53, R258). -/
theorem compared_eq (u : State) (p : BitVec 15) (b trapping : Bool) :
    compared u p b trapping = { u with
      fpuPc := u.pc.extractLsb' 2 30
      fpsw := p
      fpuBrTF := b
      fpuExcep := u.fpuExcep || trapping
      fpuExcKind := if trapping then .floatingPoint else u.fpuExcKind } := by
  cases trapping
  · simp [compared, setPending, setFpuPc]
  · simp [compared, setPending, setFpuPc]

/-- What a compare of two registers makes of the FPU: it is idle afterwards. -/
def afterCompare (s : State) (x y : FpReg) (f : FpFlags) (c : Bool) : State :=
  compared (fpuWait s) (fpswAfter s.fpsw x.type (some y.type) f) c (fpTrapping s f)

/-! ### FP compares (R253, R258, R261, R307, R322) -/

theorem fpCompare_of {s : State} {cond a b : RegField} {va vb : FpVal} (ready : fpuReady s = true)
    (quiet : noFpuTrap s = true) (fieldA : isFpuDataField a = true) (fieldB : isFpuDataField b = true)
    (valA : classify (readFpu s slotFp1 a) = some va) (valB : classify (readFpu s slotFp2 b) = some vb)
    (k : Bool → State → Out) :
    fpCompare cond a b s k = k (fpCond cond (fpRelation s va vb))
      (afterCompare s (readFpu s slotFp1 a) (readFpu s slotFp2 b) (compareFlags s cond va vb (fpRelation s va vb))
        (fpCond cond (fpRelation s va vb))) := by
  have fields : fpuFieldsOk [a, b] = true := by simp [fpuFieldsOk, fieldA, fieldB]
  have waitA : readFpu (fpuWait s) slotFp1 a = readFpu s slotFp1 a := rfl
  have waitB : readFpu (fpuWait s) slotFp2 b = readFpu s slotFp2 b := rfl
  rw [fpCompare, withFpu_of ready, fpuStart_of quiet, fields]
  simp only [waitA, waitB, valA, valB]
  rfl

section AfterCompare
variable (s : State) (x y : FpReg) (f : FpFlags) (c : Bool)

theorem afterCompare_eq : afterCompare s x y f c = { s with
    fpuRun := none
    fpuPc := s.pc.extractLsb' 2 30
    fpsw := fpswAfter s.fpsw x.type (some y.type) f
    fpuBrTF := c
    fpuExcep := s.fpuExcep || enabledExc s f
    fpuExcKind := if enabledExc s f then .floatingPoint else s.fpuExcKind } := compared_eq _ _ _ _

theorem branchedTo_afterCompare (off : BitVec 9) :
    branchedTo (afterCompare s x y f c) off c = branchedTo s off c := by
  rw [afterCompare_eq]
  rfl

theorem afterCompare_effect : FpswEffect s (afterCompare s x y f c) f x.type y.type .floatingPoint := by
  obtain ⟨operand, overflow, underflow, inexact⟩ := flagBits_flags f
  have flag {n : Nat} (hn : n < 9) := fpswAfter_flag s.fpsw x.type y.type f hn
  rw [afterCompare_eq]
  exact {
    t1 := fpswAfter_type1 _ _ _ _
    t2 := fpswAfter_type2 _ _ _ _
    operand := operand ▸ flag (by decide)
    overflow := overflow ▸ flag (by decide)
    underflow := underflow ▸ flag (by decide)
    inexact := inexact ▸ flag (by decide)
    control := fpswAfter_control _ _ _ _
    pending := rfl
    kind := rfl }

end AfterCompare

/-- The operand flag of a compare of numbers, zeros, infinities and Not-a-Numbers, and no other flag. -/
theorem compareFlags_of_defined {va vb : FpVal} (ka : va ≠ .unknown) (kb : vb ≠ .unknown) (da : isDenorm va = false)
    (db : isDenorm vb = false) (s : State) (cond : BitVec 5) (r : FpRel) : compareFlags s cond va vb r =
      { operand := isSNaN va || isSNaN vb || (decide (r = .un) && cond.getLsbD 4), overflow := false,
        underflow := false, inexact := false } := by
  rw [compareFlags, if_neg (not_or.mpr ⟨ka, kb⟩), da, db]
  rfl

theorem compareFlags_operand_of_denorm {va vb : FpVal} (ka : va ≠ .unknown) (kb : vb ≠ .unknown)
    (d : isDenorm va = true ∨ isDenorm vb = true) (s : State) (cond : BitVec 5) (r : FpRel) :
    (compareFlags s cond va vb r).operand = true := by
  rw [compareFlags, if_neg (not_or.mpr ⟨ka, kb⟩), if_pos (Bool.or_eq_true_iff.mpr d)]

/-- The end of an FP compare: the FPU is as the compare leaves it, the rest as after any branch. -/
theorem finishBranch_afterCompare (s : State) (target : Word) (p : Pipe) (x y : FpReg) (f : FpFlags) (c : Bool)
    {t : State} (ht : t = finishBranch target p (afterCompare s x y f c)) :
    t.pc = s.nextPC ∧ t.nextPC = target ∧ t.pipe = p ∧ t.cwp = s.cwp ∧ t.kpsw = applyRet s.kpsw s.pipe.retPend ∧
      t.fpuBrTF = c ∧ t.fpuPc = s.pc.extractLsb' 2 30 ∧ t.fregs = s.fregs ∧ t.fpuRun = none ∧
      FpswEffect s t f x.type y.type .floatingPoint ∧ KeepsCpu s t ∧ KeepsLatches s t ∧ KeepsMemory s t := by
  have effect := afterCompare_effect s x y f c
  rw [afterCompare_eq] at effect ht
  subst ht
  exact ⟨rfl, rfl, rfl, rfl, rfl, rfl, rfl, rfl, rfl, { effect with },
    ⟨keepsRegs_nil rfl rfl _, ⟨rfl, rfl, rfl⟩, ⟨rfl, rfl⟩, ⟨rfl, rfl, rfl, rfl, rfl, rfl, rfl, rfl, rfl⟩,
      ⟨rfl, rfl, rfl⟩⟩,
    ⟨rfl, rfl⟩, ⟨fun _ => rfl, fun _ => rfl, fun _ => rfl⟩⟩

/-- Settles O43: the compare changes the FPU, then the branch is that of any compare. -/
theorem fpCompareBranch : Obligations.FpCompareBranch := by
  refine ⟨fun s cond va vb r ka kb => ⟨fun da db => compareFlags_of_defined ka kb da db s cond r,
    fun d => compareFlags_operand_of_denorm ka kb d s cond r⟩, ?_⟩
  intro s cond a b off va vb x y c ready quiet fieldA fieldB hx hy valA valB hc i p form
  subst hx hy hc
  have compares := fpCompare_of (cond := cond) ready quiet fieldA fieldB valA valB
  refine ⟨_, ?ends, finishBranch_afterCompare s _ p _ _ _ _ rfl⟩
  rw [← branchedTo_afterCompare]
  rcases form with ⟨rfl, rfl⟩ | ⟨rfl, rfl⟩
  · rw [← branchDelayed_eq]
    exact compares fun c t => .next (branchDelayed (branchTarget t.pc off) c t)
  · rw [← branchTrue_eq]
    exact compares fun c t => .next (branchTrue (branchTarget t.pc off) c t)

end Sys2Proof.Proofs.CompareBranches

/-! Proofs of the family spec/45_call_jump.md: the step of a decoded instruction, the jumps, the calls and returns, and
their window traps. -/

namespace Sys2Proof.Proofs.CallJump

open Sys2Proof Sys2Proof.Machine Sys2Proof.Safety Sys2Proof.Laws
open Sys2Proof.Proofs.MemoryManagement Sys2Proof.Proofs.RegisterOps Sys2Proof.Proofs.CompareBranches

/-! ### The step of a decoded instruction (R280, R343) -/

theorem stepWord_ok {w : Word} {s : State} {i : Instr} (quiet : interruptReady s = false) (decoded : decode w = .ok i) :
    stepWord w s = exec i s := by
  simp [stepWord, quiet, decoded]

theorem step_fetched {s s1 : State} {w : Word} (runs : s.pipe.squash = false) (fetched : fetch s = .done w s1) :
    step s = onTick (stepWord w s1) := by
  rw [step, runs, stepFetched, fetched]
  rfl

/-- A physical fetch with the buffer off is a word of RAM, and touches nothing (R41, R43, R83). -/
theorem fetch_physicalRam {s : State} (bufferOff : kpswIbEn s = false) (physical : kpswVaIfetch s = false)
    (ram : responder s s.pc = .board .ram) : fetch s = .done (memWord s.mem s.pc) s := by
  simp [fetch, fetchMem, readWord, bufferOff, physical, busRead_ram ram]

/-- Settles O4: the step of a fetched word, which for a physical fetch is the one in RAM. -/
theorem stepRunsDecoded : Obligations.StepRunsDecoded := by
  refine ⟨fun s s1 w i runs fetched quiet decoded => ?_, fun s i runs quiet bufferOff physical ram decoded => ?_⟩
  · rw [step_fetched runs fetched, stepWord_ok quiet decoded]
  · rw [step_fetched runs (fetch_physicalRam bufferOff physical ram), stepWord_ok quiet decoded]

/-! ### JUMP and JUMP_REG (R281, R282) -/

/-- A transfer after the slot ends as a taken branch does. -/
theorem advanceTo_eq_finishBranch (target : Word) (s : State) : advanceTo target s = finishBranch target Pipe.idle s :=
  rfl

theorem jumps_of {i : Instr} {s : State} {target : Word} (h : exec i s = .next (advanceTo target s)) :
    Branches i s target Pipe.idle :=
  branches_of (h.trans (congrArg Host.Outcome.next (advanceTo_eq_finishBranch target s)))

/-- Settles O45: neither jump checks anything. -/
theorem jumps : Obligations.Jumps := by
  refine ⟨fun s addr => jumps_of rfl, fun s s1 rc => jumps_of ?_⟩
  rw [← alignWord_eq]
  rfl

/-! ### The end of a window change (R280, R283, R285, R288) -/

/-- A window change from a state that differs from the instruction's own in the windows, CWP and KPSW alone. -/
theorem finishWindow_transfers (target : Word) (r : Option RetKind) {s u : State} {written : List PhysReg}
    (regs : KeepsRegs s u written) (only : u = { s with windows := u.windows, cwp := u.cwp, kpsw := u.kpsw }) :
    Transfers s (finishWindow target r u) target (windowPipe r) written := by
  have regs : KeepsRegs s (finishWindow target r u) written := fun q hq => (regGet_congr rfl rfl q).trans (regs q hq)
  rw [only] at regs ⊢
  exact {
    pc := rfl
    nextPC := rfl
    pipe := rfl
    regs := regs
    system := ⟨⟨rfl, rfl, rfl⟩, ⟨rfl, rfl⟩, ⟨rfl, rfl, rfl, rfl, rfl, rfl, rfl, rfl, rfl⟩, ⟨rfl, rfl, rfl⟩⟩
    fpu := ⟨rfl, rfl, rfl, rfl, rfl, rfl, rfl⟩
    latches := ⟨rfl, rfl⟩
    memory := ⟨fun _ => rfl, fun _ => rfl, fun _ => rfl⟩ }

theorem slotGuard_passes {s : State} (slot : s.pipe.slotOfTrue = false) (k : Out) : slotGuard s k = k := by
  rw [slotGuard, slot]
  rfl

/-- A window trap that is not met or not enabled is passed. -/
theorem windowTrap_passes {s : State} {test : Bool} {tt : TrapType} (own : ownEnable s tt = kpswWinEn s)
    (noTrap : test = false ∨ kpswWinEn s = false ∨ kpswAllEn s = false) : test = false ∨ trapEnabled s tt = false :=
  noTrap.imp_right fun disabled => trapEnabled_eq_false.mpr (own ▸ disabled)

/-- A bit of a word once bit `n` of it, which is one it has, is set to `b`. -/
theorem setBit_getLsbD_of_lt {w n : Nat} (v : BitVec w) (h : n < w) (k : Nat) (b : Bool) :
    (setBit v n b).getLsbD k = if k = n then b else v.getLsbD k := by
  have inWord : k = n ∧ k < w ↔ k = n := and_iff_left_of_imp fun same => same ▸ h
  rw [setBit_getLsbD, if_congr inWord rfl rfl]

/-! ### CALL and CALL_KERNEL (R283, R284) -/

/-- The end of a call: the next window is entered, `k` is the KPSW over which a waiting return's change is made. -/
def finishCall (target : Word) (k : BitVec 24) (s : State) : State :=
  finishWindow target none (enterWindow { s with kpsw := k })

section Call

variable {s : State} {target : Word} {k : BitVec 24}

/-- R10 of the next window may be written: the load just before was not into it (R171). -/
theorem destBlocked_nextWindow (h : s.pipe.loadShadow ≠ some (.int (physReg (s.cwp + 1#3) 10#5))) :
    destBlocked { s with cwp := s.cwp + 1#3 } 10#5 = false := by
  simp [destBlocked, h]

theorem callTo_unguarded (slot : s.pipe.slotOfTrue = false)
    (free : s.pipe.loadShadow ≠ some (.int (physReg (s.cwp + 1#3) 10#5))) :
    callTo target k s = raiseIf (windowOverflow s) .windowOverflow s (.next (finishCall target k s)) := by
  rw [callTo, slotGuard_passes slot, destBlocked_nextWindow free]
  rfl

theorem callTo_completes (slot : s.pipe.slotOfTrue = false)
    (free : s.pipe.loadShadow ≠ some (.int (physReg (s.cwp + 1#3) 10#5)))
    (noTrap : windowOverflow s = false ∨ kpswWinEn s = false ∨ kpswAllEn s = false) :
    callTo target k s = .next (finishCall target k s) :=
  (callTo_unguarded slot free).trans (raiseIf_passes (windowTrap_passes rfl noTrap) _)

theorem callTo_windowOverflow (slot : s.pipe.slotOfTrue = false)
    (free : s.pipe.loadShadow ≠ some (.int (physReg (s.cwp + 1#3) 10#5))) (met : windowOverflow s = true)
    (on : trapEnabled s .windowOverflow = true) : callTo target k s = .next (takeTrap .windowOverflow s) :=
  (callTo_unguarded slot free).trans (raiseIf_met met on _)

theorem finishCall_transfers (target : Word) (k : BitVec 24) (s : State) :
    Transfers s (finishCall target k s) target (windowPipe none) [physReg (s.cwp + 1#3) 10#5] :=
  finishWindow_transfers target none (writeReg_keeps { s with cwp := s.cwp + 1#3, kpsw := k } 10#5 (fixnum s.pc)) rfl

@[simp] theorem finishCall_cwp (target : Word) (k : BitVec 24) (s : State) :
    (finishCall target k s).cwp = s.cwp + 1#3 := by
  simp [finishCall]

@[simp] theorem finishCall_kpsw (target : Word) (k : BitVec 24) (s : State) :
    (finishCall target k s).kpsw = applyRet k s.pipe.retPend := by
  simp [finishCall]

/-- R10 of the window entered holds the address of the call. -/
theorem finishCall_r10 (target : Word) (k : BitVec 24) (s : State) :
    regVal (finishCall target k s) 10#5 = fixnum s.pc :=
  (regVal_congr rfl rfl rfl 10#5).trans
    (regVal_writeReg_self { s with cwp := s.cwp + 1#3, kpsw := k } 10#5 (fixnum s.pc))

end Call

/-- The bits of CALL_KERNEL's KPSW: 4 is the mode, 5 the one before (R284). -/
theorem kernelKpsw_getLsbD (k : BitVec 24) (n : Nat) :
    (kernelKpsw k).getLsbD n = if n = 4 then true else if n = 5 then k.getLsbD 4 else k.getLsbD n := by
  rw [kernelKpsw, setBit_getLsbD_of_lt _ (by decide), setBit_getLsbD_of_lt _ (by decide)]

/-- Settles O46: the two calls differ in target and KPSW. -/
theorem calls : Obligations.Calls := by
  intro s addr slot free noTrap
  refine ⟨⟨_, callTo_completes slot free noTrap, finishCall_transfers _ _ s, finishCall_cwp _ _ s, finishCall_r10 _ _ s,
      finishCall_kpsw _ _ s⟩,
    _, callTo_completes slot free noTrap, finishCall_transfers _ _ s, finishCall_cwp _ _ s, finishCall_r10 _ _ s,
      fun noReturn => ?_⟩
  have kpsw : (finishCall kernelEntry (kernelKpsw s.kpsw) s).kpsw = kernelKpsw s.kpsw := by
    rw [finishCall_kpsw, noReturn]
    rfl
  rw [kpswMode, kpsw]
  refine ⟨kernelKpsw_getLsbD s.kpsw 4, kernelKpsw_getLsbD s.kpsw 5, fun n h4 h5 => ?_⟩
  rw [kernelKpsw_getLsbD, if_neg h4, if_neg h5]

/-! ### RET, RET_TRAP and RET_KERNEL (R285 to R287) -/

/-- The end of a return: the previous window, the change of KPSW waiting. -/
def finishReturn (target : Word) (r : Option RetKind) (s : State) : State :=
  finishWindow target r { s with cwp := s.cwp - 1#3 }

section Return

variable {s : State} {s1 : RegField} {rc : RC} {r : Option RetKind}

theorem returnTo_unguarded (slot : s.pipe.slotOfTrue = false) :
    returnTo s1 rc r s =
      raiseIf (windowUnderflow s) .windowUnderflow s (.next (finishReturn (alignWord (sumRC s s1 rc)) r s)) :=
  slotGuard_passes slot _

theorem returnTo_completes (slot : s.pipe.slotOfTrue = false)
    (noTrap : windowUnderflow s = false ∨ kpswWinEn s = false ∨ kpswAllEn s = false) :
    returnTo s1 rc r s = .next (finishReturn (alignWord (sumRC s s1 rc)) r s) :=
  (returnTo_unguarded slot).trans (raiseIf_passes (windowTrap_passes rfl noTrap) _)

theorem returnTo_windowUnderflow (slot : s.pipe.slotOfTrue = false) (met : windowUnderflow s = true)
    (on : trapEnabled s .windowUnderflow = true) : returnTo s1 rc r s = .next (takeTrap .windowUnderflow s) :=
  (returnTo_unguarded slot).trans (raiseIf_met met on _)

theorem finishReturn_transfers (target : Word) (r : Option RetKind) (s : State) :
    Transfers s (finishReturn target r s) target (windowPipe r) [] :=
  finishWindow_transfers target r (keepsRegs_nil rfl rfl _) rfl

/-- What each of the three returns does, by the change of KPSW it leaves waiting. -/
theorem exec_return {i : Instr} (s : State)
    (h : i = .ret s1 rc ∧ r = none ∨ i = .retTrap s1 rc ∧ r = some .trap ∨ i = .retKernel s1 rc ∧ r = some .kernel) :
    exec i s = returnTo s1 rc r s := by
  rcases h with ⟨rfl, rfl⟩ | ⟨rfl, rfl⟩ | ⟨rfl, rfl⟩ <;> rfl

end Return

/-- RET_TRAP sets bit 12, all_en (R286). -/
theorem applyRet_trap_getLsbD (k : BitVec 24) (n : Nat) :
    (applyRet k (some .trap)).getLsbD n = if n = 12 then true else k.getLsbD n :=
  setBit_getLsbD_of_lt k (by decide) n true

/-- RET_KERNEL sets bit 12, all_en, and clears bit 4, the mode (R287). -/
theorem applyRet_kernel_getLsbD (k : BitVec 24) (n : Nat) :
    (applyRet k (some .kernel)).getLsbD n = if n = 12 then true else if n = 4 then false else k.getLsbD n := by
  rw [applyRet, setBit_getLsbD_of_lt _ (by decide), setBit_getLsbD_of_lt _ (by decide)]

/-- Settles O47: the three returns differ in the change of KPSW that waits. -/
theorem returns : Obligations.Returns := by
  refine ⟨fun s s1 rc slot noTrap i r form => ?_, fun k => ⟨applyRet_trap_getLsbD k, applyRet_kernel_getLsbD k⟩⟩
  rw [← alignWord_eq]
  exact ⟨_, (exec_return s form).trans (returnTo_completes slot noTrap), finishReturn_transfers _ r s, rfl, rfl⟩

/-! ### Window overflow and underflow (R356, R8) -/

theorem windowOverflow_ofSwp {s : State} (h : s.board.windowTests = .ofSwp) :
    windowOverflow s = decide (s.cwp + 2#3 = s.swp.extractLsb' 4 3) := by
  rw [windowOverflow, h]
  rfl

theorem windowUnderflow_ofSwp {s : State} (h : s.board.windowTests = .ofSwp) :
    windowUnderflow s = decide (s.cwp = s.swp.extractLsb' 4 3) := by
  rw [windowUnderflow, h]
  rfl

section Parameters

variable {s t : State}

theorem windowOverflow_congr (tests : t.board.windowTests = s.board.windowTests) (cwp : t.cwp = s.cwp)
    (swp : t.swp = s.swp) : windowOverflow t = windowOverflow s := by
  rw [windowOverflow, windowOverflow, tests, cwp, swp]

theorem windowUnderflow_congr (tests : t.board.windowTests = s.board.windowTests) (cwp : t.cwp = s.cwp)
    (swp : t.swp = s.swp) : windowUnderflow t = windowUnderflow s := by
  rw [windowUnderflow, windowUnderflow, tests, cwp, swp]

end Parameters

/-- Settles O48: the window traps share one enable, and each call or return takes its own before it does anything. -/
theorem windowTraps : Obligations.WindowTraps := by
  refine ⟨fun s ofSwp => ⟨windowOverflow_ofSwp ofSwp, windowUnderflow_ofSwp ofSwp⟩,
    fun s t tests cwp swp => ⟨windowOverflow_congr tests cwp swp, windowUnderflow_congr tests cwp swp⟩,
    fun s addr s1 rc slot free winEn all => ⟨fun overflow => ?_, fun underflow => ?_⟩⟩
  · have on : trapEnabled s .windowOverflow = true := trapEnabled_of all winEn
    have taken (target : Word) (k : BitVec 24) : callTo target k s = .next (takeTrap .windowOverflow s) :=
      callTo_windowOverflow slot free overflow on
    exact ⟨traps_of (taken (jumpTarget s.pc addr) s.kpsw), traps_of (taken kernelEntry (kernelKpsw s.kpsw))⟩
  · have on : trapEnabled s .windowUnderflow = true := trapEnabled_of all winEn
    have taken (r : Option RetKind) : returnTo s1 rc r s = .next (takeTrap .windowUnderflow s) :=
      returnTo_windowUnderflow slot underflow on
    exact ⟨traps_of (taken none), traps_of (taken (some .trap)), traps_of (taken (some .kernel))⟩

end Sys2Proof.Proofs.CallJump

/-! Proofs of the family spec/46_floating_point.md, the values: what the registers that the model makes are read as, the
single and double images, the relation of two numbers. -/

namespace Sys2Proof.Proofs.FpuValues

open Sys2Proof Sys2Proof.Machine Sys2Proof.Safety Sys2Proof.Laws

/-! ### What a register is read as (R301, R48) -/

@[simp] theorem classify_zeroReg (s : State) (sg : Bool) : classify (zeroReg s sg) = some (.zero sg) := rfl

@[simp] theorem classify_infReg (s : State) (sg : Bool) : classify (infReg s sg) = some (.inf sg) := rfl

@[simp] theorem classify_qnanReg (s : State) (sg : Bool) (m : BitVec 64) :
    classify (qnanReg s sg m) = some (.qnan sg m) := rfl

/-- The category of a register by its type code, where its fraction is one that the category allows. -/
theorem classify_norm {x : FpReg} (known : x.image = false) (type : x.type = typeNorm) (top : x.frac.getLsbD 63 = true) :
    classify x = some (.norm x.sign (trueExp x.exp) x.frac) := by
  simp [classify, known, type, top, typeZero, typeDenorm, typeNorm]

theorem classify_denorm {x : FpReg} (known : x.image = false) (type : x.type = typeDenorm)
    (top : x.frac.getLsbD 63 = false) (nonzero : x.frac ≠ 0#64) : classify x = some (.denorm x.sign x.frac) := by
  rw [classify, known, type, if_pos (And.intro top nonzero)]
  rfl

/-- An exponent that fits E is the one read back (R48, R307). -/
theorem trueExp_expField (s : State) {e : Int} (low : -65535 ≤ e) (high : e ≤ 65536) : trueExp (expField s e) = e := by
  have fits : (BitVec.ofInt 17 (e - 1)).toInt = e - 1 :=
    BitVec.toInt_ofInt_eq_self (by decide) (by omega) (by omega)
  rw [trueExp, expField, if_pos ⟨low, high⟩, fits, Int.sub_add_cancel]

theorem classify_normReg (s : State) (sg : Bool) {e : Int} {m : BitVec 64} (r : BitVec 2) (low : -65535 ≤ e)
    (high : e ≤ 65536) (top : m.getLsbD 63 = true) : classify (normReg s sg e m r) = some (.norm sg e m) := by
  have value : classify (normReg s sg e m r) = some (.norm sg (trueExp (expField s e)) m) := classify_norm rfl rfl top
  rw [value, trueExp_expField s low high]

/-! ### The images that LD_SGL and LD_DBL unpack (R302, R303) -/

section Unpacked

variable (s : State) (sg : Bool) (exp : BitVec 17) (beZero beOnes frZero frTop : Bool) {m : BitVec 64}

/-- The hidden bit, over a fraction that leaves its place free. -/
theorem hiddenBit_or_top (m : BitVec 64) : (1#64 <<< 63 ||| m).getLsbD 63 = true := by simp

/-- What unpacking makes of an image, by its exponent and its fraction. -/
theorem classify_unpackFields (top : m.getLsbD 63 = false) (zero : m = 0#64 ↔ frZero = true) :
    classify (unpackFields s sg exp beZero beOnes frZero frTop m) = some
      (if beZero then (if frZero then .zero sg else .denorm sg m)
       else if beOnes then
        (if frZero then .inf sg else if frTop then .qnan sg (1#64 <<< 63 ||| m) else .snan sg (1#64 <<< 63 ||| m))
       else .norm sg (trueExp exp) (1#64 <<< 63 ||| m)) := by
  cases beZero
  case true =>
    cases frZero
    case true => rfl
    case false => exact classify_denorm rfl rfl top fun isZero => Bool.false_ne_true (zero.mp isZero)
  case false =>
    cases beOnes
    case true => cases frZero <;> cases frTop <;> rfl
    case false => exact classify_norm rfl rfl (hiddenBit_or_top m)

end Unpacked

/-- Packing takes an unpacked image apart again: every category comes back as its own biased exponent (R304). -/
theorem packParts_unpackFields (s : State) (sg : Bool) (exp : BitVec 17) (beZero beOnes frZero frTop : Bool)
    {m : BitVec 64} {fmt : FpFormat} {k : Nat} (top : m.getLsbD 63 = false) (zero : m = 0#64 ↔ frZero = true)
    (low : m.toNat % 2 ^ k = 0) (lowHidden : (1#64 <<< 63 ||| m).toNat % 2 ^ k = 0)
    (range : beZero = false → beOnes = false → fmt.emin ≤ trueExp exp ∧ trueExp exp ≤ fmt.emax) :
    packParts (unpackFields s sg exp beZero beOnes frZero frTop m) fmt k =
      some (sg, if beZero then 0 else if beOnes then 2 * fmt.emax + 1 else trueExp exp + fmt.emax) := by
  rw [packParts, classify_unpackFields s sg exp beZero beOnes frZero frTop top zero]
  cases beZero
  case true =>
    cases frZero
    case true => rfl
    case false => exact if_pos (beq_iff_eq.mpr low)
  case false =>
    cases beOnes
    case true => cases frZero <;> cases frTop <;> rfl
    case false =>
      obtain ⟨small, large⟩ := range rfl rfl
      exact if_pos ⟨small, large, beq_iff_eq.mpr lowHidden⟩

/-- The fraction of an unpacked image, whatever its category: a zero and an infinity have none. -/
theorem packFrac_unpackFields (s : State) (sg : Bool) (exp : BitVec 17) (beZero beOnes frZero frTop : Bool)
    {m : BitVec 64} (zero : m = 0#64 ↔ frZero = true) :
    packFrac (unpackFields s sg exp beZero beOnes frZero frTop m) =
      if beZero || beOnes && frZero then m else 1#64 <<< 63 ||| m := by
  cases beZero
  case true =>
    cases frZero
    case true => exact (zero.mpr rfl).symm
    case false => rfl
  case false =>
    cases beOnes
    case true =>
      cases frZero
      case true => exact (zero.mpr rfl).symm
      case false => cases frTop <;> rfl
    case false => rfl

/-- The true exponent of a biased one, in a format with bias `b` (R302, R303). -/
theorem trueExp_biased {n b : Nat} (be : BitVec n) (width : n ≤ 16) (bias : b < 65536) :
    trueExp (be.setWidth 17 - BitVec.ofNat 17 (b + 1)) = (be.toNat : Int) - b := by
  have small : be.toNat < 65536 := Nat.lt_of_lt_of_le be.isLt (Nat.pow_le_pow_right (by decide) width)
  have same : be.setWidth 17 - BitVec.ofNat 17 (b + 1) = BitVec.ofInt 17 ((be.toNat : Int) - (b + 1)) := by
    apply BitVec.eq_of_toNat_eq
    simp only [BitVec.toNat_sub, BitVec.toNat_setWidth, BitVec.toNat_ofNat, BitVec.toNat_ofInt]
    omega
  rw [trueExp, same, BitVec.toInt_ofInt_eq_self (by decide) (by omega) (by omega)]
  omega

/-! #### An image as sign, biased exponent and fraction -/

section Fields

variable {n k : Nat} (sg : BitVec 1) (be : BitVec n) (fr : BitVec k)

theorem image_sign : (sg ++ be ++ fr).getLsbD (n + k) = (sg == 1#1) := by
  have bit : ∀ sg : BitVec 1, sg.getLsbD 0 = (sg == 1#1) := by decide
  have above : ¬ n + k < k := by omega
  rw [BitVec.getLsbD_append, if_neg above, Nat.add_sub_cancel, BitVec.getLsbD_append, if_neg (lt_irrefl n),
    Nat.sub_self, bit]

theorem image_exponent : (sg ++ be ++ fr).extractLsb' k n = be := by
  rw [extract_append_high _ _ _ _ le_rfl, Nat.sub_self]
  exact BitVec.extractLsb'_append_eq_right

theorem image_fraction : (sg ++ be ++ fr).extractLsb' 0 k = fr := BitVec.extractLsb'_append_eq_right

/-- Every image is one of these. -/
theorem image_eq (w : BitVec (1 + n + k)) :
    w.extractLsb' (n + k) 1 ++ w.extractLsb' k n ++ w.extractLsb' 0 k = w := by
  rw [BitVec.extractLsb'_append_extractLsb'_eq_extractLsb' (Nat.add_comm n k),
    BitVec.extractLsb'_append_extractLsb'_eq_extractLsb' (Nat.zero_add k).symm, BitVec.extractLsb'_eq_self]

/-- A fraction at the top of F leaves the place of the hidden bit free. -/
theorem fraction_top : (0#1 ++ fr ++ 0#n).getLsbD (k + n) = false := by
  have above : ¬ k + n < n := by omega
  rw [BitVec.getLsbD_append, if_neg above, Nat.add_sub_cancel, BitVec.getLsbD_append, if_neg (lt_irrefl k)]
  exact BitVec.getLsbD_zero

theorem fraction_eq_zero : 0#1 ++ fr ++ 0#n = 0#(1 + k + n) ↔ fr = 0#k := by
  have zero : 0#(1 + k + n) = 0#1 ++ 0#k ++ 0#n := by simp
  rw [zero, BitVec.append_left_inj, BitVec.append_right_inj]

theorem hiddenBit_or_fraction : (1#1 ++ 0#k ++ 0#n) ||| (0#1 ++ fr ++ 0#n) = 1#1 ++ fr ++ 0#n := by
  rw [BitVec.or_append, BitVec.or_append, BitVec.zero_or, BitVec.or_zero, BitVec.or_zero]

theorem fraction_extract (h : BitVec 1) : (h ++ fr ++ 0#n).extractLsb' n k = fr := by
  rw [extract_append_high _ _ _ _ le_rfl, Nat.sub_self]
  exact BitVec.extractLsb'_append_eq_right

theorem fraction_low (h : BitVec 1) : (h ++ fr ++ 0#n).toNat % 2 ^ n = 0 := by
  simp [BitVec.toNat_append, Nat.shiftLeft_eq]

end Fields

/-! #### The two formats (R302, R303) -/

section Formats

variable (s : State) (sg : BitVec 1)

theorem unpackSingle_image (be : BitVec 8) (fr : BitVec 23) : unpackSingle s (sg ++ be ++ fr) =
    unpackFields s (sg == 1#1) (be.setWidth 17 - 128#17) (be == 0#8) (be == 0xFF#8) (fr == 0#23) (fr.getLsbD 22)
      (0#1 ++ fr ++ 0#40) := by
  have sign : (sg ++ be ++ fr).getLsbD 31 = (sg == 1#1) := image_sign sg be fr
  simp only [unpackSingle, sign, image_exponent, image_fraction]

theorem unpackDouble_image (be : BitVec 11) (fr : BitVec 52) : unpackDouble s (sg ++ be ++ fr) =
    unpackFields s (sg == 1#1) (be.setWidth 17 - 1024#17) (be == 0#11) (be == 0x7FF#11) (fr == 0#52) (fr.getLsbD 51)
      (0#1 ++ fr ++ 0#11) := by
  have sign : (sg ++ be ++ fr).getLsbD 63 = (sg == 1#1) := image_sign sg be fr
  simp only [unpackDouble, sign, image_exponent, image_fraction]

theorem trueExp_single (be : BitVec 8) : trueExp (be.setWidth 17 - 128#17) = (be.toNat : Int) - 127 :=
  trueExp_biased (b := 127) be (by decide) (by decide)

theorem trueExp_double (be : BitVec 11) : trueExp (be.setWidth 17 - 1024#17) = (be.toNat : Int) - 1023 :=
  trueExp_biased (b := 1023) be (by decide) (by decide)

end Formats

/-- Settles O24: each format by what `unpackFields` makes of its exponent and fraction. -/
theorem unpackValues : Obligations.UnpackValues := by
  refine ⟨fun s sg be fr => ?_, fun s sg be fr => ?_⟩
  · have hidden : 1#64 <<< 63 ||| (0#1 ++ fr ++ 0#40) = 1#1 ++ fr ++ 0#40 := hiddenBit_or_fraction (n := 40) fr
    have zero : 0#1 ++ fr ++ 0#40 = 0#64 ↔ (fr == 0#23) = true := (fraction_eq_zero fr).trans beq_iff_eq.symm
    rw [unpackSingle_image, classify_unpackFields s _ _ _ _ _ _ (fraction_top fr) zero, trueExp_single, hidden]
    simp only [beq_iff_eq]
  · have hidden : 1#64 <<< 63 ||| (0#1 ++ fr ++ 0#11) = 1#1 ++ fr ++ 0#11 := hiddenBit_or_fraction (n := 11) fr
    have zero : 0#1 ++ fr ++ 0#11 = 0#64 ↔ (fr == 0#52) = true := (fraction_eq_zero fr).trans beq_iff_eq.symm
    rw [unpackDouble_image, classify_unpackFields s _ _ _ _ _ _ (fraction_top fr) zero, trueExp_double, hidden]
    simp only [beq_iff_eq]

/-! ### Packing what was unpacked (R304) -/

/-- The biased exponent comes back from what packing makes of each category, in a format of maximal exponent `emax`. -/
theorem biased_again {n : Nat} (be : BitVec n) {emax : Int} (ones : (BitVec.allOnes n).toNat = 2 * emax + 1) :
    (if be == 0#n then 0 else if be == BitVec.allOnes n then 2 * emax + 1 else (be.toNat : Int) - emax + emax) =
      be.toNat := by
  split
  next zero => simp [beq_iff_eq.mp zero]
  next =>
    split
    next allOnes => rw [beq_iff_eq.mp allOnes, ones]
    next => omega

/-- Between the exponents of zero and of infinity lie those of the normalized numbers. -/
theorem biased_range {n : Nat} (be : BitVec n) {emax : Int} (ones : (BitVec.allOnes n).toNat = 2 * emax + 1)
    (zero : (be == 0#n) = false) (infinite : (be == BitVec.allOnes n) = false) :
    1 - emax ≤ (be.toNat : Int) - emax ∧ (be.toNat : Int) - emax ≤ emax := by
  have positive : be.toNat ≠ 0 := fun h => beq_eq_false_iff_ne.mp zero (BitVec.eq_of_toNat_eq (by simpa using h))
  have below : be.toNat ≠ (BitVec.allOnes n).toNat := fun h => beq_eq_false_iff_ne.mp infinite (BitVec.eq_of_toNat_eq h)
  have most : be.toNat ≤ (BitVec.allOnes n).toNat := by
    have := be.isLt
    rw [BitVec.toNat_allOnes]
    omega
  omega

section HiddenBit

variable {j : Nat} {m : BitVec 64}

theorem hiddenBit_or_extract {k : Nat} (below : j + k ≤ 63) (m : BitVec 64) :
    (1#64 <<< 63 ||| m).extractLsb' j k = m.extractLsb' j k := by
  have outside : (1#64 <<< 63).extractLsb' j k = 0#k := by
    apply BitVec.eq_of_getLsbD_eq
    intro i hi
    have apart : j + i < 63 := by omega
    rw [BitVec.getLsbD_extractLsb', BitVec.getLsbD_shiftLeft, decide_eq_true apart]
    simp
  rw [BitVec.extractLsb'_or, outside, BitVec.zero_or]

theorem hiddenBit_or_low (below : j ≤ 63) (low : m.toNat % 2 ^ j = 0) : (1#64 <<< 63 ||| m).toNat % 2 ^ j = 0 := by
  have place : (1#64 <<< 63).toNat = 2 ^ 63 := by decide
  have above : 2 ^ 63 % 2 ^ j = 0 := Nat.mod_eq_zero_of_dvd (Nat.pow_dvd_pow 2 below)
  rw [BitVec.toNat_or, Nat.or_mod_two_pow, low, place, above]
  rfl

end HiddenBit

/-- Sign, exponent and fraction of an image that was unpacked, in any format that leaves `j` low bits of F unused. -/
theorem packed_unpackFields {n k j : Nat} (s : State) (sg : Bool) (be : BitVec n) (fr : BitVec k) (frTop : Bool)
    {exp : BitVec 17} {m : BitVec 64} {fmt : FpFormat} (below : j + k ≤ 63) (frac : m.extractLsb' j k = fr)
    (low : m.toNat % 2 ^ j = 0) (top : m.getLsbD 63 = false) (zero : m = 0#64 ↔ fr = 0#k)
    (ones : (BitVec.allOnes n).toNat = 2 * fmt.emax + 1) (least : fmt.emin = 1 - fmt.emax)
    (value : trueExp exp = (be.toNat : Int) - fmt.emax) {x : FpReg}
    (hx : x = unpackFields s sg exp (be == 0#n) (be == BitVec.allOnes n) (fr == 0#k) frTop m) :
    packParts x fmt j = some (sg, (be.toNat : Int)) ∧ (packFrac x).extractLsb' j k = fr := by
  subst hx
  have zero : m = 0#64 ↔ (fr == 0#k) = true := zero.trans beq_iff_eq.symm
  constructor
  · rw [packParts_unpackFields s sg _ _ _ _ _ top zero low (hiddenBit_or_low (by omega) low), value,
      biased_again be ones]
    rw [value, least]
    exact biased_range be ones
  · rw [packFrac_unpackFields s sg _ _ _ _ _ zero]
    split
    · exact frac
    · exact (hiddenBit_or_extract below m).trans frac

theorem ofBool_sign (sg : BitVec 1) : BitVec.ofBool (sg == 1#1) = sg := by
  revert sg
  decide

theorem ofInt_biased {n : Nat} (be : BitVec n) : BitVec.ofInt n (be.toNat : Int) = be := by
  rw [BitVec.ofInt_natCast, BitVec.ofNat_toNat, BitVec.setWidth_eq]

theorem packSingle_image (s : State) (sg : BitVec 1) (be : BitVec 8) (fr : BitVec 23) :
    packSingle s (unpackSingle s (sg ++ be ++ fr)) = sg ++ be ++ fr := by
  obtain ⟨parts, frac⟩ := packed_unpackFields (j := 40) (fmt := fmtSingle) s _ be fr _ (by decide)
    (fraction_extract fr 0#1) (fraction_low fr 0#1) (fraction_top fr) (fraction_eq_zero fr) rfl rfl (trueExp_single be)
    (unpackSingle_image s sg be fr)
  simp only [packSingle, parts, frac, ofBool_sign, ofInt_biased]

theorem packDouble_image (s : State) (sg : BitVec 1) (be : BitVec 11) (fr : BitVec 52) :
    packDouble s (unpackDouble s (sg ++ be ++ fr)) = sg ++ be ++ fr := by
  obtain ⟨parts, frac⟩ := packed_unpackFields (j := 11) (fmt := fmtDouble) s _ be fr _ (by decide)
    (fraction_extract fr 0#1) (fraction_low fr 0#1) (fraction_top fr) (fraction_eq_zero fr) rfl rfl (trueExp_double be)
    (unpackDouble_image s sg be fr)
  simp only [packDouble, parts, frac, ofBool_sign, ofInt_biased]

/-- Settles O26: every image is a sign, an exponent and a fraction, and those come back. -/
theorem packUnpack : Obligations.PackUnpack := by
  refine ⟨fun s w => ?_, fun s w => ?_⟩
  · have image : w = w.extractLsb' 31 1 ++ w.extractLsb' 23 8 ++ w.extractLsb' 0 23 :=
      (image_eq (n := 8) (k := 23) w).symm
    rw [image]
    exact packSingle_image s _ _ _
  · have image : w = w.extractLsb' 63 1 ++ w.extractLsb' 52 11 ++ w.extractLsb' 0 52 :=
      (image_eq (n := 11) (k := 52) w).symm
    rw [image]
    exact packDouble_image s _ _ _

/-! ### Numbers as rationals (R301) -/

theorem cast_signedMag (sg : Bool) (n : Nat) : ((signedMag sg n : Int) : ℚ) = (if sg then -1 else 1) * (n : ℚ) := by
  cases sg <;> simp [signedMag]

theorem cast_scaleUp (n : Nat) {k : Int} (h : 0 ≤ k) : (scaleUp n k : ℚ) = n * (2 : ℚ) ^ k := by
  obtain ⟨j, rfl⟩ := Int.eq_ofNat_of_zero_le h
  simp [scaleUp, Nat.shiftLeft_eq]

/-- A number as an integer of units 2^(low - 63), `low` no more than its exponent. -/
theorem scaled_value (sg : Bool) {e low : Int} (m : BitVec 64) (h : low ≤ e) :
    ((signedMag sg (scaleUp m.toNat (e - low)) : Int) : ℚ) * (2 : ℚ) ^ (low - 63) =
      (if sg then -1 else 1) * (m.toNat : ℚ) * (2 : ℚ) ^ (e - 63) := by
  have exponents : (2 : ℚ) ^ (e - 63) = (2 : ℚ) ^ (e - low) * (2 : ℚ) ^ (low - 63) := by
    rw [← zpow_add₀ two_ne_zero]
    congr 1
    omega
  rw [cast_signedMag, cast_scaleUp _ (by omega), exponents]
  ring

/-! ### The relation (R322) -/

/-- Integers of a common unit compare as their values. -/
theorem intRel_eq {a b : Int} {u x y : ℚ} (hu : 0 < u) (hx : (a : ℚ) * u = x) (hy : (b : ℚ) * u = y) :
    intRel a b = if x < y then .lt else if x = y then .eq else .gt := by
  subst hx hy
  simp only [intRel, mul_lt_mul_iff_left₀ hu, mul_left_inj' hu.ne', Int.cast_lt, Int.cast_inj]

theorem fpRelation_norms (s : State) (s1 s2 : Bool) (e1 e2 : Int) (m1 m2 : BitVec 64) :
    fpRelation s (.norm s1 e1 m1) (.norm s2 e2 m2) =
      intRel (signedMag s1 (scaleUp m1.toNat (e1 - min e1 e2))) (signedMag s2 (scaleUp m2.toNat (e2 - min e1 e2))) :=
  rfl

/-- A Not-a-Number on either side, the other of known contents, leaves the two unordered. -/
theorem fpRelation_nan {a b : FpVal} (s : State) (ka : a ≠ .unknown) (kb : b ≠ .unknown)
    (nan : (isQNaN a || isSNaN a || isQNaN b || isSNaN b) = true) : fpRelation s a b = .un := by
  rw [fpRelation, if_neg (not_or.mpr ⟨ka, kb⟩), if_pos nan]

theorem fpRelation_zero_norm (s : State) (p q : Bool) (e : Int) (m : BitVec 64) :
    fpRelation s (.zero p) (.norm q e m) = intRel 0 (signedMag q (scaleUp m.toNat (e - e))) := rfl

theorem fpRelation_norm_zero (s : State) (p q : Bool) (e : Int) (m : BitVec 64) :
    fpRelation s (.norm q e m) (.zero p) = intRel (signedMag q (scaleUp m.toNat (e - e))) 0 := rfl

theorem fpRelation_infs (s : State) (p q : Bool) :
    fpRelation s (.inf p) (.inf q) = if p = q then .eq else if p then .lt else .gt := by
  cases p <;> cases q <;> rfl

theorem fpRelation_inf_left (s : State) (p q : Bool) (e : Int) (m : BitVec 64) :
    ∀ v ∈ [FpVal.zero q, .norm q e m], fpRelation s (.inf p) v = (if p then .lt else .gt) ∧
      fpRelation s v (.inf p) = (if p then .gt else .lt) := by
  simp only [List.forall_mem_cons]
  cases p
  · exact ⟨⟨rfl, rfl⟩, ⟨rfl, rfl⟩, List.forall_mem_nil _⟩
  · exact ⟨⟨rfl, rfl⟩, ⟨rfl, rfl⟩, List.forall_mem_nil _⟩

/-- Settles O44: two finite numbers are compared as integers of a common unit, of which their values are multiples. -/
theorem relationIsOrder : Obligations.RelationIsOrder := by
  have unit (low : Int) : (0 : ℚ) < (2 : ℚ) ^ (low - 63) := zpow_pos two_pos _
  refine ⟨fun s s1 s2 e1 e2 m1 m2 x y hx hy => ?_, fun s sg m v known => ?_, fun s s1 s2 e m x hx => ?_⟩
  · rw [fpRelation_norms]
    exact intRel_eq (unit (min e1 e2)) ((scaled_value s1 m1 (min_le_left e1 e2)).trans hx.symm)
      ((scaled_value s2 m2 (min_le_right e1 e2)).trans hy.symm)
  · have quiet : FpVal.qnan sg m ≠ .unknown := FpVal.noConfusion
    have signaling : FpVal.snan sg m ≠ .unknown := FpVal.noConfusion
    exact ⟨fpRelation_nan s quiet known rfl, fpRelation_nan s known quiet (by simp [isQNaN]),
      fpRelation_nan s signaling known rfl, fpRelation_nan s known signaling (by simp [isSNaN])⟩
  · have value := (scaled_value s2 m (le_refl e)).trans hx.symm
    have zero : ((0 : Int) : ℚ) * (2 : ℚ) ^ (e - 63) = 0 := by simp
    refine ⟨rfl, ?_, ?_, fpRelation_infs s s1 s2, fpRelation_inf_left s s1 s2 e m⟩
    · rw [fpRelation_zero_norm, intRel_eq (unit e) zero value]
      simp only [eq_comm]
    · rw [fpRelation_norm_zero, intRel_eq (unit e) value zero]

end Sys2Proof.Proofs.FpuValues

/-! Proofs of the family spec/46_floating_point.md, the instructions: the traps that stand before them, the end of an FPU
operation, what each operation gives for the values that need no rounding. -/

namespace Sys2Proof.Proofs.FpuInstructions

open Sys2Proof Sys2Proof.Machine Sys2Proof.Safety Sys2Proof.Laws
open Sys2Proof.Proofs.Encoding Sys2Proof.Proofs.RegisterOps Sys2Proof.Proofs.SpecialRegs
open Sys2Proof.Proofs.CompareBranches Sys2Proof.Proofs.FpuValues

/-! ### An FPU that is absent or illegal, an exception that is pending (R330, R331) -/

/-- An FPU instruction asks for the FPU before anything else (R331). -/
def AsksFpu (i : Instr) (s : State) : Prop := ∃ k, exec i s = withFpu s k

/-- An operation or compare then waits for the FPU and meets the pending exception (R330). -/
def StartsFpu (i : Instr) (s : State) : Prop := ∃ k, exec i s = withFpu s (fpuStart s k)

theorem withFpu_unavailable {s : State} (h : upswFpuIllegal s = true ∨ s.board.fpuPresent = false) (k : Out) :
    withFpu s k = raiseIllegal s := by
  have unavailable : fpuUnavailable s = true := by simpa [fpuUnavailable] using h
  rw [withFpu, if_pos unavailable]

theorem AsksFpu.traps {i : Instr} {s : State} (asks : AsksFpu i s)
    (unavailable : upswFpuIllegal s = true ∨ s.board.fpuPresent = false) (all : kpswAllEn s = true) :
    Traps i s .illegalOpcode := by
  obtain ⟨k, hk⟩ := asks
  exact traps_of (hk.trans ((withFpu_unavailable unavailable k).trans (raiseIllegal_enabled all)))

theorem StartsFpu.takesPending {i : Instr} {s : State} {tt : TrapType} (starts : StartsFpu i s)
    (ready : fpuReady s = true) (kind : pendingTrap s = tt) (taken : noFpuTrap s = false) :
    ∃ t, exec i s = .next t ∧ t.fpuExcep = false ∧
      TakesTrapOnly { s with fpuExcep := false, fpuRun := none } t tt := by
  obtain ⟨k, hk⟩ := starts
  rw [withFpu_of ready, fpuStart_on taken] at hk
  exact ⟨_, hk, takeTrap_fpuExcep _ _, kind ▸ takesTrapOnly_takeTrap _ _⟩

theorem startsFpu_of_mem (s : State) (d a b cond : RegField) (off : BitVec 9) :
    ∀ i ∈ [Instr.fadd d a b, .fsub d a b, .fmul d a b, .fdiv d a b, .fmov d a, .fabs d a, .fneg d a, .float d a,
      .fix d a, .cvts d a, .cvtd d a, .fpCmpBrDelayed cond a b off, .fpCmpBrTrue cond a b off], StartsFpu i s := by
  simp only [List.forall_mem_cons]
  exact ⟨⟨_, rfl⟩, ⟨_, rfl⟩, ⟨_, rfl⟩, ⟨_, rfl⟩, ⟨_, rfl⟩, ⟨_, rfl⟩, ⟨_, rfl⟩, ⟨_, rfl⟩, ⟨_, rfl⟩, ⟨_, rfl⟩, ⟨_, rfl⟩,
    ⟨_, rfl⟩, ⟨_, rfl⟩, List.forall_mem_nil _⟩

theorem asksFpu_of_mem (s : State) (d a b cond s1 : RegField) (rc : RC) (sc : BitVec 14) (off : BitVec 9) :
    ∀ i ∈ [Instr.fadd d a b, .fsub d a b, .fmul d a b, .fdiv d a b, .fmov d a, .fabs d a, .fneg d a, .float d a,
      .fix d a, .cvts d a, .cvtd d a, .fpCmpBrDelayed cond a b off, .fpCmpBrTrue cond a b off, .fromFpu d a,
      .toFpu a d, .ldSgl d s1 rc, .ldSglRo d s1 rc, .ldDbl d s1 rc, .ldDblRo d s1 rc, .ldExt1 d s1 rc,
      .ldExt1Ro d s1 rc, .ldExt2 d s1 rc, .ldExt2Ro d s1 rc, .ldInt d s1 rc, .ldIntRo d s1 rc, .stSgl d s1 sc,
      .stDbl d s1 sc, .stExt1 d s1 sc, .stExt2 d s1 sc, .stInt d s1 sc], AsksFpu i s := by
  simp only [List.forall_mem_cons]
  exact ⟨⟨_, rfl⟩, ⟨_, rfl⟩, ⟨_, rfl⟩, ⟨_, rfl⟩, ⟨_, rfl⟩, ⟨_, rfl⟩, ⟨_, rfl⟩, ⟨_, rfl⟩, ⟨_, rfl⟩, ⟨_, rfl⟩, ⟨_, rfl⟩,
    ⟨_, rfl⟩, ⟨_, rfl⟩, ⟨_, rfl⟩, ⟨_, rfl⟩, ⟨_, rfl⟩, ⟨_, rfl⟩, ⟨_, rfl⟩, ⟨_, rfl⟩, ⟨_, rfl⟩, ⟨_, rfl⟩, ⟨_, rfl⟩,
    ⟨_, rfl⟩, ⟨_, rfl⟩, ⟨_, rfl⟩, ⟨_, rfl⟩, ⟨_, rfl⟩, ⟨_, rfl⟩, ⟨_, rfl⟩, ⟨_, rfl⟩, List.forall_mem_nil _⟩

/-- Settles O54: every instruction of either list begins with the check that traps. -/
theorem fpuTraps : Obligations.FpuTraps := by
  refine ⟨fun s d a b cond off tt ready pending fpuEn all kind i hi => ?_,
    fun s d a b cond s1 rc sc off unavailable all i hi => ?_⟩
  · have starts : StartsFpu i s := startsFpu_of_mem s d a b cond off i hi
    rcases kind with ⟨kind, rfl⟩ | ⟨kind, ovfEn, rfl⟩
    · have trap := pendingTrap_floatingPoint kind
      exact starts.takesPending ready trap (noFpuTrap_eq_false.mpr ⟨pending, fpuEn, all, trap ▸ fpuEn⟩)
    · have trap := pendingTrap_integerOverflow kind
      exact starts.takesPending ready trap (noFpuTrap_eq_false.mpr ⟨pending, fpuEn, all, trap ▸ ovfEn⟩)
  · exact (asksFpu_of_mem s d a b cond s1 rc sc off i hi).traps unavailable all

/-! ### The end of an FPU operation (R300, R308, R330) -/

/-- The end of an operation that gave `r`: the FPU is as the operation leaves it, and busy with `run` in parallel mode. -/
def finishFpuOp (d : RegField) (r : FpResult) (t1 t2 : BitVec 3) (isFix : Bool) (run : FpuRun) (s : State) : State :=
  advance { s with
    fregs := (if writesDest s r.flags isFix then writeFpu s d r.reg else s).fregs
    fpsw := fpswAfter s.fpsw t1 (some t2) r.flags
    fpuPc := s.pc.extractLsb' 2 30
    fpuExcep := s.fpuExcep || enabledExc s r.flags
    fpuExcKind := if enabledExc s r.flags then excKind isFix r.flags else s.fpuExcKind
    fpuRun := if upswFpuParallel s then some run else none }

/-- An FPU write touches the FPU registers alone. -/
theorem writeFpu_only (s : State) (n : RegField) (v : FpReg) :
    writeFpu s n v = { s with fregs := (writeFpu s n v).fregs } := by
  unfold writeFpu
  split <;> rfl

theorem fpuFinish_eq (u : State) (d : RegField) (r : FpResult) (t1 : BitVec 3) (t2 : Option (BitVec 3)) (isFix : Bool) :
    fpuFinish u d r t1 t2 isFix = { u with
      fregs := (if writesDest u r.flags isFix then writeFpu u d r.reg else u).fregs
      fpsw := fpswAfter u.fpsw t1 t2 r.flags
      fpuExcep := u.fpuExcep || fpTrapping u r.flags
      fpuExcKind := if fpTrapping u r.flags then excKind isFix r.flags else u.fpuExcKind } := by
  have written : (if writesDest u r.flags isFix then writeFpu u d r.reg else u) =
      { u with fregs := (if writesDest u r.flags isFix then writeFpu u d r.reg else u).fregs } := by
    split
    · exact writeFpu_only u d r.reg
    · rfl
  rw [fpuFinish, written]
  cases fpTrapping u r.flags
  · simp [setPending]
  · simp [setPending]

theorem fpuLaunch_eq (u : State) (d a b : RegField) (cycles : Nat) :
    fpuLaunch u d a b cycles = { u with
      fpuRun := if upswFpuParallel u then some { dest := d, src1 := a, src2 := b, cyclesLeft := cycles }
                else u.fpuRun } := by
  rw [fpuLaunch]
  split
  · rfl
  · rfl

/-- The end of an operation in the model's own words: after the wait, FPU_PC, the result, then the launch. -/
theorem finishFpuOp_eq (s : State) (d a b : RegField) (cycles : Nat) (r : FpResult) (t1 : BitVec 3)
    (t2 : Option (BitVec 3)) (isFix : Bool) :
    advance (fpuLaunch (fpuFinish (setFpuPc (fpuWait s)) d r t1 t2 isFix) d a b cycles) =
      finishFpuOp d r t1 (t2.getD (s.fpsw.extractLsb' 9 3)) isFix
        { dest := d, src1 := a, src2 := b, cyclesLeft := cycles } s := by
  have fregs : (if writesDest s r.flags isFix then writeFpu (setFpuPc (fpuWait s)) d r.reg
      else setFpuPc (fpuWait s)).fregs = (if writesDest s r.flags isFix then writeFpu s d r.reg else s).fregs := by
    unfold writeFpu
    split_ifs <;> rfl
  rw [fpuLaunch_eq, fpuFinish_eq, finishFpuOp, ← fregs]
  rfl

section Ended

variable (s : State) (d : RegField) (r : FpResult) (t1 t2 : BitVec 3) (isFix : Bool) (run : FpuRun)

theorem finishFpuOp_effect :
    FpswEffect s (finishFpuOp d r t1 t2 isFix run s) r.flags t1 t2 (excKind isFix r.flags) := by
  obtain ⟨operand, overflow, underflow, inexact⟩ := flagBits_flags r.flags
  have flag {n : Nat} (hn : n < 9) := fpswAfter_flag s.fpsw t1 t2 r.flags hn
  exact {
    t1 := fpswAfter_type1 _ _ _ _
    t2 := fpswAfter_type2 _ _ _ _
    operand := operand ▸ flag (by decide)
    overflow := overflow ▸ flag (by decide)
    underflow := underflow ▸ flag (by decide)
    inexact := inexact ▸ flag (by decide)
    control := fpswAfter_control _ _ _ _
    pending := rfl
    kind := rfl }

theorem fpuGet_finishFpuOp (n : RegField) : fpuGet (finishFpuOp d r t1 t2 isFix run s) n =
    fpuGet (if writesDest s r.flags isFix then writeFpu s d r.reg else s) n := fpuGet_congr rfl n

variable {d}

theorem finishFpuOp_done (field : isFpuDataField d = true) :
    FpuDone s (finishFpuOp d r t1 t2 isFix run s) d r t1 t2 (excKind isFix r.flags) run
      (!writesDest s r.flags isFix) where
  dest := by
    rw [fpuGet_finishFpuOp]
    cases writesDest s r.flags isFix
    · rfl
    · exact fpuGet_writeFpu_self s d r.reg field
  others n hn := by
    rw [fpuGet_finishFpuOp]
    cases writesDest s r.flags isFix
    · rfl
    · exact fpuGet_writeFpu_other s d n r.reg hn
  psw := finishFpuOp_effect s d r t1 t2 isFix run
  fpuPc := rfl
  brTF := rfl
  busy := rfl
  cpu := ⟨keepsRegs_nil rfl rfl _, ⟨rfl, rfl, rfl⟩, ⟨rfl, rfl⟩, ⟨rfl, rfl, rfl, rfl, rfl, rfl, rfl, rfl, rfl⟩,
    ⟨rfl, rfl, rfl⟩⟩
  latches := ⟨rfl, rfl⟩
  memory := ⟨fun _ => rfl, fun _ => rfl, fun _ => rfl⟩
  next := ⟨rfl, rfl, rfl, rfl, rfl⟩

end Ended

/-- An operation other than FIX leaves its destination where an enabled exception keeps the result out. -/
theorem not_writesDest (s : State) (f : FpFlags) : (!writesDest s f false) = keptOut s f := by
  have enabled : fpTrapping s f = enabledExc s f := rfl
  simp [writesDest, keptOut, enabled, fpswWrDest]

theorem not_writesDest_fix (s : State) (f : FpFlags) : (!writesDest s f true) = fixKeptOut s f := by
  have enabled : fpTrapping s f = enabledExc s f := rfl
  have trap9 : trapEnabled s .integerOverflow = (kpswAllEn s && upswOvfEn s) := rfl
  simp [writesDest, fixKeptOut, keptOut, enabled, fpswWrDest, trap9]

theorem computes_of {i : Instr} {s : State} {d : RegField} {r : FpResult} {t1 t2 : BitVec 3} {run : FpuRun}
    (field : isFpuDataField d = true) (h : exec i s = .next (finishFpuOp d r t1 t2 false run s)) :
    Computes i s d r t1 t2 run :=
  ⟨_, h, not_writesDest s r.flags ▸ finishFpuOp_done s r t1 t2 false run field⟩

theorem computesFix_of {i : Instr} {s : State} {d : RegField} {r : FpResult} {t1 t2 : BitVec 3} {run : FpuRun}
    (field : isFpuDataField d = true) (h : exec i s = .next (finishFpuOp d r t1 t2 true run s)) :
    ComputesFix i s d r t1 t2 run :=
  ⟨_, h, not_writesDest_fix s r.flags ▸ finishFpuOp_done s r t1 t2 true run field⟩

theorem fpuOpReady_parts {s : State} {d : RegField} (h : fpuOpReady s d = true) :
    fpuReady s = true ∧ noFpuTrap s = true ∧ isFpuDataField d = true ∧ fpuShadowed s d = false := by
  simpa [fpuOpReady, and_assoc] using h

section Ready

variable {s : State} {d a b : RegField} {cycles : Nat} {r : FpResult}

theorem fpuOp1_of {isFix : Bool} {compute : State → FpReg → Option FpResult} (ready : fpuOpReady s d = true)
    (fieldA : isFpuDataField a = true) (gives : compute (fpuWait s) (readFpu s slotFp1 a) = some r) :
    fpuOp1 d a cycles isFix compute s =
      .next (finishFpuOp d r (readFpu s slotFp1 a).type (s.fpsw.extractLsb' 9 3) isFix
        { dest := d, src1 := a, src2 := a, cyclesLeft := cycles } s) := by
  obtain ⟨fpu, quiet, fieldD, unshadowed⟩ := fpuOpReady_parts ready
  have fields : fpuFieldsOk [d, a] = true := by simp [fpuFieldsOk, fieldD, fieldA]
  have waitShadow : fpuShadowed (fpuWait s) d = false := unshadowed
  have waitRead : readFpu (fpuWait s) slotFp1 a = readFpu s slotFp1 a := rfl
  rw [fpuOp1, withFpu_of fpu, fpuStart_of quiet, fields, waitShadow]
  simp only [waitRead, gives, finishFpuOp_eq]
  rfl

theorem fpuOp2_of {compute : State → FpReg → FpReg → Option FpResult} (ready : fpuOpReady s d = true)
    (fieldA : isFpuDataField a = true) (fieldB : isFpuDataField b = true)
    (gives : compute (fpuWait s) (readFpu s slotFp1 a) (readFpu s slotFp2 b) = some r) :
    fpuOp2 d a b cycles compute s =
      .next (finishFpuOp d r (readFpu s slotFp1 a).type (readFpu s slotFp2 b).type false
        { dest := d, src1 := a, src2 := b, cyclesLeft := cycles } s) := by
  obtain ⟨fpu, quiet, fieldD, unshadowed⟩ := fpuOpReady_parts ready
  have fields : fpuFieldsOk [d, a, b] = true := by simp [fpuFieldsOk, fieldD, fieldA, fieldB]
  have waitShadow : fpuShadowed (fpuWait s) d = false := unshadowed
  have waitReadA : readFpu (fpuWait s) slotFp1 a = readFpu s slotFp1 a := rfl
  have waitReadB : readFpu (fpuWait s) slotFp2 b = readFpu s slotFp2 b := rfl
  rw [fpuOp2, withFpu_of fpu, fpuStart_of quiet, fields, waitShadow]
  simp only [waitReadA, waitReadB, gives, finishFpuOp_eq]
  rfl

/-- A computation looks at nothing that the wait for the FPU changes. -/
theorem compute1_of {f : State → FpReg → FpVal → FpResult} {x : FpReg} {va : FpVal} (value : classify x = some va)
    (waits : f (fpuWait s) x va = f s x va) : compute1 f (fpuWait s) x = some (f s x va) := by
  rw [compute1, value, ← waits]

theorem compute2_of {f : State → FpReg → FpReg → FpVal → FpVal → FpResult} {x y : FpReg} {va vb : FpVal}
    (valueX : classify x = some va) (valueY : classify y = some vb)
    (waits : f (fpuWait s) x y va vb = f s x y va vb) : compute2 f (fpuWait s) x y = some (f s x y va vb) := by
  rw [compute2, valueX, valueY, ← waits]

end Ready

/-! ### FADD, FSUB, FMUL and FDIV (R311 to R314) -/

/-- A two-operand operation on registers of known category. -/
theorem computes_arith {i : Instr} {s : State} {d a b : RegField} {x y : FpReg} {va vb : FpVal} {cycles : Nat}
    {f : State → FpReg → FpReg → FpVal → FpVal → FpResult} (he : exec i s = fpuOp2 d a b cycles (compute2 f) s)
    (ready : fpuOpReady s d = true) (fieldA : isFpuDataField a = true) (fieldB : isFpuDataField b = true)
    (hx : x = readFpu s slotFp1 a) (hy : y = readFpu s slotFp2 b) (valueX : classify x = some va)
    (valueY : classify y = some vb) (waits : f (fpuWait s) x y va vb = f s x y va vb) :
    Computes i s d (f s x y va vb) x.type y.type { dest := d, src1 := a, src2 := b, cyclesLeft := cycles } := by
  subst hx hy
  obtain ⟨-, -, fieldD, -⟩ := fpuOpReady_parts ready
  exact computes_of fieldD (he.trans (fpuOp2_of ready fieldA fieldB (compute2_of valueX valueY waits)))

/-! #### Values and flags of a result -/

section Results

variable (s : State)

theorem gives_zero (p : Bool) : Gives (plain (zeroReg s p)) (.zero p) noFlags := ⟨classify_zeroReg s p, rfl⟩

theorem gives_inf (p : Bool) : Gives (plain (infReg s p)) (.inf p) noFlags := ⟨classify_infReg s p, rfl⟩

theorem gives_invalid : Gives (invalidResult s) (.qnan false 0xC000000000000000#64) operandFlag :=
  ⟨classify_qnanReg s false _, rfl⟩

theorem gives_quieted (x : FpReg) : Gives (quieted s x) (.qnan x.sign x.frac) operandFlag :=
  ⟨classify_qnanReg s x.sign x.frac, rfl⟩

/-- A number to which nothing is added keeps its value; the range of the result is checked all the same (R307). -/
theorem gives_exactNorm (q : Bool) {e : Int} {m : BitVec 64} (top : m.getLsbD 63 = true) (low : -65535 ≤ e)
    (high : e ≤ 65536) : Gives (exactNorm s q e m) (.norm q e m)
      { noFlags with overflow := decide (16383 < e), underflow := decide (e < -16382) } :=
  ⟨classify_normReg s q _ low high top, rfl⟩

end Results

/-! #### The order in which the operands are looked at (R307) -/

section Operands

variable (s : State) (x y : FpReg) {a b : FpVal} (f : FpVal → FpVal → FpResult)

theorem arith2_denorm (ka : a ≠ .unknown) (kb : b ≠ .unknown) (d : isDenorm a = true ∨ isDenorm b = true) :
    (arith2 s x y a b f).flags.operand = true := by
  rw [arith2, if_neg (not_or.mpr ⟨ka, kb⟩), if_pos (Bool.or_eq_true_iff.mpr d)]
  rfl

/-- Of operands neither unknown nor denormalized: first the signaling, then the quiet Not-a-Numbers, then the numbers. -/
theorem arith2_defined (ka : a ≠ .unknown) (kb : b ≠ .unknown) (da : isDenorm a = false) (db : isDenorm b = false) :
    arith2 s x y a b f =
      if isSNaN a then quieted s x else if isSNaN b then quieted s y
      else if isQNaN a then plain x else if isQNaN b then plain y else f a b := by
  rw [arith2, if_neg (not_or.mpr ⟨ka, kb⟩), da, db]
  rfl

theorem arith2_operands (ka : a ≠ .unknown) (kb : b ≠ .unknown) (da : isDenorm a = false) (db : isDenorm b = false) :
    (isSNaN a = true → Gives (arith2 s x y a b f) (.qnan x.sign x.frac) operandFlag) ∧
    (isSNaN a = false → isSNaN b = true → Gives (arith2 s x y a b f) (.qnan y.sign y.frac) operandFlag) ∧
    (isSNaN a = false → isSNaN b = false →
      (isQNaN a = true → arith2 s x y a b f = { reg := x, flags := noFlags }) ∧
      (isQNaN a = false → isQNaN b = true → arith2 s x y a b f = { reg := y, flags := noFlags }) ∧
      (isQNaN a = false → isQNaN b = false → arith2 s x y a b f = f a b)) := by
  rw [arith2_defined s x y f ka kb da db]
  refine ⟨fun sa => ?_, fun sa sb => ?_, fun sa sb => ⟨fun qa => ?_, fun qa qb => ?_, fun qa qb => ?_⟩⟩
  · rw [sa]
    exact gives_quieted s x
  · rw [sa, sb]
    exact gives_quieted s y
  · rw [sa, sb, qa]
    rfl
  · rw [sa, sb, qa, qb]
    rfl
  · rw [sa, sb, qa, qb]
    rfl

end Operands

/-- An infinity beside a zero or a number (R323). -/
theorem infinity_beside (s : State) (p q : Bool) (e : Int) (m : BitVec 64) : ∀ v ∈ [FpVal.zero q, .norm q e m],
    Gives (addNumbers s (.inf p) v) (.inf p) noFlags ∧ Gives (addNumbers s v (.inf p)) (.inf p) noFlags ∧
    Gives (divNumbers s (.inf p) v) (.inf (p != q)) noFlags ∧
    Gives (divNumbers s v (.inf p)) (.zero (q != p)) noFlags := by
  simp only [List.forall_mem_cons]
  exact ⟨⟨gives_inf s p, gives_inf s p, gives_inf s _, gives_zero s _⟩,
    ⟨gives_inf s p, gives_inf s p, gives_inf s _, gives_zero s _⟩, List.forall_mem_nil _⟩

theorem addNumbers_infs (s : State) (p q : Bool) :
    addNumbers s (.inf p) (.inf q) = if p = q then plain (infReg s p) else invalidResult s := rfl

/-- Settles O49: the two-operand computation at the end of an operation, and its table of special values. -/
theorem fpArithmetic : Obligations.FpArithmetic := by
  refine ⟨?_, fun s x y a b f ka kb => ⟨arith2_denorm s x y f ka kb, arith2_operands s x y f ka kb⟩,
    fun sg e m => ⟨rfl, rfl, rfl, rfl, rfl, rfl⟩, ?_⟩
  · intro s d a b x y va vb run ready fieldA fieldB hx hy valueX valueY hrun
    subst hrun
    have computes {i : Instr} {cycles : Nat} (f : State → FpReg → FpReg → FpVal → FpVal → FpResult)
        (he : exec i s = fpuOp2 d a b cycles (compute2 f) s) :=
      computes_arith he ready fieldA fieldB hx hy valueX valueY
    exact ⟨computes (fun t x y a b => arith2 t x y a b (addNumbers t)) rfl rfl,
      computes (fun t x y a b => arith2 t x y a (negateVal b) (addNumbers t)) rfl rfl,
      computes (fun t x y a b => arith2 t x y a b (mulNumbers t)) rfl rfl,
      computes (fun t x y a b => arith2 t x y a b (divNumbers t)) rfl rfl⟩
  · intro s p q e m invalid hinvalid
    subst hinvalid
    have invalid := gives_invalid s
    refine ⟨gives_zero s _, fun top low high => ⟨gives_exactNorm s q top low high, gives_exactNorm s q top low high⟩,
      ?_, invalid, invalid, invalid, invalid, gives_zero s _, gives_inf s _, gives_zero s _, gives_zero s _,
      gives_inf s _, gives_inf s _, gives_zero s _, ⟨classify_infReg s _, rfl⟩, gives_inf s _, gives_zero s _,
      infinity_beside s p q e m⟩
    rw [addNumbers_infs]
    split
    · exact gives_inf s p
    · exact invalid

/-! ### FMOV, FABS, FNEG, FLOAT, FIX, CVTS and CVTD (R315 to R321) -/

section Unary

variable {i : Instr} {s : State} {d a : RegField} {x : FpReg} {cycles : Nat} {r : FpResult}

theorem computes_unary {compute : State → FpReg → Option FpResult}
    (he : exec i s = fpuOp1 d a cycles false compute s) (ready : fpuOpReady s d = true)
    (fieldA : isFpuDataField a = true) (hx : x = readFpu s slotFp1 a) (gives : compute (fpuWait s) x = some r) :
    Computes i s d r x.type (s.fpsw.extractLsb' 9 3) { dest := d, src1 := a, src2 := a, cyclesLeft := cycles } := by
  subst hx
  obtain ⟨-, -, fieldD, -⟩ := fpuOpReady_parts ready
  exact computes_of fieldD (he.trans (fpuOp1_of ready fieldA gives))

theorem computesFix_unary {compute : State → FpReg → Option FpResult}
    (he : exec i s = fpuOp1 d a cycles true compute s) (ready : fpuOpReady s d = true)
    (fieldA : isFpuDataField a = true) (hx : x = readFpu s slotFp1 a) (gives : compute (fpuWait s) x = some r) :
    ComputesFix i s d r x.type (s.fpsw.extractLsb' 9 3)
      { dest := d, src1 := a, src2 := a, cyclesLeft := cycles } := by
  subst hx
  obtain ⟨-, -, fieldD, -⟩ := fpuOpReady_parts ready
  exact computesFix_of fieldD (he.trans (fpuOp1_of ready fieldA gives))

end Unary

/-- A register that holds no integer image keeps all but its sign (R316, R317). -/
theorem signResult_of_known (s : State) {x : FpReg} (known : x.image = false) (sg : Bool) :
    signResult s x sg = { reg := { x with sign := sg }, flags := noFlags } := if_neg (Bool.eq_false_iff.mp known)

theorem floatResult_of_image (s : State) {x : FpReg} (low : x.frac.extractLsb' 0 32 = 0#32) :
    floatResult s x = { reg := intToFp s (x.frac.extractLsb' 32 32), flags := noFlags } := if_pos low

/-- What CVTS and CVTD leave of the fraction of a quiet Not-a-Number. -/
theorem getLsbD_truncated (m : BitVec 64) (k : Nat) {j : Nat} (hj : j < 64) :
    ((m >>> k) <<< k).getLsbD j = (decide (k ≤ j) && m.getLsbD j) := by
  rcases Nat.lt_or_ge j k with below | above
  · simp [hj, below, Nat.not_le.mpr below]
  · have same : k + (j - k) = j := Nat.add_sub_cancel' above
    simp [hj, above, Nat.not_lt.mpr above, same]

/-- Settles O50: each operation by its computation, whose result for special values is one of its own branches. -/
theorem fpUnary : Obligations.FpUnary := by
  refine ⟨?_, fun s fmt k x sg e m => ⟨rfl, rfl, ⟨_, rfl, fun j hj => getLsbD_truncated x.frac k hj⟩,
    gives_quieted s x, rfl, rfl⟩, fun s sg m => ⟨rfl, rfl, rfl, rfl, rfl, rfl⟩⟩
  intro s d a x t2 run ready fieldA hx ht2 hrun
  subst ht2 hrun
  have computes {i : Instr} {cycles : Nat} {r : FpResult} (compute : State → FpReg → Option FpResult)
      (he : exec i s = fpuOp1 d a cycles false compute s) := computes_unary (r := r) he ready fieldA hx
  refine ⟨computes (fun _ x => some (plain x)) rfl rfl, fun known => ⟨?_, ?_⟩, fun low => ?_,
    fun va value => ⟨?_, ?_, ?_⟩⟩
  · exact computes (fun t x => some (signResult t x false)) rfl (congrArg some (signResult_of_known _ known _))
  · exact computes (fun t x => some (signResult t x (!x.sign))) rfl (congrArg some (signResult_of_known _ known _))
  · exact computes (fun t x => some (floatResult t x)) rfl (congrArg some (floatResult_of_image (fpuWait s) low))
  · exact computesFix_unary rfl ready fieldA hx (compute1_of value rfl)
  · exact computes (compute1 (convertResult · fmtSingle 40)) rfl (compute1_of value rfl)
  · exact computes (compute1 (convertResult · fmtDouble 11)) rfl (compute1_of value rfl)

end Sys2Proof.Proofs.FpuInstructions

/-! Proofs of the family spec/46_floating_point.md, rounding: a quotient of naturals rounded to a natural by the mode,
from which the rounding of results, of sums, products and quotients, and the conversion to an integer follow. -/

namespace Sys2Proof.Proofs.FpuRounding

open Sys2Proof Sys2Proof.Machine Sys2Proof.Safety Sys2Proof.Laws
open Sys2Proof.Proofs.RegisterOps Sys2Proof.Proofs.FpuValues

/-! ### Scaled fractions -/

theorem scaleUp_of_nonpos (n : Nat) {k : Int} (h : k ≤ 0) : scaleUp n k = n := by
  rw [scaleUp, Int.toNat_of_nonpos h, Nat.shiftLeft_zero]

theorem scaleUp_pos {n : Nat} (h : 0 < n) (k : Int) : 0 < scaleUp n k := by
  rw [scaleUp, Nat.shiftLeft_eq]
  positivity

/-- The power of two goes to the numerator or to the denominator, by its sign. -/
theorem scaleUp_div (num den : Nat) (k : Int) :
    (scaleUp num k : ℚ) / (scaleUp den (-k) : ℚ) = (num : ℚ) / den * (2 : ℚ) ^ k := by
  rcases le_total 0 k with up | down
  · rw [cast_scaleUp num up, scaleUp_of_nonpos den (by omega)]
    ring
  · rw [cast_scaleUp den (by omega), scaleUp_of_nonpos num down, zpow_neg]
    simp only [div_eq_mul_inv, mul_inv, inv_inv]
    ring

/-- A positive natural lies between the power of two of its logarithm and the next (as a rational). -/
theorem log2_bounds {n : Nat} (h : 0 < n) :
    (2 : ℚ) ^ (Nat.log2 n : Int) ≤ n ∧ (n : ℚ) < (2 : ℚ) ^ ((Nat.log2 n : Int) + 1) := by
  have low : 2 ^ Nat.log2 n ≤ n := Nat.log2_self_le h.ne'
  have high : n < 2 ^ (Nat.log2 n + 1) := Nat.lt_log2_self
  exact ⟨by exact_mod_cast low, by exact_mod_cast high⟩

/-- The test that `floorLog2` makes of its first guess. -/
theorem scaleUp_le_iff {num den : Nat} (hd : 0 < den) (e : Int) :
    scaleUp den e ≤ scaleUp num (-e) ↔ (2 : ℚ) ^ e ≤ (num : ℚ) / den := by
  have scaled := scaleUp_div num den (-e)
  rw [neg_neg] at scaled
  have positive : (0 : ℚ) < scaleUp den e := by exact_mod_cast scaleUp_pos hd e
  rw [← Nat.cast_le (α := ℚ), ← one_le_div positive, scaled, zpow_neg, ← div_eq_mul_inv,
    one_le_div (zpow_pos two_pos e)]

theorem floorLog2_bounds {num den : Nat} (hn : 0 < num) (hd : 0 < den) :
    (2 : ℚ) ^ floorLog2 num den ≤ (num : ℚ) / den ∧ (num : ℚ) / den < (2 : ℚ) ^ (floorLog2 num den + 1) := by
  obtain ⟨numLow, numHigh⟩ := log2_bounds hn
  obtain ⟨denLow, denHigh⟩ := log2_bounds hd
  have denPos : (0 : ℚ) < den := by exact_mod_cast hd
  have guess (e : Int) (he : e = (Nat.log2 num : Int) - (Nat.log2 den : Int)) :
      (2 : ℚ) ^ (e - 1) ≤ (num : ℚ) / den ∧ (num : ℚ) / den < (2 : ℚ) ^ (e + 1) := by
    have below : (2 : ℚ) ^ (e - 1) * (2 : ℚ) ^ ((Nat.log2 den : Int) + 1) = (2 : ℚ) ^ (Nat.log2 num : Int) := by
      rw [← zpow_add₀ two_ne_zero, he]
      congr 1
      omega
    have above : (2 : ℚ) ^ (e + 1) * (2 : ℚ) ^ (Nat.log2 den : Int) = (2 : ℚ) ^ ((Nat.log2 num : Int) + 1) := by
      rw [← zpow_add₀ two_ne_zero, he]
      congr 1
      omega
    constructor
    · rw [le_div_iff₀ denPos]
      calc (2 : ℚ) ^ (e - 1) * den ≤ (2 : ℚ) ^ (e - 1) * (2 : ℚ) ^ ((Nat.log2 den : Int) + 1) := by gcongr
        _ ≤ num := below ▸ numLow
    · rw [div_lt_iff₀ denPos]
      calc (num : ℚ) < (2 : ℚ) ^ (e + 1) * (2 : ℚ) ^ (Nat.log2 den : Int) := above ▸ numHigh
        _ ≤ (2 : ℚ) ^ (e + 1) * den := by gcongr
  obtain ⟨coarseLow, coarseHigh⟩ := guess _ rfl
  rw [floorLog2]
  split
  next reached => exact ⟨(scaleUp_le_iff hd _).mp reached, coarseHigh⟩
  next missed =>
    rw [scaleUp_le_iff hd, not_le] at missed
    exact ⟨coarseLow, by rwa [sub_add_cancel]⟩

/-! ### A quotient rounded to a natural (R305, R306) -/

/-- The quotient of `n` by `d` rounded by the mode: what `roundMag` and `normToInt` both compute. -/
def roundDiv (rm : BitVec 2) (sign : Bool) (n d : Nat) : Nat :=
  if roundsUp rm sign (n / d) (n % d) d then n / d + 1 else n / d

/-- The modes that take the natural below: to zero, and to the infinity of the other sign (R50). -/
def Truncates (rm : BitVec 2) (sign : Bool) : Prop := rm = 1#2 ∨ rm = 2#2 ∧ sign = true ∨ rm = 3#2 ∧ sign = false

/-- The modes that take the natural above: to the infinity of the same sign (R50). -/
def RoundsAway (rm : BitVec 2) (sign : Bool) : Prop := rm = 2#2 ∧ sign = false ∨ rm = 3#2 ∧ sign = true

theorem roundsUp_nearest (sign : Bool) (lo rest unit : Nat) :
    roundsUp 0#2 sign lo rest unit = true ↔ unit < 2 * rest ∨ 2 * rest = unit ∧ lo % 2 = 1 := by
  simp [roundsUp, rmNearest]

theorem roundsUp_of_truncates {rm : BitVec 2} {sign : Bool} (h : Truncates rm sign) (lo rest unit : Nat) :
    roundsUp rm sign lo rest unit = false := by
  rcases h with rfl | ⟨rfl, rfl⟩ | ⟨rfl, rfl⟩ <;> simp [roundsUp, rmNearest, rmZero, rmPlusInf]

theorem roundsUp_of_roundsAway {rm : BitVec 2} {sign : Bool} (h : RoundsAway rm sign) (lo rest unit : Nat) :
    roundsUp rm sign lo rest unit = decide (0 < rest) := by
  rcases h with ⟨rfl, rfl⟩ | ⟨rfl, rfl⟩ <;> simp [roundsUp, rmNearest, rmZero, rmPlusInf]

/-- Every mode with either sign is one of the three. -/
theorem mode_cases (rm : BitVec 2) (sign : Bool) : rm = 0#2 ∨ Truncates rm sign ∨ RoundsAway rm sign := by
  unfold Truncates RoundsAway
  revert rm sign
  decide

/-- What is a multiple of the unit is not rounded. -/
theorem rest_pos_of_roundsUp {rm : BitVec 2} {sign : Bool} {lo rest unit : Nat} (hu : 0 < unit)
    (h : roundsUp rm sign lo rest unit = true) : 0 < rest := by
  rcases mode_cases rm sign with rfl | truncates | away
  · rw [roundsUp_nearest] at h
    omega
  · rw [roundsUp_of_truncates truncates] at h
    cases h
  · rw [roundsUp_of_roundsAway away] at h
    exact of_decide_eq_true h

section Quotient

variable {rm : BitVec 2} {sign : Bool} {n d : Nat}

/-- The quotient is its integer part and a fraction below one. -/
theorem quotient_eq (hd : 0 < d) : (n : ℚ) / d = (n / d : ℕ) + ((n % d : ℕ) : ℚ) / d := by
  have denPos : (0 : ℚ) < d := by exact_mod_cast hd
  have parts : (n : ℚ) = d * (n / d : ℕ) + (n % d : ℕ) := by exact_mod_cast (Nat.div_add_mod n d).symm
  rw [div_eq_iff denPos.ne', add_mul, div_mul_cancel₀ _ denPos.ne', ← mul_comm (d : ℚ)]
  exact parts

theorem fraction_lt_one (hd : 0 < d) : ((n % d : ℕ) : ℚ) / d < 1 := by
  rw [div_lt_one (by exact_mod_cast hd)]
  exact_mod_cast Nat.mod_lt n hd

theorem fraction_pos_iff (hd : 0 < d) : 0 < ((n % d : ℕ) : ℚ) / d ↔ 0 < n % d := by
  rw [div_pos_iff_of_pos_right (by exact_mod_cast hd), Nat.cast_pos]

theorem roundDiv_up (hd : 0 < d) (up : roundsUp rm sign (n / d) (n % d) d = true) :
    (n : ℚ) / d < roundDiv rm sign n d ∧ (roundDiv rm sign n d : ℚ) - 1 < n / d := by
  have fraction := (fraction_pos_iff hd).mpr (rest_pos_of_roundsUp hd up)
  have whole := fraction_lt_one (n := n) hd
  rw [roundDiv, if_pos up, quotient_eq hd]
  push_cast
  exact ⟨by linarith, by linarith⟩

theorem roundDiv_down (hd : 0 < d) (down : roundsUp rm sign (n / d) (n % d) d = false) :
    (roundDiv rm sign n d : ℚ) ≤ n / d ∧ (n : ℚ) / d < roundDiv rm sign n d + 1 := by
  have fraction : (0 : ℚ) ≤ ((n % d : ℕ) : ℚ) / d := by positivity
  have whole := fraction_lt_one (n := n) hd
  rw [roundDiv, if_neg (Bool.eq_false_iff.mp down), quotient_eq hd]
  exact ⟨by linarith, by linarith⟩

/-- The up mark says that the result lies above. -/
theorem roundsUp_iff_lt (hd : 0 < d) :
    roundsUp rm sign (n / d) (n % d) d = true ↔ (n : ℚ) / d < roundDiv rm sign n d := by
  refine ⟨fun up => (roundDiv_up hd up).1, fun above => ?_⟩
  by_contra down
  exact not_le.mpr above (roundDiv_down hd (Bool.eq_false_iff.mpr down)).1

/-- A rest is left exactly where the result is not the quotient itself. -/
theorem rest_pos_iff (hd : 0 < d) : 0 < n % d ↔ (roundDiv rm sign n d : ℚ) ≠ n / d := by
  cases hup : roundsUp rm sign (n / d) (n % d) d
  case true => exact iff_of_true (rest_pos_of_roundsUp hd hup) (roundDiv_up hd hup).1.ne'
  case false =>
    rw [roundDiv, if_neg (Bool.eq_false_iff.mp hup), quotient_eq hd, ← fraction_pos_iff hd, ne_eq, left_eq_add]
    exact (div_nonneg (Nat.cast_nonneg _) (Nat.cast_nonneg _)).lt_iff_ne'

theorem roundDiv_of_truncates (hd : 0 < d) (h : Truncates rm sign) :
    (roundDiv rm sign n d : ℚ) ≤ n / d ∧ (n : ℚ) / d < roundDiv rm sign n d + 1 :=
  roundDiv_down hd (roundsUp_of_truncates h _ _ _)

theorem roundDiv_of_roundsAway (hd : 0 < d) (h : RoundsAway rm sign) :
    (n : ℚ) / d ≤ roundDiv rm sign n d ∧ (roundDiv rm sign n d : ℚ) - 1 < n / d := by
  rcases Nat.eq_zero_or_pos (n % d) with exact | rest
  · have same : (roundDiv rm sign n d : ℚ) = n / d := by
      by_contra differs
      exact absurd ((rest_pos_iff hd).mpr differs) (by omega)
    rw [same]
    exact ⟨le_rfl, sub_one_lt _⟩
  · obtain ⟨above, near⟩ := roundDiv_up hd ((roundsUp_of_roundsAway h _ _ _).trans (decide_eq_true rest))
    exact ⟨above.le, near⟩

/-- To the nearest: half a unit at most, and the even natural at a tie. -/
theorem roundDiv_nearest (hd : 0 < d) : |(roundDiv 0#2 sign n d : ℚ) - n / d| ≤ 1 / 2 ∧
    (|(roundDiv 0#2 sign n d : ℚ) - n / d| = 1 / 2 → roundDiv 0#2 sign n d % 2 = 0) := by
  have denPos : (0 : ℚ) < d := by exact_mod_cast hd
  have half : ((n % d : ℕ) : ℚ) / d = 1 / 2 ↔ 2 * (n % d) = d := by
    rw [div_eq_div_iff denPos.ne' two_ne_zero, one_mul, mul_comm]
    exact_mod_cast Iff.rfl
  cases hup : roundsUp 0#2 sign (n / d) (n % d) d
  case true =>
    have up := (roundsUp_nearest _ _ _ _).mp hup
    have large : (1 : ℚ) / 2 ≤ ((n % d : ℕ) : ℚ) / d := by
      rw [div_le_div_iff₀ two_pos denPos, one_mul, mul_comm]
      exact_mod_cast (by omega : d ≤ 2 * (n % d))
    have whole := fraction_lt_one (n := n) hd
    have error : ((n / d + 1 : ℕ) : ℚ) - n / d = 1 - ((n % d : ℕ) : ℚ) / d := by
      rw [quotient_eq hd]
      push_cast
      ring
    rw [roundDiv, if_pos hup, error, abs_of_pos (by linarith)]
    refine ⟨by linarith, fun tie => ?_⟩
    have middle := half.mp (by linarith)
    omega
  case false =>
    have down := Bool.eq_false_iff.mp hup
    rw [roundDiv, if_neg down]
    rw [ne_eq, roundsUp_nearest] at down
    have small : ((n % d : ℕ) : ℚ) / d ≤ 1 / 2 := by
      rw [div_le_div_iff₀ denPos two_pos, one_mul, mul_comm]
      exact_mod_cast (by omega : 2 * (n % d) ≤ d)
    have fraction : (0 : ℚ) ≤ ((n % d : ℕ) : ℚ) / d := by positivity
    have error : ((n / d : ℕ) : ℚ) - n / d = -(((n % d : ℕ) : ℚ) / d) := by
      rw [quotient_eq hd]
      ring
    rw [error, abs_neg, abs_of_nonneg fraction]
    refine ⟨small, fun tie => ?_⟩
    have middle := half.mp tie
    omega

end Quotient

/-! ### `Round` (R305) -/

section Magnitude

variable (sign : Bool) (num den : Nat) (scale : Int) (p : Nat) (rm : BitVec 2)

/-- The power of two that brings num / den between 2^(p-1) and 2^p. -/
def magShift : Int := (p : Int) - 1 - floorLog2 num den

def magNum : Nat := scaleUp num (magShift num den p)

def magDen : Nat := scaleUp den (-magShift num den p)

/-- The unit in the last place of what is rounded. -/
def magUnit : ℚ := (2 : ℚ) ^ (scale - magShift num den p)

/-- The significand before a carry to the next power of two is taken back. -/
def magSig : Nat := roundDiv rm sign (magNum num den p) (magDen num den p)

theorem roundMag_eq : roundMag sign num den scale p rm =
    { exp := if magSig sign num den p rm = 2 ^ p then floorLog2 num den + 1 + scale else floorLog2 num den + scale
      sig := if magSig sign num den p rm = 2 ^ p then 2 ^ (p - 1) else magSig sign num den p rm
      inexact := decide (0 < magNum num den p % magDen num den p)
      up := roundsUp rm sign (magNum num den p / magDen num den p) (magNum num den p % magDen num den p)
        (magDen num den p) } := by
  split_ifs with carry
  · exact if_pos carry
  · exact if_neg carry

theorem magUnit_pos : 0 < magUnit num den scale p := zpow_pos two_pos _

variable {num den p}

theorem magDen_pos (hd : 0 < den) : 0 < magDen num den p := scaleUp_pos hd _

theorem magQuotient_eq : (magNum num den p : ℚ) / magDen num den p = num / den * (2 : ℚ) ^ magShift num den p :=
  scaleUp_div num den _

/-- What is rounded is the scaled quotient in units of its last place. -/
theorem magQuotient_mul_unit : (magNum num den p : ℚ) / magDen num den p * magUnit num den scale p =
    num / den * (2 : ℚ) ^ scale := by
  have powers : (2 : ℚ) ^ magShift num den p * (2 : ℚ) ^ (scale - magShift num den p) = (2 : ℚ) ^ scale := by
    rw [← zpow_add₀ two_ne_zero, add_sub_cancel]
  rw [magQuotient_eq, magUnit, mul_assoc, powers]

theorem magQuotient_bounds (hn : 0 < num) (hd : 0 < den) (hp : 1 ≤ p) :
    (2 : ℚ) ^ (p - 1) ≤ (magNum num den p : ℚ) / magDen num den p ∧
      (magNum num den p : ℚ) / magDen num den p < (2 : ℚ) ^ p := by
  obtain ⟨low, high⟩ := floorLog2_bounds hn hd
  have shift : (0 : ℚ) < (2 : ℚ) ^ magShift num den p := zpow_pos two_pos _
  have lower : (2 : ℚ) ^ floorLog2 num den * (2 : ℚ) ^ magShift num den p = (2 : ℚ) ^ (p - 1) := by
    rw [← zpow_add₀ two_ne_zero, ← zpow_natCast, magShift]
    congr 1
    omega
  have upper : (2 : ℚ) ^ (floorLog2 num den + 1) * (2 : ℚ) ^ magShift num den p = (2 : ℚ) ^ p := by
    rw [← zpow_add₀ two_ne_zero, ← zpow_natCast, magShift]
    congr 1
    omega
  rw [magQuotient_eq, ← lower, ← upper]
  exact ⟨mul_le_mul_of_nonneg_right low shift.le, mul_lt_mul_of_pos_right high shift⟩

theorem magSig_bounds (hn : 0 < num) (hd : 0 < den) (hp : 1 ≤ p) :
    2 ^ (p - 1) ≤ magSig sign num den p rm ∧ magSig sign num den p rm ≤ 2 ^ p := by
  obtain ⟨low, high⟩ := magQuotient_bounds hn hd hp
  have below : 2 ^ (p - 1) < magSig sign num den p rm + 1 := by
    have : (2 : ℚ) ^ (p - 1) < magSig sign num den p rm + 1 := by
      cases up : roundsUp rm sign (magNum num den p / magDen num den p) (magNum num den p % magDen num den p)
        (magDen num den p)
      case true => exact lt_of_le_of_lt low ((roundDiv_up (magDen_pos hd) up).1.trans (lt_add_one _))
      case false => exact lt_of_le_of_lt low (roundDiv_down (magDen_pos hd) up).2
    exact_mod_cast this
  have above : magSig sign num den p rm < 2 ^ p + 1 := by
    have : (magSig sign num den p rm : ℚ) < 2 ^ p + 1 := by
      cases up : roundsUp rm sign (magNum num den p / magDen num den p) (magNum num den p % magDen num den p)
        (magDen num den p)
      case true => exact sub_lt_iff_lt_add.mp ((roundDiv_up (magDen_pos hd) up).2.trans high)
      case false => exact ((roundDiv_down (magDen_pos hd) up).1.trans_lt high).trans (lt_add_one _)
    exact_mod_cast this
  omega

end Magnitude

section Rounded

variable {sign : Bool} {num den : Nat} {scale : Int} {p : Nat} {rm : BitVec 2} {r : Rounded}

theorem roundMag_sig_bounds (hn : 0 < num) (hd : 0 < den) (hp : 1 ≤ p)
    (hr : r = roundMag sign num den scale p rm) : 2 ^ (p - 1) ≤ r.sig ∧ r.sig < 2 ^ p := by
  obtain ⟨low, high⟩ := magSig_bounds sign rm hn hd hp
  have powers : 2 ^ (p - 1) < 2 ^ p := Nat.pow_lt_pow_right (by decide) (by omega)
  rw [hr, roundMag_eq]
  dsimp only
  split
  · exact ⟨le_rfl, powers⟩
  · omega

/-- The unit in the last place of the result: that of what is rounded, or the next where the significand, a power of
two, has carried. -/
theorem roundMag_ulp (hr : r = roundMag sign num den scale p rm) :
    r.sig = magSig sign num den p rm ∧ (2 : ℚ) ^ (r.exp - (p : Int) + 1) = magUnit num den scale p ∨
    magSig sign num den p rm = 2 ^ p ∧ r.sig = 2 ^ (p - 1) ∧
      (2 : ℚ) ^ (r.exp - (p : Int) + 1) = 2 * magUnit num den scale p := by
  rw [hr, roundMag_eq]
  dsimp only
  split
  next carry =>
    refine .inr ⟨carry, rfl, ?_⟩
    rw [magUnit, ← zpow_one_add₀ two_ne_zero, magShift]
    congr 1
    omega
  next =>
    refine .inl ⟨rfl, ?_⟩
    rw [magUnit, magShift]
    congr 1
    omega

/-- The result is the rounded quotient in units of the last place of what is rounded. -/
theorem roundMag_value (hp : 1 ≤ p) (hr : r = roundMag sign num den scale p rm) :
    (r.sig : ℚ) * (2 : ℚ) ^ (r.exp - (p : Int) + 1) = magSig sign num den p rm * magUnit num den scale p := by
  rcases roundMag_ulp hr with ⟨sig, ulp⟩ | ⟨carry, sig, ulp⟩
  · rw [sig, ulp]
  · have power : (2 : ℚ) ^ p = 2 ^ (p - 1) * 2 := by rw [← pow_succ, Nat.sub_add_cancel hp]
    rw [sig, ulp, carry]
    push_cast
    rw [power]
    ring

theorem roundMag_inexact (hr : r = roundMag sign num den scale p rm) :
    r.inexact = decide (0 < magNum num den p % magDen num den p) := by
  rw [hr, roundMag_eq]

theorem roundMag_up (hr : r = roundMag sign num den scale p rm) : r.up =
    roundsUp rm sign (magNum num den p / magDen num den p) (magNum num den p % magDen num den p)
      (magDen num den p) := by
  rw [hr, roundMag_eq]

end Rounded

/-! #### From the rounded natural to the rounded number -/

section Scaled

variable {q y u ulp : ℚ}

theorem scaled_truncated (hu : 0 < u) (coarser : u ≤ ulp) (h : q ≤ y ∧ y < q + 1) :
    q * u ≤ y * u ∧ y * u < q * u + ulp := by
  obtain ⟨below, near⟩ := h
  have step : y * u < (q + 1) * u := mul_lt_mul_of_pos_right near hu
  exact ⟨mul_le_mul_of_nonneg_right below hu.le, by linarith⟩

theorem scaled_away (hu : 0 < u) (coarser : u ≤ ulp) (h : y ≤ q ∧ q - 1 < y) :
    y * u ≤ q * u ∧ q * u - ulp < y * u := by
  obtain ⟨above, near⟩ := h
  have step : (q - 1) * u < y * u := mul_lt_mul_of_pos_right near hu
  exact ⟨mul_le_mul_of_nonneg_right above hu.le, by linarith⟩

theorem scaled_error (hu : 0 < u) : |q * u - y * u| = |q - y| * u := by
  rw [← sub_mul, abs_mul, abs_of_pos hu]

end Scaled

/-- Settles O51: the magnitude is rounded as a quotient of naturals, in units of its last place. -/
theorem roundingIsCorrect : Obligations.RoundingIsCorrect := by
  intro sign num den scale p rm r x v ulp hn hd hp hr hx hulp hv
  have unit := magUnit_pos num den scale p
  have denPos : 0 < magDen num den p := magDen_pos hd
  have ulpCases := roundMag_ulp hr
  have value := hv.trans (hulp ▸ roundMag_value (by omega) hr)
  rw [← magQuotient_mul_unit] at hx
  rw [← hulp] at ulpCases
  have coarser : magUnit num den scale p ≤ ulp := by
    rcases ulpCases with ⟨-, same⟩ | ⟨-, -, double⟩
    · exact same.ge
    · linarith only [double, unit]
  have truncated (h : Truncates rm sign) : v ≤ x ∧ x < v + ulp := by
    rw [value, hx]
    exact scaled_truncated unit coarser (roundDiv_of_truncates denPos h)
  have away (h : RoundsAway rm sign) : x ≤ v ∧ v - ulp < x := by
    rw [value, hx]
    exact scaled_away unit coarser (roundDiv_of_roundsAway denPos h)
  obtain ⟨sigLow, sigHigh⟩ := roundMag_sig_bounds hn hd (by omega) hr
  refine ⟨sigLow, sigHigh, ?_, ?_, fun zero => truncated (.inl zero), fun plus => ?_, fun minus => ?_, ?_⟩
  · rw [roundMag_inexact hr, decide_eq_true_iff, rest_pos_iff (rm := rm) (sign := sign) denPos, value, hx, ne_eq, ne_eq,
      mul_left_inj' unit.ne']
    exact Iff.rfl
  · rw [roundMag_up hr, roundsUp_iff_lt denPos, value, hx, mul_lt_mul_iff_left₀ unit]
    exact Iff.rfl
  · cases sign
    · exact away (.inl ⟨plus, rfl⟩)
    · exact truncated (.inr (.inl ⟨plus, rfl⟩))
  · cases sign
    · exact truncated (.inr (.inr ⟨minus, rfl⟩))
    · exact away (.inr ⟨minus, rfl⟩)
  · intro nearest
    subst nearest
    obtain ⟨near, tie⟩ := roundDiv_nearest (sign := sign) (n := magNum num den p) denPos
    have error : |v - x| = |(magSig sign num den p 0#2 : ℚ) - magNum num den p / magDen num den p| *
        magUnit num den scale p := by
      rw [value, hx]
      exact scaled_error unit
    have atMost : |v - x| ≤ magUnit num den scale p / 2 := by
      rw [error]
      exact (mul_le_mul_of_nonneg_right near unit.le).trans_eq (by ring)
    refine ⟨by linarith only [atMost, coarser], fun half => ?_⟩
    rcases ulpCases with ⟨sig, same⟩ | ⟨-, sig, double⟩
    · rw [sig]
      exact tie (mul_right_cancel₀ unit.ne' (error.symm.trans (by rw [half, same]; ring)))
    · exact absurd half (ne_of_lt (by linarith only [atMost, double, unit]))

/-! ### Rounded results (R305, R307) -/

/-- A significand at the top of 64 bits has its hidden bit set. -/
theorem hiddenBit_ofNat {k : Nat} (low : 2 ^ 63 ≤ k) (high : k < 2 ^ 64) : (BitVec.ofNat 64 k).getLsbD 63 = true := by
  have top : (BitVec.ofNat 64 k).msb = true := by
    rw [BitVec.msb_eq_decide, BitVec.toNat_ofNat, Nat.mod_eq_of_lt high]
    exact decide_eq_true low
  rwa [BitVec.msb_eq_getLsbD_last] at top

/-- A significand of `p` bits fills the top `p` of 64. -/
theorem aligned_bounds {sig p : Nat} (hp : 1 ≤ p) (wide : p ≤ 64) (low : 2 ^ (p - 1) ≤ sig) (high : sig < 2 ^ p) :
    2 ^ 63 ≤ sig * 2 ^ (64 - p) ∧ sig * 2 ^ (64 - p) < 2 ^ 64 := by
  have least : 2 ^ 63 = 2 ^ (p - 1) * 2 ^ (64 - p) := by
    rw [← pow_add]
    congr 1
    omega
  have most : 2 ^ 64 = 2 ^ p * 2 ^ (64 - p) := by
    rw [← pow_add]
    congr 1
    omega
  rw [least, most]
  exact ⟨Nat.mul_le_mul_right _ low, Nat.mul_lt_mul_of_pos_right high (by positivity)⟩

theorem classify_roundedResult {s : State} {fmt : FpFormat} {sg : Bool} {num den : Nat} {scale : Int} {r : Rounded}
    (hn : 0 < num) (hd : 0 < den) (hp : 1 ≤ fmt.prec) (wide : fmt.prec ≤ 64)
    (hr : r = roundMag sg num den scale fmt.prec (s.fpsw.extractLsb' 0 2)) (low : -65535 ≤ r.exp)
    (high : r.exp ≤ 65536) : classify (roundedResult s fmt sg num den scale).reg =
      some (.norm sg r.exp (BitVec.ofNat 64 (r.sig * 2 ^ (64 - fmt.prec)))) := by
  obtain ⟨sigLow, sigHigh⟩ := roundMag_sig_bounds hn hd hp hr
  obtain ⟨least, most⟩ := aligned_bounds hp wide sigLow sigHigh
  rw [← Nat.shiftLeft_eq] at least most ⊢
  subst hr
  exact classify_normReg s sg _ low high (hiddenBit_ofNat least most)

/-! ### Exact sums, products and quotients (R323) -/

theorem cast_natAbs_signed (n : Int) : (if decide (n < 0) then -1 else 1) * (n.natAbs : ℚ) = n := by
  rw [Nat.cast_natAbs, Int.cast_abs]
  split
  next negative =>
    rw [abs_of_neg (Int.cast_lt_zero.mpr (of_decide_eq_true negative)), neg_one_mul, neg_neg]
  next positive =>
    rw [abs_of_nonneg (Int.cast_nonneg (not_lt.mp (mt decide_eq_true positive))), one_mul]

theorem sign_mul (s1 s2 : Bool) :
    (if (s1 != s2) then -1 else 1 : ℚ) = (if s1 then -1 else 1) * (if s2 then -1 else 1) := by
  cases s1 <;> cases s2 <;> norm_num

theorem sign_div (s1 s2 : Bool) :
    (if (s1 != s2) then -1 else 1 : ℚ) = (if s1 then -1 else 1) / (if s2 then -1 else 1) := by
  cases s1 <;> cases s2 <;> norm_num

section Exact

variable (s : State) (s1 s2 : Bool) (e1 e2 : Int) (m1 m2 : BitVec 64)

/-- The exact sum of two numbers, in units of the smaller exponent. -/
def exactSum : Int :=
  signedMag s1 (scaleUp m1.toNat (e1 - min e1 e2)) + signedMag s2 (scaleUp m2.toNat (e2 - min e1 e2))

theorem addNumbers_norms : addNumbers s (.norm s1 e1 m1) (.norm s2 e2 m2) =
    if exactSum s1 s2 e1 e2 m1 m2 = 0 then plain (zeroReg s (zeroSumSign s))
    else roundedResult s fmtExtended (decide (exactSum s1 s2 e1 e2 m1 m2 < 0)) (exactSum s1 s2 e1 e2 m1 m2).natAbs 1
      (min e1 e2 - 63) := rfl

theorem exactSum_value : (exactSum s1 s2 e1 e2 m1 m2 : ℚ) * (2 : ℚ) ^ (min e1 e2 - 63) =
    (if s1 then -1 else 1) * (m1.toNat : ℚ) * (2 : ℚ) ^ (e1 - 63) +
      (if s2 then -1 else 1) * (m2.toNat : ℚ) * (2 : ℚ) ^ (e2 - 63) := by
  rw [exactSum, Int.cast_add, add_mul, scaled_value s1 m1 (min_le_left e1 e2), scaled_value s2 m2 (min_le_right e1 e2)]

theorem exactProduct_value : (if (s1 != s2) then -1 else 1) * ((m1.toNat * m2.toNat : ℕ) : ℚ) *
    (2 : ℚ) ^ (e1 + e2 - 126) = ((if s1 then -1 else 1) * (m1.toNat : ℚ) * (2 : ℚ) ^ (e1 - 63)) *
      ((if s2 then -1 else 1) * (m2.toNat : ℚ) * (2 : ℚ) ^ (e2 - 63)) := by
  have powers : (2 : ℚ) ^ (e1 + e2 - 126) = (2 : ℚ) ^ (e1 - 63) * (2 : ℚ) ^ (e2 - 63) := by
    rw [← zpow_add₀ two_ne_zero]
    congr 1
    omega
  rw [sign_mul, powers, Nat.cast_mul]
  ring

theorem exactQuotient_value : (if (s1 != s2) then -1 else 1) * ((m1.toNat : ℚ) / (m2.toNat : ℚ)) *
    (2 : ℚ) ^ (e1 - e2) = ((if s1 then -1 else 1) * (m1.toNat : ℚ) * (2 : ℚ) ^ (e1 - 63)) /
      ((if s2 then -1 else 1) * (m2.toNat : ℚ) * (2 : ℚ) ^ (e2 - 63)) := by
  have powers : (2 : ℚ) ^ (e1 - e2) = (2 : ℚ) ^ (e1 - 63) / (2 : ℚ) ^ (e2 - 63) := by
    rw [← zpow_sub₀ two_ne_zero]
    congr 1
    omega
  rw [sign_div, powers, div_mul_div_comm, div_mul_div_comm]

end Exact

theorem toNat_pos_of_ne {m : BitVec 64} (h : m ≠ 0#64) : 0 < m.toNat :=
  Nat.pos_of_ne_zero fun zero => h (BitVec.eq_of_toNat_eq zero)

/-- Settles O52: the results are `roundMag` of exact fractions, whose values are the sum, product and quotient. -/
theorem resultIsRoundedExactValue : Obligations.ResultIsRoundedExactValue := by
  refine ⟨fun s fmt sg num den scale r v hn hd hp wide hr hv => ?_,
    fun s s1 s2 e1 e2 m1 m2 x y nonzero1 nonzero2 hx hy => ?_⟩
  · have value := classify_roundedResult hn hd (by omega) wide hr
    subst hr hv
    exact ⟨rfl, rfl, value⟩
  · have positive1 := toNat_pos_of_ne nonzero1
    have positive2 := toNat_pos_of_ne nonzero2
    have sum : (exactSum s1 s2 e1 e2 m1 m2 : ℚ) * (2 : ℚ) ^ (min e1 e2 - 63) = x + y :=
      hx ▸ hy ▸ exactSum_value s1 s2 e1 e2 m1 m2
    have unit : (2 : ℚ) ^ (min e1 e2 - 63) ≠ 0 := zpow_ne_zero _ two_ne_zero
    have zeroSum : x + y = 0 ↔ exactSum s1 s2 e1 e2 m1 m2 = 0 := by
      rw [← sum, mul_eq_zero, or_iff_left unit, Int.cast_eq_zero]
    refine ⟨fun zero => ?_, fun nonzero => ?_, ?_, ?_⟩
    · rw [addNumbers_norms, if_pos (zeroSum.mp zero)]
      rfl
    · have sumNonzero := mt zeroSum.mpr nonzero
      refine ⟨_, _, _, Int.natAbs_pos.mpr sumNonzero, (addNumbers_norms s s1 s2 e1 e2 m1 m2).trans (if_neg sumNonzero),
        ?_⟩
      rw [cast_natAbs_signed, sum]
    · exact ⟨s1 != s2, _, _, Nat.mul_pos positive1 positive2, rfl, hx ▸ hy ▸ exactProduct_value s1 s2 e1 e2 m1 m2⟩
    · exact ⟨s1 != s2, _, _, _, positive1, positive2, rfl, hx ▸ hy ▸ exactQuotient_value s1 s2 e1 e2 m1 m2⟩

/-! ### FIX of a number (R306, R319) -/

section ToInteger

variable (s : State) (sg : Bool) (e : Int) (m : BitVec 64)

/-- The magnitude of the number as a quotient of naturals. -/
def fixNum : Nat := scaleUp m.toNat (e - 63)

def fixDen : Nat := scaleUp 1 (63 - e)

/-- The integer that FIX rounds to, before it is seen whether it fits. -/
def fixInt : Int := signedMag sg (roundDiv (roundingMode s) sg (fixNum e m) (fixDen e))

theorem fixResult_norm : fixResult s (.norm sg e m) =
    if outOfRange32 (fixInt s sg e m) then { reg := unknownReg s, flags := { noFlags with overflow := true } }
    else
      { reg := intImageReg s (BitVec.ofInt 32 (fixInt s sg e m))
        flags := { noFlags with inexact := decide (0 < fixNum e m % fixDen e) } } := rfl

theorem fixDen_pos : 0 < fixDen e := scaleUp_pos one_pos _

/-- The value of the number, as its sign and the quotient. -/
theorem fixQuotient_value : (if sg then -1 else 1) * ((fixNum e m : ℚ) / fixDen e) =
    (if sg then -1 else 1) * (m.toNat : ℚ) * (2 : ℚ) ^ (e - 63) := by
  have quotient := scaleUp_div m.toNat 1 (e - 63)
  rw [neg_sub, Nat.cast_one, div_one] at quotient
  rw [fixNum, fixDen, quotient, mul_assoc]

theorem cast_fixInt : (fixInt s sg e m : ℚ) =
    (if sg then -1 else 1) * (roundDiv (roundingMode s) sg (fixNum e m) (fixDen e) : ℚ) := cast_signedMag _ _

theorem signedMag_even {q : Nat} (sg : Bool) (even : q % 2 = 0) : signedMag sg q % 2 = 0 := by
  cases sg <;> simp only [signedMag] <;> omega

variable {s sg e m} {x : ℚ}

theorem fixInt_inexact (hx : x = (if sg then -1 else 1) * (m.toNat : ℚ) * (2 : ℚ) ^ (e - 63)) :
    0 < fixNum e m % fixDen e ↔ (fixInt s sg e m : ℚ) ≠ x := by
  have sign : (if sg then -1 else 1 : ℚ) ≠ 0 := by cases sg <;> norm_num
  rw [rest_pos_iff (rm := roundingMode s) (sign := sg) (fixDen_pos e), hx, ← fixQuotient_value, cast_fixInt, ne_eq,
    ne_eq, mul_right_inj' sign]

theorem fixInt_nearest (hx : x = (if sg then -1 else 1) * (m.toNat : ℚ) * (2 : ℚ) ^ (e - 63))
    (nearest : roundingMode s = 0#2) : |(fixInt s sg e m : ℚ) - x| ≤ 1 / 2 ∧
      (|(fixInt s sg e m : ℚ) - x| = 1 / 2 → fixInt s sg e m % 2 = 0) := by
  have sign : |(if sg then -1 else 1 : ℚ)| = 1 := by cases sg <;> norm_num
  obtain ⟨near, tie⟩ := roundDiv_nearest (sign := sg) (n := fixNum e m) (fixDen_pos e)
  rw [hx, ← fixQuotient_value, cast_fixInt, ← mul_sub, abs_mul, sign, one_mul, nearest]
  refine ⟨near, fun half => ?_⟩
  rw [fixInt, nearest]
  exact signedMag_even sg (tie half)

/-- To zero: the ceiling of a negative number, the floor of another. -/
theorem fixInt_of_truncates (hx : x = (if sg then -1 else 1) * (m.toNat : ℚ) * (2 : ℚ) ^ (e - 63))
    (h : Truncates (roundingMode s) sg) : fixInt s sg e m = if sg then ⌈x⌉ else ⌊x⌋ := by
  obtain ⟨below, near⟩ := roundDiv_of_truncates (n := fixNum e m) (fixDen_pos e) h
  have cast := cast_fixInt s sg e m
  rw [← fixQuotient_value] at hx
  split
  next negative =>
    rw [if_pos negative] at hx cast
    exact (Int.ceil_eq_iff.mpr ⟨by linarith, by linarith⟩).symm
  next positive =>
    rw [if_neg positive] at hx cast
    exact (Int.floor_eq_iff.mpr ⟨by linarith, by linarith⟩).symm

theorem fixInt_of_roundsAway (hx : x = (if sg then -1 else 1) * (m.toNat : ℚ) * (2 : ℚ) ^ (e - 63))
    (h : RoundsAway (roundingMode s) sg) : fixInt s sg e m = if sg then ⌊x⌋ else ⌈x⌉ := by
  obtain ⟨above, near⟩ := roundDiv_of_roundsAway (n := fixNum e m) (fixDen_pos e) h
  have cast := cast_fixInt s sg e m
  rw [← fixQuotient_value] at hx
  split
  next negative =>
    rw [if_pos negative] at hx cast
    exact (Int.floor_eq_iff.mpr ⟨by linarith, by linarith⟩).symm
  next positive =>
    rw [if_neg positive] at hx cast
    exact (Int.ceil_eq_iff.mpr ⟨by linarith, by linarith⟩).symm

/-- A number that is an integer is the integer that FIX gives, whatever the mode. -/
theorem fixInt_of_integer {z : Int} (hz : (z : ℚ) = (if sg then -1 else 1) * (m.toNat : ℚ) * (2 : ℚ) ^ (e - 63)) :
    fixInt s sg e m = z := by
  rcases mode_cases (roundingMode s) sg with nearest | truncates | away
  · obtain ⟨near, -⟩ := fixInt_nearest hz nearest
    rw [← Int.cast_sub, ← Int.cast_abs] at near
    have close : |fixInt s sg e m - z| < 1 := by
      rw [← Int.cast_lt (R := ℚ)]
      exact near.trans_lt (by norm_num)
    exact sub_eq_zero.mp (Int.abs_lt_one_iff.mp close)
  · rw [fixInt_of_truncates hz truncates, Int.ceil_intCast, Int.floor_intCast, ite_self]
  · rw [fixInt_of_roundsAway hz away, Int.ceil_intCast, Int.floor_intCast, ite_self]

/-- What FIX gives: the integer where it fits 32 bits, and the flag of what it cost; the overflow flag elsewhere. -/
theorem fixResult_of (hx : x = (if sg then -1 else 1) * (m.toNat : ℚ) * (2 : ℚ) ^ (e - 63)) :
    if -2147483648 ≤ fixInt s sg e m ∧ fixInt s sg e m ≤ 2147483647 then
      (fixResult s (.norm sg e m)).reg.frac = BitVec.ofInt 32 (fixInt s sg e m) ++ 0#32 ∧
      (fixResult s (.norm sg e m)).flags = { noFlags with inexact := decide ((fixInt s sg e m : ℚ) ≠ x) }
    else (fixResult s (.norm sg e m)).flags = { noFlags with overflow := true } := by
  rw [fixResult_norm]
  split
  next fits =>
    rw [(outOfRange32_eq_false _).mpr fits, decide_eq_decide.mpr (fixInt_inexact hx).symm]
    exact ⟨rfl, rfl⟩
  next beyond =>
    have out : outOfRange32 (fixInt s sg e m) = true := (outOfRange32_eq_true _).mpr (by omega)
    rw [out]
    rfl

end ToInteger

/-! ### FLOAT (R306, R318) -/

section FromInteger

variable (s : State) {w : Word}

/-- The exponent of an integer. -/
def intExp (w : Word) : Nat := Nat.log2 w.toInt.natAbs

/-- Its magnitude at the top of F. -/
def intFrac (w : Word) : BitVec 64 := BitVec.ofNat 64 (w.toInt.natAbs * 2 ^ (63 - intExp w))

theorem toInt_natAbs_pos (nonzero : w ≠ 0#32) : 0 < w.toInt.natAbs := by
  rw [Int.natAbs_pos]
  exact fun zero => nonzero (BitVec.eq_of_toInt_eq zero)

theorem intExp_bounds (nonzero : w ≠ 0#32) :
    intExp w ≤ 31 ∧ 2 ^ intExp w ≤ w.toInt.natAbs ∧ w.toInt.natAbs < 2 ^ (intExp w + 1) := by
  have positive := toInt_natAbs_pos nonzero
  have most : w.toInt.natAbs < 2 ^ 32 := by
    have := BitVec.toInt_lt (x := w)
    have := BitVec.le_toInt (x := w)
    omega
  exact ⟨Nat.le_of_lt_succ ((Nat.log2_lt positive.ne').mpr most), Nat.log2_self_le positive.ne', Nat.lt_log2_self⟩

theorem intFrac_bounds (nonzero : w ≠ 0#32) :
    2 ^ 63 ≤ w.toInt.natAbs * 2 ^ (63 - intExp w) ∧ w.toInt.natAbs * 2 ^ (63 - intExp w) < 2 ^ 64 := by
  obtain ⟨small, low, high⟩ := intExp_bounds nonzero
  have aligned := aligned_bounds (sig := w.toInt.natAbs) (p := intExp w + 1) (by omega) (by omega) low high
  have places : 64 - (intExp w + 1) = 63 - intExp w := by omega
  rwa [places] at aligned

theorem classify_intToFp (nonzero : w ≠ 0#32) :
    classify (intToFp s w) = some (.norm (decide (w.toInt < 0)) (intExp w) (intFrac w)) := by
  obtain ⟨low, high⟩ := intFrac_bounds nonzero
  obtain ⟨small, -, -⟩ := intExp_bounds nonzero
  have made : intToFp s w = normReg s (decide (w.toInt < 0)) (intExp w) (intFrac w) rtagExact := by
    rw [intToFp, if_neg nonzero, intFrac, ← Nat.shiftLeft_eq]
    rfl
  rw [made]
  exact classify_normReg s _ _ (by omega) (by omega) (hiddenBit_ofNat low high)

theorem intToFp_value (nonzero : w ≠ 0#32) : (if decide (w.toInt < 0) then -1 else 1) * ((intFrac w).toNat : ℚ) *
    (2 : ℚ) ^ ((intExp w : Int) - 63) = (w.toInt : ℚ) := by
  obtain ⟨-, high⟩ := intFrac_bounds nonzero
  obtain ⟨small, -, -⟩ := intExp_bounds nonzero
  have powers : (2 : ℚ) ^ (63 - intExp w) * (2 : ℚ) ^ ((intExp w : Int) - 63) = 1 := by
    rw [← zpow_natCast, ← zpow_add₀ two_ne_zero, ← zpow_zero (2 : ℚ)]
    congr 1
    omega
  rw [intFrac, BitVec.toNat_ofNat, Nat.mod_eq_of_lt high, ← cast_natAbs_signed w.toInt, Nat.cast_mul, Nat.cast_pow,
    Nat.cast_ofNat, mul_assoc, mul_assoc, powers, mul_one]

theorem classify_intToFp_zero : classify (intToFp s 0#32) = some (.zero false) := rfl

/-- FIX of what FLOAT made (R318, R319). -/
theorem fixResult_intToFp {v : FpVal} (value : classify (intToFp s w) = some v) :
    (fixResult s v).reg.frac = w ++ 0#32 ∧ (fixResult s v).flags = noFlags := by
  by_cases zero : w = 0#32
  · rw [zero, classify_intToFp_zero] at value
    cases value
    rw [zero]
    exact ⟨rfl, rfl⟩
  · rw [classify_intToFp s zero] at value
    cases value
    have again := fixResult_of (s := s) (intToFp_value zero).symm
    rw [fixInt_of_integer (intToFp_value zero).symm] at again
    have most := BitVec.toInt_lt (x := w)
    have least := BitVec.le_toInt (x := w)
    rw [if_pos ⟨by omega, by omega⟩, BitVec.ofInt_toInt] at again
    simpa [noFlags] using again

end FromInteger

/-- Settles O53: FLOAT is exact, and FIX rounds the quotient that the number is. -/
theorem integerConversion : Obligations.IntegerConversion := by
  refine ⟨fun s w => ⟨fun zero => zero ▸ classify_intToFp_zero s, fun nonzero => ?_⟩,
    fun s w v value => fixResult_intToFp s value, fun s sg e m x hx => ?_⟩
  · exact ⟨_, _, _, classify_intToFp s nonzero, intToFp_value nonzero⟩
  · refine ⟨fixInt s sg e m, fixInt_nearest hx, fun zero => fixInt_of_truncates hx (.inl zero), fun plus => ?_,
      fun minus => ?_, fixResult_of hx⟩
    · cases sg
      · exact fixInt_of_roundsAway hx (.inl ⟨plus, rfl⟩)
      · exact fixInt_of_truncates hx (.inr (.inl ⟨plus, rfl⟩))
    · cases sg
      · exact fixInt_of_truncates hx (.inr (.inr ⟨minus, rfl⟩))
      · exact fixInt_of_roundsAway hx (.inr ⟨minus, rfl⟩)

end Sys2Proof.Proofs.FpuRounding

/-! Proofs of the family spec/60_exceptions.md: trap entry and its precision, the ways into kernel mode, interrupts. -/

namespace Sys2Proof.Proofs.Exceptions

open Sys2Proof Sys2Proof.Machine Sys2Proof.Safety Sys2Proof.Laws
open Sys2Proof.Proofs.Encoding Sys2Proof.Proofs.Stores Sys2Proof.Proofs.CallJump Sys2Proof.Proofs.SpecialRegs

/-! ### Kernel mode from user mode (R353, R284) -/

/-- An instruction that starts in user mode and ends in kernel mode has taken a trap, or it is the CALL_KERNEL whose
transfer waits for its slot: a return can only clear the mode. -/
theorem instrEnd_entersKernel {b : Bool} {u t : State} (ended : InstrEnd b u t) (user : kpswMode u = false)
    (kernel : kpswMode t = true) : (∃ tt, t.pc = trapVector tt) ∨ t.nextPC = 0x1000#32 := by
  rcases ended with ⟨tt, v, rfl, -⟩ | completed
  · exact .inl ⟨tt, takeTrap_pc tt v⟩
  · exact .inr ((completed.kpsw user).2 kernel)

theorem kpswMode_congr {s t : State} (h : t.kpsw = s.kpsw) : kpswMode t = kpswMode s :=
  congrArg (BitVec.getLsbD · 4) h

/-- Settles O10: neither the fetch nor the end of the step changes KPSW, PC or next PC. -/
theorem kernelEntryAtKnownPlace : Obligations.KernelEntryAtKnownPlace := by
  intro s t h user kernel
  obtain ⟨t0, ticked, u, fetched, b, ended⟩ := step_inst h
  rw [ticked.pc, ticked.nextPC]
  exact instrEnd_entersKernel ended ((kpswMode_congr fetched.kpsw).trans user)
    ((kpswMode_congr ticked.kpsw).symm.trans kernel)

/-! ### Traps are precise (R350, R352) -/

/-- A trap moves to the window after that of the instruction and writes R10 there, wherever its access has got to. -/
theorem takeTrap_keepsRegs_of_trapReady {b : Bool} {s u : State} (ready : TrapReady b s u) (tt : TrapType) :
    KeepsRegs s (takeTrap tt u) [physReg (s.cwp + 1#3) 10#5] := by
  rw [← ready.cwp]
  exact fun r hr => (takeTrap_regs tt u r hr).trans (regGet_congr ready.globals ready.windows r)

theorem takeTrap_keepsStatus_of_trapReady {b : Bool} {s u : State} (ready : TrapReady b s u) (tt : TrapType) :
    KeepsStatus s (takeTrap tt u) :=
  ⟨(takeTrap_upsw tt u).trans ready.upsw, (takeTrap_swp tt u).trans ready.swp,
    (takeTrap_insert tt u).trans ready.insert⟩

/-- An instruction that ends at a trap vector has taken a trap, from a state in which it had written no register:
no other end sets the mark. -/
theorem instrEnd_trapped {b : Bool} {s t : State} (ended : InstrEnd b s t) (vector : t.pipe.atVector = true) :
    ∃ tt u, t = takeTrap tt u ∧ TrapReady b s u := by
  rcases ended with trapped | completed
  · exact trapped
  · rw [completed.atVector] at vector
    cases vector

/-- Settles O12: what the trap saves and keeps is that of the state in which it is taken, and this is the
instruction's own. -/
theorem trapsArePrecise : Obligations.TrapsArePrecise := by
  intro i s t h vector
  obtain ⟨tt, u, rfl, ready⟩ := instrEnd_trapped (exec_inst h) vector
  exact ⟨(takeTrap_trapPC tt u).trans ready.pc, (takeTrap_trapNextPC tt u).trans ready.nextPC,
    (takeTrap_cwp tt u).trans (congrArg (· + 1#3) ready.cwp), takeTrap_keepsRegs_of_trapReady ready tt,
    takeTrap_keepsStatus_of_trapReady ready tt, (takeTrap_fregs tt u).trans ready.fregs,
    (takeTrap_fpsw tt u).trans ready.fpsw, (takeTrap_fpuPc tt u).trans ready.fpuPc, tt, takeTrap_pc tt u⟩

/-! ### Interrupts (R371, R372, R182) -/

/-- 0xF<id>0xxxxx, read off its three fields (R371). -/
theorem isInterruptAddr_of {pa : Word} {id : BitVec 4} (space : pa.extractLsb' 28 4 = 0xF#4)
    (slot : pa.extractLsb' 24 4 = id) (low : pa.extractLsb' 20 4 = 0#4) : isInterruptAddr pa id = true := by
  have top : pa.extractLsb' 24 8 = pa.extractLsb' 28 4 ++ pa.extractLsb' 24 4 :=
    (BitVec.extractLsb'_append_extractLsb'_eq_extractLsb' (len₁ := 4) (len₂ := 4) rfl).symm
  simp [isInterruptAddr, inSlot, top, space, slot, low]

theorem setInterrupt_getLsbD (r pa : Word) (n : Nat) :
    (setInterrupt r pa).getLsbD n = (r.getLsbD n || decide (n = (pa.extractLsb' 2 4).toNat)) := by
  have inWord : (pa.extractLsb' 2 4).toNat < 32 := lt_trans (pa.extractLsb' 2 4).isLt (by decide)
  have set : setInterrupt r pa = setBit r (pa.extractLsb' 2 4).toNat true := rfl
  rw [set, setBit_getLsbD_of_lt r inWord]
  split
  next same => rw [decide_eq_true same, Bool.or_true]
  next other => rw [decide_eq_false other, Bool.or_false]

theorem deliverInterrupt_intreg {pa : Word} {s : State} (own : isInterruptAddr pa s.board.slot = true) :
    (deliverInterrupt pa s).intreg = setInterrupt s.intreg pa := by
  rw [deliverInterrupt, if_pos own]

/-- A store of this node to its own interrupt address is delivered as another master's write is; the data is not
used. -/
theorem busWrite_ownInterrupt {pa : Word} {s : State} (own : isInterruptAddr pa s.board.slot = true) (w : Word) :
    busWrite s pa w = .done () (deliverInterrupt pa s) := by
  have inSpace : inSlot pa s.board.slot = true := (Bool.and_eq_true _ _ ▸ own).1
  have answers : responder s pa = .ownInterrupts := by rw [responder, if_pos inSpace, if_pos own]
  rw [busWrite, answers, deliverInterrupt, if_pos own]

/-- The end of a store whose access has changed INTREG alone. -/
theorem advance_intreg_frame (s : State) (r : Word) :
    OnlyRegs { s with intreg := r } (advance { s with intreg := r }) [] ∧
      Sequential s (advance { s with intreg := r }) Pipe.idle :=
  ⟨advance_only _, { advance_sequential { s with intreg := r } with }⟩

theorem interruptReady_of {s : State} (line : s.intreg &&& s.intmask ≠ 0#32) (intEn : kpswIntEn s = true)
    (allEn : kpswAllEn s = true) : interruptReady s = true := by
  simp [interruptReady, interruptLine, line, intEn, allEn]

theorem stepWord_interrupt {w : Word} {s : State} (ready : interruptReady s = true) :
    stepWord w s = .next (takeTrap .interrupt s) := by
  rw [stepWord, if_pos ready]

/-- Settles O7: a request from the bus and one from this node are the same delivery, and the step looks for an
interrupt before it looks at the word fetched. -/
theorem interrupts : Obligations.Interrupts := by
  refine ⟨fun s pa space slot low n _ => ?_, fun s s1 w runs fetched line intEn allEn => ?_,
    fun s s2 s1 sc a ha notAfterTas physical space slot low => ?_⟩
  · rw [deliverInterrupt_intreg (isInterruptAddr_of space slot low), setInterrupt_getLsbD]
  · have taken := stepWord_interrupt (w := w) (interruptReady_of line intEn allEn)
    exact ⟨_, (step_fetched runs fetched).trans (congrArg onTick taken), takesTrapOnly_takeTrap .interrupt s1⟩
  · subst ha
    have own := isInterruptAddr_of space slot low
    have store := st32_isWordStore s2 s1 sc notAfterTas
    have ends := store.done physical (busWrite_ownInterrupt own _)
    rw [deliverInterrupt, if_pos own] at ends
    obtain ⟨only, next⟩ := advance_intreg_frame s (setInterrupt s.intreg (alignWord (eaStore s s1 sc)))
    exact ⟨_, ends, only, next, fun n _ => setInterrupt_getLsbD _ _ n⟩

/-! ### Trap entry (R330, R342, R352, R353) -/

theorem trapVector_eq (tt : TrapType) :
    trapVector tt = BitVec.ofNat 32 (0x1000 + 16 * (trapNumber tt).toNat) := by
  cases tt <;> rfl

theorem pendingTrap_eq (s : State) :
    pendingTrap s = if s.fpuExcKind = .integerOverflow then .integerOverflow else .floatingPoint := by
  cases kind : s.fpuExcKind with
  | floatingPoint => exact pendingTrap_floatingPoint kind
  | integerOverflow => exact pendingTrap_integerOverflow kind

/-- Settles O55: the pending exception is the one thing cleared beside what `takeTrap` does, and before it. -/
theorem trapEntry : Obligations.TrapEntry := by
  refine ⟨⟨trapVector_eq, rfl, rfl, rfl, rfl, rfl, rfl, rfl, rfl, rfl, rfl, rfl, rfl, rfl, rfl, rfl⟩,
    fun tt s _ => takesTrapOnly_takeTrap tt s, fun s k tt taken type => ?_⟩
  rw [← pendingTrap_eq] at type
  subst type
  exact ⟨_, withPending_on taken k, takeTrap_fpuExcep _ _, takesTrapOnly_takeTrap _ _⟩

end Sys2Proof.Proofs.Exceptions

/-! Proofs of the family spec/80_spurbus.md: arbitration settles to the highest number. -/

namespace Sys2Proof.Proofs.SpurBus

open Sys2Proof Sys2Proof.Machine

/-! ### The winner of a wave is its largest number -/

theorem waveWinner_cons_isSome (id : BitVec 4) (ids : List (BitVec 4)) : ∃ m, waveWinner (id :: ids) = some m := by
  rw [waveWinner]
  split
  · exact ⟨_, rfl⟩
  · split <;> exact ⟨_, rfl⟩

theorem waveWinner_eq_none {ids : List (BitVec 4)} (h : waveWinner ids = none) : ids = [] := by
  cases ids with
  | nil => rfl
  | cons id ids =>
    obtain ⟨m, hm⟩ := waveWinner_cons_isSome id ids
    exact absurd (hm.symm.trans h) (Option.some_ne_none m)

/-- What `waveWinner` answers is a maximum of the wave. -/
theorem waveWinner_isMax {ids : List (BitVec 4)} {m : BitVec 4} (won : waveWinner ids = some m) :
    m ∈ ids ∧ ∀ id ∈ ids, id ≤ m := by
  induction ids generalizing m with
  | nil => cases won
  | cons id ids ih =>
    rw [waveWinner] at won
    split at won
    next restEmpty =>
      obtain rfl := Option.some.inj won
      simp [waveWinner_eq_none restEmpty]
    next best restWinner =>
      obtain ⟨mem, max⟩ := ih restWinner
      split at won
      next less =>
        obtain rfl := Option.some.inj won
        exact ⟨List.mem_cons_self, List.forall_mem_cons.2
          ⟨BitVec.le_refl _, fun x hx => BitVec.le_trans (max x hx) (Nat.le_of_lt less)⟩⟩
      next notLess =>
        obtain rfl := Option.some.inj won
        exact ⟨List.mem_cons_of_mem _ mem, List.forall_mem_cons.2 ⟨Nat.le_of_not_lt notLess, max⟩⟩

/-! ### One pass of the lines -/

/-- A bus of four lines is looked at line by line. -/
theorem forall_line_iff (line : BitVec 4) (P : Nat → Prop) :
    (∀ j, line.getLsbD j = true → P j) ↔
      (line.getLsbD 0 = true → P 0) ∧ (line.getLsbD 1 = true → P 1) ∧ (line.getLsbD 2 = true → P 2) ∧
        (line.getLsbD 3 = true → P 3) := by
  refine ⟨fun h => ⟨h 0, h 1, h 2, h 3⟩, fun ⟨h0, h1, h2, h3⟩ j hj => ?_⟩
  match j, BitVec.lt_of_getLsbD hj with
  | 0, _ => exact h0 hj
  | 1, _ => exact h1 hj
  | 2, _ => exact h2 hj
  | 3, _ => exact h3 hj

/-- Four drivers side by side, the one of line 3 first. -/
theorem fourDrivers_getElem (d3 d2 d1 d0 : Bool) :
    let drivers : BitVec 4 := BitVec.ofBool d3 ++ BitVec.ofBool d2 ++ BitVec.ofBool d1 ++ BitVec.ofBool d0
    drivers[0] = d0 ∧ drivers[1] = d1 ∧ drivers[2] = d2 ∧ drivers[3] = d3 := by
  revert d3 d2 d1 d0
  decide

/-- A board has not lost on a line: it has the bit, or the line is not asserted. -/
theorem notLost_iff (bit line : Bool) : (bit = true ∨ line = false) ↔ (line = true → bit = true) := by
  cases line <;> simp

/-- The source's equations for the four drivers (R445), read alike: a contending board drives a bit of its number while
no higher line is asserted that its number does not have. -/
theorem arbDrive_getLsbD_iff (id line : BitVec 4) (k : Nat) :
    (arbDrive true id line).getLsbD k = true ↔
      id.getLsbD k = true ∧ ∀ j, line.getLsbD j = true → k < j → id.getLsbD j = true := by
  rw [forall_line_iff]
  match k with
  | 0 | 1 | 2 | 3 => simp [arbDrive, fourDrivers_getElem, notLost_iff, and_comm, and_left_comm]
  | k + 4 => simp

/-- The lines are open-collector (R431): each is asserted if one contending board drives it. -/
theorem arbLines_getLsbD_iff (ids : List (BitVec 4)) (line : BitVec 4) (k : Nat) :
    (arbLines ids line).getLsbD k = true ↔ ∃ id ∈ ids, (arbDrive true id line).getLsbD k = true := by
  have wiredOr (acc : BitVec 4) : (ids.foldl (fun acc id => acc ||| arbDrive true id line) acc).getLsbD k = true ↔
      acc.getLsbD k = true ∨ ∃ id ∈ ids, (arbDrive true id line).getLsbD k = true := by
    induction ids generalizing acc with
    | nil => simp
    | cons id ids ih => simp [ih, or_assoc]
  simpa [arbLines] using wiredOr 0#4

/-- A number no larger than `m` that has every bit of `m` above bit `k` has bit `k` only where `m` has it. -/
theorem getLsbD_of_le {id m : BitVec 4} {k : Nat} (le : id ≤ m) (bit : id.getLsbD k = true)
    (above : ∀ j, k < j → m.getLsbD j = true → id.getLsbD j = true) : m.getLsbD k = true := by
  have upper : m.toNat >>> k ≤ id.toNat >>> k := Nat.le_of_testBit fun i hi => by
    rw [Nat.testBit_shiftRight, BitVec.testBit_toNat] at hi ⊢
    cases i with
    | zero => exact bit
    | succ i => exact above _ (by omega) hi
  have lower : id.toNat >>> k ≤ m.toNat >>> k := by
    simpa only [Nat.shiftRight_eq_div_pow] using Nat.div_le_div_right le
  have same : (m.toNat >>> k).testBit 0 = (id.toNat >>> k).testBit 0 := by rw [Nat.le_antisymm upper lower]
  simpa only [Nat.testBit_shiftRight, BitVec.testBit_toNat, Nat.add_zero, bit] using same

/-- The lines from line `n` up show the number `m`. -/
def ShowsFrom (n : Nat) (m line : BitVec 4) : Prop := ∀ j, n ≤ j → line.getLsbD j = m.getLsbD j

theorem showsFrom_four (m line : BitVec 4) : ShowsFrom 4 m line := fun j hj => by
  rw [BitVec.getLsbD_of_ge _ _ hj, BitVec.getLsbD_of_ge _ _ hj]

theorem eq_of_showsFrom_zero {m line : BitVec 4} (h : ShowsFrom 0 m line) : line = m :=
  BitVec.eq_of_getLsbD_eq fun j _ => h j (Nat.zero_le j)

/-- In one pass the largest number shows on one line more, and no other board asserts a line there that it does
not have. -/
theorem ShowsFrom.pass {n : Nat} {ids : List (BitVec 4)} {m line : BitVec 4} (mem : m ∈ ids)
    (max : ∀ id ∈ ids, id ≤ m) (shown : ShowsFrom (n + 1) m line) : ShowsFrom n m (arbLines ids line) := by
  intro k hk
  rw [Bool.eq_iff_iff, arbLines_getLsbD_iff]
  constructor
  · rintro ⟨id, contends, drives⟩
    obtain ⟨bit, notLost⟩ := (arbDrive_getLsbD_iff id line k).1 drives
    exact getLsbD_of_le (max id contends) bit fun j hj hm => notLost j ((shown j (by omega)).trans hm) hj
  · intro bit
    exact ⟨m, mem, (arbDrive_getLsbD_iff m line k).2 ⟨bit, fun j hl hj => (shown j (by omega)).symm.trans hl⟩⟩

/-- Lines that show the number from line `n` up do so from every higher line. -/
theorem ShowsFrom.mono {n k : Nat} {m line : BitVec 4} (shown : ShowsFrom n m line) (le : n ≤ k) :
    ShowsFrom k m line := fun j hj => shown j (le.trans hj)

/-- Four passes, from the highest line down, show the largest number, and the fifth keeps it. -/
theorem arbSettled_eq {ids : List (BitVec 4)} {m : BitVec 4} (mem : m ∈ ids) (max : ∀ id ∈ ids, id ≤ m) :
    arbSettled ids = m := by
  have fourPasses : ShowsFrom 0 m (arbLines ids (arbLines ids (arbLines ids (arbLines ids 0#4)))) :=
    ((((showsFrom_four m 0#4).pass mem max).pass mem max).pass mem max).pass mem max
  exact eq_of_showsFrom_zero ((fourPasses.mono (Nat.zero_le 1)).pass mem max)

/-- Settles O59: the winner of the wave is its largest number, and the lines settle to that one. -/
theorem arbitrationHighestWins : Obligations.ArbitrationHighestWins := by
  intro id ids
  obtain ⟨m, won⟩ := waveWinner_cons_isSome id ids
  obtain ⟨mem, max⟩ := waveWinner_isMax won
  rw [won, arbSettled_eq mem max]

end Sys2Proof.Proofs.SpurBus
